-- ==== Sys2Proof/Word.lean ====
section
/-! DEFINITION. The words of the Mirfen 2416: what the manual treats as bits is a bit vector, everything it counts,
names or compares as a quantity is a natural number or an integer (00.6, Chapter 11). -/

namespace Sys2Proof

/-- One byte of a frame (Chapter 11). -/
abbrev Byte := BitVec 8

/-- A 32-bit stream label or mask, compared bit by bit (R48, R49). -/
abbrev Label := BitVec 32

/-- An 8-bit content class or selector value, compared by its leading bits (R50). -/
abbrev ContentClass := BitVec 8

/-- A 16-bit delivery sequence number, counting modulo 65,536 (R102). -/
abbrev SeqNo := BitVec 16

/-- A latency band of a track, 0 to 3 (Table 0-2). -/
abbrev Band := Fin 4

end Sys2Proof
end

