-- ==== Sys2Proof/Config.lean ====
section
/-! DEFINITION. What one part fixes and the manual does not: the ports' own addresses, the choice among events that the
manual takes "in either order", and the place a summary code of 0 is returned with. Each is a free value: it has no body, so
no proof can lean on it. -/

namespace Sys2Proof

/-- The content port's own station address, "fixed in the part and unchanged by any reset" (section 11.3). The manual
gives no value. Log entry 20. -/
opaque Config.contentPortAddress : Nat

/-- The delivery port's own station address (section 11.3). Log entry 20. -/
opaque Config.deliveryPortAddress : Nat

/-- Which of several events that are due at one engine time is taken first, by the number of such choices made before:
the manual takes them "in either order" (R12, R28, R129, R130). Log entry 3. -/
opaque Config.dueChoice : Nat → Nat

/-- The summary scope returned when no flag is set: R168 gives code 0 and no flag to take a scope from. Log entry 36. -/
opaque Config.noFlagScope : Nat

/-- The summary instance returned when no flag is set (R168). Log entry 36. -/
opaque Config.noFlagInstance : Nat

end Sys2Proof
end

