-- ==== Sys2Proof/Syntax.lean ====
section
/-! DEFINITION. The steps of the part: one constructor of `Instr` for each row of spec/opcode_table.json, with the frame
bodies of Chapter 11 as their operands. -/

namespace Sys2Proof

/-- The two Ethernet ports (00.1). -/
inductive Port where
  | content
  | delivery
  deriving DecidableEq, Repr

/-- A frame as a port receives it: whether its frame check sequence is right, its Ethernet type, and the bytes after the
type, padding included (R176). -/
structure RawFrame where
  fcsOk : Bool
  etherType : Nat
  data : List Byte
  deriving DecidableEq, Repr

/-- A parameter item of a CONTROL body or a data item of a RESULT: id, and the value's bytes; its length field is the
number of those bytes (Table 11-6, R177, R179). -/
structure Item where
  id : Nat
  value : List Byte
  deriving DecidableEq, Repr

/-- A SHOWTIME body (Table 11-3). The status is the byte as sent: 1 PLAYING, 2 PAUSED, 3 STOPPED. -/
structure ShowtimeFrame where
  auditorium : Nat
  server : Nat
  status : Nat
  serverTime : Nat
  composition : Nat
  deriving DecidableEq, Repr

/-- A CUE body (Table 11-4): the fixed part, and in `tail` the bytes of the body behind it, which hold the text and the
speaker label only when the lengths agree (R71). -/
structure CueBody where
  label : Label
  cls : ContentClass
  region : Nat
  number : Nat
  ts : Nat
  te : Nat
  textLen : Nat
  speakerLen : Nat
  tail : List Byte
  deriving DecidableEq, Repr

/-- A BLOCK body (Table 11-5): the fixed part, and in `tail` the bytes of the body behind it (R87). -/
structure BlockBody where
  label : Label
  seq : Nat
  tp : Nat
  duration : Nat
  payloadLen : Nat
  tail : List Byte
  deriving DecidableEq, Repr

/-- A CONTROL body (Table 11-6). -/
structure ControlFrame where
  tag : Nat
  code : Nat
  items : List Item
  deriving DecidableEq, Repr

/-- A JOIN body (Table 11-11): kind 1 caption, 2 description; language 0 any. -/
structure JoinFrame where
  handle : Nat
  auditorium : Nat
  kind : Nat
  language : Nat
  band : Nat
  deriving DecidableEq, Repr

/-- A LEAVE body (Table 11-11). -/
structure LeaveFrame where
  handle : Nat
  auditorium : Nat
  deriving DecidableEq, Repr

/-- A REPORT body (Table 11-11). -/
structure ReportFrame where
  handle : Nat
  auditorium : Nat
  track : Nat
  highest : Nat
  missed : Nat
  deriving DecidableEq, Repr

/-- The steps of the part, one constructor per row of the table. `t` is the engine time at which the step is taken; for a
frame, `ea` is the arrival engine time that its port stamps on it (R25) and `src` the station address it came from
(R176). The run of a command has no other operand: it takes the command at the head of MGU's queue (R164). -/
inductive Instr where
  | powerOn
  | engineReset (t : Nat)
  | resetCompletion (t : Nat)
  | contentLinkDown (t : Nat)
  | contentLinkUp (t : Nat)
  | deliveryLinkDown (t : Nat)
  | deliveryLinkUp (t : Nat)
  | frameDiscarded (t : Nat) (port : Port) (frame : RawFrame)
  | showtime (ea : Nat) (frame : ShowtimeFrame)
  | cue (ea src : Nat) (body : CueBody)
  | block (ea src : Nat) (body : BlockBody)
  | copyOffer (t : Nat)
  | control (ea src : Nat) (frame : ControlFrame)
  | join (ea : Nat) (frame : JoinFrame)
  | leave (ea : Nat) (frame : LeaveFrame)
  | report (ea : Nat) (frame : ReportFrame)
  | flowControlPause (ea quanta : Nat)
  | pauseWindowClose (t : Nat)
  | holdoverExpiry (t auditorium : Nat)
  | lostExpiry (t auditorium : Nat)
  | releaseInstant (t track : Nat) (band : Band)
  | currentCueRetirement (t track : Nat)
  | beaconExpiry (t auditorium : Nat)
  | reportWindowExpiry (t index : Nat)
  | holdExpiry (t index : Nat)
  | generationDeadlineCue (t auditorium : Nat)
  | generationDeadlineBlock (t auditorium : Nat)
  | transmissionCompletion (t : Nat)
  | controllerSet (t : Nat)
  | filterWrite (t : Nat)
  | filterRead (t : Nat)
  | maskWrite (t : Nat)
  | auditoriumOpen (t : Nat)
  | auditoriumSet (t : Nat)
  | auditoriumClose (t : Nat)
  | bandSet (t : Nat)
  | trackBind (t : Nat)
  | trackSet (t : Nat)
  | trackUnbind (t : Nat)
  | clockRead (t : Nat)
  | rotationSet (t : Nat)
  | houseCheckStart (t : Nat)
  | houseCheckStop (t : Nat)
  | houseCheckRead (t : Nat)
  | statusRead (t : Nat)
  | statusClear (t : Nat)
  | alertEnable (t : Nat)
  | statisticsSnapshot (t : Nat)
  | statisticsRead (t : Nat)
  | subscriptionRead (t : Nat)
  | deviceDetach (t : Nat)
  | unknownCommand (t : Nat)
  deriving DecidableEq, Repr

end Sys2Proof
end

