-- ==== Sys2Proof/Decode.lean ====
section
/-! DEFINITION. The part decodes no instruction words: no row of spec/opcode_table.json has bits, since its steps are
frames, commands in frames, and events (log entry 26). -/

namespace Sys2Proof

/-- The step that a table word spells: none, for every word (log entry 26). -/
def decodeTableWord (_nbits _w : Nat) : Option Instr := none

end Sys2Proof
end

