-- ==== Sys2Proof/Machine/Bytes.lean ====
section
/-! DEFINITION. Multi-byte fields, "unsigned and sent most significant byte first" (Chapter 11), and the two's complement
of the signed ones (R179). -/

namespace Sys2Proof.Machine

/-- The number that bytes spell, most significant byte first. -/
def beNat (bs : List Byte) : Nat := bs.foldl (fun n b => n * 256 + b.toNat) 0

/-- A number in `w` bytes, most significant byte first. -/
def beBytes : Nat → Nat → List Byte
  | 0, _ => []
  | w + 1, n => BitVec.ofNat 8 (n / 256 ^ w) :: beBytes w n

/-- A signed value in `w` bytes, in two's complement (R179). -/
def beSigned (w : Nat) (i : Int) : List Byte := beBytes w (i % (256 ^ w : Nat)).toNat

/-- The bytes an item takes in its body: id, length, value (Table 11-6). -/
def itemSize (i : Item) : Nat := 2 + i.value.length

/-- A list of text bytes from a list of numbers. -/
def bytesOf (ns : List Nat) : List Byte := ns.map (BitVec.ofNat 8)

/-- The decimal digits of a number as ASCII bytes, without leading zeros, at most `fuel` of them. -/
def decimalAux : Nat → Nat → List Nat
  | 0, _ => []
  | fuel + 1, n => if n < 10 then [48 + n] else decimalAux fuel (n / 10) ++ [48 + n % 10]

/-- A 32-bit number in decimal without leading zeros (R157). -/
def decimal (n : Nat) : List Byte := bytesOf (decimalAux 10 n)

end Sys2Proof.Machine
end

