-- ==== Sys2Proof/Machine/Table.lean ====
section
/-! DEFINITION. Sparse tables with a default value, and values kept once per band. Every table of the part (auditoria,
tracks, records, filters, counters, flags) is one of these: a list of (key, value) pairs whose keys rise strictly and
which lists no default value, so that equal tables are equal data. -/

namespace Sys2Proof.Machine

/-- A sparse table: the keys it lists with their values; every other key holds the table's default. -/
abbrev Tbl (κ α : Type) := List (κ × α)

/-- The value a table holds at a key, `d` where it lists none. -/
def Tbl.get {κ α : Type} [DecidableEq κ] (d : α) : Tbl κ α → κ → α
  | [], _ => d
  | (j, v) :: t, k => if j = k then v else Tbl.get d t k

/-- A table without a key. -/
def Tbl.erase {κ α : Type} [DecidableEq κ] : Tbl κ α → κ → Tbl κ α
  | [], _ => []
  | (j, v) :: t, k => if j = k then Tbl.erase t k else (j, v) :: Tbl.erase t k

/-- A pair put before the first key of greater rank. -/
def Tbl.insert {κ α : Type} (rank : κ → Nat) : Tbl κ α → κ → α → Tbl κ α
  | [], k, v => [(k, v)]
  | (j, w) :: t, k, v => if rank k < rank j then (k, v) :: (j, w) :: t else (j, w) :: Tbl.insert rank t k v

/-- A table with `v` at `k`: writing the default removes the entry, so the canonical form is kept. -/
def Tbl.set {κ α : Type} [DecidableEq κ] [DecidableEq α] (rank : κ → Nat) (d : α) (t : Tbl κ α) (k : κ) (v : α) :
    Tbl κ α :=
  if v = d then Tbl.erase t k else Tbl.insert rank (Tbl.erase t k) k v

/-- The canonical form: keys of strictly rising rank, no entry equal to the default. -/
abbrev Tbl.Wf {κ α : Type} (rank : κ → Nat) (d : α) (t : Tbl κ α) : Prop :=
  (t.map fun e => rank e.1).Pairwise (· < ·) ∧ ∀ e ∈ t, e.2 ≠ d

/-- One value for each of the bands 0 to 3 of a track. -/
structure PerBand (α : Type) where
  b0 : α
  b1 : α
  b2 : α
  b3 : α
  deriving DecidableEq, Repr

def PerBand.get {α : Type} (p : PerBand α) (b : Band) : α :=
  match b.val with
  | 0 => p.b0
  | 1 => p.b1
  | 2 => p.b2
  | _ => p.b3

def PerBand.set {α : Type} (p : PerBand α) (b : Band) (v : α) : PerBand α :=
  match b.val with
  | 0 => { p with b0 := v }
  | 1 => { p with b1 := v }
  | 2 => { p with b2 := v }
  | _ => { p with b3 := v }

/-- The same value for every band. -/
def PerBand.all {α : Type} (v : α) : PerBand α := ⟨v, v, v, v⟩

/-- The four bands in increasing number. -/
def bands : List Band := [0, 1, 2, 3]

end Sys2Proof.Machine
end

