-- ==== Sys2Proof/Machine/Types.lean ====
section
/-! DEFINITION. The records of the part's blocks, as their chapters give them: plain data, no function-typed field. -/

namespace Sys2Proof.Machine

/-! ### Auditoria and clocks (Chapters 1 and 2) -/

/-- The nine lifecycle states (R4, Table 1-3). -/
inductive Lifecycle where
  | dark
  | preparing
  | ready
  | running
  | paused
  | holdover
  | lost
  | test
  | closing
  deriving DecidableEq, Repr

/-- The ten auditorium parameters (Table 1-1), in the units of the table. -/
structure Params where
  source : Nat
  transit : Nat
  stepThreshold : Nat
  holdover : Nat
  lost : Nat
  minDisplay : Nat
  memberLimit : Nat
  beaconInterval : Nat
  reportPeriod : Nat
  staleAllowance : Nat
  deriving DecidableEq, Repr

/-- The enable and offset of one of the bands 1 to 3 (Table 1-4). -/
structure BandSetting where
  enabled : Bool
  offset : Nat
  deriving DecidableEq, Repr

/-- The owed RESULT of an AUDITORIUM CLOSE: its request tag (R1) and the station it goes to (R165). -/
structure Owed where
  tag : Nat
  station : Nat
  deriving DecidableEq, Repr

/-- An auditorium context (R1). -/
structure Auditorium where
  lifecycle : Lifecycle
  params : Params
  band1 : BandSetting
  band2 : BandSetting
  band3 : BandSetting
  owed : Option Owed
  deriving DecidableEq, Repr

/-- A clock record (Table 2-1). -/
structure Clock where
  e0 : Nat
  s0 : Nat
  drift : Int
  correction : Int
  rate : Int
  lastError : Int
  stepCount : Nat
  composition : Option Nat
  lastAccepted : Option Nat
  holdoverDeadline : Option Nat
  lostDeadline : Option Nat
  deriving DecidableEq, Repr

/-! ### Classification (Chapter 3) -/

/-- A Filter Table entry (Table 3-1). -/
structure Filter where
  enabled : Bool
  label : Label
  mask : Nat
  bits : Nat
  selector : ContentClass
  continues : Bool
  target : Nat
  deriving DecidableEq, Repr

/-- The body of a content frame, a CUE's or a BLOCK's. -/
inductive Content where
  | cue (body : CueBody)
  | block (body : BlockBody)
  deriving DecidableEq, Repr

/-- A copy made by a scan and not yet offered (Table 3-3); the stream label stands in the body. -/
structure Copy where
  content : Content
  station : Nat
  arrival : Nat
  hit : Nat
  target : Nat
  deriving DecidableEq, Repr

/-! ### Tracks (Chapters 4 and 5) -/

inductive TrackKind where
  | caption
  | description
  deriving DecidableEq, Repr

inductive Pace where
  | opened
  | holding
  deriving DecidableEq, Repr

/-- A track's source: where PACE notices go, and the label they carry (Table 4-1). -/
structure Source where
  label : Label
  station : Nat
  deriving DecidableEq, Repr

/-- The fields of a cue record that travel in delivery frames (Table 4-2, Table 11-10). An empty speaker label is an
absent one. -/
structure Caption where
  number : Nat
  ts : Nat
  te : Nat
  region : Nat
  cls : ContentClass
  text : List Byte
  speaker : List Byte
  amended : Bool
  late : Bool
  test : Bool
  repeated : Bool
  deriving DecidableEq, Repr

/-- A cue record (Table 4-2). -/
structure Cue where
  caption : Caption
  marks : PerBand Bool
  deriving DecidableEq, Repr

/-- The fields of a block record that travel in AUDIO frames (Table 5-1, Table 11-10). -/
structure Audio where
  seq : Nat
  tp : Nat
  duration : Nat
  payload : List Byte
  late : Bool
  test : Bool
  deriving DecidableEq, Repr

/-- Gap-before: a missing count of 1 to 255 and a gap span in µs (R90). -/
structure Gap where
  missing : Nat
  span : Nat
  deriving DecidableEq, Repr

/-- A block record (Table 5-1). -/
structure Block where
  audio : Audio
  gap : Option Gap
  marks : PerBand Bool
  deriving DecidableEq, Repr

/-- The last accepted block of a description track (R86). -/
structure LastBlock where
  seq : Nat
  tp : Nat
  duration : Nat
  deriving DecidableEq, Repr

/-- A BOUND track context (Table 4-1); a FREE one is the absence of this record (R62). -/
structure Track where
  kind : TrackKind
  auditorium : Nat
  slot : Nat
  language : Nat
  variant : Nat
  depth : Nat
  lead : Nat
  high : Nat
  low : Nat
  pace : Pace
  source : Option Source
  pending : List Cue
  current : Option Cue
  ring : List Block
  lastBlock : Option LastBlock
  deriving DecidableEq, Repr

/-! ### Egress (Chapter 7) and the frames of the delivery port (section 11.4) -/

/-- The egress classes, highest first (R126). -/
inductive EgressClass where
  | audio
  | caption
  | beacon
  | catchup
  deriving DecidableEq, Repr

inductive RotationMode where
  | automatic
  | fixed
  deriving DecidableEq, Repr

/-- The rotation of one class: the auditoria from the highest rank to the lowest, and the mode (R123). -/
structure Rotation where
  order : List Nat
  mode : RotationMode
  deriving DecidableEq, Repr

structure Rotations where
  audio : Rotation
  caption : Rotation
  beacon : Rotation
  catchup : Rotation
  deriving DecidableEq, Repr

/-- What EGA fills into a BEACON at its grant (R128). -/
structure BeaconFill where
  lifecycle : Lifecycle
  composition : Option Nat
  showTime : Nat
  deriving DecidableEq, Repr

/-- The result a JOIN RESULT carries (Table 11-10). -/
inductive JoinOutcome where
  | accepted
  | noSuchShow
  | noSuchTrack
  | bandOff
  | auditoriumFull
  | tableFull
  deriving DecidableEq, Repr

/-- The fields of an accepted JOIN RESULT after the auditorium (R142, Table 11-10). -/
structure JoinPlace where
  track : Nat
  language : Nat
  variant : Nat
  band : Band
  group : Nat
  wideGroup : Nat
  nextSeq : SeqNo
  deriving DecidableEq, Repr

/-- Where a delivery frame is addressed (00.6, R178). -/
inductive Dest where
  | group (number : Nat)
  | device (handle : Nat)
  deriving DecidableEq, Repr

/-- The bodies of the delivery port's frames (Table 11-10). A BEACON's fields are absent until its grant. -/
inductive DeliveryBody where
  | caption (track : Nat) (c : Caption)
  | captionReplace (track : Nat) (c : Caption)
  | captionWithdraw (track number : Nat)
  | captionClear (track : Nat)
  | audio (track : Nat) (a : Audio)
  | audioGap (track seq : Nat) (gap : Gap)
  | audioFlush (track : Nat)
  | beacon (auditorium : Nat) (fill : Option BeaconFill)
  | joinResult (outcome : JoinOutcome) (auditorium : Nat) (place : Option JoinPlace)
  | showEnded (auditorium : Nat)
  | trackEnded (track language variant : Nat)
  deriving DecidableEq, Repr

/-- A delivery frame: destination, sequence number if it carries one, body (R178). -/
structure DeliveryFrame where
  dest : Dest
  seq : Option SeqNo
  body : DeliveryBody
  deriving DecidableEq, Repr

/-- An egress entry (Table 7-1). -/
structure Entry where
  frame : DeliveryFrame
  cls : EgressClass
  auditorium : Nat
  track : Option Nat
  deadline : Option Nat
  order : Nat
  deriving DecidableEq, Repr

/-- The Egress Arbiter and the port behind it (Figure 7-1). The waiting entries stand in making order, so the FIFO of a
class and auditorium is the sub-list of its entries (R121). `wireTail`: the frame that a reset left on the wire and that DPT
is still finishing, if there is one (R119, log entry 8). -/
structure Egress where
  waiting : List Entry
  inFlight : Option Entry
  wireTail : Option DeliveryFrame
  nextOrder : Nat
  pauseEnd : Option Nat
  rotation : Rotations
  deriving DecidableEq, Repr

/-! ### Subscriptions and house checks (Chapters 8 and 9) -/

/-- A subscription record (Table 8-1); its index is its key in the table, and its state follows its score (R146). -/
structure Subscription where
  handle : Nat
  auditorium : Nat
  track : Nat
  band : Band
  score : Nat
  joinTime : Nat
  lastReport : Option Nat
  lastSeq : Option Nat
  window : Option Nat
  hold : Option Nat
  deriving DecidableEq, Repr

inductive SubscriptionState where
  | active
  | warning
  | degraded
  | detached
  deriving DecidableEq, Repr

inductive CheckOutcome where
  | none
  | completed
  | stopped
  | aborted
  | dropped
  deriving DecidableEq, Repr

inductive CheckMode where
  | fixed
  | counter
  | regionSweep
  | pattern
  deriving DecidableEq, Repr

/-- A house-check context (Table 9-1); a count of 0 is CONTINUOUS, as Table 11-13 codes it. -/
structure HouseCheck where
  running : Bool
  outcome : CheckOutcome
  track : Option Nat
  mode : Option CheckMode
  text : Option (List Byte)
  pattern : Option Byte
  count : Option Nat
  interval : Option Nat
  duration : Option Nat
  next : Option Nat
  deadline : Option Nat
  previousTp : Option Nat
  items : Nat
  reports : Nat
  missed : Nat
  devices : Nat
  highest : Nat
  deriving DecidableEq, Repr

/-! ### Management (Chapter 10) -/

/-- The status flags (Table 10-3). -/
inductive FlagName where
  | houseCheckDone
  | unclaimedSeen
  | deviceDetached
  | paceHold
  | houseCheckAborted
  | clockStepped
  | overflow
  | clockHoldover
  | egressFull
  | contentLinkDown
  | deliveryLinkDown
  | clockLost
  deriving DecidableEq, Repr

/-- The scopes of flags (Table 10-3). -/
inductive Scope where
  | device
  | auditorium
  | track
  deriving DecidableEq, Repr

/-- One flag of the part: its name and its instance, the auditorium or track number, 0 for the device. -/
structure Flag where
  name : FlagName
  inst : Nat
  deriving DecidableEq, Repr

/-- The device-wide counters, in the order of Table 11-14. -/
inductive DeviceCounter where
  | showtimeBadAuditorium
  | contentClassified
  | unclaimed
  | fanoutLimit
  | pauseFrames
  | returnMalformed
  | leaveMiss
  | reportUnknown
  | reportMismatch
  | accessRefused
  | commandsBusy
  | commandsRun
  | commandsRefused
  | resultsSent
  | alertsSent
  | contentBadFcs
  | contentBadFrame
  | deliveryBadFcs
  | deliveryBadFrame
  deriving DecidableEq, Repr

/-- The auditorium counters, in the order of Table 11-14. -/
inductive AuditoriumCounter where
  | showtimeAccepted
  | showtimeIgnored
  | showtimeBadStatus
  | showtimeForeign
  | stepHandlings
  | beaconsMade
  | beaconsSkipped
  | beaconsCoalesced
  | entriesMade
  | framesSent
  | stale
  | withdrawn
  | evicted
  | egressFull
  | linkAbort
  | joinsNew
  | joinsSwitched
  | joinsRestored
  | joinsRefused
  | leaves
  | reportsAccepted
  | reportDetached
  | windowExpiries
  | detachments
  | holdExpiries
  | recordsReleased
  deriving DecidableEq, Repr

/-- The track counters, in the order of Table 11-14. -/
inductive TrackCounter where
  | copiesDelivered
  | undeliverable
  | kindMismatch
  | cuesAccepted
  | amendments
  | deletions
  | deleteMiss
  | badCue
  | cuesRetired
  | blocksAccepted
  | badBlock
  | reordered
  | outOfOrder
  | superseded
  | gapsMarked
  | overflowDrops
  | expired
  | purged
  | paceSent
  | releases
  | lateReleases
  | repeats
  | degradedCopies
  | degradedLimit
  | catchupFrames
  deriving DecidableEq, Repr

/-- A statistics counter with its scope (section 10.6). -/
inductive Counter where
  | device (c : DeviceCounter)
  | auditorium (a : Nat) (c : AuditoriumCounter)
  | track (k : Nat) (c : TrackCounter)
  | filterHits (i : Nat)
  deriving DecidableEq, Repr

/-- A queued command (R164). -/
structure Queued where
  tag : Nat
  code : Nat
  items : List Item
  station : Nat
  arrival : Nat
  deriving DecidableEq, Repr

/-- The controller list (R162). -/
structure Controllers where
  entry0 : Option Nat
  entry1 : Option Nat
  deriving DecidableEq, Repr

/-- The refusal reasons of a RESULT (Table 10-2). -/
inductive Reason where
  | busy
  | wrongState
  | badParameter
  | noSpace
  | noTrack
  | unknownCommand
  deriving DecidableEq, Repr

/-- The status of a RESULT (Table 10-2). -/
inductive Status where
  | done (clamped : Bool)
  | refused (reason : Reason)
  deriving DecidableEq, Repr

/-- The frames of the content port (Table 11-8) with the station each is addressed to. -/
inductive ContentFrame where
  | result (dest tag code : Nat) (status : Status) (time : Nat) (items : List Item)
  | alert (dest : Nat) (flag : Flag) (time : Nat) (summary : Option Flag)
  | pace (dest : Nat) (hold : Bool) (track : Nat) (label : Label)
  deriving DecidableEq, Repr

end Sys2Proof.Machine
end

