-- ==== Sys2Proof/Machine/Defaults.lean ====
section
/-! DEFINITION. The numbers and the power-on values the chapters give: table sizes, limits, defaults. -/

namespace Sys2Proof.Machine

/-- The greatest show time, 2^40 - 1 (00.6). -/
def showMax : Nat := 1099511627775

/-- The greatest value of a statistics counter and of every 32-bit count, 2^32 - 1 (R171). -/
def counterMax : Nat := 4294967295

/-- The egress pool holds at most 1,024 entries (R119). -/
def poolSize : Nat := 1024

/-- The caption pool's cue slots (R63). -/
def captionSlots : Nat := 2048

/-- The description pool's block slots (R63). -/
def descriptionSlots : Nat := 4096

/-- The subscription indices are 0 to 4,095 (R134). -/
def subscriptionSize : Nat := 4096

/-- The command queue has four places (R164). -/
def queuePlaces : Nat := 4

/-- One frame makes at most four copies (R52). -/
def copyLimit : Nat := 4

/-- Degraded repeat copies are made for the first 16 DEGRADED records (R115). -/
def degradedLimit : Nat := 16

/-- The detach hold, 60 s (R148). -/
def holdTime : Nat := 60000000

/-- The defaults of Table 1-1. -/
def Params.default : Params where
  source := 255
  transit := 2000
  stepThreshold := 250000
  holdover := 3000
  lost := 30000
  minDisplay := 500
  memberLimit := 512
  beaconInterval := 500
  reportPeriod := 5
  staleAllowance := 1000

/-- An auditorium context after power-on (R1): DARK, defaults, bands 1 to 3 off with the offsets of Table 1-4. -/
def Auditorium.initial : Auditorium where
  lifecycle := .dark
  params := Params.default
  band1 := ⟨false, 40000⟩
  band2 := ⟨false, 120000⟩
  band3 := ⟨false, 250000⟩
  owed := none

/-- A clock record after power-on and after OPEN (R26). -/
def Clock.initial : Clock where
  e0 := 0
  s0 := 0
  drift := 0
  correction := 0
  rate := 0
  lastError := 0
  stepCount := 0
  composition := none
  lastAccepted := none
  holdoverDeadline := none
  lostDeadline := none

/-- A house-check context after power-on and OPEN (Table 9-1). -/
def HouseCheck.initial : HouseCheck where
  running := false
  outcome := .none
  track := none
  mode := none
  text := none
  pattern := none
  count := none
  interval := none
  duration := none
  next := none
  deadline := none
  previousTp := none
  items := 0
  reports := 0
  missed := 0
  devices := 0
  highest := 0

/-- A Filter Table entry after power-on (Table 3-1). -/
def Filter.initial : Filter where
  enabled := false
  label := 0
  mask := 0
  bits := 0
  selector := 0
  continues := false
  target := 0

/-- A mask after power-on: all ones (R48). -/
def maskInitial : Label := 0xFFFFFFFF

/-- The auditoria in the order 1 to 24. -/
def auditoria : List Nat := (List.range 24).map (· + 1)

/-- The track numbers 0 to 95. -/
def trackNumbers : List Nat := List.range 96

/-- A class's rotation after power-on: AUTOMATIC, 1 (highest) to 24 (R123). -/
def Rotation.initial : Rotation := ⟨auditoria, .automatic⟩

def Rotations.initial : Rotations := ⟨Rotation.initial, Rotation.initial, Rotation.initial, Rotation.initial⟩

/-- The Egress Arbiter after power-on (R119, R123, R131). R120 gives the making order no first number: it counts from 0, at
power-on and again at ENGINE RESET (DESIGN CHOICE, log entry 35). -/
def Egress.initial : Egress where
  waiting := []
  inFlight := none
  wireTail := none
  nextOrder := 0
  pauseEnd := none
  rotation := Rotations.initial

/-- The rank by which a table of counters is kept in order. -/
def Counter.rank : Counter → Nat
  | .device c => 4 * c.ctorIdx
  | .auditorium a c => 4 * (64 * a + c.ctorIdx) + 1
  | .track k c => 4 * (64 * k + c.ctorIdx) + 2
  | .filterHits i => 4 * i + 3

/-- A flag's rank in Table 10-3. -/
def FlagName.rank : FlagName → Nat
  | .houseCheckDone => 1
  | .unclaimedSeen => 2
  | .deviceDetached => 3
  | .paceHold => 4
  | .houseCheckAborted => 5
  | .clockStepped => 6
  | .overflow => 7
  | .clockHoldover => 8
  | .egressFull => 9
  | .contentLinkDown => 10
  | .deliveryLinkDown => 11
  | .clockLost => 12

/-- The rank by which a table of flags is kept in order. -/
def Flag.key (f : Flag) : Nat := 16 * f.inst + f.name.rank

end Sys2Proof.Machine
end

