-- ==== Sys2Proof/Machine/State.lean ====
section
/-! DEFINITION. The state of the part: every register, table, pool, queue, counter and flag the manual gives it, as plain
data, with the queue of the steps that wait; and the state after power-on. -/

namespace Sys2Proof.Machine

/-- The part stops with no fault: the manual gives every frame, command and event an effect, a count or a refusal RESULT
(INVENTORY.md, Faults), so this type has no constructor. Safe: no step can answer a fault. -/
inductive Fault where
  deriving DecidableEq, Repr

/-- Why a step has no meaning. -/
inductive Refusal where
  /-- Raised by an arm of `exec` for a row that has no meaning yet; no arm of this model raises it. Safe. -/
  | notModelled (mnemonic : String)
  deriving DecidableEq, Repr

/-- The state of the Mirfen 2416. Each field names the rule that gives it. -/
structure State where
  /-- R24: engine time in µs. -/
  engineTime : Nat
  /-- R173: an ENGINE RESET has been taken and has not completed. -/
  resetting : Bool
  /-- R175: the content link is UP. -/
  contentUp : Bool
  /-- R132: the delivery link is UP. -/
  deliveryUp : Bool
  /-- R1: auditorium contexts 1 to 24. -/
  auditoriums : Tbl Nat Auditorium
  /-- R26: clock records 1 to 24. -/
  clocks : Tbl Nat Clock
  /-- R154: house-check contexts 1 to 24. -/
  checks : Tbl Nat HouseCheck
  /-- R99, R116: beacon deadlines of auditoria 1 to 24. -/
  beacons : Tbl Nat (Option Nat)
  /-- R47: the Filter Table. -/
  filters : Tbl Nat Filter
  /-- R48: the Mask Table. -/
  masks : Tbl Nat Label
  /-- R54, R60: copies made and not yet offered, oldest first. -/
  copies : List Copy
  /-- R62: track contexts 0 to 95; none is FREE. -/
  tracks : Tbl Nat (Option Track)
  /-- R99: the delivery sequence numbers of the four band groups of each track. -/
  sequences : Tbl Nat (PerBand SeqNo)
  /-- Chapter 7: the egress pool, the transmission in flight, the pause window, the rotations. -/
  egress : Egress
  /-- R134: subscription records by index; none is a free index. -/
  subscriptions : Tbl Nat (Option Subscription)
  /-- R135: the four band member counts of each track. -/
  members : Tbl Nat (PerBand Nat)
  /-- R162: the controller list. -/
  controllers : Controllers
  /-- R164: the command queue, head first. -/
  queue : List Queued
  /-- R167: the status flags. -/
  flags : Tbl Flag Bool
  /-- R170: the alert enables. -/
  alertEnables : Tbl FlagName Bool
  /-- R171: the live counters. -/
  live : Tbl Counter Nat
  /-- R171: the snapshot values. -/
  snapshot : Tbl Counter Nat
  /-- R171: the snapshot time. -/
  snapshotTime : Option Nat
  /-- Model's own (log entry 5): the frames that have left the content port, oldest first. -/
  contentOut : List ContentFrame
  /-- Model's own (log entry 5): the frames sent whole on the delivery port, oldest first. -/
  deliveryOut : List DeliveryFrame
  /-- Model's own (log entry 3): how many free choices have been made. -/
  choices : Nat
  /-- Model's own: the steps that wait, first in first out. -/
  pending : List Instr
  deriving DecidableEq, Repr

/-- The part right after power-on (R174), both links UP (log entry 4). -/
def State.reset : State where
  engineTime := 0
  resetting := false
  contentUp := true
  deliveryUp := true
  auditoriums := []
  clocks := []
  checks := []
  beacons := []
  filters := []
  masks := []
  copies := []
  tracks := []
  sequences := []
  egress := Egress.initial
  subscriptions := []
  members := []
  controllers := ⟨none, none⟩
  queue := []
  flags := []
  alertEnables := []
  live := []
  snapshot := []
  snapshotTime := none
  contentOut := []
  deliveryOut := []
  choices := 0
  pending := []

end Sys2Proof.Machine
end

