-- ==== Sys2Proof/Machine/Ops.lean ====
section
/-! DEFINITION. The named operations over State that every block shares: engine time, table reads and writes, counters,
track and member look-ups. -/

namespace Sys2Proof.Machine

/-! ### Engine time (R24) and the ports -/

/-- Engine time runs on to the engine time of a step; it never goes back (R24, log entry 1). -/
def State.advance (s : State) (t : Nat) : State := { s with engineTime := max s.engineTime t }

/-- Whether a content frame can arrive: the link is UP (R175) and no reset is completing (R173). -/
def State.contentOpen (s : State) : Bool := s.contentUp && !s.resetting

/-- Whether a frame can arrive on the delivery port: the link is UP (R136, R132) and no reset is completing (R173). -/
def State.deliveryOpen (s : State) : Bool := s.deliveryUp && !s.resetting

/-! ### Reads and writes of the tables -/

def State.auditorium (s : State) (a : Nat) : Auditorium := Tbl.get Auditorium.initial s.auditoriums a

def State.setAuditorium (s : State) (a : Nat) (v : Auditorium) : State :=
  { s with auditoriums := Tbl.set id Auditorium.initial s.auditoriums a v }

def State.lifecycle (s : State) (a : Nat) : Lifecycle := (s.auditorium a).lifecycle

def State.setLifecycle (s : State) (a : Nat) (l : Lifecycle) : State :=
  s.setAuditorium a { s.auditorium a with lifecycle := l }

def State.clock (s : State) (a : Nat) : Clock := Tbl.get Clock.initial s.clocks a

def State.setClock (s : State) (a : Nat) (v : Clock) : State :=
  { s with clocks := Tbl.set id Clock.initial s.clocks a v }

def State.check (s : State) (a : Nat) : HouseCheck := Tbl.get HouseCheck.initial s.checks a

def State.setCheck (s : State) (a : Nat) (v : HouseCheck) : State :=
  { s with checks := Tbl.set id HouseCheck.initial s.checks a v }

def State.beacon (s : State) (a : Nat) : Option Nat := Tbl.get none s.beacons a

def State.setBeacon (s : State) (a : Nat) (v : Option Nat) : State :=
  { s with beacons := Tbl.set id none s.beacons a v }

def State.filter (s : State) (i : Nat) : Filter := Tbl.get Filter.initial s.filters i

def State.setFilter (s : State) (i : Nat) (v : Filter) : State :=
  { s with filters := Tbl.set id Filter.initial s.filters i v }

def State.mask (s : State) (i : Nat) : Label := Tbl.get maskInitial s.masks i

def State.setMask (s : State) (i : Nat) (v : Label) : State :=
  { s with masks := Tbl.set id maskInitial s.masks i v }

def State.track (s : State) (k : Nat) : Option Track := Tbl.get none s.tracks k

def State.setTrack (s : State) (k : Nat) (v : Option Track) : State :=
  { s with tracks := Tbl.set id none s.tracks k v }

/-- A change of a BOUND track's record; a FREE track stays FREE. -/
def State.updateTrack (s : State) (k : Nat) (f : Track → Track) : State :=
  match s.track k with
  | none => s
  | some tr => s.setTrack k (some (f tr))

def State.trackSequences (s : State) (k : Nat) : PerBand SeqNo := Tbl.get (PerBand.all 0) s.sequences k

def State.setTrackSequences (s : State) (k : Nat) (v : PerBand SeqNo) : State :=
  { s with sequences := Tbl.set id (PerBand.all 0) s.sequences k v }

/-- The present delivery sequence number of a band group (R102). -/
def State.nextSeq (s : State) (k : Nat) (b : Band) : SeqNo := (s.trackSequences k).get b

def State.trackMembers (s : State) (k : Nat) : PerBand Nat := Tbl.get (PerBand.all 0) s.members k

def State.setTrackMembers (s : State) (k : Nat) (v : PerBand Nat) : State :=
  { s with members := Tbl.set id (PerBand.all 0) s.members k v }

/-- A band's member count (R135). -/
def State.memberCount (s : State) (k : Nat) (b : Band) : Nat := (s.trackMembers k).get b

def State.setMemberCount (s : State) (k : Nat) (b : Band) (n : Nat) : State :=
  s.setTrackMembers k ((s.trackMembers k).set b n)

def State.subscription (s : State) (i : Nat) : Option Subscription := Tbl.get none s.subscriptions i

def State.setSubscription (s : State) (i : Nat) (v : Option Subscription) : State :=
  { s with subscriptions := Tbl.set id none s.subscriptions i v }

/-! ### Counters (R171) -/

def State.count (s : State) (c : Counter) : Nat := Tbl.get 0 s.live c

/-- `n` increments of a live counter, which holds at its maximum (R171). -/
def State.bumpBy (s : State) (c : Counter) (n : Nat) : State :=
  { s with live := Tbl.set Counter.rank 0 s.live c (min counterMax (s.count c + n)) }

/-- One increment of a live counter (R171). -/
def State.bump (s : State) (c : Counter) : State := s.bumpBy c 1

/-- One increment of a device-wide counter. -/
def State.bumpDevice (s : State) (c : DeviceCounter) : State := s.bump (.device c)

/-- One increment of an auditorium's counter. -/
def State.bumpAuditorium (s : State) (a : Nat) (c : AuditoriumCounter) : State := s.bump (.auditorium a c)

/-- One increment of a track's counter. -/
def State.bumpTrack (s : State) (k : Nat) (c : TrackCounter) : State := s.bump (.track k c)

/-! ### Auditoria, bands, tracks -/

/-- The setting of a band; band 0 is always enabled with offset 0 (R21). -/
def Auditorium.band (au : Auditorium) (b : Band) : BandSetting :=
  match b.val with
  | 0 => ⟨true, 0⟩
  | 1 => au.band1
  | 2 => au.band2
  | _ => au.band3

def Auditorium.setBand (au : Auditorium) (b : Band) (v : BandSetting) : Auditorium :=
  match b.val with
  | 0 => au
  | 1 => { au with band1 := v }
  | 2 => { au with band2 := v }
  | _ => { au with band3 := v }

/-- The states in which show time advances and release instants are taken (R4, R100). -/
def Lifecycle.advancing (l : Lifecycle) : Bool :=
  match l with
  | .running => true
  | .holdover => true
  | .test => true
  | .dark => false
  | .preparing => false
  | .ready => false
  | .paused => false
  | .lost => false
  | .closing => false

/-- The tracks bound to an auditorium, in increasing track number (R62). -/
def State.boundTracks (s : State) (a : Nat) : List Nat :=
  trackNumbers.filter fun k =>
    match s.track k with
    | none => false
    | some tr => tr.auditorium == a

/-- READY, or PREPARING with no bound track: "whenever this chapter sends an auditorium with no bound track to READY, it
enters PREPARING" (R7). -/
def State.readyState (s : State) (a : Nat) : Lifecycle :=
  if (s.boundTracks a).isEmpty then .preparing else .ready

/-- The occupancy of a track: its pending cues or the blocks of its ring (R70, R85). -/
def Track.occupancy (tr : Track) : Nat :=
  match tr.kind with
  | .caption => tr.pending.length
  | .description => tr.ring.length

/-- The depths reserved by the bound tracks of a kind (R63). -/
def State.reserved (s : State) (kind : TrackKind) : Nat :=
  (trackNumbers.map fun k =>
    match s.track k with
    | none => 0
    | some tr => if tr.kind = kind then tr.depth else 0).sum

def TrackKind.poolSlots (kind : TrackKind) : Nat :=
  match kind with
  | .caption => captionSlots
  | .description => descriptionSlots

/-- The free count of a pool: its size less the depths of the bound tracks of its kind (R63). -/
def State.freeSlots (s : State) (kind : TrackKind) : Nat := kind.poolSlots - s.reserved kind

/-- The band group number: auditorium × 64 + slot × 4 + band (00.6, R101). -/
def bandGroup (auditorium slot : Nat) (b : Band) : Nat := auditorium * 64 + slot * 4 + b.val

/-- The auditorium-wide group number: auditorium × 64 + 32 (00.6, R101). -/
def wideGroup (auditorium : Nat) : Nat := auditorium * 64 + 32

/-- A populated band: enabled, with a member count that is not zero (R21). -/
def State.populated (s : State) (k : Nat) (tr : Track) (b : Band) : Bool :=
  ((s.auditorium tr.auditorium).band b).enabled && s.memberCount k b != 0

/-- The populated enabled bands of a track in increasing band number: the band order of R68, and the order the model makes
the frames of every event in that goes to several of them (DESIGN CHOICE, log entry 39). -/
def State.populatedBands (s : State) (k : Nat) (tr : Track) : List Band := bands.filter (s.populated k tr)

/-! ### Subscriptions (R134) -/

/-- The used records in increasing index. -/
def State.records (s : State) : List (Nat × Subscription) :=
  s.subscriptions.filterMap fun e => e.2.map fun r => (e.1, r)

/-- The record holding a handle (R134: no two hold the same). -/
def State.findHandle (s : State) (h : Nat) : Option (Nat × Subscription) :=
  s.records.find? fun e => e.2.handle == h

/-- The state that follows a reach score (Table 8-3). -/
def subscriptionState (score : Nat) : SubscriptionState :=
  if score < 64 then .active
  else if score < 128 then .warning
  else if score < 256 then .degraded
  else .detached

def Subscription.state (r : Subscription) : SubscriptionState := subscriptionState r.score

/-- A record that is not a member (R134). -/
def Subscription.detached (r : Subscription) : Bool := r.state == .detached

/-- The sum of an auditorium's member counts over its tracks (R116). -/
def State.memberSum (s : State) (a : Nat) : Nat :=
  ((s.boundTracks a).map fun k => (bands.map (s.memberCount k)).sum).sum

/-- An auditorium's beacons run in RUNNING, PAUSED, HOLDOVER and TEST while it has a member (R116). -/
def State.beaconEligible (s : State) (a : Nat) : Bool :=
  (match s.lifecycle a with
    | .running => true
    | .paused => true
    | .holdover => true
    | .test => true
    | .dark => false
    | .preparing => false
    | .ready => false
    | .lost => false
    | .closing => false) && s.memberSum a != 0

/-- The beacon deadline after an event: set when the auditorium has become eligible, kept while it stays so, absent
otherwise (R116). -/
def State.updateBeacon (s : State) (a : Nat) : State :=
  if s.beaconEligible a then
    match s.beacon a with
    | some _ => s
    | none => s.setBeacon a (some (s.engineTime + (s.auditorium a).params.beaconInterval * 1000))
  else s.setBeacon a none

end Sys2Proof.Machine
end

