-- ==== Sys2Proof/Machine/Flags.lean ====
section
/-! DEFINITION. The status flags, their summary code and the alerts (sections 10.4 and 10.5). -/

namespace Sys2Proof.Machine

/-- The scope of a flag (Table 10-3). -/
def FlagName.scope : FlagName → Scope
  | .clockLost => .auditorium
  | .deliveryLinkDown => .device
  | .contentLinkDown => .device
  | .egressFull => .device
  | .clockHoldover => .auditorium
  | .overflow => .track
  | .clockStepped => .auditorium
  | .houseCheckAborted => .auditorium
  | .paceHold => .track
  | .deviceDetached => .auditorium
  | .unclaimedSeen => .device
  | .houseCheckDone => .auditorium

/-- The flag names from the highest rank to the lowest (Table 10-3). -/
def flagNames : List FlagName :=
  [.clockLost, .deliveryLinkDown, .contentLinkDown, .egressFull, .clockHoldover, .overflow, .clockStepped,
    .houseCheckAborted, .paceHold, .deviceDetached, .unclaimedSeen, .houseCheckDone]

/-- The flag name of a rank. -/
def flagOfRank (r : Nat) : Option FlagName := flagNames.find? fun n => n.rank == r

/-- The instances of a scope, in increasing number. -/
def Scope.instances : Scope → List Nat
  | .device => [0]
  | .auditorium => auditoria
  | .track => trackNumbers

/-- Every flag of the part, the highest rank first and the lowest instance first within a rank (R168). -/
def allFlags : List Flag := flagNames.flatMap fun n => n.scope.instances.map fun i => ⟨n, i⟩

def State.flagSet (s : State) (f : Flag) : Bool := Tbl.get false s.flags f

def State.writeFlag (s : State) (f : Flag) (v : Bool) : State :=
  { s with flags := Tbl.set Flag.key false s.flags f v }

/-- The highest-ranked set flag, in its lowest-numbered instance, or none: the summary code with its scope and instance
(R168). -/
def State.summary (s : State) : Option Flag := allFlags.find? s.flagSet

/-- The destination of ALERT frames: the first present entry of the controller list (R163). -/
def Controllers.first (c : Controllers) : Option Nat :=
  match c.entry0 with
  | some a => some a
  | none => c.entry1

/-- A frame leaves the content port. -/
def State.pushContent (s : State) (f : ContentFrame) : State := { s with contentOut := s.contentOut ++ [f] }

def State.alertEnabled (s : State) (n : FlagName) : Bool := Tbl.get false s.alertEnables n

/-- The ALERT of a newly set flag: made when its enable is on and a controller entry is present, not sent while the
content link is DOWN (R170). -/
def State.alert (s : State) (f : Flag) : State :=
  if s.alertEnabled f.name && s.contentUp then
    match s.controllers.first with
    | none => s
    | some dest => (s.pushContent (.alert dest f s.engineTime s.summary)).bumpDevice .alertsSent
  else s

/-- A flag's setting event: a flag that is already set stays set, a clear one is set and may make an ALERT (R167). -/
def State.setFlag (s : State) (n : FlagName) (inst : Nat) : State :=
  if s.flagSet ⟨n, inst⟩ then s else (s.writeFlag ⟨n, inst⟩ true).alert ⟨n, inst⟩

end Sys2Proof.Machine
end

