-- ==== Sys2Proof/Machine/Clock.lean ====
section
/-! DEFINITION. Show time and the servo (Chapter 2). -/

namespace Sys2Proof.Machine

/-- A value held to a range. -/
def clampInt (lo hi v : Int) : Int := max lo (min hi v)

/-- The show time of a clock record at engine time `e` in a lifecycle state (R27): the product is formed exactly, the
quotient floored, the sum held at 2^40 - 1; S0 where show time does not advance. -/
def Clock.showAt (c : Clock) (l : Lifecycle) (e : Nat) : Nat :=
  if l.advancing then min showMax (c.s0 + (e - c.e0) * (1000000 + c.rate).toNat / 1000000) else c.s0

/-- The show time of an auditorium at an engine time (R27). -/
def State.showTimeAt (s : State) (a e : Nat) : Nat := (s.clock a).showAt (s.lifecycle a) e

/-- The show time of an auditorium now (R28). -/
def State.showTime (s : State) (a : Nat) : Nat := s.showTimeAt a s.engineTime

/-- Target: the server show time plus the transit allowance, each held at 2^40 - 1 (R30). -/
def targetOf (serverTime transit : Nat) : Nat := min showMax (min showMax serverTime + transit)

/-- Both watches start from `ea` (R41). -/
def Clock.startWatches (c : Clock) (p : Params) (ea : Nat) : Clock :=
  { c with holdoverDeadline := some (ea + p.holdover * 1000), lostDeadline := some (ea + p.lost * 1000) }

/-- Both watches are cancelled (R41). -/
def Clock.cancelWatches (c : Clock) : Clock := { c with holdoverDeadline := none, lostDeadline := none }

/-- The slew of R33, from the error and the local show time at `ea`. -/
def Clock.slew (c : Clock) (ea sLoc : Nat) (err : Int) : Clock :=
  let corr := clampInt (-300) 300 (err.tdiv 8)
  let drift := clampInt (-200) 200 (c.drift + corr.tdiv 16)
  { c with e0 := ea, s0 := sLoc, correction := corr, drift := drift, rate := clampInt (-500) 500 (drift + corr) }

/-- One step counted, the count held at its maximum (Table 2-1). -/
def Clock.countStep (c : Clock) : Clock := { c with stepCount := min counterMax (c.stepCount + 1) }

/-- The anchor set at Target with C = 0, D kept and R = D clamped (R34, R40). -/
def Clock.reanchor (c : Clock) (ea target : Nat) : Clock :=
  { c with e0 := ea, s0 := target, correction := 0, rate := clampInt (-500) 500 c.drift }

/-- The fresh clock of R37. -/
def Clock.fresh (c : Clock) (ea target composition : Nat) : Clock :=
  { c with
    e0 := ea, s0 := target, correction := 0, drift := 0, rate := 0, lastError := 0, composition := some composition }

/-- Show time frozen at the value it has at engine time `e` (R44, R45). -/
def State.freezeClock (s : State) (a e : Nat) : State :=
  s.setClock a { s.clock a with s0 := s.showTimeAt a e, e0 := e }

/-- Whether a signed error or move reaches the step threshold (R32). -/
def reachesThreshold (err : Int) (threshold : Nat) : Bool := decide (threshold ≤ err.natAbs)

end Sys2Proof.Machine
end

