-- ==== Sys2Proof/Machine/Egress.lean ====
section
/-! DEFINITION. The Egress Arbiter: the pool, the grants, transmission and withdrawal (Chapter 7), with the RESULT that
the end of a close sends (R19, R165). -/

namespace Sys2Proof.Machine

/-! ### RESULT frames (R165) -/

/-- As many whole items as fit in a budget of bytes (section 11.3). -/
def fitItems : Nat → List Item → List Item
  | _, [] => []
  | budget, i :: is => if itemSize i ≤ budget then i :: fitItems (budget - itemSize i) is else []

/-- The data items of a RESULT: all of them where they fit in the 1,483 bytes behind the fixed part; otherwise as many
whole items as fit with an item 255 of length 0 that marks the cut (section 11.3). -/
def cutItems (items : List Item) : List Item :=
  if (items.map itemSize).sum ≤ 1483 then items else fitItems 1481 items ++ [⟨255, []⟩]

/-- A RESULT is sent, or lost while the content link is DOWN (R165). -/
def State.sendResult (s : State) (dest tag code : Nat) (status : Status) (items : List Item) : State :=
  if s.contentUp then
    (s.pushContent (.result dest tag code status s.engineTime (cutItems items))).bumpDevice .resultsSent
  else s

/-- The command code of AUDITORIUM CLOSE (Table 11-7). -/
def closeCode : Nat := 0x07

/-- A CLOSING auditorium enters DARK and its owed RESULT is sent (R19). -/
def State.closeComplete (s : State) (a : Nat) : State :=
  let au := s.auditorium a
  let s := s.setAuditorium a { au with lifecycle := .dark, owed := none }
  match au.owed with
  | none => s
  | some o => s.sendResult o.station o.tag closeCode (.done false) []

/-! ### The pool and its entries (R119 to R121) -/

def Rotations.get (r : Rotations) (c : EgressClass) : Rotation :=
  match c with
  | .audio => r.audio
  | .caption => r.caption
  | .beacon => r.beacon
  | .catchup => r.catchup

def Rotations.set (r : Rotations) (c : EgressClass) (v : Rotation) : Rotations :=
  match c with
  | .audio => { r with audio := v }
  | .caption => { r with caption := v }
  | .beacon => { r with beacon := v }
  | .catchup => { r with catchup := v }

/-- The classes from the highest rank to the lowest (R126). -/
def egressClasses : List EgressClass := [.audio, .caption, .beacon, .catchup]

/-- The pool occupancy: the waiting entries and the entry in flight (R119). -/
def Egress.occupancy (g : Egress) : Nat := g.waiting.length + if g.inFlight.isSome then 1 else 0

/-- A waiting entry of a class and auditorium: one of its FIFO (R121). -/
def Entry.inFifo (c : EgressClass) (a : Nat) (e : Entry) : Bool := e.cls == c && e.auditorium == a

/-- The entry a grant chooses: the highest class with a waiting entry, in it the highest-ranked auditorium with one, of
that FIFO the head (R126). -/
def Egress.choose (g : Egress) : Option Entry :=
  match egressClasses.find? fun c => g.waiting.any fun e => e.cls == c with
  | none => none
  | some c =>
    match (g.rotation.get c).order.find? fun a => g.waiting.any (Entry.inFifo c a) with
    | none => none
    | some a => g.waiting.find? (Entry.inFifo c a)

def State.removeWaiting (s : State) (e : Entry) : State :=
  { s with egress := { s.egress with waiting := s.egress.waiting.erase e } }

/-! ### Grants (R125 to R128) -/

/-- The stale check: the show time of the entry's auditorium, at the engine time of the grant, is past its deadline
(R127). -/
def State.stale (s : State) (e : Entry) : Bool :=
  match e.deadline with
  | none => false
  | some d => decide (d < s.showTime e.auditorium)

/-- A BEACON's fields at its grant; every other frame as made (R128). -/
def State.fillBeacon (s : State) (f : DeliveryFrame) : DeliveryFrame :=
  match f.body with
  | .beacon a _ => { f with body := .beacon a (some ⟨s.lifecycle a, (s.clock a).composition, s.showTime a⟩) }
  | .caption _ _ => f
  | .captionReplace _ _ => f
  | .captionWithdraw _ _ => f
  | .captionClear _ => f
  | .audio _ _ => f
  | .audioGap _ _ _ => f
  | .audioFlush _ => f
  | .joinResult _ _ _ => f
  | .showEnded _ => f
  | .trackEnded _ _ _ => f

/-- After a grant in AUTOMATIC mode the winner moves to the lowest rank; in FIXED mode the order stands (R123, R126). -/
def Rotation.afterGrant (r : Rotation) (a : Nat) : Rotation :=
  match r.mode with
  | .automatic => { r with order := r.order.erase a ++ [a] }
  | .fixed => r

/-- A granted entry becomes the transmission in flight (R128). -/
def State.startTransmission (s : State) (e : Entry) : State :=
  let g := s.egress
  { s with
    egress :=
      { g with
        waiting := g.waiting.erase e
        inFlight := some { e with frame := s.fillBeacon e.frame }
        rotation := g.rotation.set e.cls ((g.rotation.get e.cls).afterGrant e.auditorium) } }

/-- The choices of one grant: a stale choice is dropped and counted and the grant chooses again, at most once for each
waiting entry (R125, R127). -/
def State.grantLoop : Nat → State → State
  | 0, s => s
  | n + 1, s =>
    match s.egress.choose with
    | none => s
    | some e =>
      if s.stale e then State.grantLoop n ((s.removeWaiting e).bumpAuditorium e.auditorium .stale)
      else s.startTransmission e

/-- The link is UP, nothing is in flight or left on the wire, and no pause window is open (R125, log entry 8). -/
def State.linkFree (s : State) : Bool :=
  s.deliveryUp && s.egress.inFlight.isNone && s.egress.wireTail.isNone && s.egress.pauseEnd.isNone

/-- A grant is taken whenever the four conditions hold (R125). -/
def State.grant (s : State) : State :=
  if s.linkFree then State.grantLoop s.egress.waiting.length s else s

/-! ### Offers and the full pool (R121, R122) -/

/-- An entry placed at the tail of its FIFO, with a grant at once if the link is free (R121). -/
def State.place (s : State) (e : Entry) : State :=
  let g := s.egress
  State.grant
    ({ s with
        egress :=
          { g with waiting := g.waiting ++ [{ e with order := g.nextOrder }], nextOrder := g.nextOrder + 1 } }.bumpAuditorium
      e.auditorium .entriesMade)

/-- The victim of an eviction: the oldest waiting CATCHUP entry, else the oldest waiting BEACON entry (R122). -/
def Egress.victim (g : Egress) : Option Entry :=
  match g.waiting.find? fun e => e.cls == .catchup with
  | some e => some e
  | none => g.waiting.find? fun e => e.cls == .beacon

/-- Only an AUDIO or CAPTION entry evicts: the second bullet of R122, against its last sentence, by which a degraded repeat
copy may evict (DESIGN CHOICE, log entry 41). -/
def EgressClass.evicts (c : EgressClass) : Bool :=
  match c with
  | .audio => true
  | .caption => true
  | .beacon => false
  | .catchup => false

/-- An entry offered is refused: the pool is full, and the entry does not evict or finds no victim (R122). -/
def State.refuses (s : State) (e : Entry) : Bool :=
  decide (poolSize ≤ s.egress.occupancy) && !(e.cls.evicts && s.egress.victim.isSome)

/-- An entry offered to EGA: placed, placed after an eviction, or refused and counted (R121, R122). -/
def State.offer (s : State) (e : Entry) : State :=
  if s.egress.occupancy < poolSize then s.place e
  else
    match (if e.cls.evicts then s.egress.victim else none) with
    | some v => ((s.removeWaiting v).bumpAuditorium v.auditorium .evicted).place e
    | none => (s.bumpAuditorium e.auditorium .egressFull).setFlag .egressFull 0

/-- The waiting entries a request covers are removed, each counted WITHDRAWN on its auditorium; the one in flight stays
(R130). -/
def State.withdraw (s : State) (covers : Entry → Bool) : State :=
  let gone := s.egress.waiting.filter covers
  let s := { s with egress := { s.egress with waiting := s.egress.waiting.filter fun e => !covers e } }
  gone.foldl (fun s e => s.bumpAuditorium e.auditorium .withdrawn) s

/-! ### The end of a transmission (R129, R132) -/

/-- What the end of an entry's transmission tells AUT: the SHOW ENDED of a CLOSING auditorium takes it to DARK (R19). -/
def State.endOfFrame (s : State) (e : Entry) : State :=
  match e.frame.body with
  | .showEnded a => if s.lifecycle a = .closing then s.closeComplete a else s
  | .caption _ _ => s
  | .captionReplace _ _ => s
  | .captionWithdraw _ _ => s
  | .captionClear _ => s
  | .audio _ _ => s
  | .audioGap _ _ _ => s
  | .audioFlush _ => s
  | .beacon _ _ => s
  | .joinResult _ _ _ => s
  | .trackEnded _ _ _ => s

/-- The entry in flight leaves the pool. -/
def State.clearFlight (s : State) : State := { s with egress := { s.egress with inFlight := none } }

end Sys2Proof.Machine
end

