-- ==== Sys2Proof/Machine/Tracks.lean ====
section
/-! DEFINITION. What both kinds of track share: pacing (R80, R81), release instants and their order (R100), frames to a
band group (R102) and the degraded repeat copies (R115). -/

namespace Sys2Proof.Machine

/-! ### Pacing (R80, R81, R96) -/

/-- A PACE notice: sent to the track's source and counted, unless the source is absent or the content link DOWN (R81). -/
def State.paceNotice (s : State) (k : Nat) (tr : Track) (hold : Bool) : State :=
  match tr.source with
  | none => s
  | some src =>
    if s.contentUp then (s.pushContent (.pace src.station hold k src.label)).bumpTrack k .paceSent else s

/-- Pacing after an increase of occupancy: OPEN at or above the high mark enters HOLDING (R80). -/
def State.paceUp (s : State) (k : Nat) : State :=
  match s.track k with
  | none => s
  | some tr =>
    if tr.pace = .opened ∧ tr.high ≤ tr.occupancy then
      ((s.setTrack k (some { tr with pace := .holding })).paceNotice k tr true).setFlag .paceHold k
    else s

/-- Pacing after a decrease of occupancy: HOLDING at or below the low mark enters OPEN (R80). -/
def State.paceDown (s : State) (k : Nat) : State :=
  match s.track k with
  | none => s
  | some tr =>
    if tr.pace = .holding ∧ tr.occupancy ≤ tr.low then
      (s.setTrack k (some { tr with pace := .opened })).paceNotice k tr false
    else s

/-! ### Release instants (R100) -/

/-- The release instant of content at `time` (Ts or Tp) for a band: max(0, time - lead - offset) (R100). -/
def releaseInstant (au : Auditorium) (tr : Track) (time : Nat) (b : Band) : Nat :=
  time - tr.lead - (au.band b).offset

/-- A band put in its place by increasing instant, ties by increasing band number. -/
def insertBand (inst : Band → Nat) (b : Band) : List Band → List Band
  | [] => [b]
  | c :: cs => if inst b < inst c ∨ (inst b = inst c ∧ b.val < c.val) then b :: c :: cs else c :: insertBand inst b cs

/-- Bands in the order of R100: increasing instant, ties in increasing number, band 0 after every other. -/
def releaseOrder (inst : Band → Nat) (bs : List Band) : List Band :=
  (bs.filter fun b => b.val != 0).foldr (insertBand inst) [] ++ bs.filter fun b => b.val == 0

/-- The enabled bands not marked in a record. -/
def openBands (au : Auditorium) (marks : PerBand Bool) : List Band :=
  bands.filter fun b => (au.band b).enabled && !marks.get b

/-- The enabled, unmarked bands whose instants lie at or before `sh`, in the order of R100; with or without band 0. -/
def dueBands (au : Auditorium) (tr : Track) (time : Nat) (marks : PerBand Bool) (sh : Nat) (withZero : Bool) :
    List Band :=
  releaseOrder (releaseInstant au tr time)
    ((openBands au marks).filter fun b =>
      decide (releaseInstant au tr time b ≤ sh) && (withZero || b.val != 0))

/-! ### Frames to a band group (R101, R102) and their copies (R115) -/

/-- A frame to a band group: it takes the group's present sequence number, which then counts on modulo 65,536, and it is
offered to EGA with the track's auditorium and the track (R101, R102). -/
def State.sendToBand (s : State) (k : Nat) (tr : Track) (b : Band) (cls : EgressClass) (body : DeliveryBody)
    (deadline : Option Nat) : State :=
  let q := s.nextSeq k b
  (s.setTrackSequences k ((s.trackSequences k).set b (q + 1))).offer
    { frame := ⟨.group (bandGroup tr.auditorium tr.slot b), some q, body⟩
      cls := cls
      auditorium := tr.auditorium
      track := some k
      deadline := deadline
      order := 0 }

/-- The DEGRADED records of a track and band, in increasing index (R115). -/
def State.degradedRecords (s : State) (k : Nat) (b : Band) : List Subscription :=
  (s.records.map Prod.snd).filter fun r => r.track == k && r.band == b && r.state == .degraded

/-- The degraded repeat copies of a band frame: one to each of the first 16 DEGRADED records, each record beyond them
counted (R115). -/
def State.degradedCopies (s : State) (k : Nat) (tr : Track) (b : Band) (q : SeqNo) (body : DeliveryBody)
    (deadline : Option Nat) : State :=
  let rs := s.degradedRecords k b
  let s := (rs.take degradedLimit).foldl (fun s r =>
    (s.bumpTrack k .degradedCopies).offer
      { frame := ⟨.device r.handle, some q, body⟩
        cls := .catchup
        auditorium := tr.auditorium
        track := some k
        deadline := deadline
        order := 0 }) s
  s.bumpBy (.track k .degradedLimit) (rs.length - degradedLimit)

/-- A CAPTION or CAPTION REPLACE to a band group, followed by its degraded repeat copies (R115). -/
def State.sendCaption (s : State) (k : Nat) (tr : Track) (b : Band) (body : DeliveryBody) (deadline : Option Nat) :
    State :=
  (s.sendToBand k tr b .caption body deadline).degradedCopies k tr b (s.nextSeq k b) body deadline

end Sys2Proof.Machine
end

