-- ==== Sys2Proof/Machine/Captions.lean ====
section
/-! DEFINITION. Caption tracks: the release of cues and the late rule (Chapter 6), and the arrival, amendment and deletion
of cues (Chapter 4). -/

namespace Sys2Proof.Machine

/-! ### The release of a cue (R101, R103) -/

/-- The minimum remaining display in µs (R102). -/
def Auditorium.minDisplay (au : Auditorium) : Nat := au.params.minDisplay * 1000

/-- The deadline of a CAPTION: Ts + stale allowance, and for a LATE or REPEAT cue the later of that and Te - M, held at
2^40 - 1 (Table 6-1, R102). -/
def captionDeadline (au : Auditorium) (c : Caption) : Nat :=
  let base := c.ts + au.params.staleAllowance * 1000
  min showMax (if c.late || c.repeated then max base (c.te - au.minDisplay) else base)

/-- A caption released to one band: counted, and sent if the band has members (R101). -/
def State.releaseCaption (s : State) (k : Nat) (tr : Track) (c : Caption) (b : Band) : State :=
  let s := s.bumpTrack k .releases
  if s.memberCount k b = 0 then s
  else s.sendCaption k tr b (.caption k c) (some (captionDeadline (s.auditorium tr.auditorium) c))

/-- A cue released to band 0 becomes the current cue, and the cue that was current is retired and counted (R78, R103). -/
def State.becomeCurrent (s : State) (k : Nat) (c : Cue) : State :=
  match s.track k with
  | none => s
  | some tr =>
    let s := s.setTrack k (some { tr with current := some c })
    if tr.current.isSome then s.bumpTrack k .cuesRetired else s

/-- The pending cue with a number (R70: no two share one). -/
def Track.pendingCue (tr : Track) (n : Nat) : Option Cue := tr.pending.find? fun c => c.caption.number == n

/-- A cue number leaves the pending list; the cues that remain keep their order. -/
def State.removePending (s : State) (k n : Nat) : State :=
  s.updateTrack k fun tr => { tr with pending := tr.pending.filter fun c => c.caption.number != n }

/-- A change of the pending cue with a number. -/
def State.editPending (s : State) (k n : Nat) (f : Cue → Cue) : State :=
  s.updateTrack k fun tr =>
    { tr with pending := tr.pending.map fun c => if c.caption.number = n then f c else c }

/-- A pending cue released to one band: marked, counted and sent; at band 0 it leaves the list and becomes current, and
pacing is evaluated (R101, R103). -/
def State.releasePending (s : State) (k n : Nat) (b : Band) : State :=
  match s.track k with
  | none => s
  | some tr =>
    match tr.pendingCue n with
    | none => s
    | some c =>
      let marked : Cue := { c with marks := c.marks.set b true }
      let s := (s.editPending k n fun _ => marked).releaseCaption k tr c.caption b
      if b.val = 0 then ((s.removePending k n).becomeCurrent k marked).paceDown k else s

/-- A pending cue released to several bands in turn. -/
def State.releasePendingTo (s : State) (k n : Nat) (bs : List Band) : State :=
  bs.foldl (fun s b => s.releasePending k n b) s

/-! ### The late rule for cues (R105) -/

/-- A cue is late: show time is at or past its band-0 instant (R105). -/
def cueLate (au : Auditorium) (tr : Track) (c : Caption) (sh : Nat) : Bool :=
  decide (releaseInstant au tr c.ts 0 ≤ sh)

/-- A late cue's Te - M is above the show time (R105). -/
def cueWorthShowing (au : Auditorium) (c : Caption) (sh : Nat) : Bool := decide (sh + au.minDisplay < c.te)

/-- The late rule on one pending cue at show time `sh` (R105). -/
def State.evaluateCue (s : State) (k sh n : Nat) : State :=
  match s.track k with
  | none => s
  | some tr =>
    match tr.pendingCue n with
    | none => s
    | some c =>
      let au := s.auditorium tr.auditorium
      if cueLate au tr c.caption sh then
        if cueWorthShowing au c.caption sh then
          ((s.editPending k n fun c => { c with caption := { c.caption with late := true } }).releasePendingTo k n
            (releaseOrder (releaseInstant au tr c.caption.ts) (openBands au c.marks))).bumpTrack k .lateReleases
        else ((s.removePending k n).bumpTrack k .expired).paceDown k
      else s

/-- The passed instants of one pending cue taken at once as ordinary releases, with or without band 0 (R107). -/
def State.takePassedCue (s : State) (k sh : Nat) (withZero : Bool) (n : Nat) : State :=
  match s.track k with
  | none => s
  | some tr =>
    match tr.pendingCue n with
    | none => s
    | some c =>
      s.releasePendingTo k n (dueBands (s.auditorium tr.auditorium) tr c.caption.ts c.marks sh withZero)

/-- The cue numbers of a track's pending list, in list order. -/
def State.pendingNumbers (s : State) (k : Nat) : List Nat :=
  match s.track k with
  | none => []
  | some tr => tr.pending.map fun c => c.caption.number

/-! ### Frames made by TKS (R79) -/

/-- A CAPTION WITHDRAW of a cue number to each of some bands (R79). -/
def State.withdrawCue (s : State) (k : Nat) (tr : Track) (n : Nat) (bs : List Band) : State :=
  bs.foldl (fun s b => s.sendToBand k tr b .caption (.captionWithdraw k n) none) s

/-- A CAPTION REPLACE of an amended cue to each of some bands, with its degraded repeat copies (R79, R75, R115). -/
def State.replaceCue (s : State) (k : Nat) (tr : Track) (c : Caption) (bs : List Band) : State :=
  bs.foldl (fun s b => s.sendCaption k tr b (.captionReplace k c) (some c.te)) s

/-- The bands both marked in a record and populated (R73, R74, R77), in increasing band number (DESIGN CHOICE, log entry
39). -/
def State.markedPopulated (s : State) (k : Nat) (tr : Track) (marks : PerBand Bool) : List Band :=
  (s.populatedBands k tr).filter marks.get

/-! ### Arrival (R71 to R77) -/

/-- The cue copy's text and speaker label (Table 11-4). -/
def CueBody.text (b : CueBody) : List Byte := b.tail.take b.textLen

def CueBody.speaker (b : CueBody) : List Byte := (b.tail.drop b.textLen).take b.speakerLen

/-- A malformed cue copy (R71). -/
def cueMalformed (b : CueBody) : Bool :=
  if b.textLen = 0 then decide (b.number = 0 ∨ b.tail.length ≠ b.textLen + b.speakerLen)
  else
    decide
      (b.tail.length ≠ b.textLen + b.speakerLen ∨ b.number = 0 ∨ b.te ≤ b.ts ∨ showMax < b.ts ∨ showMax < b.te ∨
        200 < b.textLen ∨ 32 < b.speakerLen ∨ 15 < b.region)

/-- The caption of a new cue: every flag clear, but TEST on a generated one (R69). -/
def newCaption (b : CueBody) (test : Bool) : Caption where
  number := b.number
  ts := b.ts
  te := b.te
  region := b.region
  cls := b.cls
  text := CueBody.text b
  speaker := CueBody.speaker b
  amended := false
  late := false
  test := test
  repeated := false

/-- An amendment: the copy's fields and AMENDED, the other flags kept (R69). -/
def amendCaption (c : Caption) (b : CueBody) : Caption :=
  { newCaption b c.test with amended := true, late := c.late, repeated := c.repeated }

/-- A cue put after every pending cue of equal or earlier start and before every later one (R70, R72). -/
def insertCue (c : Cue) : List Cue → List Cue
  | [] => [c]
  | d :: ds => if c.caption.ts < d.caption.ts then c :: d :: ds else d :: insertCue c ds

def State.placeCue (s : State) (k : Nat) (c : Cue) : State :=
  s.updateTrack k fun tr => { tr with pending := insertCue c tr.pending }

/-- The passed instants of a cue just placed, band 0 excepted, where the late rule applies (R72, R75). -/
def State.takePassedOnArrival (s : State) (k : Nat) (a sh n : Nat) : State :=
  if (s.lifecycle a).advancing then s.takePassedCue k sh false n else s

/-- A new cue that is to be placed (R72, R73). On a full list OVERFLOW is set and counted before the victim's CAPTION WITHDRAW
frames are made (DESIGN CHOICE, log entry 40). -/
def State.placeNewCue (s : State) (k : Nat) (tr : Track) (c : Cue) (sh : Nat) : State :=
  if tr.pending.length < tr.depth then
    (((s.placeCue k c).bumpTrack k .cuesAccepted).paceUp k).takePassedOnArrival k tr.auditorium sh c.caption.number
  else
    let s := (s.setFlag .overflow k).bumpTrack k .overflowDrops
    match tr.pending.getLast? with
    | none => s
    | some victim =>
      if victim.caption.ts ≤ c.caption.ts then s
      else
        ((((s.removePending k victim.caption.number).withdrawCue k tr victim.caption.number
                (s.markedPopulated k tr victim.marks)).placeCue k c).bumpTrack k .cuesAccepted).takePassedOnArrival k
          tr.auditorium sh c.caption.number

/-- A new cue: judged by the late rule where show time advances, then placed (R72, R73). -/
def State.arriveNewCue (s : State) (k : Nat) (tr : Track) (b : CueBody) (test : Bool) : State :=
  let au := s.auditorium tr.auditorium
  let sh := s.showTime tr.auditorium
  let c := newCaption b test
  if au.lifecycle.advancing && cueLate au tr c sh then
    if cueWorthShowing au c sh then
      let c := { c with late := true }
      let bs := releaseOrder (releaseInstant au tr c.ts) (openBands au (PerBand.all false))
      let s := bs.foldl (fun s b => s.releaseCaption k tr c b) s
      (s.becomeCurrent k ⟨c, bs.foldl (fun m b => m.set b true) (PerBand.all false)⟩).bumpTrack k .lateReleases
    else s.bumpTrack k .expired
  else s.placeNewCue k tr ⟨c, PerBand.all false⟩ sh

/-- The amendment of a pending cue (R74, R75). -/
def State.amendPending (s : State) (k : Nat) (tr : Track) (old : Cue) (b : CueBody) : State :=
  let au := s.auditorium tr.auditorium
  let sh := s.showTime tr.auditorium
  let c : Cue := { old with caption := amendCaption old.caption b }
  let n := b.number
  let s := s.bumpTrack k .amendments
  let marked := s.markedPopulated k tr old.marks
  if au.lifecycle.advancing && cueLate au tr c.caption sh then
    if cueWorthShowing au c.caption sh then
      ((s.editPending k n fun _ => c).replaceCue k tr c.caption marked).evaluateCue k sh n
    else (((s.removePending k n).bumpTrack k .expired).withdrawCue k tr n marked).paceDown k
  else
    (((s.removePending k n).placeCue k c).replaceCue k tr c.caption marked).takePassedOnArrival k tr.auditorium sh n

/-- The amendment of the current cue (R76). -/
def State.amendCurrent (s : State) (k : Nat) (tr : Track) (old : Cue) (b : CueBody) : State :=
  let c := amendCaption old.caption b
  let s := s.bumpTrack k .amendments
  if s.showTime tr.auditorium < b.te then
    (s.updateTrack k fun tr => { tr with current := some { old with caption := c } }).replaceCue k tr c
      (s.populatedBands k tr)
  else
    (s.updateTrack k fun tr => { tr with current := none }).withdrawCue k tr b.number (s.populatedBands k tr)

/-- The current cue of a track that holds a cue number. -/
def Track.currentCue (tr : Track) (n : Nat) : Option Cue := tr.current.filter fun c => c.caption.number == n

/-- A deletion (R77). -/
def State.deleteCue (s : State) (k : Nat) (tr : Track) (n : Nat) : State :=
  match tr.pendingCue n with
  | some c =>
    (((s.removePending k n).bumpTrack k .deletions).withdrawCue k tr n (s.markedPopulated k tr c.marks)).paceDown k
  | none =>
    match tr.currentCue n with
    | some _ =>
      ((s.updateTrack k fun tr => { tr with current := none }).bumpTrack k .deletions).withdrawCue k tr n
        (s.populatedBands k tr)
    | none => s.bumpTrack k .deleteMiss

/-- The arrival of a cue copy at a caption track (R71, Table 4-3). `src` is the source of a copy from SCL, absent for a
generated cue, which leaves the track's source as it stands. -/
def State.arriveCue (s : State) (k : Nat) (b : CueBody) (src : Option Source) (test : Bool) : State :=
  if cueMalformed b then s.bumpTrack k .badCue
  else
    let s := if src.isSome then s.updateTrack k fun tr => { tr with source := src } else s
    match s.track k with
    | none => s
    | some tr =>
      if b.textLen = 0 then s.deleteCue k tr b.number
      else
        match tr.pendingCue b.number with
        | some c => s.amendPending k tr c b
        | none =>
          match tr.currentCue b.number with
          | some c => s.amendCurrent k tr c b
          | none => s.arriveNewCue k tr b test

end Sys2Proof.Machine
end

