-- ==== Sys2Proof/Machine/Descriptions.lean ====
section
/-! DEFINITION. Description tracks: the release of blocks and the late rule (Chapter 6), and the arrival of blocks
(Chapter 5). -/

namespace Sys2Proof.Machine

/-! ### The release of a block (R101, R104) -/

/-- A block released to one band: counted, and if the band has members its AUDIO GAP, where it carries one, and then its
AUDIO are sent, each with deadline Tp (R101, Table 6-1). -/
def State.releaseAudio (s : State) (k : Nat) (tr : Track) (x : Block) (b : Band) : State :=
  let s := s.bumpTrack k .releases
  if s.memberCount k b = 0 then s
  else
    let s :=
      match x.gap with
      | none => s
      | some g => s.sendToBand k tr b .audio (.audioGap k x.audio.seq g) (some x.audio.tp)
    s.sendToBand k tr b .audio (.audio k x.audio) (some x.audio.tp)

/-- The block of the ring with a sequence (R85: no two share one). -/
def Track.ringBlock (tr : Track) (q : Nat) : Option Block := tr.ring.find? fun x => x.audio.seq == q

/-- A block leaves the ring; the blocks that remain keep their order. -/
def State.removeBlock (s : State) (k q : Nat) : State :=
  s.updateTrack k fun tr => { tr with ring := tr.ring.filter fun x => x.audio.seq != q }

/-- A change of the block with a sequence. -/
def State.editBlock (s : State) (k q : Nat) (f : Block → Block) : State :=
  s.updateTrack k fun tr => { tr with ring := tr.ring.map fun x => if x.audio.seq = q then f x else x }

/-- A block of the ring released to one band: marked, counted and sent; at band 0 it leaves the ring and pacing is
evaluated (R94, R104). -/
def State.releaseBlock (s : State) (k q : Nat) (b : Band) : State :=
  match s.track k with
  | none => s
  | some tr =>
    match tr.ringBlock q with
    | none => s
    | some x =>
      let s := (s.editBlock k q fun _ => { x with marks := x.marks.set b true }).releaseAudio k tr x b
      if b.val = 0 then (s.removeBlock k q).paceDown k else s

/-- A block released to several bands in turn. -/
def State.releaseBlockTo (s : State) (k q : Nat) (bs : List Band) : State :=
  bs.foldl (fun s b => s.releaseBlock k q b) s

/-! ### The late rule for blocks (R106) -/

/-- A block is late: show time is at or past its band-0 instant (R106). -/
def blockLate (au : Auditorium) (tr : Track) (x : Audio) (sh : Nat) : Bool :=
  decide (releaseInstant au tr x.tp 0 ≤ sh)

/-- The late rule on one block of the ring at show time `sh` (R106). -/
def State.evaluateBlock (s : State) (k sh q : Nat) : State :=
  match s.track k with
  | none => s
  | some tr =>
    match tr.ringBlock q with
    | none => s
    | some x =>
      let au := s.auditorium tr.auditorium
      if blockLate au tr x.audio sh then
        if sh < x.audio.tp then
          ((s.editBlock k q fun x => { x with audio := { x.audio with late := true } }).releaseBlockTo k q
            (releaseOrder (releaseInstant au tr x.audio.tp) (openBands au x.marks))).bumpTrack k .lateReleases
        else ((s.removeBlock k q).bumpTrack k .expired).paceDown k
      else s

/-- The passed instants of one block taken at once as ordinary releases, with or without band 0 (R107). -/
def State.takePassedBlock (s : State) (k sh : Nat) (withZero : Bool) (q : Nat) : State :=
  match s.track k with
  | none => s
  | some tr =>
    match tr.ringBlock q with
    | none => s
    | some x =>
      s.releaseBlockTo k q (dueBands (s.auditorium tr.auditorium) tr x.audio.tp x.marks sh withZero)

/-- The sequences of a track's ring, in ring order. -/
def State.ringNumbers (s : State) (k : Nat) : List Nat :=
  match s.track k with
  | none => []
  | some tr => tr.ring.map fun x => x.audio.seq

/-! ### Arrival (R87 to R93) -/

/-- A malformed block copy (R87). -/
def blockMalformed (b : BlockBody) : Bool :=
  decide
    (b.duration < 10000 ∨ 60000 < b.duration ∨ b.tail.length < 16 ∨ 960 < b.tail.length ∨ showMax < b.tp ∨
      b.tail.length ≠ b.payloadLen)

/-- The gap-before of an arriving block behind the last accepted one (R90). -/
def gapBefore (last : LastBlock) (b : BlockBody) : Option Gap :=
  if 1 < b.seq - last.seq then some ⟨min 255 (b.seq - last.seq - 1), b.tp - (last.tp + last.duration)⟩ else none

/-- The blocks of a ring that an arriving block supersedes (R89). -/
def superseded (b : BlockBody) (x : Block) : Bool := decide (b.seq ≤ x.audio.seq ∨ b.tp < x.audio.tp)

/-- Supersession, with pacing where it lowers occupancy (R89). -/
def State.supersede (s : State) (k : Nat) (tr : Track) (b : BlockBody) : State :=
  let gone := (tr.ring.filter (superseded b)).length
  if gone = 0 then s
  else
    ((s.updateTrack k fun tr => { tr with ring := tr.ring.filter fun x => !superseded b x }).bumpBy
      (.track k .superseded) gone).paceDown k

def State.setLastBlock (s : State) (k : Nat) (v : Option LastBlock) : State :=
  s.updateTrack k fun tr => { tr with lastBlock := v }

/-- A block that has passed the order checks: the late judgement, the room check and the placement (R91 to R93). -/
def State.acceptBlock (s : State) (k : Nat) (b : BlockBody) (gap : Option Gap) (test : Bool) : State :=
  match s.track k with
  | none => s
  | some tr =>
    let au := s.auditorium tr.auditorium
    let sh := s.showTime tr.auditorium
    let a : Audio := ⟨b.seq, b.tp, b.duration, b.tail, false, test⟩
    let last : LastBlock := ⟨b.seq, b.tp, b.duration⟩
    if au.lifecycle.advancing && blockLate au tr a sh then
      let s := s.setLastBlock k (some last)
      if sh < b.tp then
        let x : Block := ⟨{ a with late := true }, gap, PerBand.all false⟩
        ((releaseOrder (releaseInstant au tr b.tp) (openBands au x.marks)).foldl
          (fun s c => s.releaseAudio k tr x c) s).bumpTrack k .lateReleases
      else s.bumpTrack k .expired
    else if tr.depth ≤ tr.ring.length then (s.setFlag .overflow k).bumpTrack k .overflowDrops
    else
      let s := s.updateTrack k fun tr => { tr with ring := tr.ring ++ [⟨a, gap, PerBand.all false⟩], lastBlock := some last }
      let s := (s.bumpTrack k .blocksAccepted).paceUp k
      if au.lifecycle.advancing then s.takePassedBlock k sh false b.seq else s

/-- The arrival of a block copy at a description track (Table 5-2). `src` is the source of a copy from SCL, absent for a
generated block. -/
def State.arriveBlock (s : State) (k : Nat) (b : BlockBody) (src : Option Source) (test : Bool) : State :=
  if blockMalformed b then s.bumpTrack k .badBlock
  else
    let s := if src.isSome then s.updateTrack k fun tr => { tr with source := src } else s
    match s.track k with
    | none => s
    | some tr =>
      match tr.lastBlock with
      | none => (s.supersede k tr b).acceptBlock k b none test
      | some last =>
        if b.seq ≤ last.seq then s.bumpTrack k .reordered
        else if b.tp < last.tp then s.bumpTrack k .outOfOrder
        else
          match gapBefore last b with
          | none => s.acceptBlock k b none test
          | some g => (s.bumpTrack k .gapsMarked).acceptBlock k b (some g) test

end Sys2Proof.Machine
end

