-- ==== Sys2Proof/Machine/Stepping.lean ====
section
/-! DEFINITION. The evaluation of pending content (R107), the step handling in its forms (section 6.4), and the judgement
of the current cue (R111, R114). -/

namespace Sys2Proof.Machine

/-! ### Evaluation (R107) -/

/-- The late rule over a track's pending list or ring in order (R105, R106). -/
def State.lateTrack (s : State) (k sh : Nat) : State :=
  match s.track k with
  | none => s
  | some tr =>
    match tr.kind with
    | .caption => (s.pendingNumbers k).foldl (fun s n => s.evaluateCue k sh n) s
    | .description => (s.ringNumbers k).foldl (fun s q => s.evaluateBlock k sh q) s

/-- The passed instants of a track's records, taken at once as ordinary releases (R107). R100 orders the instants of one
record; among the records of a track they are taken record by record in list or ring order (DESIGN CHOICE, log entry 34). -/
def State.takePassedTrack (s : State) (k sh : Nat) (withZero : Bool) : State :=
  match s.track k with
  | none => s
  | some tr =>
    match tr.kind with
    | .caption => (s.pendingNumbers k).foldl (fun s n => s.takePassedCue k sh withZero n) s
    | .description => (s.ringNumbers k).foldl (fun s q => s.takePassedBlock k sh withZero q) s

/-- The late rule on a track and then its passed ordinary instants (R107, R112). -/
def State.evaluateTrack (s : State) (k sh : Nat) : State := (s.lateTrack k sh).takePassedTrack k sh false

/-- The late rule over all pending content of an auditorium, track by track in increasing number (R107 points 2 and 3). -/
def State.evaluateAll (s : State) (a sh : Nat) : State :=
  (s.boundTracks a).foldl (fun s k => s.evaluateTrack k sh) s

/-! ### The current cue (R111) -/

/-- The judgement of a caption track's current cue at show time `sh`: re-released with REPEAT while it is still on screen,
otherwise absent and counted PURGED (R111). -/
def State.judgeCurrent (s : State) (k sh : Nat) : State :=
  match s.track k with
  | none => s
  | some tr =>
    match tr.current with
    | none => s
    | some c =>
      let au := s.auditorium tr.auditorium
      if c.caption.ts ≤ sh ∧ cueWorthShowing au c.caption sh = true then
        let cap := { c.caption with repeated := true }
        let marks := bands.foldl (fun m b => if (au.band b).enabled then m.set b true else m) c.marks
        let s := s.setTrack k (some { tr with current := some ⟨cap, marks⟩ })
        ((s.populatedBands k tr).foldl
          (fun s b => s.sendCaption k tr b (.caption k cap) (some (captionDeadline au cap))) s).bumpTrack k .repeats
      else (s.setTrack k (some { tr with current := none })).bumpTrack k .purged

/-- The current cue made absent and counted PURGED, if it is present (R82). -/
def State.purgeCurrent (s : State) (k : Nat) : State :=
  match s.track k with
  | none => s
  | some tr =>
    if tr.current.isSome then (s.setTrack k (some { tr with current := none })).bumpTrack k .purged else s

/-- The current cue of each caption track of an auditorium judged (R114). -/
def State.judgeAll (s : State) (a sh : Nat) : State :=
  (s.boundTracks a).foldl (fun s k => s.judgeCurrent k sh) s

/-! ### The step handling (R108 to R114, Table 6-2) -/

/-- The forms of the step handling (Table 6-2). -/
inductive StepForm where
  | step (full : Bool)
  | showEnd
  | lost
  deriving DecidableEq, Repr

/-- Step 2: a CAPTION CLEAR or AUDIO FLUSH to each populated enabled band in increasing number (R109). -/
def State.clearDevices (s : State) (k : Nat) : State :=
  match s.track k with
  | none => s
  | some tr =>
    (s.populatedBands k tr).foldl (fun s b =>
      match tr.kind with
      | .caption => s.sendToBand k tr b .caption (.captionClear k) none
      | .description => s.sendToBand k tr b .audio (.audioFlush k) none) s

/-- Whether steps 3 and 4 remove a pending cue (Table 6-2). -/
def StepForm.purgesCue (f : StepForm) (sh : Nat) (c : Cue) : Bool :=
  match f with
  | .step full => full || decide (c.caption.te ≤ sh)
  | .showEnd => true
  | .lost => false

/-- Whether steps 3 and 4 remove a block (Table 6-2). -/
def StepForm.purgesBlock (f : StepForm) (sh : Nat) (x : Block) : Bool :=
  match f with
  | .step full => full || decide (x.audio.tp < sh)
  | .showEnd => true
  | .lost => false

/-- The last accepted block after step 4: absent in every form but LOST (R110). -/
def StepForm.lastBlock (f : StepForm) (last : Option LastBlock) : Option LastBlock :=
  match f with
  | .step _ => none
  | .showEnd => none
  | .lost => last

/-- Steps 3 and 4: the purge, each removed record counted, pacing evaluated once the removal is complete (R82, R95,
R110). -/
def State.purgeTrack (s : State) (k sh : Nat) (f : StepForm) : State :=
  match s.track k with
  | none => s
  | some tr =>
    let tr' := { tr with
      pending := tr.pending.filter fun c => !f.purgesCue sh c
      ring := tr.ring.filter fun x => !f.purgesBlock sh x
      lastBlock := f.lastBlock tr.lastBlock }
    let gone := (tr.pending.length - tr'.pending.length) + (tr.ring.length - tr'.ring.length)
    let s := (s.setTrack k (some tr')).bumpBy (.track k .purged) gone
    if gone = 0 then s else s.paceDown k

/-- Step 5: the released marks of every remaining record cleared (R110). -/
def State.clearMarks (s : State) (k : Nat) : State :=
  s.updateTrack k fun tr =>
    { tr with
      pending := tr.pending.map fun c => { c with marks := PerBand.all false }
      ring := tr.ring.map fun x => { x with marks := PerBand.all false } }

/-- Step 6: the current cue judged, purged or kept (Table 6-2, R111). -/
def State.stepCurrent (s : State) (k sh : Nat) (f : StepForm) : State :=
  match f with
  | .step true => s.purgeCurrent k
  | .step false => s.judgeCurrent k sh
  | .showEnd => s.purgeCurrent k
  | .lost => s

/-- Step 7: the late rule and the passed instants, in the STEP form and not in PAUSED (R112). -/
def State.stepLate (s : State) (a k sh : Nat) (f : StepForm) : State :=
  match f with
  | .step _ => if s.lifecycle a = .paused then s else s.evaluateTrack k sh
  | .showEnd => s
  | .lost => s

/-- Steps 2 to 7 for one track (R108). -/
def State.stepTrack (s : State) (a sh : Nat) (f : StepForm) (k : Nat) : State :=
  ((((s.clearDevices k).purgeTrack k sh f).clearMarks k).stepCurrent k sh f).stepLate a k sh f

/-- The classes step 1 withdraws (R109). -/
def EgressClass.withdrawnAtStep (c : EgressClass) : Bool :=
  match c with
  | .audio => true
  | .caption => true
  | .catchup => true
  | .beacon => false

/-- The step handling of an auditorium at the new show time `sh` (R108): the withdrawal once, then each bound track. -/
def State.stepHandling (s : State) (a sh : Nat) (f : StepForm) : State :=
  let s := (s.bumpAuditorium a .stepHandlings).withdraw fun e => e.auditorium == a && e.cls.withdrawnAtStep
  (s.boundTracks a).foldl (fun s k => s.stepTrack a sh f k) s

/-- The house-check clearing: the SHOW END form, which withdraws nothing (R113). It is no run of the step handling, and
STEP_HANDLINGS does not count it (log entry 12). -/
def State.houseCheckClearing (s : State) (a : Nat) : State :=
  (s.boundTracks a).foldl (fun s k => s.stepTrack a (s.showTime a) .showEnd k) s

/-- The release position of a band: the first record of the list not marked for it (section 6.1). -/
def Track.positionCue (tr : Track) (b : Band) : Option Cue := tr.pending.find? fun c => !c.marks.get b

def Track.positionBlock (tr : Track) (b : Band) : Option Block := tr.ring.find? fun x => !x.marks.get b

/-- The bands of `order` up to and including `b`. -/
def bandsUpTo (b : Band) : List Band → List Band
  | [] => []
  | c :: cs => if c = b then [c] else c :: bandsUpTo b cs

/-- A release instant of band `b` of track `k` taken at show time: the position's instant if show time has reached it,
behind the instants of the same record that R100 takes before it. -/
def State.takeInstant (s : State) (k : Nat) (b : Band) : State :=
  match s.track k with
  | none => s
  | some tr =>
    let au := s.auditorium tr.auditorium
    let sh := s.showTime tr.auditorium
    if au.lifecycle.advancing then
      match tr.kind with
      | .caption =>
        match tr.positionCue b with
        | none => s
        | some c =>
          let due := dueBands au tr c.caption.ts c.marks sh true
          if b ∈ due then s.releasePendingTo k c.caption.number (bandsUpTo b due) else s
      | .description =>
        match tr.positionBlock b with
        | none => s
        | some x =>
          let due := dueBands au tr x.audio.tp x.marks sh true
          if b ∈ due then s.releaseBlockTo k x.audio.seq (bandsUpTo b due) else s
    else s

end Sys2Proof.Machine
end

