-- ==== Sys2Proof/Machine/Subscriptions.lean ====
section
/-! DEFINITION. The Subscription Table's operations: scores, report windows, detachment, member counts, freeing
(Chapter 8). -/

namespace Sys2Proof.Machine

/-- The report window's deadline from its start: 2 × the report period of the auditorium (R147). -/
def State.windowFrom (s : State) (a start : Nat) : Nat := start + 2 * (s.auditorium a).params.reportPeriod * 1000000

/-- A member more on a track's band (R135). -/
def State.addMember (s : State) (k : Nat) (b : Band) : State := s.setMemberCount k b (s.memberCount k b + 1)

/-- A member less on a track's band (R135). -/
def State.dropMember (s : State) (k : Nat) (b : Band) : State := s.setMemberCount k b (s.memberCount k b - 1)

/-- The score after an accepted REPORT with missed count `m` (R146). -/
def scoreAfterReport (score m : Nat) : Nat := if m = 0 then score - 1 else min 256 (score + 4 * min m 16)

/-- The score after a window expiry (R146). -/
def scoreAfterWindow (score : Nat) : Nat := min 256 (score + 16)

/-- A record enters DETACHED at engine time `e` (R148): the count falls, the window ends, the hold starts, the flag is set
and the entry counted. -/
def State.detach (s : State) (i : Nat) (r : Subscription) (e : Nat) : State :=
  let s := s.setSubscription i (some { r with score := 256, window := none, hold := some (e + holdTime) })
  let s := (s.dropMember r.track r.band).bumpAuditorium r.auditorium .detachments
  (s.setFlag .deviceDetached r.auditorium).updateBeacon r.auditorium

/-- A record with a changed score, its window restarted from `e` unless it enters DETACHED (R145 to R148). -/
def State.rescore (s : State) (i : Nat) (r : Subscription) (score e : Nat) : State :=
  if 256 ≤ score then s.detach i r e
  else s.setSubscription i (some { r with score := score, window := some (s.windowFrom r.auditorium e) })

/-- A record freed, with the member count it held (R144, R149). -/
def State.freeRecord (s : State) (i : Nat) (r : Subscription) : State :=
  let s := s.setSubscription i none
  if r.detached then s else (s.dropMember r.track r.band).updateBeacon r.auditorium

/-- Every record that a predicate names is freed and counted RECORDS_RELEASED on its auditorium (R151). -/
def State.releaseRecords (s : State) (names : Subscription → Bool) : State :=
  let gone := s.records.filter fun e => names e.2
  gone.foldl (fun s e => (s.setSubscription e.1 none).bumpAuditorium e.2.auditorium .recordsReleased) s

/-- The lowest free index from `i` on, within `fuel` indices (R134). -/
def State.firstFree (s : State) : Nat → Nat → Option Nat
  | 0, _ => none
  | fuel + 1, i => if (s.subscription i).isNone then some i else s.firstFree fuel (i + 1)

/-- The lowest free index of the table (R134). -/
def State.freeIndex (s : State) : Option Nat := s.firstFree subscriptionSize 0

/-- The non-DETACHED records naming an auditorium (R138 check 4). -/
def State.memberRecords (s : State) (a : Nat) : Nat :=
  (s.records.filter fun e => e.2.auditorium == a && !e.2.detached).length

/-- The highest reach score among all records naming a track, 0 if there are none (R159). -/
def State.highestScore (s : State) (k : Nat) : Nat :=
  (s.records.filter fun e => e.2.track == k).foldl (fun n e => max n e.2.score) 0

/-- The kind a JOIN or a TRACK BIND names by its code (Table 11-11, Table 11-13). -/
def kindOfCode (n : Nat) : Option TrackKind :=
  if n = 1 then some .caption else if n = 2 then some .description else none

/-- The track of a JOIN: the lowest-numbered BOUND track of its auditorium, kind and language, 0 accepting any (R137). -/
def State.joinTrack (s : State) (f : JoinFrame) : Option Nat :=
  trackNumbers.find? fun k =>
    match s.track k with
    | none => false
    | some tr =>
      tr.auditorium == f.auditorium && kindOfCode f.kind == some tr.kind &&
        (f.language == 0 || f.language == tr.language)

/-- The lifecycle states in which JOINs are accepted (R4). -/
def Lifecycle.joinable (l : Lifecycle) : Bool :=
  match l with
  | .ready => true
  | .running => true
  | .paused => true
  | .holdover => true
  | .lost => true
  | .test => true
  | .dark => false
  | .preparing => false
  | .closing => false

/-- The lifecycle states in which a JOIN to a caption track is followed by catch-up (R143). -/
def Lifecycle.catchesUp (l : Lifecycle) : Bool :=
  match l with
  | .running => true
  | .holdover => true
  | .paused => true
  | .ready => false
  | .lost => false
  | .test => false
  | .dark => false
  | .preparing => false
  | .closing => false

/-- The band a number names, if it is one of 0 to 3. -/
def bandOf (n : Nat) : Option Band := if h : n < 4 then some ⟨n, h⟩ else none

/-- The checks of Table 8-2 in their order: a refusal reason, or the track and band of an accepted JOIN. -/
def State.judgeJoin (s : State) (f : JoinFrame) : Except JoinOutcome (Nat × Band) :=
  if !(s.lifecycle f.auditorium).joinable then .error .noSuchShow
  else
    match s.joinTrack f with
    | none => .error .noSuchTrack
    | some k =>
      match bandOf f.band with
      | none => .error .bandOff
      | some b =>
        if !((s.auditorium f.auditorium).band b).enabled then .error .bandOff
        else
          let held := s.findHandle f.handle
          let adds := !(held.any fun e => !e.2.detached && e.2.auditorium == f.auditorium)
          if adds && decide ((s.auditorium f.auditorium).params.memberLimit ≤ s.memberRecords f.auditorium) then
            .error .auditoriumFull
          else if held.isNone && s.freeIndex.isNone then .error .tableFull
          else .ok (k, b)

/-- A CATCHUP entry to a device: the JOIN RESULT and the catch-up frames (R142, R143). -/
def catchupEntry (handle a : Nat) (track : Option Nat) (body : DeliveryBody) (deadline : Option Nat) : Entry where
  frame := ⟨.device handle, none, body⟩
  cls := .catchup
  auditorium := a
  track := track
  deadline := deadline
  order := 0

/-- The record of an accepted JOIN: made at the lowest free index, switched, or restored at its index (R139 to R141). -/
def State.subscribe (s : State) (ea : Nat) (f : JoinFrame) (k : Nat) (b : Band) : State :=
  let a := f.auditorium
  match s.findHandle f.handle with
  | none =>
    match s.freeIndex with
    | none => s
    | some i =>
      ((((s.setSubscription i (some ⟨f.handle, a, k, b, 0, ea, none, none, some (s.windowFrom a ea), none⟩)).addMember k
        b).bumpAuditorium a .joinsNew).updateBeacon a)
  | some (i, r) =>
    if r.detached then
      ((((s.setSubscription i (some ⟨f.handle, a, k, b, 0, ea, none, none, some (s.windowFrom a ea), none⟩)).addMember k
        b).bumpAuditorium a .joinsRestored).updateBeacon a)
    else
      let s := s.setSubscription i
        (some { r with
          auditorium := a, track := k, band := b, joinTime := ea, lastSeq := none, window := some (s.windowFrom a ea) })
      let s := ((s.dropMember r.track r.band).addMember k b).bumpAuditorium a .joinsSwitched
      (s.updateBeacon r.auditorium).updateBeacon a

/-- The JOIN RESULT of an accepted JOIN (R142). -/
def State.acceptResult (s : State) (f : JoinFrame) (k : Nat) (tr : Track) (b : Band) : DeliveryBody :=
  .joinResult .accepted f.auditorium
    (some ⟨k, tr.language, tr.variant, b, bandGroup tr.auditorium tr.slot b, wideGroup tr.auditorium, s.nextSeq k b⟩)

/-- The catch-up cues of a device that joins band `b` at show time `sh` (R143). -/
def Track.catchupCues (tr : Track) (b : Band) (sh : Nat) : List Caption :=
  ((tr.current.filter fun c => decide (sh < c.caption.te)).toList ++ tr.pending.filter fun c => c.marks.get b).map
    Cue.caption

/-- The catch-up frames of an accepted JOIN (R143). -/
def State.catchUp (s : State) (f : JoinFrame) (k : Nat) (tr : Track) (b : Band) : State :=
  if tr.kind = .caption ∧ (s.lifecycle f.auditorium).catchesUp = true then
    (tr.catchupCues b (s.showTime f.auditorium)).foldl (fun s c =>
      (s.bumpTrack k .catchupFrames).offer
        (catchupEntry f.handle tr.auditorium (some k) (.caption k c) (some c.te))) s
  else s

/-- A return frame is malformed: handle 0 or auditorium outside 1 to 24 (R136). -/
def returnMalformed (handle a : Nat) : Bool := decide (handle = 0 ∨ a < 1 ∨ 24 < a)

end Sys2Proof.Machine
end

