-- ==== Sys2Proof/Machine/HouseChecks.lean ====
section
/-! DEFINITION. The Check Generator's operations: the generated items and the ends of a check (Chapter 9). -/

namespace Sys2Proof.Machine

/-- The end results read from SBT for the checked track (R159). -/
def State.endResults (s : State) (c : HouseCheck) : HouseCheck :=
  match c.track with
  | none => c
  | some k => { c with devices := (bands.map (s.memberCount k)).sum, highest := s.highestScore k }

/-- A check ends with an outcome: IDLE, the deadline and previous Tp absent, the rest kept (R154). -/
def HouseCheck.ended (c : HouseCheck) (o : CheckOutcome) : HouseCheck :=
  { c with running := false, outcome := o, deadline := none, previousTp := none }

/-- The check of an auditorium ends: the end results are read and the outcome set (R159, R160). -/
def State.endCheck (s : State) (a : Nat) (o : CheckOutcome) : State :=
  s.setCheck a ((s.endResults (s.check a)).ended o)

/-- A track holds an item of its check: a generated cue pending or current, or a generated block in the ring (R159). -/
def Track.holdsTest (tr : Track) : Bool :=
  match tr.kind with
  | .caption => tr.pending.any (fun c => c.caption.test) || tr.current.any fun c => c.caption.test
  | .description => tr.ring.any fun x => x.audio.test

/-- A RUNNING check is complete: its generation deadline is absent and its track holds no item of it (R159). -/
def State.checkComplete (s : State) (a : Nat) : Bool :=
  let c := s.check a
  c.running && c.deadline.isNone &&
    match c.track with
    | none => true
    | some k =>
      match s.track k with
      | none => true
      | some tr => !tr.holdsTest

/-- The last accepted block of a checked description track becomes absent at completion (R86, R159). -/
def State.clearCheckedBlock (s : State) (a : Nat) : State :=
  match (s.check a).track with
  | none => s
  | some k => s.setLastBlock k none

/-- The completion of a check, where it is complete: the end results, COMPLETED, show time frozen, READY, the flag
(R159). -/
def State.completeCheck (s : State) (a : Nat) : State :=
  if s.checkComplete a then
    let s := ((s.endCheck a .completed).freezeClock a s.engineTime).clearCheckedBlock a
    ((s.setLifecycle a (s.readyState a)).setFlag .houseCheckDone a).updateBeacon a
  else s

/-- The completion of the check of a track's auditorium, if that is where the last item went (R159). -/
def State.completeTrackCheck (s : State) (k : Nat) : State :=
  match s.track k with
  | none => s
  | some tr => s.completeCheck tr.auditorium

/-- The first generated cue number is 0x7000_0000 + 1 (R157). -/
def checkNumberBase : Nat := 0x70000000

/-- The last item number of a CONTINUOUS check (R157, R158). -/
def lastItemNumber : Nat := 0x8FFFFFFF

/-- The COUNTER text: "CHECK " and n in decimal (R157). -/
def checkText (n : Nat) : List Byte := bytesOf [67, 72, 69, 67, 75, 32] ++ decimal n

/-- The text of generated cue n (R157). -/
def HouseCheck.cueText (c : HouseCheck) (n : Nat) : List Byte :=
  match c.mode with
  | some .fixed => c.text.getD []
  | some .counter => checkText n
  | some .regionSweep => checkText n
  | some .pattern => []
  | none => []

/-- Generated cue n at show time `sh` (R157). -/
def HouseCheck.cue (c : HouseCheck) (n sh lead : Nat) : CueBody :=
  let ts := min showMax (sh + lead + 100000)
  { label := 0
    cls := 0
    region := if c.mode = some .regionSweep then n % 16 else 0
    number := checkNumberBase + n
    ts := ts
    te := ts + (c.duration.getD 0) * 1000
    textLen := (c.cueText n).length
    speakerLen := 0
    tail := c.cueText n }

/-- Generated block n at show time `sh` (R158). -/
def HouseCheck.block (c : HouseCheck) (n sh lead : Nat) : BlockBody where
  label := 0
  seq := n
  tp := min showMax (match c.previousTp with
    | none => sh + lead + 100000
    | some p => p + 20000)
  duration := 20000
  payloadLen := 240
  tail := List.replicate 240 (c.pattern.getD 0)

/-- The generation deadline after item n, generated at deadline `x`: absent when the items equal the count, or at the last
number of a CONTINUOUS check (R157, R158). -/
def HouseCheck.nextDeadline (c : HouseCheck) (n x step : Nat) : Option Nat :=
  match c.count with
  | some 0 => if n = lastItemNumber then none else some (x + step)
  | some m => if c.items = m then none else some (x + step)
  | none => none

/-- The context after item n has been generated at deadline `x`. -/
def HouseCheck.generated (c : HouseCheck) (n x step : Nat) : HouseCheck :=
  let c := { c with items := min counterMax (c.items + 1), next := some (n + 1) }
  { c with deadline := c.nextDeadline n x step }

/-- CGN counts an accepted REPORT on the checked track of a RUNNING check (R161). -/
def State.checkReport (s : State) (a k missed : Nat) : State :=
  let c := s.check a
  if c.running ∧ c.track = some k then
    s.setCheck a
      { c with reports := min counterMax (c.reports + 1), missed := min counterMax (c.missed + missed) }
  else s

/-- The abort of a check by an accepted PLAYING (R160, R16): the end results, the clearing, the flag. -/
def State.abortCheck (s : State) (a : Nat) : State :=
  ((s.endCheck a .aborted).houseCheckClearing a).setFlag .houseCheckAborted a

end Sys2Proof.Machine
end

