-- ==== Sys2Proof/Machine/Operands.lean ====
section
/-! DEFINITION. The parameters of commands: the items of Table 11-13, their judgement (R166, R177, R179), the clamping of
quantities, and the run of the command at the head of the queue (R164, R165). -/

namespace Sys2Proof.Machine

/-! ### The items of each command (Table 11-13) -/

/-- The width of a parameter's value (R177). -/
inductive Width where
  | bytes (n : Nat)
  | station
  | text
  deriving DecidableEq, Repr

/-- A parameter of a command: its id, its width, whether a command without it is refused, and whether its item may be
given more than once, as the flag items of a flag set may (R177). -/
structure Param where
  id : Nat
  width : Width
  mandatory : Bool
  repeats : Bool
  deriving DecidableEq, Repr

/-- Whether a value has a parameter's width (R177). -/
def Width.admits (w : Width) (n : Nat) : Bool :=
  match w with
  | .bytes m => n == m
  | .station => n == 6 || n == 0
  | .text => true

/-- A parameter every command of its kind must carry. -/
def needed (id bytes : Nat) : Param := ⟨id, .bytes bytes, true, false⟩

/-- A parameter that may be left out. -/
def optional (id bytes : Nat) : Param := ⟨id, .bytes bytes, false, false⟩

/-- The flag items of a flag set (R177). An empty set is refused by its command (R169, R170). -/
def flagParam (id : Nat) : Param := ⟨id, .bytes 1, false, true⟩

/-- The parameters of AUDITORIUM OPEN and AUDITORIUM SET (Table 11-13). -/
def auditoriumParams : List Param :=
  [needed 1 1, optional 2 1, optional 3 8, optional 4 8, optional 5 4, optional 6 4, optional 7 4, optional 8 2,
    optional 9 4, optional 10 4, optional 11 4]

/-- The parameters of a command by its code (Tables 11-7 and 11-13); none for a code that is not recognised. -/
def commandParams (code : Nat) : Option (List Param) :=
  match code with
  | 0x01 => some [⟨1, .station, true, false⟩, ⟨2, .station, true, false⟩]
  | 0x02 => some [needed 1 1, needed 2 1, needed 3 4, needed 4 1, needed 5 1, needed 6 1, needed 7 1, needed 8 1]
  | 0x03 => some [needed 1 1]
  | 0x04 => some [needed 1 1, needed 2 4]
  | 0x05 => some auditoriumParams
  | 0x06 => some auditoriumParams
  | 0x07 => some [needed 1 1]
  | 0x08 => some [needed 1 1, needed 2 1, needed 3 1, optional 4 8]
  | 0x09 =>
    some [needed 1 1, needed 2 1, needed 3 2, needed 4 1, needed 5 2, optional 6 8, optional 7 2, optional 8 2]
  | 0x0A => some [needed 1 1, optional 2 8, optional 3 2, optional 4 2]
  | 0x0B => some [needed 1 1]
  | 0x0C => some [needed 1 1]
  | 0x0D => some [needed 1 1, needed 2 1, optional 3 1]
  | 0x0E =>
    some [needed 1 1, needed 2 1, needed 3 1, needed 4 2, ⟨5, .text, false, false⟩, optional 6 1, optional 7 4,
      optional 8 4]
  | 0x0F => some [needed 1 1]
  | 0x10 => some [needed 1 1]
  | 0x11 => some [needed 1 1, optional 2 1]
  | 0x12 => some [needed 1 1, optional 2 1, flagParam 3]
  | 0x13 => some [needed 1 1, flagParam 2]
  | 0x14 => some [optional 1 1]
  | 0x15 => some [needed 1 1, optional 2 1]
  | 0x16 => some [optional 1 2, optional 2 1, optional 3 6]
  | 0x17 => some [needed 1 1, needed 2 6]
  | 0x18 => some []
  | _ => none

/-- An item fits the parameters: its id is defined and its length is its value's width (R177). -/
def itemFits (ps : List Param) (i : Item) : Bool := ps.any fun p => p.id == i.id && p.width.admits i.value.length

/-- How many items carry an id. -/
def itemCount (items : List Item) (id : Nat) : Nat := (items.filter fun i => i.id == id).length

/-- The first stage of R166 over a command's items: every item defined and of its width, none given twice but the flags of
a set, every mandatory one present (R177). -/
def itemsFit (ps : List Param) (items : List Item) : Bool :=
  items.all (itemFits ps) &&
    ps.all fun p => (p.repeats || decide (itemCount items p.id ≤ 1)) && (!p.mandatory || decide (1 ≤ itemCount items p.id))

/-! ### Values (R166, R177) -/

/-- The bytes of a parameter, if it is carried. -/
def itemBytes (items : List Item) (id : Nat) : Option (List Byte) :=
  (items.find? fun i => i.id == id).map Item.value

/-- The value of a parameter, if it is carried. -/
def itemNat (items : List Item) (id : Nat) : Option Nat := (itemBytes items id).map beNat

/-- The value of a mandatory parameter. -/
def argument (items : List Item) (id : Nat) : Nat := (itemNat items id).getD 0

/-- The values of every item with an id: a flag set (R177). -/
def itemNats (items : List Item) (id : Nat) : List Nat :=
  (items.filter fun i => i.id == id).map fun i => beNat i.value

/-- A station address parameter: an item of length 0 is an absent one (R177). -/
def itemStation (items : List Item) (id : Nat) : Option Nat :=
  match itemBytes items id with
  | none => none
  | some [] => none
  | some (b :: bs) => some (beNat (b :: bs))

/-- A code of two values, 0 for no and 1 for yes. -/
def yesNo (n : Nat) : Option Bool := if n = 0 then some false else if n = 1 then some true else none

/-- An auditorium number in 1 to 24 (Table 0-2). -/
def auditoriumNumber (a : Nat) : Bool := decide (1 ≤ a ∧ a ≤ 24)

/-- A quantity held to its range, and whether it was moved (R166). -/
structure Held where
  value : Nat
  clamped : Bool
  deriving DecidableEq, Repr

/-- A value held at the nearest limit of its range (R166). -/
def hold (lo hi v : Nat) : Held := ⟨max lo (min hi v), decide (v < lo ∨ hi < v)⟩

/-- A quantity that a command may carry: held to its range if it does, otherwise as it stood (R2, R5). -/
def holdItem (items : List Item) (id lo hi : Nat) (standing : Nat) : Held :=
  match itemNat items id with
  | none => ⟨standing, false⟩
  | some v => hold lo hi v

/-- The parameters of Table 1-1 that AUDITORIUM OPEN or AUDITORIUM SET carries, over those that stand, with the lost time
held against the holdover time as it stands after the command (R1 to R3, R5, R166). -/
def readParams (items : List Item) (p : Params) : Params × Bool :=
  let transit := holdItem items 3 0 20000 p.transit
  let step := holdItem items 4 20000 2000000 p.stepThreshold
  let holdover := holdItem items 5 500 10000 p.holdover
  let lost := holdItem items 6 0 120000 p.lost
  let display := holdItem items 7 0 2000 p.minDisplay
  let members := holdItem items 8 1 1024 p.memberLimit
  let interval := holdItem items 9 100 2000 p.beaconInterval
  let report := holdItem items 10 1 30 p.reportPeriod
  let stale := holdItem items 11 0 2000 p.staleAllowance
  ({ source := (itemNat items 2).getD p.source
     transit := transit.value
     stepThreshold := step.value
     holdover := holdover.value
     lost := max lost.value holdover.value
     minDisplay := display.value
     memberLimit := members.value
     beaconInterval := interval.value
     reportPeriod := report.value
     staleAllowance := stale.value },
    transit.clamped || step.clamped || holdover.clamped || lost.clamped || decide (lost.value < holdover.value) ||
      display.clamped || members.clamped || interval.clamped || report.clamped || stale.clamped)

/-- The depths of a kind (Table 4-1). -/
def TrackKind.depths (kind : TrackKind) : List Nat :=
  match kind with
  | .caption => [8, 16, 32, 64]
  | .description => [32, 64, 128, 256]

/-- The lead of a kind when a bind carries none (R64, R97). -/
def TrackKind.defaultLead (kind : TrackKind) : Nat :=
  match kind with
  | .caption => 300000
  | .description => 150000

/-- Lead, high mark and low mark after a command, with whether any was moved (R64, R66). -/
structure Marks where
  lead : Nat
  high : Nat
  low : Nat
  clamped : Bool
  deriving DecidableEq, Repr

/-- The lead and marks a TRACK BIND or TRACK SET leaves, over those that stand; a low mark at or above the high mark is
set to the high mark - 1 (R64, R66). -/
def readMarks (items : List Item) (leadId highId lowId depth lead high low : Nat) : Marks :=
  let l := holdItem items leadId 0 2000000 lead
  let h := holdItem items highId 1 depth high
  let w := (itemNat items lowId).getD low
  ⟨l.value, h.value, if h.value ≤ w then h.value - 1 else w, l.clamped || h.clamped || decide (h.value ≤ w)⟩

/-! ### The run of the head command (R164, R165) -/

/-- How a run ends: DONE with its data items, REFUSED with a reason (and, for a TRACK BIND refused NO_SPACE, data items),
or with its RESULT owed (AUDITORIUM CLOSE, R17). -/
inductive Reply where
  | done (clamped : Bool) (items : List Item)
  | refused (reason : Reason) (items : List Item)
  | owed
  deriving DecidableEq, Repr

/-- A refused command changes nothing (R165). -/
def State.refuse (s : State) (r : Reason) : State × Reply := (s, .refused r [])

/-- A run that ends: its RESULT, the counts, and the head leaves the queue (R164, R165). -/
def State.endRun (s : State) (q : Queued) (reply : Reply) : State :=
  let s :=
    match reply with
    | .done c items => s.sendResult q.station q.tag q.code (.done c) items
    | .refused r items =>
      (s.sendResult q.station q.tag q.code (.refused r) items).bumpDevice .commandsRefused
    | .owed => s
  let s := s.bumpDevice .commandsRun
  { s with queue := s.queue.drop 1 }

/-- The run of the command at the head of the queue when it has `code`: its items are judged, then its own checks and
effect, then it ends (R164 to R166). A head of another code, or none, is no run of this command (log entry 6). -/
def State.runHead (s : State) (code : Nat) (body : Queued → State → State × Reply) : State :=
  match s.queue with
  | [] => s
  | q :: _ =>
    if q.code = code then
      if itemsFit ((commandParams code).getD []) q.items then
        let r := body q s
        r.1.endRun q r.2
      else s.endRun q (.refused .badParameter [])
    else s

/-! ### Data items of a RESULT (R179) -/

/-- A data item of `w` bytes. -/
def dataItem (id w v : Nat) : Item := ⟨id, beBytes w v⟩

/-- A data item of a value that may be absent: an item of length 0 then (R179). -/
def dataOption (id w : Nat) (v : Option Nat) : Item :=
  match v with
  | none => ⟨id, []⟩
  | some n => dataItem id w n

def boolNat (b : Bool) : Nat := if b then 1 else 0

/-- The codes of lifecycle states (Table 11-10). -/
def Lifecycle.code (l : Lifecycle) : Nat :=
  match l with
  | .dark => 0
  | .preparing => 1
  | .ready => 2
  | .running => 3
  | .paused => 4
  | .holdover => 5
  | .lost => 6
  | .test => 7
  | .closing => 8

def Scope.code (s : Scope) : Nat :=
  match s with
  | .device => 0
  | .auditorium => 1
  | .track => 2

/-- Summary code, scope and instance (R168). With no flag set the code is 0; R168 names no scope and no instance then, and
what their items of one byte hold is a free value (DESIGN CHOICE, log entry 36). -/
def summaryCodes (f : Option Flag) : Nat × Nat × Nat :=
  match f with
  | none => (0, Config.noFlagScope, Config.noFlagInstance)
  | some f => (f.name.rank, f.name.scope.code, f.inst)

/-- The three data items of the summary code from an id on (Table 11-14). -/
def State.summaryItems (s : State) (id : Nat) : List Item :=
  let c := summaryCodes s.summary
  [dataItem id 1 c.1, dataItem (id + 1) 1 c.2.1, dataItem (id + 2) 1 c.2.2]

end Sys2Proof.Machine
end

