-- ==== Sys2Proof/Machine/Frames.lean ====
section
/-! DEFINITION. The frames of Chapter 11: the judgement of a received frame and the step it becomes (R176), and the bytes
of every frame the part sends (Tables 11-8 to 11-10, R178). -/

namespace Sys2Proof.Machine

/-! ### The judgement of a received frame (R176) -/

/-- The Ethernet type of the part's frames (Chapter 11). -/
def frameType : Nat := 0x9A16

/-- The Ethernet type of a flow-control pause frame (section 11.4). -/
def pauseType : Nat := 0x8808

/-- The inbound kinds of each port with their fixed body part and whether a variable part may follow (Table 11-2). -/
def inboundKind (port : Port) (kind : Nat) : Option (Nat × Bool) :=
  match port with
  | .content =>
    match kind with
    | 0x01 => some (15, false)
    | 0x02 => some (28, true)
    | 0x03 => some (22, true)
    | 0x04 => some (3, true)
    | _ => none
  | .delivery =>
    match kind with
    | 0x31 => some (11, false)
    | 0x32 => some (7, false)
    | 0x33 => some (11, false)
    | _ => none

/-- The items a byte string spells, if they end exactly where it ends (R176, R177). -/
def parseItems : Nat → List Byte → Option (List Item)
  | _, [] => some []
  | 0, _ :: _ => none
  | _ + 1, [_] => none
  | fuel + 1, id :: len :: rest =>
    if rest.length < len.toNat then none
    else (parseItems fuel (rest.drop len.toNat)).map fun is => ⟨id.toNat, rest.take len.toNat⟩ :: is

/-- The field of `n` bytes at an offset of a body. -/
def fieldAt (body : List Byte) (offset n : Nat) : Nat := beNat ((body.drop offset).take n)

/-- How a port judges a frame (R176): wrong check sequence, bad frame, pause frame with its quanta, or a kind and body. -/
inductive Verdict where
  | badFcs
  | badFrame
  | pause (quanta : Nat)
  | accepted (kind : Nat) (body : List Byte)
  deriving DecidableEq, Repr

/-- The four checks of R176 in their order. A pause frame is one that has a quanta field: with fewer than four data bytes,
on which the manual is silent, the frame is judged by its type and counted BAD_FRAME (DESIGN CHOICE, log entry 37). -/
def judgeFrame (port : Port) (f : RawFrame) : Verdict :=
  if !f.fcsOk then .badFcs
  else if port = .delivery ∧ f.etherType = pauseType ∧ 4 ≤ f.data.length ∧ fieldAt f.data 0 2 = 1 then
    .pause (fieldAt f.data 2 2)
  else if f.etherType ≠ frameType then .badFrame
  else if f.data.length < 4 ∨ fieldAt f.data 0 1 ≠ 1 then .badFrame
  else
    let kind := fieldAt f.data 1 1
    let len := fieldAt f.data 2 2
    match inboundKind port kind with
    | none => .badFrame
    | some (fixed, hasVariable) =>
      let body := (f.data.drop 4).take len
      if f.data.length - 4 < len ∨ len < fixed ∨ (hasVariable = false ∧ len ≠ fixed) then .badFrame
      else if port = .content ∧ kind = 0x04 ∧ (parseItems body.length (body.drop 3)).isNone = true then .badFrame
      else .accepted kind body

/-- The bytes of a body as the fields of Tables 11-3 to 11-6 and 11-11. -/
def readShowtime (b : List Byte) : ShowtimeFrame :=
  ⟨fieldAt b 0 1, fieldAt b 1 1, fieldAt b 2 1, fieldAt b 3 8, fieldAt b 11 4⟩

def readCue (b : List Byte) : CueBody where
  label := BitVec.ofNat 32 (fieldAt b 0 4)
  cls := BitVec.ofNat 8 (fieldAt b 4 1)
  region := fieldAt b 5 1
  number := fieldAt b 6 4
  ts := fieldAt b 10 8
  te := fieldAt b 18 8
  textLen := fieldAt b 26 1
  speakerLen := fieldAt b 27 1
  tail := b.drop 28

def readBlock (b : List Byte) : BlockBody where
  label := BitVec.ofNat 32 (fieldAt b 0 4)
  seq := fieldAt b 4 4
  tp := fieldAt b 8 8
  duration := fieldAt b 16 4
  payloadLen := fieldAt b 20 2
  tail := b.drop 22

def readControl (b : List Byte) : ControlFrame :=
  ⟨fieldAt b 0 2, fieldAt b 2 1, (parseItems b.length (b.drop 3)).getD []⟩

def readJoin (b : List Byte) : JoinFrame := ⟨fieldAt b 0 6, fieldAt b 6 1, fieldAt b 7 1, fieldAt b 8 2, fieldAt b 10 1⟩

def readLeave (b : List Byte) : LeaveFrame := ⟨fieldAt b 0 6, fieldAt b 6 1⟩

def readReport (b : List Byte) : ReportFrame := ⟨fieldAt b 0 6, fieldAt b 6 1, fieldAt b 7 1, fieldAt b 8 2, fieldAt b 10 1⟩

/-- The step that a frame received on a port at engine time `ea` from a station becomes (R25, R176). -/
def receive (port : Port) (ea src : Nat) (f : RawFrame) : Instr :=
  match judgeFrame port f with
  | .badFcs => .frameDiscarded ea port f
  | .badFrame => .frameDiscarded ea port f
  | .pause q => .flowControlPause ea q
  | .accepted kind body =>
    match kind with
    | 0x01 => .showtime ea (readShowtime body)
    | 0x02 => .cue ea src (readCue body)
    | 0x03 => .block ea src (readBlock body)
    | 0x04 => .control ea src (readControl body)
    | 0x31 => .join ea (readJoin body)
    | 0x32 => .leave ea (readLeave body)
    | 0x33 => .report ea (readReport body)
    | _ => .frameDiscarded ea port f

/-! ### Frames sent (section 11.3, R178) -/

/-- The common header before a body (Table 11-1). -/
def withHeader (kind : Nat) (body : List Byte) : List Byte := beBytes 1 1 ++ beBytes 1 kind ++ beBytes 2 body.length ++ body

/-- Zero bytes up to the 46 data bytes of the shortest Ethernet frame (R178; the 46 is Ethernet's, log entry 22). -/
def padded (data : List Byte) : List Byte := data ++ List.replicate (46 - data.length) 0

/-- An Ethernet frame from a port: destination, source, type, data (section 11.3). -/
def etherFrame (dest src : Nat) (data : List Byte) : List Byte :=
  beBytes 6 dest ++ beBytes 6 src ++ beBytes 2 frameType ++ padded data

def itemBytesOut (i : Item) : List Byte := beBytes 1 i.id ++ beBytes 1 i.value.length ++ i.value

/-- The reason code of a RESULT (Table 11-8). -/
def Reason.code (r : Reason) : Nat :=
  match r with
  | .busy => 1
  | .wrongState => 2
  | .badParameter => 3
  | .noSpace => 4
  | .noTrack => 5
  | .unknownCommand => 6

/-- Status and reason bytes of a RESULT (Table 11-8). -/
def Status.bytes (st : Status) : List Byte :=
  match st with
  | .done false => [0, 0]
  | .done true => [1, 0]
  | .refused r => [2, BitVec.ofNat 8 r.code]

/-- The destination of a content-port frame. -/
def ContentFrame.dest (f : ContentFrame) : Nat :=
  match f with
  | .result d _ _ _ _ _ => d
  | .alert d _ _ _ => d
  | .pace d _ _ _ => d

/-- The header and body of a content-port frame (Table 11-8). -/
def ContentFrame.data (f : ContentFrame) : List Byte :=
  match f with
  | .result _ tag code st time items =>
    withHeader 0x11 (beBytes 2 tag ++ beBytes 1 code ++ st.bytes ++ beBytes 8 time ++ items.flatMap itemBytesOut)
  | .alert _ flag time summary =>
    let c := summaryCodes summary
    withHeader 0x12
      (beBytes 1 flag.name.rank ++ beBytes 1 flag.name.scope.code ++ beBytes 1 flag.inst ++ beBytes 8 time ++
        beBytes 1 c.1 ++ beBytes 1 c.2.1 ++ beBytes 1 c.2.2)
  | .pace _ hold track label =>
    withHeader 0x13 (beBytes 1 (if hold then 1 else 2) ++ beBytes 1 track ++ beBytes 4 label.toNat)

/-- A content-port frame as it leaves the part (section 11.3). -/
def ContentFrame.wire (f : ContentFrame) : List Byte := etherFrame f.dest Config.contentPortAddress f.data

/-- The ten-byte delivery prefix (Table 11-9). -/
def DeliveryFrame.prefixBytes (f : DeliveryFrame) : List Byte :=
  (match f.dest with
    | .group g => beBytes 1 1 ++ beBytes 4 0 ++ beBytes 2 g
    | .device h => beBytes 1 2 ++ beBytes 6 h) ++
    beBytes 2 (f.seq.getD 0).toNat ++ beBytes 1 (boolNat f.seq.isSome)

/-- The flags byte of a CAPTION (Table 11-10). -/
def Caption.flagByte (c : Caption) : Nat :=
  boolNat c.amended + 2 * boolNat c.late + 4 * boolNat c.test + 8 * boolNat c.repeated

/-- The fields of a CAPTION or CAPTION REPLACE after the prefix (Table 11-10). -/
def captionFields (track : Nat) (c : Caption) : List Byte :=
  beBytes 1 track ++ beBytes 4 c.number ++ beBytes 8 c.ts ++ beBytes 8 c.te ++ beBytes 1 c.region ++
    beBytes 1 c.cls.toNat ++ beBytes 1 c.flagByte ++ beBytes 1 c.text.length ++ beBytes 1 c.speaker.length ++ c.text ++
      c.speaker

/-- The result codes of a JOIN RESULT (Table 11-10). -/
def JoinOutcome.code (o : JoinOutcome) : Nat :=
  match o with
  | .accepted => 0
  | .noSuchShow => 1
  | .noSuchTrack => 2
  | .bandOff => 3
  | .auditoriumFull => 4
  | .tableFull => 5

/-- The frame kind of a delivery body (Table 11-2). -/
def DeliveryBody.kind (b : DeliveryBody) : Nat :=
  match b with
  | .caption _ _ => 0x21
  | .captionReplace _ _ => 0x22
  | .captionWithdraw _ _ => 0x23
  | .captionClear _ => 0x24
  | .audio _ _ => 0x25
  | .audioGap _ _ _ => 0x26
  | .audioFlush _ => 0x27
  | .beacon _ _ => 0x28
  | .joinResult _ _ _ => 0x29
  | .showEnded _ => 0x2A
  | .trackEnded _ _ _ => 0x2B

/-- The fields of a delivery body after the prefix (Table 11-10). A BEACON is filled at its grant, so the wire never
carries one without its fields. -/
def DeliveryBody.fields (b : DeliveryBody) : List Byte :=
  match b with
  | .caption k c => captionFields k c
  | .captionReplace k c => captionFields k c
  | .captionWithdraw k n => beBytes 1 k ++ beBytes 4 n
  | .captionClear k => beBytes 1 k
  | .audio k a =>
    beBytes 1 k ++ beBytes 4 a.seq ++ beBytes 8 a.tp ++ beBytes 4 a.duration ++
      beBytes 1 (2 * boolNat a.late + 4 * boolNat a.test) ++ beBytes 2 a.payload.length ++ a.payload
  | .audioGap k q g => beBytes 1 k ++ beBytes 4 q ++ beBytes 1 g.missing ++ beBytes 8 g.span
  | .audioFlush k => beBytes 1 k
  | .beacon a none => beBytes 1 a ++ List.replicate 14 0
  | .beacon a (some x) =>
    beBytes 1 a ++ beBytes 1 x.lifecycle.code ++ beBytes 1 (boolNat x.composition.isSome) ++
      beBytes 4 (x.composition.getD 0) ++ beBytes 8 x.showTime
  | .joinResult o a none => beBytes 1 o.code ++ beBytes 1 a ++ List.replicate 11 0
  | .joinResult o a (some p) =>
    beBytes 1 o.code ++ beBytes 1 a ++ beBytes 1 p.track ++ beBytes 2 p.language ++ beBytes 1 p.variant ++
      beBytes 1 p.band.val ++ beBytes 2 p.group ++ beBytes 2 p.wideGroup ++ beBytes 2 p.nextSeq.toNat
  | .showEnded a => beBytes 1 a
  | .trackEnded k l v => beBytes 1 k ++ beBytes 2 l ++ beBytes 1 v

/-- The header and body of a delivery frame (R178). -/
def DeliveryFrame.data (f : DeliveryFrame) : List Byte := withHeader f.body.kind (f.prefixBytes ++ f.body.fields)

/-- The Ethernet broadcast address (R178). -/
def broadcast : Nat := 0xFFFFFFFFFFFF

/-- A delivery frame as it leaves the part (R178). -/
def DeliveryFrame.wire (f : DeliveryFrame) : List Byte := etherFrame broadcast Config.deliveryPortAddress f.data

end Sys2Proof.Machine
end

