-- ==== Sys2Proof/Machine/PowerAndLinks.lean ====
section
/-! DEFINITION. Power-on, ENGINE RESET and its completion, the two links, discarded frames and the pause window: POWER_ON,
ENGINE_RESET, RESET_COMPLETION, CONTENT_LINK_DOWN, CONTENT_LINK_UP, DELIVERY_LINK_DOWN, DELIVERY_LINK_UP, FRAME_DISCARDED,
FLOW_CONTROL_PAUSE, PAUSE_WINDOW_CLOSE, TRANSMISSION_COMPLETION. -/

namespace Sys2Proof.Machine

/-- What a meaning answers. -/
abbrev Outcome := Host.Outcome State Fault Refusal

/-- The flag of each link that is DOWN is set, as for a transition to DOWN, when a reset or power-on completes (R132,
R173, R174, R175). -/
def State.flagDownLinks (s : State) : State :=
  let s := if s.deliveryUp then s else s.setFlag .deliveryLinkDown 0
  if s.contentUp then s else s.setFlag .contentLinkDown 0

/-- Power-on: every block at its power-on values; the links are physical, and the model's own logs, choice count and queue
go on (R174, log entry 19). -/
def State.powerOn (s : State) : State :=
  State.flagDownLinks
    { State.reset with
      contentUp := s.contentUp
      deliveryUp := s.deliveryUp
      contentOut := s.contentOut
      deliveryOut := s.deliveryOut
      choices := s.choices
      pending := s.pending }

/-- POWER_ON (R174). -/
def execPowerOn (s : State) : Outcome := .next s.powerOn

/-- The frame on the wire: that of the transmission in flight, or one that an earlier reset left (R119). -/
def Egress.onWire (g : Egress) : Option DeliveryFrame :=
  match g.inFlight with
  | none => g.wireTail
  | some e => some e.frame

/-- The values every block holds in and after an ENGINE RESET: engine time, controller list, filters, masks and rotations
kept, everything else at its power-on values; a frame on the wire is left to finish (R119, R173). -/
def State.resetValues (s : State) : State :=
  { State.reset with
    engineTime := s.engineTime
    resetting := s.resetting
    contentUp := s.contentUp
    deliveryUp := s.deliveryUp
    filters := s.filters
    masks := s.masks
    controllers := s.controllers
    egress :=
      { Egress.initial with
        wireTail := s.egress.onWire
        rotation := s.egress.rotation }
    contentOut := s.contentOut
    deliveryOut := s.deliveryOut
    choices := s.choices
    pending := s.pending }

/-- The reset is taken (R173). -/
def State.engineReset (s : State) : State := { s.resetValues with resetting := true }

/-- The command code of ENGINE RESET (Table 11-7). -/
def resetCode : Nat := 0x18

/-- The run of ENGINE RESET: its RESULT is made first, then the reset is taken; one that carries an item is refused
(R166, R173, R177, log entry 17). -/
def State.runEngineReset (s : State) : State :=
  match s.queue with
  | [] => s
  | q :: _ =>
    if q.code = resetCode then
      if q.items.isEmpty then (s.sendResult q.station q.tag q.code (.done false) []).engineReset
      else s.endRun q (.refused .badParameter [])
    else s

/-- ENGINE_RESET (R173). -/
def execEngineReset (t : Nat) (s : State) : Outcome := .next (s.advance t).runEngineReset

/-- The reset completes: every block holds the reset values and each link that is DOWN has its flag set (R173). -/
def State.completeReset (s : State) : State :=
  if s.resetting then State.flagDownLinks { s.resetValues with resetting := false } else s

/-- RESET_COMPLETION (R173). -/
def execResetCompletion (t : Nat) (s : State) : Outcome := .next (s.advance t).completeReset

/-- The content link goes DOWN (R175). -/
def State.contentLinkLost (s : State) : State :=
  if s.contentUp then State.setFlag { s with contentUp := false } .contentLinkDown 0 else s

/-- CONTENT_LINK_DOWN (R175). -/
def execContentLinkDown (t : Nat) (s : State) : Outcome := .next (s.advance t).contentLinkLost

/-- CONTENT_LINK_UP (R175): nothing is resent. -/
def execContentLinkUp (t : Nat) (s : State) : Outcome := .next { s.advance t with contentUp := true }

/-- The delivery link goes DOWN: the flag, the pause window closed, and the transmission in flight ended unsent (R132). -/
def State.deliveryLinkLost (s : State) : State :=
  if s.deliveryUp then
    let s := State.setFlag { s with deliveryUp := false } .deliveryLinkDown 0
    let flight := s.egress.inFlight
    let s := { s with egress := { s.egress with pauseEnd := none, inFlight := none, wireTail := none } }
    match flight with
    | none => s
    | some e => (s.bumpAuditorium e.auditorium .linkAbort).endOfFrame e
  else s

/-- DELIVERY_LINK_DOWN (R132). -/
def execDeliveryLinkDown (t : Nat) (s : State) : Outcome := .next (s.advance t).deliveryLinkLost

/-- DELIVERY_LINK_UP (R132): grants resume. -/
def execDeliveryLinkUp (t : Nat) (s : State) : Outcome := .next (State.grant { s.advance t with deliveryUp := true })

/-- Whether a frame arrives on a port at all, and is judged there by R176: the port's link is UP and no reset is completing
(R132, R173, R175). -/
def State.portOpen (s : State) (port : Port) : Bool :=
  match port with
  | .content => s.contentOpen
  | .delivery => s.deliveryOpen

/-- The BAD_FCS counter of a port (R176). -/
def badFcsOf (port : Port) : DeviceCounter :=
  match port with
  | .content => .contentBadFcs
  | .delivery => .deliveryBadFcs

/-- The BAD_FRAME counter of a port (R176). -/
def badFrameOf (port : Port) : DeviceCounter :=
  match port with
  | .content => .contentBadFrame
  | .delivery => .deliveryBadFrame

/-- A frame that fails a check of R176 is counted on its port; a frame that passes is none of this event's (R176, log
entry 6). -/
def State.discardFrame (s : State) (port : Port) (f : RawFrame) : State :=
  if s.portOpen port then
    match judgeFrame port f with
    | .badFcs => s.bumpDevice (badFcsOf port)
    | .badFrame => s.bumpDevice (badFrameOf port)
    | .pause _ => s
    | .accepted _ _ => s
  else s

/-- FRAME_DISCARDED (R176). -/
def execFrameDiscarded (t : Nat) (port : Port) (frame : RawFrame) (s : State) : Outcome :=
  .next ((s.advance t).discardFrame port frame)

/-- The pause window set to end at an engine time, or closed. -/
def State.setPause (s : State) (e : Option Nat) : State := { s with egress := { s.egress with pauseEnd := e } }

/-- The end of the window of a pause frame: `q` quanta of 512 bit times at 1 Gb/s, in µs rounded up (R131). -/
def pauseEndOf (ea q : Nat) : Nat := ea + (q * 512 + 999) / 1000

/-- A flow-control pause frame is counted and opens, replaces or closes the window (R131). -/
def State.pauseFrame (s : State) (ea quanta : Nat) : State :=
  if s.deliveryOpen then
    let s := s.bumpDevice .pauseFrames
    if quanta = 0 then (s.setPause none).grant else s.setPause (some (pauseEndOf ea quanta))
  else s

/-- FLOW_CONTROL_PAUSE (R131). -/
def execFlowControlPause (ea quanta : Nat) (s : State) : Outcome := .next ((s.advance ea).pauseFrame ea quanta)

/-- The pause window closes when engine time has reached its end (R131). -/
def State.closePause (s : State) : State :=
  match s.egress.pauseEnd with
  | none => s
  | some e => if e ≤ s.engineTime then (s.setPause none).grant else s

/-- PAUSE_WINDOW_CLOSE (R131). -/
def execPauseWindowClose (t : Nat) (s : State) : Outcome := .next (s.advance t).closePause

/-- A frame has been sent whole on the delivery port (log entry 5). -/
def State.pushDelivery (s : State) (f : DeliveryFrame) : State := { s with deliveryOut := s.deliveryOut ++ [f] }

/-- The frame that a reset left on the wire is off it. -/
def State.clearTail (s : State) : State := { s with egress := { s.egress with wireTail := none } }

/-- The last byte of a frame has been sent: of one that a reset left on the wire, finished without effect on the part (R119,
log entry 8); of the transmission in flight, counted, its auditorium told, and the next grant taken (R129). -/
def State.completeTransmission (s : State) : State :=
  match s.egress.wireTail with
  | some f => (s.clearTail.pushDelivery f).grant
  | none =>
    match s.egress.inFlight with
    | none => s
    | some e => (State.endOfFrame ((s.clearFlight.bumpAuditorium e.auditorium .framesSent).pushDelivery e.frame) e).grant

/-- TRANSMISSION_COMPLETION (R129). -/
def execTransmissionCompletion (t : Nat) (s : State) : Outcome := .next (s.advance t).completeTransmission

end Sys2Proof.Machine
end

