-- ==== Sys2Proof/Machine/ContentPort.lean ====
section
/-! DEFINITION. The frames of the content port and the offers of copies: SHOWTIME (Chapters 1 and 2), CUE, BLOCK,
COPY_OFFER (Chapter 3), CONTROL (sections 10.1 and 10.2). -/

namespace Sys2Proof.Machine

/-! ### SHOWTIME (R29 to R45) -/

/-- The status of a SHOWTIME frame (Table 11-3). -/
inductive ShowStatus where
  | playing
  | paused
  | stopped
  deriving DecidableEq, Repr

def showStatus (n : Nat) : Option ShowStatus :=
  if n = 1 then some .playing else if n = 2 then some .paused else if n = 3 then some .stopped else none

/-- The states that ignore every SHOWTIME (R4, Table 2-2 check 2). -/
def Lifecycle.ignoresShowtime (l : Lifecycle) : Bool :=
  match l with
  | .dark => true
  | .preparing => true
  | .closing => true
  | .ready => false
  | .running => false
  | .paused => false
  | .holdover => false
  | .lost => false
  | .test => false

/-- Check 5 of Table 2-2: a STOPPED in READY, and anything but PLAYING in TEST, is ignored. -/
def statusIgnored (l : Lifecycle) (st : ShowStatus) : Bool :=
  match st with
  | .playing => false
  | .paused => l == .test
  | .stopped => l == .test || l == .ready

/-- The five checks of Table 2-2 in their order: the counter of the first that fails, or the status of an accepted frame
(R29). -/
def State.judgeShowtime (s : State) (f : ShowtimeFrame) : Except Counter ShowStatus :=
  if !auditoriumNumber f.auditorium then .error (.device .showtimeBadAuditorium)
  else
    let au := s.auditorium f.auditorium
    if au.lifecycle.ignoresShowtime then .error (.auditorium f.auditorium .showtimeIgnored)
    else
      match showStatus f.status with
      | none => .error (.auditorium f.auditorium .showtimeBadStatus)
      | some st =>
        if au.params.source ≠ 255 ∧ au.params.source ≠ f.server then .error (.auditorium f.auditorium .showtimeForeign)
        else if statusIgnored au.lifecycle st then .error (.auditorium f.auditorium .showtimeIgnored)
        else .ok st

/-- A change of clock that is a step: the step count, CLOCK_STEPPED and the step handling at the new show time (R34, R35,
R38 to R40). -/
def State.runStep (s : State) (a sh : Nat) (full : Bool) : State :=
  ((s.setClock a (s.clock a).countStep).setFlag .clockStepped a).stepHandling a sh (.step full)

/-- A fresh start by PLAYING: the fresh clock, the watches, RUNNING, the late rule (R8, R37). -/
def State.freshStart (s : State) (a ea target comp : Nat) : State :=
  let p := (s.auditorium a).params
  (((s.setClock a (((s.clock a).fresh ea target comp).startWatches p ea)).setLifecycle a .running).evaluateAll a
    target).updateBeacon a

/-- A fresh pause by PAUSED in READY (R8, R37). -/
def State.freshPause (s : State) (a ea target comp : Nat) : State :=
  ((s.setClock a ((s.clock a).fresh ea target comp)).setLifecycle a .paused).updateBeacon a

/-- The servo on PLAYING in RUNNING or HOLDOVER: slew, step, or step with full purge on another composition (R32 to R35,
R9, R13). -/
def State.servo (s : State) (a ea target comp : Nat) : State :=
  let p := (s.auditorium a).params
  let sLoc := s.showTimeAt a ea
  let err : Int := (target : Int) - sLoc
  let c : Clock := { s.clock a with lastError := err }
  if c.composition ≠ some comp then
    (((s.setClock a ({ c.reanchor ea target with composition := some comp }.startWatches p ea)).setLifecycle a
      .running).runStep a target true).updateBeacon a
  else if reachesThreshold err p.stepThreshold then
    (((s.setClock a ((c.reanchor ea target).startWatches p ea)).setLifecycle a .running).runStep a target
      false).updateBeacon a
  else ((s.setClock a ((c.slew ea sLoc err).startWatches p ea)).setLifecycle a .running).updateBeacon a

/-- PAUSED in RUNNING, HOLDOVER, LOST or PAUSED: the clock set at Target and frozen, the watches cancelled, and the step
handling where the move reaches the threshold or the composition changes; a smaller move from LOST has each current cue
judged at once (R10, R11, R38, R39, R114). -/
def State.pauseOrMove (s : State) (a ea target comp : Nat) : State :=
  let p := (s.auditorium a).params
  let before := s.lifecycle a
  let move : Int := (target : Int) - s.showTimeAt a ea
  let c := s.clock a
  let changed := decide (c.composition ≠ some comp)
  let c := Clock.cancelWatches { c with lastError := move, e0 := ea, s0 := target, composition := some comp }
  let s := (s.setClock a c).setLifecycle a .paused
  let s :=
    if changed then s.runStep a target true
    else if reachesThreshold move p.stepThreshold then s.runStep a target false
    else if before = .lost then s.judgeAll a target
    else s
  s.updateBeacon a

/-- PLAYING in PAUSED or LOST: the resume rule (R11, R14, R40), with R114's judgement on a resume from LOST without a
step. -/
def State.resume (s : State) (a ea target comp : Nat) : State :=
  let p := (s.auditorium a).params
  let before := s.lifecycle a
  let c := s.clock a
  let diff : Int := (target : Int) - c.s0
  let changed := decide (c.composition ≠ some comp)
  let c := ({ c with lastError := diff, composition := some comp }.reanchor ea target).startWatches p ea
  let s := (s.setClock a c).setLifecycle a .running
  let s :=
    if changed then s.runStep a target true
    else if reachesThreshold diff p.stepThreshold then s.runStep a target false
    else (if before = .lost then s.judgeAll a target else s).evaluateAll a target
  s.updateBeacon a

/-- STOPPED: the show ends, show time frozen at its value at Ea, composition absent, the show-end clearing (R15, R44). -/
def State.showEnd (s : State) (a ea : Nat) : State :=
  let sh := s.showTimeAt a ea
  let c := Clock.cancelWatches { s.clock a with e0 := ea, s0 := sh, composition := none }
  (((s.setClock a c).setLifecycle a (s.readyState a)).stepHandling a sh .showEnd).updateBeacon a

/-- An accepted frame acted on by the auditorium's state and its status (Table 2-3). -/
def State.actOnShowtime (s : State) (a ea target comp : Nat) (st : ShowStatus) : State :=
  match st with
  | .playing =>
    match s.lifecycle a with
    | .ready => s.freshStart a ea target comp
    | .running => s.servo a ea target comp
    | .holdover => s.servo a ea target comp
    | .paused => s.resume a ea target comp
    | .lost => s.resume a ea target comp
    | .test => (s.abortCheck a).freshStart a ea target comp
    | .dark => s
    | .preparing => s
    | .closing => s
  | .paused =>
    match s.lifecycle a with
    | .ready => s.freshPause a ea target comp
    | .running => s.pauseOrMove a ea target comp
    | .holdover => s.pauseOrMove a ea target comp
    | .paused => s.pauseOrMove a ea target comp
    | .lost => s.pauseOrMove a ea target comp
    | .test => s
    | .dark => s
    | .preparing => s
    | .closing => s
  | .stopped =>
    match s.lifecycle a with
    | .running => s.showEnd a ea
    | .holdover => s.showEnd a ea
    | .paused => s.showEnd a ea
    | .lost => s.showEnd a ea
    | .ready => s
    | .test => s
    | .dark => s
    | .preparing => s
    | .closing => s

/-- A SHOWTIME frame: counted on the check it fails and dropped, or accepted, its Ea the last accepted time, and acted on
(R29 to R31). -/
def State.showtimeFrame (s : State) (ea : Nat) (f : ShowtimeFrame) : State :=
  if s.contentOpen then
    match s.judgeShowtime f with
    | .error c => s.bump c
    | .ok st =>
      let a := f.auditorium
      let s := s.bumpAuditorium a .showtimeAccepted
      let target := targetOf f.serverTime (s.auditorium a).params.transit
      (s.setClock a { s.clock a with lastAccepted := some ea }).actOnShowtime a ea target f.composition st
  else s

/-- SHOWTIME (R29). -/
def execShowtime (ea : Nat) (frame : ShowtimeFrame) (s : State) : Outcome := .next ((s.advance ea).showtimeFrame ea frame)

/-! ### CUE and BLOCK: the scan (R49 to R53) -/

/-- The label test under a mask (R49). -/
def labelTest (mask matchLabel label : Label) : Bool := (label ^^^ matchLabel) &&& mask == 0

/-- The selector test on the `n` most significant bits (R50). -/
def selectorTest (n : Nat) (selector cls : ContentClass) : Bool := cls >>> (8 - n) == selector >>> (8 - n)

/-- Whether filter `i` matches a label and content class (R50). -/
def State.filterMatches (s : State) (label : Label) (cls : ContentClass) (i : Nat) : Bool :=
  let f := s.filter i
  f.enabled && labelTest (s.mask f.mask) f.label label && selectorTest f.bits f.selector cls

/-- The indices that match in a scan of `fuel` entries from index `i`: a match with its continue flag clear ends it
(R51). -/
def State.scanFrom (s : State) (label : Label) (cls : ContentClass) : Nat → Nat → List Nat
  | 0, _ => []
  | fuel + 1, i =>
    if s.filterMatches label cls i then
      i :: (if (s.filter i).continues then s.scanFrom label cls fuel (i + 1) else [])
    else s.scanFrom label cls fuel (i + 1)

/-- The matches of a scan of the 64 entries, in index order (R51). -/
def State.scan (s : State) (label : Label) (cls : ContentClass) : List Nat := s.scanFrom label cls 64 0

/-- The classification of a content frame: the first four matches make copies, each counted FILTER_HITS, the rest count
FANOUT_LIMIT; no match is UNCLAIMED (R51 to R54, R61). -/
def State.classify (s : State) (ea src : Nat) (content : Content) (label : Label) (cls : ContentClass) : State :=
  let hits := s.scan label cls
  let s := s.bumpDevice .contentClassified
  if hits.isEmpty then (s.bumpDevice .unclaimed).setFlag .unclaimedSeen 0
  else
    let made := hits.take copyLimit
    let copies := made.map fun i => (⟨content, src, ea, i, (s.filter i).target⟩ : Copy)
    let s := made.foldl (fun s i => s.bump (.filterHits i)) s
    let s := s.bumpBy (.device .fanoutLimit) (hits.length - copyLimit)
    { s with copies := s.copies ++ copies }

/-- A CUE frame is classified by its label and content class (R50, R51). -/
def State.cueFrame (s : State) (ea src : Nat) (b : CueBody) : State :=
  if s.contentOpen then s.classify ea src (.cue b) b.label b.cls else s

/-- CUE (R51). -/
def execCue (ea src : Nat) (body : CueBody) (s : State) : Outcome := .next ((s.advance ea).cueFrame ea src body)

/-- A BLOCK frame is classified by its label, as class 0 (R50, R51). -/
def State.blockFrame (s : State) (ea src : Nat) (b : BlockBody) : State :=
  if s.contentOpen then s.classify ea src (.block b) b.label 0 else s

/-- BLOCK (R51). -/
def execBlock (ea src : Nat) (body : BlockBody) (s : State) : Outcome := .next ((s.advance ea).blockFrame ea src body)

/-! ### COPY_OFFER (R54 to R56) -/

/-- The lifecycle states whose tracks take copies (R4, R55). -/
def Lifecycle.takesCopies (l : Lifecycle) : Bool :=
  match l with
  | .dark => false
  | .closing => false
  | .test => false
  | .preparing => true
  | .ready => true
  | .running => true
  | .paused => true
  | .holdover => true
  | .lost => true

/-- A copy offered to its target track: the outcome checks of Table 3-4, and a delivered copy taken as an arrival (R55,
R56). -/
def State.offerCopy (s : State) (c : Copy) : State :=
  let k := c.target
  match s.track k with
  | none => s.bumpTrack k .undeliverable
  | some tr =>
    if (s.lifecycle tr.auditorium).takesCopies then
      match c.content, tr.kind with
      | .cue b, .caption => (s.bumpTrack k .copiesDelivered).arriveCue k b (some ⟨b.label, c.station⟩) false
      | .block b, .description => (s.bumpTrack k .copiesDelivered).arriveBlock k b (some ⟨b.label, c.station⟩) false
      | .cue _, .description => s.bumpTrack k .kindMismatch
      | .block _, .caption => s.bumpTrack k .kindMismatch
    else s.bumpTrack k .undeliverable

/-- The oldest copy not yet offered is offered (R54). -/
def State.nextCopy (s : State) : State :=
  match s.copies with
  | [] => s
  | c :: cs => State.offerCopy { s with copies := cs } c

/-- COPY_OFFER (R55). -/
def execCopyOffer (t : Nat) (s : State) : Outcome := .next (s.advance t).nextCopy

/-! ### CONTROL (R162, R164) -/

/-- Whether the controller list admits a source (R162). -/
def Controllers.admits (c : Controllers) (src : Nat) : Bool :=
  (c.entry0.isNone && c.entry1.isNone) || c.entry0 == some src || c.entry1 == some src

/-- A CONTROL frame: refused access, queued, or answered BUSY (R162, R164). -/
def State.controlFrame (s : State) (ea src : Nat) (f : ControlFrame) : State :=
  if s.contentOpen then
    if s.controllers.admits src then
      if s.queue.length < queuePlaces then { s with queue := s.queue ++ [⟨f.tag, f.code, f.items, src, ea⟩] }
      else (s.sendResult src f.tag f.code (.refused .busy) []).bumpDevice .commandsBusy
    else s.bumpDevice .accessRefused
  else s

/-- CONTROL (R164). -/
def execControl (ea src : Nat) (frame : ControlFrame) (s : State) : Outcome := .next ((s.advance ea).controlFrame ea src frame)

end Sys2Proof.Machine
end

