-- ==== Sys2Proof/Machine/DeliveryPort.lean ====
section
/-! DEFINITION. The return frames of the delivery port (Chapter 8): JOIN, LEAVE, REPORT. -/

namespace Sys2Proof.Machine

/-- A return frame from handle `h` naming auditorium `a`: where the port is open to it, it is taken whatever the content
link state, a malformed one dropped and counted, any other with the outcome `judged` that its own rules give it (R136,
R142). R175 says against them that it stops being judged while the content link is DOWN (DESIGN CHOICE, log entry 7). -/
def State.takeReturn (s : State) (h a : Nat) (judged : State) : State :=
  if s.deliveryOpen then if returnMalformed h a then s.bumpDevice .returnMalformed else judged else s

/-- A JOIN judged: refused with its reason, or accepted with its record, its JOIN RESULT and its catch-up (R137 to R143). -/
def State.answerJoin (s : State) (ea : Nat) (f : JoinFrame) : State :=
  let a := f.auditorium
  match s.judgeJoin f with
  | .error o => (s.bumpAuditorium a .joinsRefused).offer (catchupEntry f.handle a none (.joinResult o a none) none)
  | .ok (k, b) =>
    match s.track k with
    | none => s
    | some tr =>
      let s := s.subscribe ea f k b
      (s.offer (catchupEntry f.handle a (some k) (s.acceptResult f k tr b) none)).catchUp f k tr b

/-- A JOIN taken and judged (R136, R138). -/
def State.joinFrame (s : State) (ea : Nat) (f : JoinFrame) : State :=
  s.takeReturn f.handle f.auditorium (s.answerJoin ea f)

/-- JOIN (R138). -/
def execJoin (ea : Nat) (frame : JoinFrame) (s : State) : Outcome := .next ((s.advance ea).joinFrame ea frame)

/-- A LEAVE judged: the record that the handle holds for the named auditorium is freed, or the LEAVE is counted LEAVE_MISS
(R144). -/
def State.judgeLeave (s : State) (f : LeaveFrame) : State :=
  match s.findHandle f.handle with
  | none => s.bumpDevice .leaveMiss
  | some (i, r) =>
    if r.auditorium = f.auditorium then (s.freeRecord i r).bumpAuditorium f.auditorium .leaves
    else s.bumpDevice .leaveMiss

/-- A LEAVE taken and judged (R136, R144). -/
def State.leaveFrame (s : State) (f : LeaveFrame) : State := s.takeReturn f.handle f.auditorium (s.judgeLeave f)

/-- LEAVE (R144). -/
def execLeave (ea : Nat) (frame : LeaveFrame) (s : State) : Outcome := .next ((s.advance ea).leaveFrame frame)

/-- An accepted REPORT: its values kept, the score and window changed, and CGN told (R145 to R147, R161). -/
def State.acceptReport (s : State) (ea i : Nat) (r : Subscription) (f : ReportFrame) : State :=
  let s := s.bumpAuditorium r.auditorium .reportsAccepted
  let r' := { r with lastReport := some ea, lastSeq := some f.highest }
  (s.rescore i r' (scoreAfterReport r.score f.missed) ea).checkReport r.auditorium r.track f.missed

/-- A REPORT judged in the order of R145. -/
def State.judgeReport (s : State) (ea : Nat) (f : ReportFrame) : State :=
  match s.findHandle f.handle with
  | none => s.bumpDevice .reportUnknown
  | some (i, r) =>
    if r.auditorium ≠ f.auditorium ∨ r.track ≠ f.track then s.bumpDevice .reportMismatch
    else if r.detached then s.bumpAuditorium r.auditorium .reportDetached
    else s.acceptReport ea i r f

/-- A REPORT taken and judged (R136, R145). -/
def State.reportFrame (s : State) (ea : Nat) (f : ReportFrame) : State :=
  s.takeReturn f.handle f.auditorium (s.judgeReport ea f)

/-- REPORT (R145). -/
def execReport (ea : Nat) (frame : ReportFrame) (s : State) : Outcome := .next ((s.advance ea).reportFrame ea frame)

end Sys2Proof.Machine
end

