-- ==== Sys2Proof/Machine/Expiries.lean ====
section
/-! DEFINITION. The events that time brings: HOLDOVER_EXPIRY, LOST_EXPIRY (Chapter 2), RELEASE_INSTANT,
CURRENT_CUE_RETIREMENT (Chapters 4 and 6), BEACON_EXPIRY (section 6.6), REPORT_WINDOW_EXPIRY, HOLD_EXPIRY (Chapter 8),
GENERATION_DEADLINE_CUE, GENERATION_DEADLINE_BLOCK (Chapter 9). Each happens only when its deadline or instant has been
reached (log entry 6). -/

namespace Sys2Proof.Machine

/-- A deadline that is present and that engine time has reached. -/
def State.reached (s : State) (deadline : Option Nat) : Bool :=
  match deadline with
  | none => false
  | some d => decide (d ≤ s.engineTime)

/-! ### The watches (R41 to R43) -/

/-- The auditorium enters HOLDOVER: the holdover deadline absent, the flag set, the clock unchanged (R12, R42). -/
def State.enterHoldover (s : State) (a : Nat) : State :=
  ((s.setClock a { s.clock a with holdoverDeadline := none }).setLifecycle a .holdover).setFlag .clockHoldover a

/-- The holdover expiry of a RUNNING auditorium whose deadline has been reached (R42). -/
def State.takeHoldover (s : State) (a : Nat) : State :=
  if s.lifecycle a = .running ∧ s.reached (s.clock a).holdoverDeadline = true then s.enterHoldover a else s

/-- The auditorium enters LOST at the lost deadline `x`: show time frozen at its value then, CLOCK_LOST, the LOST clearing
(R13, R43). -/
def State.enterLost (s : State) (a x : Nat) : State :=
  let sh := s.showTimeAt a x
  let c := Clock.cancelWatches { s.clock a with s0 := sh, e0 := x }
  ((((s.setClock a c).setLifecycle a .lost).setFlag .clockLost a).stepHandling a sh .lost).updateBeacon a

/-- The lost expiry of a RUNNING or HOLDOVER auditorium whose deadline has been reached; a RUNNING one passes through
HOLDOVER (R43). -/
def State.takeLost (s : State) (a : Nat) : State :=
  match (s.clock a).lostDeadline with
  | none => s
  | some x =>
    if x ≤ s.engineTime then
      match s.lifecycle a with
      | .running => (s.enterHoldover a).enterLost a x
      | .holdover => s.enterLost a x
      | .dark => s
      | .preparing => s
      | .ready => s
      | .paused => s
      | .lost => s
      | .test => s
      | .closing => s
    else s

/-- HOLDOVER_EXPIRY (R42). -/
def execHoldoverExpiry (t auditorium : Nat) (s : State) : Outcome := .next ((s.advance t).takeHoldover auditorium)

/-- LOST_EXPIRY (R43). -/
def execLostExpiry (t auditorium : Nat) (s : State) : Outcome := .next ((s.advance t).takeLost auditorium)

/-! ### Releases and retirements (R78, R101) -/

/-- RELEASE_INSTANT (R101): the instants of the record up to band `band`, and the end of a check whose last item this
released (R159). -/
def execReleaseInstant (t track : Nat) (band : Band) (s : State) : Outcome :=
  .next (((s.advance t).takeInstant track band).completeTrackCheck track)

/-- Whether the current cue of a track has reached its Te while show time advances (R78). -/
def State.currentEnded (s : State) (k : Nat) : Bool :=
  match s.track k with
  | none => false
  | some tr =>
    match tr.current with
    | none => false
    | some c => (s.lifecycle tr.auditorium).advancing && decide (c.caption.te ≤ s.showTime tr.auditorium)

/-- The current cue retires at its Te, without a frame (R78). -/
def State.retireCurrent (s : State) (k : Nat) : State :=
  if s.currentEnded k then (s.updateTrack k fun tr => { tr with current := none }).bumpTrack k .cuesRetired else s

/-- CURRENT_CUE_RETIREMENT (R78, R159). -/
def execCurrentCueRetirement (t track : Nat) (s : State) : Outcome :=
  .next (((s.advance t).retireCurrent track).completeTrackCheck track)

/-! ### Beacons (R117) -/

/-- A BEACON entry of an auditorium; its fields come at its grant (R117, R128). -/
def beaconEntry (a : Nat) : Entry where
  frame := ⟨.group (wideGroup a), none, .beacon a none⟩
  cls := .beacon
  auditorium := a
  track := none
  deadline := none
  order := 0

/-- The outcome of a beacon expiry: skipped, coalesced or made (R117). -/
def State.beaconOutcome (s : State) (a : Nat) : State :=
  if !s.deliveryUp then s.bumpAuditorium a .beaconsSkipped
  else if s.egress.waiting.any (Entry.inFifo .beacon a) then s.bumpAuditorium a .beaconsCoalesced
  else (s.bumpAuditorium a .beaconsMade).offer (beaconEntry a)

/-- The beacon deadline has been reached: set again, and its outcome (R117). -/
def State.takeBeacon (s : State) (a : Nat) : State :=
  match s.beacon a with
  | none => s
  | some d =>
    if d ≤ s.engineTime then
      (s.setBeacon a (some (d + (s.auditorium a).params.beaconInterval * 1000))).beaconOutcome a
    else s

/-- BEACON_EXPIRY (R117). -/
def execBeaconExpiry (t auditorium : Nat) (s : State) : Outcome := .next ((s.advance t).takeBeacon auditorium)

/-! ### Report windows and detach holds (R147, R149) -/

/-- A report window that has been reached: the score rises by 16 and the window restarts, unless the record enters
DETACHED (R147). -/
def State.takeWindow (s : State) (i : Nat) : State :=
  match s.subscription i with
  | none => s
  | some r =>
    match r.window with
    | none => s
    | some d =>
      if d ≤ s.engineTime then
        (s.bumpAuditorium r.auditorium .windowExpiries).rescore i r (scoreAfterWindow r.score) d
      else s

/-- REPORT_WINDOW_EXPIRY (R147). -/
def execReportWindowExpiry (t index : Nat) (s : State) : Outcome := .next ((s.advance t).takeWindow index)

/-- A detach hold that has been reached: the record is freed (R149). -/
def State.takeHold (s : State) (i : Nat) : State :=
  match s.subscription i with
  | none => s
  | some r =>
    if s.reached r.hold then (s.setSubscription i none).bumpAuditorium r.auditorium .holdExpiries else s

/-- HOLD_EXPIRY (R149). -/
def execHoldExpiry (t index : Nat) (s : State) : Outcome := .next ((s.advance t).takeHold index)

/-! ### Generation (R157, R158) -/

/-- The track under check and its record, while the check of an auditorium runs on a track of a kind. -/
def State.checkedTrack (s : State) (a : Nat) (kind : TrackKind) : Option (Nat × Track) :=
  if (s.check a).running then
    match (s.check a).track with
    | none => none
    | some k =>
      match s.track k with
      | none => none
      | some tr => if tr.kind = kind then some (k, tr) else none
  else none

/-- Generated cue n enters its track, and the check moves on (R157). -/
def State.generateCue (s : State) (a : Nat) : State :=
  let c := s.check a
  match s.checkedTrack a .caption, c.deadline with
  | some (k, tr), some x =>
    if x ≤ s.engineTime then
      let n := c.next.getD 1
      let s := s.setCheck a (c.generated n x ((c.interval.getD 0) * 1000))
      (s.arriveCue k (c.cue n (s.showTimeAt a x) tr.lead) none true).completeCheck a
    else s
  | some _, none => s
  | none, _ => s

/-- GENERATION_DEADLINE_CUE (R157). -/
def execGenerationDeadlineCue (t auditorium : Nat) (s : State) : Outcome := .next ((s.advance t).generateCue auditorium)

/-- Generated block n enters its track, and the check moves on (R158). -/
def State.generateBlock (s : State) (a : Nat) : State :=
  let c := s.check a
  match s.checkedTrack a .description, c.deadline with
  | some (k, tr), some x =>
    if x ≤ s.engineTime then
      let n := c.next.getD 1
      let b := c.block n (s.showTimeAt a x) tr.lead
      let s := s.setCheck a { c.generated n x 20000 with previousTp := some b.tp }
      (s.arriveBlock k b none true).completeCheck a
    else s
  | some _, none => s
  | none, _ => s

/-- GENERATION_DEADLINE_BLOCK (R158). -/
def execGenerationDeadlineBlock (t auditorium : Nat) (s : State) : Outcome :=
  .next ((s.advance t).generateBlock auditorium)

end Sys2Proof.Machine
end

