-- ==== Sys2Proof/Machine/TableCommands.lean ====
section
/-! DEFINITION. The runs of the commands over the controller list (R163), the Filter and Mask Tables (R57 to R59) and the
rotations (R124), and of a command whose code is not recognised (R166). -/

namespace Sys2Proof.Machine

/-! ### CONTROLLER SET (R163) -/

/-- The codes of Table 11-7 that this model's runs name. -/
def controllerSetCode : Nat := 0x01
def filterWriteCode : Nat := 0x02
def filterReadCode : Nat := 0x03
def maskWriteCode : Nat := 0x04
def rotationSetCode : Nat := 0x0D

/-- A group address: the least significant bit of its first octet is set (R163). -/
def groupAddress (a : Nat) : Bool := a / 256 ^ 5 % 2 == 1

/-- The body of CONTROLLER SET (R163). -/
def runControllerSet (q : Queued) (s : State) : State × Reply :=
  let e0 := itemStation q.items 1
  let e1 := itemStation q.items 2
  if e0.any groupAddress || e1.any groupAddress then s.refuse .badParameter
  else ({ s with controllers := ⟨e0, e1⟩ }, .done false [])

/-- CONTROLLER_SET (R163). -/
def execControllerSet (t : Nat) (s : State) : Outcome := .next ((s.advance t).runHead controllerSetCode runControllerSet)

/-! ### FILTER WRITE, FILTER READ, MASK WRITE (R57 to R59) -/

/-- The entry that the items of a FILTER WRITE spell, if every field is in its range (R57). -/
def readFilter (items : List Item) : Option Filter :=
  match yesNo (argument items 2), yesNo (argument items 7) with
  | some enabled, some continues =>
    if argument items 1 ≤ 63 ∧ argument items 4 ≤ 7 ∧ argument items 5 ≤ 8 ∧ argument items 8 ≤ 95 then
      some
        { enabled := enabled
          label := BitVec.ofNat 32 (argument items 3)
          mask := argument items 4
          bits := argument items 5
          selector := BitVec.ofNat 8 (argument items 6)
          continues := continues
          target := argument items 8 }
    else none
  | none, _ => none
  | some _, none => none

/-- The body of FILTER WRITE (R57). -/
def runFilterWrite (q : Queued) (s : State) : State × Reply :=
  match readFilter q.items with
  | none => s.refuse .badParameter
  | some f => (s.setFilter (argument q.items 1) f, .done false [])

/-- FILTER_WRITE (R57). -/
def execFilterWrite (t : Nat) (s : State) : Outcome := .next ((s.advance t).runHead filterWriteCode runFilterWrite)

/-- The data items of FILTER READ: the entry and the value of the mask it names (R59, Table 11-14). -/
def State.filterItems (s : State) (i : Nat) : List Item :=
  let f := s.filter i
  [dataItem 1 1 (boolNat f.enabled), dataItem 2 4 f.label.toNat, dataItem 3 1 f.mask, dataItem 4 1 f.bits,
    dataItem 5 1 f.selector.toNat, dataItem 6 1 (boolNat f.continues), dataItem 7 1 f.target,
    dataItem 8 4 (s.mask f.mask).toNat]

/-- The body of FILTER READ (R59). -/
def runFilterRead (q : Queued) (s : State) : State × Reply :=
  let i := argument q.items 1
  if i ≤ 63 then (s, .done false (s.filterItems i)) else s.refuse .badParameter

/-- FILTER_READ (R59). -/
def execFilterRead (t : Nat) (s : State) : Outcome := .next ((s.advance t).runHead filterReadCode runFilterRead)

/-- The body of MASK WRITE (R58). -/
def runMaskWrite (q : Queued) (s : State) : State × Reply :=
  let i := argument q.items 1
  if i ≤ 7 then (s.setMask i (BitVec.ofNat 32 (argument q.items 2)), .done false []) else s.refuse .badParameter

/-- MASK_WRITE (R58). -/
def execMaskWrite (t : Nat) (s : State) : Outcome := .next ((s.advance t).runHead maskWriteCode runMaskWrite)

/-! ### ROTATION SET (R124) -/

/-- The class a code names (Table 11-13). -/
def classOfCode (n : Nat) : Option EgressClass :=
  if n = 0 then some .audio else if n = 1 then some .caption else if n = 2 then some .beacon
  else if n = 3 then some .catchup else none

/-- The rotation mode a code names (Table 11-13). -/
def rotationModeOfCode (n : Nat) : Option RotationMode :=
  if n = 0 then some .automatic else if n = 1 then some .fixed else none

/-- The order with the named auditorium lowest, running from the next one upward, cyclically (R124). -/
def orderAfter (a : Nat) : List Nat := (List.range 24).map fun i => (a + i) % 24 + 1

/-- A class's rotation written (R123, R124). -/
def State.setRotation (s : State) (c : EgressClass) (r : Rotation) : State :=
  { s with egress := { s.egress with rotation := s.egress.rotation.set c r } }

/-- The body of ROTATION SET (R124). -/
def runRotationSet (q : Queued) (s : State) : State × Reply :=
  match classOfCode (argument q.items 1), rotationModeOfCode (argument q.items 2) with
  | some c, some m =>
    match itemNat q.items 3 with
    | none => (s.setRotation c { s.egress.rotation.get c with mode := m }, .done false [])
    | some a =>
      if auditoriumNumber a then (s.setRotation c ⟨orderAfter a, m⟩, .done false []) else s.refuse .badParameter
  | none, _ => s.refuse .badParameter
  | some _, none => s.refuse .badParameter

/-- ROTATION_SET (R124). -/
def execRotationSet (t : Nat) (s : State) : Outcome := .next ((s.advance t).runHead rotationSetCode runRotationSet)

/-! ### An unknown command (R166, R177) -/

/-- The run of a head whose code Table 11-7 does not list: refused UNKNOWN_COMMAND (R166). -/
def State.runUnknown (s : State) : State :=
  match s.queue with
  | [] => s
  | q :: _ => if (commandParams q.code).isNone then s.endRun q (.refused .unknownCommand []) else s

/-- UNKNOWN_COMMAND (R166). -/
def execUnknownCommand (t : Nat) (s : State) : Outcome := .next (s.advance t).runUnknown

end Sys2Proof.Machine
end

