-- ==== Sys2Proof/Machine/AuditoriumCommands.lean ====
section
/-! DEFINITION. The runs of the commands over auditoria (Chapters 1 and 2): AUDITORIUM OPEN, AUDITORIUM SET, AUDITORIUM
CLOSE, BAND SET, CLOCK READ. -/

namespace Sys2Proof.Machine

def auditoriumOpenCode : Nat := 0x05
def auditoriumSetCode : Nat := 0x06
def bandSetCode : Nat := 0x08
def clockReadCode : Nat := 0x0C

/-- DARK or CLOSING: the states in which most commands that name an auditorium are refused (Table 10-1). -/
def Lifecycle.shut (l : Lifecycle) : Bool := l == .dark || l == .closing

/-! ### AUDITORIUM OPEN (R5) -/

/-- A context opened with parameters: PREPARING, bands 1 to 3 at the settings of Table 1-4 (R5). -/
def openedAuditorium (p : Params) : Auditorium := { Auditorium.initial with lifecycle := .preparing, params := p }

/-- The body of AUDITORIUM OPEN (R5). -/
def runAuditoriumOpen (q : Queued) (s : State) : State × Reply :=
  let a := argument q.items 1
  if !auditoriumNumber a then s.refuse .badParameter
  else if s.lifecycle a ≠ .dark then s.refuse .wrongState
  else
    let p := readParams q.items Params.default
    (((s.setAuditorium a (openedAuditorium p.1)).setClock a Clock.initial).setCheck a HouseCheck.initial, .done p.2 [])

/-- AUDITORIUM_OPEN (R5). -/
def execAuditoriumOpen (t : Nat) (s : State) : Outcome := .next ((s.advance t).runHead auditoriumOpenCode runAuditoriumOpen)

/-! ### AUDITORIUM SET (R2, R3, R41) -/

/-- The deadlines that are present, measured anew from the last accepted SHOWTIME (R3, R41). -/
def Clock.remeasure (c : Clock) (p : Params) : Clock :=
  { c with
    holdoverDeadline := c.holdoverDeadline.map fun d => (c.lastAccepted.map fun e => e + p.holdover * 1000).getD d
    lostDeadline := c.lostDeadline.map fun d => (c.lastAccepted.map fun e => e + p.lost * 1000).getD d }

/-- The body of AUDITORIUM SET: the parameters, the present deadlines, and an expiry that has thereby been reached taken
at once (R2, R3, R41). That it is taken before the RESULT, and that one already due is taken too where neither time changes,
is the model's choice (log entry 9). -/
def runAuditoriumSet (q : Queued) (s : State) : State × Reply :=
  let a := argument q.items 1
  if !auditoriumNumber a then s.refuse .badParameter
  else if (s.lifecycle a).shut then s.refuse .wrongState
  else
    let p := readParams q.items (s.auditorium a).params
    let s := (s.setAuditorium a { s.auditorium a with params := p.1 }).setClock a ((s.clock a).remeasure p.1)
    ((s.takeHoldover a).takeLost a, .done p.2 [])

/-- AUDITORIUM_SET (R2). -/
def execAuditoriumSet (t : Nat) (s : State) : Outcome := .next ((s.advance t).runHead auditoriumSetCode runAuditoriumSet)

/-! ### AUDITORIUM CLOSE (R17 to R19) -/

/-- The records of a track that an unbind or a close discards, each counted PURGED, and the context FREE (R68 steps 3 and
5). -/
def State.discardTrack (s : State) (k : Nat) : State :=
  match s.track k with
  | none => s
  | some tr =>
    let gone := tr.pending.length + tr.ring.length + (if tr.current.isSome then 1 else 0)
    (s.bumpBy (.track k .purged) gone).setTrack k none

/-- The SHOW ENDED entry of an auditorium (R18 step 6, Table 7-2). -/
def showEndedEntry (a : Nat) : Entry where
  frame := ⟨.group (wideGroup a), none, .showEnded a⟩
  cls := .caption
  auditorium := a
  track := none
  deadline := none
  order := 0

/-- The SHOW ENDED of a closing auditorium: offered, or refused, and then the auditorium is DARK at once (R18 step 6,
R19). -/
def State.endShow (s : State) (a : Nat) : State :=
  if s.refuses (showEndedEntry a) then (s.offer (showEndedEntry a)).closeComplete a else s.offer (showEndedEntry a)

/-- The running check of a closing auditorium is dropped (R18 step 3, R160). -/
def State.dropCheck (s : State) (a : Nat) : State := if (s.check a).running then s.endCheck a .dropped else s

/-- The teardown of R18 in its six steps. -/
def State.teardown (s : State) (a : Nat) : State :=
  let tracks := s.boundTracks a
  let s := (s.setClock a (s.clock a).cancelWatches).setBeacon a none
  let s := (s.withdraw fun e => e.auditorium == a).dropCheck a
  let s := tracks.foldl (fun s k => s.discardTrack k) s
  let s := s.releaseRecords fun r => r.auditorium == a
  let s := tracks.foldl (fun s k => s.setTrackMembers k (PerBand.all 0)) s
  s.endShow a

/-- The body of AUDITORIUM CLOSE (R17): its RESULT is owed to the station and tag of the command. -/
def runAuditoriumClose (q : Queued) (s : State) : State × Reply :=
  let a := argument q.items 1
  if !auditoriumNumber a then s.refuse .badParameter
  else if (s.lifecycle a).shut then s.refuse .wrongState
  else
    (State.teardown (s.setAuditorium a { s.auditorium a with lifecycle := .closing, owed := some ⟨q.tag, q.station⟩ }) a,
      .owed)

/-- AUDITORIUM_CLOSE (R17). -/
def execAuditoriumClose (t : Nat) (s : State) : Outcome := .next ((s.advance t).runHead closeCode runAuditoriumClose)

/-! ### BAND SET (R22, R23) -/

/-- A band of an auditorium has members on one of its tracks (R22). -/
def State.bandHeld (s : State) (a : Nat) (b : Band) : Bool := (s.boundTracks a).any fun k => s.memberCount k b != 0

/-- The passed instants of every pending record of an auditorium, band 0 included, taken at once where show time advances
(R23, R66, R107 point 5). -/
def State.takePassedAll (s : State) (a : Nat) : State :=
  if (s.lifecycle a).advancing then
    (s.boundTracks a).foldl (fun s k => s.takePassedTrack k (s.showTime a) true) s
  else s

/-- The band that a BAND SET may name: 1 to 3 (R22). -/
def settableBand (n : Nat) : Option Band :=
  match bandOf n with
  | none => none
  | some b => if b.val = 0 then none else some b

/-- The body of BAND SET (R22, R23): a band it newly enables joins the release of pending content at once. Instants that a
raised offset of an enabled band moves to or before the present show time are not taken here but by the steps that take
release instants (DESIGN CHOICE, log entry 38). -/
def runBandSet (q : Queued) (s : State) : State × Reply :=
  let a := argument q.items 1
  match settableBand (argument q.items 2), yesNo (argument q.items 3) with
  | some b, some on =>
    if !auditoriumNumber a then s.refuse .badParameter
    else if (s.lifecycle a).shut then s.refuse .wrongState
    else if s.bandHeld a b then s.refuse .busy
    else
      let old := (s.auditorium a).band b
      let offset := holdItem q.items 4 0 500000 old.offset
      let s := s.setAuditorium a ((s.auditorium a).setBand b ⟨on, offset.value⟩)
      ((if on && !old.enabled then s.takePassedAll a else s).completeCheck a, .done offset.clamped [])
  | none, _ => s.refuse .badParameter
  | some _, none => s.refuse .badParameter

/-- BAND_SET (R22). -/
def execBandSet (t : Nat) (s : State) : Outcome := .next ((s.advance t).runHead bandSetCode runBandSet)

/-! ### CLOCK READ (R46) -/

/-- The data items of CLOCK READ (R46, Table 11-14); signed values in two's complement (R179). -/
def State.clockItems (s : State) (a : Nat) : List Item :=
  let c := s.clock a
  [dataItem 1 8 s.engineTime, dataItem 2 1 (s.lifecycle a).code, dataItem 3 8 (s.showTime a), ⟨4, beSigned 2 c.rate⟩,
    ⟨5, beSigned 2 c.drift⟩, ⟨6, beSigned 2 c.correction⟩, ⟨7, beSigned 8 c.lastError⟩, dataItem 8 4 c.stepCount,
    dataOption 9 4 c.composition, dataOption 10 8 c.lastAccepted]

/-- The body of CLOCK READ (R46). -/
def runClockRead (q : Queued) (s : State) : State × Reply :=
  let a := argument q.items 1
  if !auditoriumNumber a then s.refuse .badParameter
  else if s.lifecycle a = .closing then s.refuse .wrongState
  else (s, .done false (s.clockItems a))

/-- CLOCK_READ (R46). -/
def execClockRead (t : Nat) (s : State) : Outcome := .next ((s.advance t).runHead clockReadCode runClockRead)

end Sys2Proof.Machine
end

