-- ==== Sys2Proof/Machine/TrackCommands.lean ====
section
/-! DEFINITION. The runs of the commands over tracks (section 4.2): TRACK BIND, TRACK SET, TRACK UNBIND. -/

namespace Sys2Proof.Machine

def trackBindCode : Nat := 0x09
def trackSetCode : Nat := 0x0A
def trackUnbindCode : Nat := 0x0B

/-! ### TRACK BIND (R64, R65) -/

/-- The lowest-numbered FREE track (R65). -/
def State.freeTrack (s : State) : Option Nat := trackNumbers.find? fun k => (s.track k).isNone

/-- The slots an auditorium's bound tracks hold. -/
def State.slots (s : State) (a : Nat) : List Nat :=
  (s.boundTracks a).filterMap fun k => (s.track k).map Track.slot

/-- The lowest free slot of an auditorium (R65). -/
def State.freeSlot (s : State) (a : Nat) : Option Nat := (List.range 8).find? fun i => !(s.slots a).contains i

/-- The lifecycle states in which TRACK BIND is taken (R7, R64). -/
def Lifecycle.binds (l : Lifecycle) : Bool := l == .preparing || l == .ready || l == .paused

/-- A context just bound (R65). -/
def newTrack (kind : TrackKind) (a slot language variant depth : Nat) (m : Marks) : Track where
  kind := kind
  auditorium := a
  slot := slot
  language := language
  variant := variant
  depth := depth
  lead := m.lead
  high := m.high
  low := m.low
  pace := .opened
  source := none
  pending := []
  current := none
  ring := []
  lastBlock := none

/-- The binding of track `k` (R65, R7): the context, its sequence numbers at 0, and PREPARING to READY. -/
def State.bindTrack (s : State) (k : Nat) (tr : Track) : State :=
  let s := (s.setTrack k (some tr)).setTrackSequences k (PerBand.all 0)
  if s.lifecycle tr.auditorium = .preparing then s.setLifecycle tr.auditorium .ready else s

/-- The free counts a TRACK BIND refused NO_SPACE returns (R63, Table 11-14). -/
def State.freeCountItems (s : State) (id : Nat) : List Item :=
  [dataItem id 2 (s.freeSlots .caption), dataItem (id + 1) 2 (s.freeSlots .description)]

/-- The data items of a TRACK BIND that is taken (R65, Table 11-14). -/
def bindItems (k slot : Nat) (m : Marks) : List Item :=
  [dataItem 1 1 k, dataItem 2 1 slot, dataItem 3 8 m.lead, dataItem 4 2 m.high, dataItem 5 2 m.low]

/-- The body of TRACK BIND, judged in the order of R64. -/
def runTrackBind (q : Queued) (s : State) : State × Reply :=
  let a := argument q.items 1
  let language := argument q.items 3
  let variant := argument q.items 4
  let depth := argument q.items 5
  match kindOfCode (argument q.items 2) with
  | none => s.refuse .badParameter
  | some kind =>
    if !auditoriumNumber a || decide (1023 < language ∨ 63 < variant) || !kind.depths.contains depth then
      s.refuse .badParameter
    else if !(s.lifecycle a).binds then s.refuse .wrongState
    else
      match s.freeTrack, s.freeSlot a with
      | some k, some slot =>
        if s.freeSlots kind < depth then (s, .refused .noSpace (s.freeCountItems 1))
        else
          let m := readMarks q.items 6 7 8 depth kind.defaultLead ((3 * depth + 3) / 4) (depth / 4)
          (s.bindTrack k (newTrack kind a slot language variant depth m), .done m.clamped (bindItems k slot m))
      | none, _ => s.refuse .noTrack
      | some _, none => s.refuse .noTrack

/-- TRACK_BIND (R64). -/
def execTrackBind (t : Nat) (s : State) : Outcome := .next ((s.advance t).runHead trackBindCode runTrackBind)

/-! ### TRACK SET (R66) -/

/-- The body of TRACK SET: the new lead and marks, the instants that a new lead has put in the past taken as ordinary
releases, and both marks compared with the occupancy (R66, R80, R107 point 5; log entry 11). -/
def runTrackSet (q : Queued) (s : State) : State × Reply :=
  let k := argument q.items 1
  if 95 < k then s.refuse .badParameter
  else
    match s.track k with
    | none => s.refuse .wrongState
    | some tr =>
      if s.lifecycle tr.auditorium = .closing then s.refuse .wrongState
      else
        let m := readMarks q.items 2 3 4 tr.depth tr.lead tr.high tr.low
        let s := s.setTrack k (some { tr with lead := m.lead, high := m.high, low := m.low })
        let s :=
          if (itemNat q.items 2).isSome && (s.lifecycle tr.auditorium).advancing then
            s.takePassedTrack k (s.showTime tr.auditorium) true
          else s
        (((s.paceUp k).paceDown k).completeCheck tr.auditorium, .done m.clamped [])

/-- TRACK_SET (R66). -/
def execTrackSet (t : Nat) (s : State) : Outcome := .next ((s.advance t).runHead trackSetCode runTrackSet)

/-! ### TRACK UNBIND (R67, R68) -/

/-- The lifecycle states in which TRACK UNBIND is taken (R67). -/
def Lifecycle.unbinds (l : Lifecycle) : Bool := l == .ready || l == .paused

/-- Step 2 of the unbind: a TRACK ENDED to each populated band in band order (R68, R79). -/
def State.endTrack (s : State) (k : Nat) (tr : Track) : State :=
  (s.populatedBands k tr).foldl
    (fun s b => s.sendToBand k tr b .caption (.trackEnded k tr.language tr.variant) none) s

/-- The unbind of a track in the six steps of R68. -/
def State.unbindTrack (s : State) (k : Nat) (tr : Track) : State :=
  let a := tr.auditorium
  let s := (s.withdraw fun e => e.track == some k).endTrack k tr
  let s := (s.discardTrack k).releaseRecords fun r => r.track == k
  let s := s.setTrackMembers k (PerBand.all 0)
  (if s.lifecycle a = .ready then s.setLifecycle a (s.readyState a) else s).updateBeacon a

/-- The body of TRACK UNBIND (R67, R68). -/
def runTrackUnbind (q : Queued) (s : State) : State × Reply :=
  let k := argument q.items 1
  if 95 < k then s.refuse .badParameter
  else
    match s.track k with
    | none => s.refuse .wrongState
    | some tr =>
      if (s.lifecycle tr.auditorium).unbinds then (s.unbindTrack k tr, .done false []) else s.refuse .wrongState

/-- TRACK_UNBIND (R67, R68). -/
def execTrackUnbind (t : Nat) (s : State) : Outcome := .next ((s.advance t).runHead trackUnbindCode runTrackUnbind)

end Sys2Proof.Machine
end

