-- ==== Sys2Proof/Machine/CheckCommands.lean ====
section
/-! DEFINITION. The runs of the house-check commands (Chapter 9): HOUSE CHECK START, HOUSE CHECK STOP, HOUSE CHECK READ. -/

namespace Sys2Proof.Machine

def houseCheckStartCode : Nat := 0x0E
def houseCheckStopCode : Nat := 0x0F
def houseCheckReadCode : Nat := 0x10

/-! ### HOUSE CHECK START (R155, R156) -/

/-- The mode a code names (Table 11-13). -/
def checkModeOfCode (n : Nat) : Option CheckMode :=
  if n = 1 then some .fixed else if n = 2 then some .counter else if n = 3 then some .regionSweep
  else if n = 4 then some .pattern else none

def CheckMode.code (m : CheckMode) : Nat :=
  match m with
  | .fixed => 1
  | .counter => 2
  | .regionSweep => 3
  | .pattern => 4

/-- The kind of track a mode suits (R155). -/
def CheckMode.kind (m : CheckMode) : TrackKind :=
  match m with
  | .fixed => .caption
  | .counter => .caption
  | .regionSweep => .caption
  | .pattern => .description

/-- The counts of Table 9-2, 0 for CONTINUOUS. -/
def checkCounts : List Nat := [0, 1, 10, 100, 1000]

/-- A FIXED mode has a text of 1 to 64 bytes and a PATTERN mode its byte (R155). -/
def checkGiven (m : CheckMode) (items : List Item) : Bool :=
  match m with
  | .fixed => (itemBytes items 5).any fun t => decide (1 ≤ t.length ∧ t.length ≤ 64)
  | .pattern => (itemNat items 6).isSome
  | .counter => true
  | .regionSweep => true

/-- The interval and cue duration of a caption check, in ms (R155). -/
def checkInterval (items : List Item) : Held := holdItem items 7 100 5000 1000

def checkDuration (items : List Item) : Held := holdItem items 8 500 10000 2000

/-- The context of a check that starts at engine time `e` (R156); parameters of the other kind are not stored (log entry
16). -/
def startedCheck (items : List Item) (m : CheckMode) (track count e : Nat) : HouseCheck :=
  { HouseCheck.initial with
    running := true
    track := some track
    mode := some m
    text := if m = .fixed then itemBytes items 5 else none
    pattern := if m = .pattern then (itemNat items 6).map (BitVec.ofNat 8) else none
    count := some count
    interval := if m.kind = .caption then some (checkInterval items).value else none
    duration := if m.kind = .caption then some (checkDuration items).value else none
    next := some 1
    deadline := some (e + if m.kind = .caption then (checkInterval items).value * 1000 else 20000) }

/-- The start of a check (R156): the context, the TEST anchor of R45, TEST, the house-check clearing of R113. -/
def State.startCheck (s : State) (a : Nat) (c : HouseCheck) : State :=
  let k := { s.clock a with e0 := s.engineTime, s0 := 0, correction := 0, drift := 0, rate := 0 }
  ((((s.setCheck a c).setClock a k).setLifecycle a .test).houseCheckClearing a).updateBeacon a

/-- The body of HOUSE CHECK START, judged in the order of R155. -/
def runHouseCheckStart (q : Queued) (s : State) : State × Reply :=
  let a := argument q.items 1
  let k := argument q.items 2
  let count := argument q.items 4
  match checkModeOfCode (argument q.items 3) with
  | none => s.refuse .badParameter
  | some m =>
    if !auditoriumNumber a || decide (95 < k) || !checkCounts.contains count || !checkGiven m q.items then
      s.refuse .badParameter
    else if s.lifecycle a ≠ .ready then s.refuse .wrongState
    else
      match s.track k with
      | none => s.refuse .badParameter
      | some tr =>
        if tr.auditorium ≠ a ∨ tr.kind ≠ m.kind then s.refuse .badParameter
        else
          (s.startCheck a (startedCheck q.items m k count s.engineTime),
            .done
              (decide (m.kind = .caption) && ((checkInterval q.items).clamped || (checkDuration q.items).clamped)) [])

/-- HOUSE_CHECK_START (R156). -/
def execHouseCheckStart (t : Nat) (s : State) : Outcome :=
  .next ((s.advance t).runHead houseCheckStartCode runHouseCheckStart)

/-! ### HOUSE CHECK STOP (R160) -/

/-- The stop of a check: the end results, the clearing, show time frozen, READY (R160, R45). -/
def State.stopCheck (s : State) (a : Nat) : State :=
  let s := ((s.endCheck a .stopped).houseCheckClearing a).freezeClock a s.engineTime
  (s.setLifecycle a (s.readyState a)).updateBeacon a

/-- The body of HOUSE CHECK STOP (R160). -/
def runHouseCheckStop (q : Queued) (s : State) : State × Reply :=
  let a := argument q.items 1
  if !auditoriumNumber a then s.refuse .badParameter
  else if s.lifecycle a ≠ .test then s.refuse .wrongState
  else (s.stopCheck a, .done false [])

/-- HOUSE_CHECK_STOP (R160). -/
def execHouseCheckStop (t : Nat) (s : State) : Outcome := .next ((s.advance t).runHead houseCheckStopCode runHouseCheckStop)

/-! ### HOUSE CHECK READ (R161) -/

def CheckOutcome.code (o : CheckOutcome) : Nat :=
  match o with
  | .none => 0
  | .completed => 1
  | .stopped => 2
  | .aborted => 3
  | .dropped => 4

/-- The data items of HOUSE CHECK READ: every field of Table 9-1 (R161, Table 11-14). -/
def HouseCheck.readItems (c : HouseCheck) : List Item :=
  [dataItem 1 1 (boolNat c.running), dataItem 2 1 c.outcome.code, dataOption 3 1 c.track,
    dataOption 4 1 (c.mode.map CheckMode.code), ⟨5, c.text.getD []⟩, dataOption 6 1 (c.pattern.map BitVec.toNat),
    dataOption 7 2 c.count, dataOption 8 4 c.interval, dataOption 9 4 c.duration, dataOption 10 4 c.next,
    dataOption 11 8 c.deadline, dataOption 12 8 c.previousTp, dataItem 13 4 c.items, dataItem 14 4 c.reports,
    dataItem 15 4 c.missed, dataItem 16 2 c.devices, dataItem 17 2 c.highest]

/-- The body of HOUSE CHECK READ (R161). -/
def runHouseCheckRead (q : Queued) (s : State) : State × Reply :=
  let a := argument q.items 1
  if auditoriumNumber a then (s, .done false (s.check a).readItems) else s.refuse .badParameter

/-- HOUSE_CHECK_READ (R161). -/
def execHouseCheckRead (t : Nat) (s : State) : Outcome := .next ((s.advance t).runHead houseCheckReadCode runHouseCheckRead)

end Sys2Proof.Machine
end

