-- ==== Sys2Proof/Machine/ReportCommands.lean ====
section
/-! DEFINITION. The runs of the reporting commands (sections 10.4 to 10.6): STATUS READ, STATUS CLEAR, ALERT ENABLE,
STATISTICS SNAPSHOT, STATISTICS READ. -/

namespace Sys2Proof.Machine

def statusReadCode : Nat := 0x11
def statusClearCode : Nat := 0x12
def alertEnableCode : Nat := 0x13
def statisticsSnapshotCode : Nat := 0x14
def statisticsReadCode : Nat := 0x15

/-! ### STATUS READ (R168) -/

/-- The set flags of a scope's instance as a number: bit r - 1 for rank r (R179). -/
def State.flagBits (s : State) (sc : Scope) (inst : Nat) : Nat :=
  (flagNames.map fun n => if n.scope = sc ∧ s.flagSet ⟨n, inst⟩ = true then 2 ^ (n.rank - 1) else 0).sum

/-- The entries of a class in the pool: the waiting ones and the one in flight (R119; log entry 15). -/
def Egress.classOccupancy (g : Egress) (c : EgressClass) : Nat :=
  (g.waiting.filter fun e => e.cls == c).length + if g.inFlight.any fun e => e.cls == c then 1 else 0

/-- A frame is on the wire (R119, R128, log entry 8). -/
def Egress.sending (g : Egress) : Bool := g.inFlight.isSome || g.wireTail.isSome

/-- STATUS READ of scope DEVICE (Tables 10-4 and 11-14). -/
def State.deviceStatus (s : State) : List Item :=
  let g := s.egress
  [dataItem 1 2 (s.flagBits .device 0), dataItem 2 1 (boolNat !s.contentUp), dataItem 3 1 (boolNat !s.deliveryUp)] ++
    s.freeCountItems 4 ++
    [dataItem 6 2 g.occupancy, dataItem 7 2 (g.classOccupancy .audio), dataItem 8 2 (g.classOccupancy .caption),
      dataItem 9 2 (g.classOccupancy .beacon), dataItem 10 2 (g.classOccupancy .catchup),
      dataItem 11 1 (boolNat g.sending), dataItem 12 1 (boolNat g.pauseEnd.isSome), dataOption 13 6 s.controllers.entry0,
      dataOption 14 6 s.controllers.entry1, dataItem 15 1 s.queue.length] ++
    s.summaryItems 16

/-- The numbers and slots of an auditorium's bound tracks, in increasing track number (Table 11-14). -/
def State.boundTrackBytes (s : State) (a : Nat) : List Byte :=
  (s.boundTracks a).flatMap fun k => beBytes 1 k ++ beBytes 1 (((s.track k).map Track.slot).getD 0)

/-- STATUS READ of an auditorium (Tables 10-4 and 11-14). -/
def State.auditoriumStatus (s : State) (a : Nat) : List Item :=
  let au := s.auditorium a
  [dataItem 1 2 (s.flagBits .auditorium a), dataItem 2 1 au.lifecycle.code, dataItem 3 1 (s.boundTracks a).length,
    ⟨4, s.boundTrackBytes a⟩, dataItem 5 1 (boolNat au.band1.enabled), dataItem 6 8 au.band1.offset,
    dataItem 7 1 (boolNat au.band2.enabled), dataItem 8 8 au.band2.offset, dataItem 9 1 (boolNat au.band3.enabled),
    dataItem 10 8 au.band3.offset] ++
    s.summaryItems 11

def TrackKind.code (kind : TrackKind) : Nat :=
  match kind with
  | .caption => 1
  | .description => 2

def Pace.code (p : Pace) : Nat :=
  match p with
  | .opened => 0
  | .holding => 1

/-- STATUS READ of a track (Tables 10-4 and 11-14); a FREE track is OPEN, empty, with kind and auditorium absent (Table
4-1). -/
def State.trackStatus (s : State) (k : Nat) : List Item :=
  let tr := s.track k
  [dataItem 1 2 (s.flagBits .track k), dataItem 2 1 (boolNat tr.isSome), dataOption 3 1 (tr.map fun x => x.kind.code),
    dataOption 4 1 (tr.map Track.auditorium), dataItem 5 2 ((tr.map Track.occupancy).getD 0),
    dataItem 6 1 ((tr.map fun x => x.pace.code).getD 0), dataItem 7 1 (boolNat (tr.any fun x => x.current.isSome)),
    dataItem 8 2 (s.memberCount k 0), dataItem 9 2 (s.memberCount k 1), dataItem 10 2 (s.memberCount k 2),
    dataItem 11 2 (s.memberCount k 3)] ++
    s.summaryItems 12

/-- A named scope with its instance. -/
inductive ScopeName where
  | device
  | auditorium (a : Nat)
  | track (k : Nat)
  deriving DecidableEq, Repr

/-- The scope that items 1 and 2 name: code 0, 1 or 2 with a number in range (R168, R169, R172). -/
def readScope (items : List Item) : Option ScopeName :=
  match argument items 1, itemNat items 2 with
  | 0, _ => some .device
  | 1, some a => if auditoriumNumber a then some (.auditorium a) else none
  | 2, some k => if k ≤ 95 then some (.track k) else none
  | _, _ => none

/-- The data items of STATUS READ (R168). -/
def State.statusItems (s : State) (sc : ScopeName) : List Item :=
  match sc with
  | .device => s.deviceStatus
  | .auditorium a => s.auditoriumStatus a
  | .track k => s.trackStatus k

/-- The body of STATUS READ (R168). -/
def runStatusRead (q : Queued) (s : State) : State × Reply :=
  match readScope q.items with
  | none => s.refuse .badParameter
  | some sc => (s, .done false (s.statusItems sc))

/-- STATUS_READ (R168). -/
def execStatusRead (t : Nat) (s : State) : Outcome := .next ((s.advance t).runHead statusReadCode runStatusRead)

/-! ### STATUS CLEAR (R169) -/

/-- The flag set that the items of an id spell; none for an empty set or an unknown rank (R169, R170). -/
def readFlags (items : List Item) (id : Nat) : Option (List FlagName) :=
  let ranks := itemNats items id
  let names := ranks.filterMap flagOfRank
  if ranks.isEmpty || names.length != ranks.length then none else some names

/-- The flags that a scope and a set of names clear: the named flags of one instance (R169). -/
def ScopeName.flags (sc : ScopeName) (names : List FlagName) : List Flag :=
  match sc with
  | .device => names.map fun n => ⟨n, 0⟩
  | .auditorium a => names.map fun n => ⟨n, a⟩
  | .track k => names.map fun n => ⟨n, k⟩

/-- The scope that a named scope is of. -/
def ScopeName.scope (sc : ScopeName) : Scope :=
  match sc with
  | .device => .device
  | .auditorium _ => .auditorium
  | .track _ => .track

/-- The flags a STATUS CLEAR clears: for ALL every instance of each name; otherwise the scope's own, each of which must
belong to it (R169). -/
def readCleared (items : List Item) : Option (List Flag) :=
  match readFlags items 3 with
  | none => none
  | some names =>
    if argument items 1 = 3 then some (names.flatMap fun n => n.scope.instances.map fun i => ⟨n, i⟩)
    else
      match readScope items with
      | none => none
      | some sc => if names.all fun n => n.scope == sc.scope then some (sc.flags names) else none

/-- Flags cleared (R169). -/
def State.clearFlags (s : State) (fs : List Flag) : State := fs.foldl (fun s f => s.writeFlag f false) s

/-- The body of STATUS CLEAR (R169): the RESULT returns the summary code after the clearing. -/
def runStatusClear (q : Queued) (s : State) : State × Reply :=
  match readCleared q.items with
  | none => s.refuse .badParameter
  | some fs => (s.clearFlags fs, .done false ((s.clearFlags fs).summaryItems 1))

/-- STATUS_CLEAR (R169). -/
def execStatusClear (t : Nat) (s : State) : Outcome := .next ((s.advance t).runHead statusClearCode runStatusClear)

/-! ### ALERT ENABLE (R170) -/

/-- The enables of some flag names set to a value (R170). -/
def State.enableAlerts (s : State) (names : List FlagName) (on : Bool) : State :=
  { s with alertEnables := names.foldl (fun t n => Tbl.set FlagName.rank false t n on) s.alertEnables }

/-- The body of ALERT ENABLE (R170). -/
def runAlertEnable (q : Queued) (s : State) : State × Reply :=
  match yesNo (argument q.items 1), readFlags q.items 2 with
  | some on, some names => (s.enableAlerts names on, .done false [])
  | none, _ => s.refuse .badParameter
  | some _, none => s.refuse .badParameter

/-- ALERT_ENABLE (R170). -/
def execAlertEnable (t : Nat) (s : State) : Outcome := .next ((s.advance t).runHead alertEnableCode runAlertEnable)

/-! ### STATISTICS SNAPSHOT and STATISTICS READ (R171, R172) -/

/-- Every live counter copied into the snapshot, and zeroed with the clear option (R171). -/
def State.takeSnapshot (s : State) (clear : Bool) : State :=
  { s with snapshot := s.live, snapshotTime := some s.engineTime, live := if clear then [] else s.live }

/-- The body of STATISTICS SNAPSHOT (R171): without the option nothing is cleared. -/
def runStatisticsSnapshot (q : Queued) (s : State) : State × Reply :=
  match yesNo ((itemNat q.items 1).getD 0) with
  | none => s.refuse .badParameter
  | some clear => (s.takeSnapshot clear, .done false [dataItem 1 8 s.engineTime])

/-- STATISTICS_SNAPSHOT (R171). -/
def execStatisticsSnapshot (t : Nat) (s : State) : Outcome :=
  .next ((s.advance t).runHead statisticsSnapshotCode runStatisticsSnapshot)

/-- The device-wide counters in the order of Table 11-14. -/
def deviceCounters : List DeviceCounter :=
  [.showtimeBadAuditorium, .contentClassified, .unclaimed, .fanoutLimit, .pauseFrames, .returnMalformed, .leaveMiss,
    .reportUnknown, .reportMismatch, .accessRefused, .commandsBusy, .commandsRun, .commandsRefused, .resultsSent,
    .alertsSent, .contentBadFcs, .contentBadFrame, .deliveryBadFcs, .deliveryBadFrame]

/-- The auditorium counters in the order of Table 11-14. -/
def auditoriumCounters : List AuditoriumCounter :=
  [.showtimeAccepted, .showtimeIgnored, .showtimeBadStatus, .showtimeForeign, .stepHandlings, .beaconsMade,
    .beaconsSkipped, .beaconsCoalesced, .entriesMade, .framesSent, .stale, .withdrawn, .evicted, .egressFull, .linkAbort,
    .joinsNew, .joinsSwitched, .joinsRestored, .joinsRefused, .leaves, .reportsAccepted, .reportDetached,
    .windowExpiries, .detachments, .holdExpiries, .recordsReleased]

/-- The track counters in the order of Table 11-14. -/
def trackCounters : List TrackCounter :=
  [.copiesDelivered, .undeliverable, .kindMismatch, .cuesAccepted, .amendments, .deletions, .deleteMiss, .badCue,
    .cuesRetired, .blocksAccepted, .badBlock, .reordered, .outOfOrder, .superseded, .gapsMarked, .overflowDrops, .expired,
    .purged, .paceSent, .releases, .lateReleases, .repeats, .degradedCopies, .degradedLimit, .catchupFrames]

/-- The counters of the scope that the items of a STATISTICS READ name, in order (R172, Table 11-14). -/
def readCounters (items : List Item) : Option (List Counter) :=
  if argument items 1 = 3 then some ((List.range 64).map Counter.filterHits)
  else
    match readScope items with
    | none => none
    | some .device => some (deviceCounters.map Counter.device)
    | some (.auditorium a) => some (auditoriumCounters.map (Counter.auditorium a))
    | some (.track k) => some (trackCounters.map (Counter.track k))

/-- The snapshot value of a counter (R171). -/
def State.snapshotCount (s : State) (c : Counter) : Nat := Tbl.get 0 s.snapshot c

/-- The data items of STATISTICS READ: the snapshot time, then one item per counter, ids counting on from 2 (R172). -/
def State.statisticsItems (s : State) (cs : List Counter) : List Item :=
  dataOption 1 8 s.snapshotTime :: cs.zipIdx.map fun c => dataItem (c.2 + 2) 4 (s.snapshotCount c.1)

/-- The body of STATISTICS READ (R172). -/
def runStatisticsRead (q : Queued) (s : State) : State × Reply :=
  match readCounters q.items with
  | none => s.refuse .badParameter
  | some cs => (s, .done false (s.statisticsItems cs))

/-- STATISTICS_READ (R172). -/
def execStatisticsRead (t : Nat) (s : State) : Outcome := .next ((s.advance t).runHead statisticsReadCode runStatisticsRead)

end Sys2Proof.Machine
end

