-- ==== Sys2Proof/Machine/SubscriptionCommands.lean ====
section
/-! DEFINITION. The runs of the commands over subscriptions (Chapter 8): SUBSCRIPTION READ, DEVICE DETACH. -/

namespace Sys2Proof.Machine

def subscriptionReadCode : Nat := 0x16
def deviceDetachCode : Nat := 0x17

/-! ### SUBSCRIPTION READ (R152) -/

/-- The codes of subscription states (section 11.6). -/
def SubscriptionState.code (x : SubscriptionState) : Nat :=
  match x with
  | .active => 0
  | .warning => 1
  | .degraded => 2
  | .detached => 3

/-- A record of SUBSCRIPTION READ: 47 bytes (section 11.6). -/
def Subscription.bytes (r : Subscription) : List Byte :=
  beBytes 6 r.handle ++ beBytes 1 r.auditorium ++ beBytes 1 r.track ++ beBytes 1 r.band.val ++ beBytes 1 r.state.code ++
    beBytes 2 r.score ++ beBytes 8 r.joinTime ++ beBytes 8 (r.lastReport.getD 0) ++ beBytes 2 (r.lastSeq.getD 0) ++
      beBytes 8 (r.window.getD 0) ++ beBytes 8 (r.hold.getD 0) ++
        beBytes 1
          (boolNat r.lastReport.isSome + 2 * boolNat r.lastSeq.isSome + 4 * boolNat r.window.isSome +
            8 * boolNat r.hold.isSome)

/-- The index items of a range, from id 2 on: each index's record, or length 0 when it is free (R152, Table 11-14). -/
def State.indexItems (s : State) (first count : Nat) : List Item :=
  (List.range (min count (subscriptionSize - first))).map fun j =>
    ⟨j + 2, ((s.subscription (first + j)).map Subscription.bytes).getD []⟩

/-- How many index items a RESULT holds: all of them where they fit behind item 1, otherwise those ahead of the mark of
the cut (section 11.3; log entry 18). -/
def indexItemsHeld (items : List Item) : Nat :=
  if 3 + (items.map itemSize).sum ≤ 1483 then items.length else (fitItems 1478 items).length

/-- The data items of SUBSCRIPTION READ by range (R152, Table 11-14). -/
def State.rangeItems (s : State) (first count : Nat) : List Item :=
  let items := s.indexItems first count
  dataItem 1 1 (indexItemsHeld items) :: items

/-- The data items of SUBSCRIPTION READ by handle (R152, Table 11-14). -/
def State.handleItems (s : State) (h : Nat) : List Item :=
  match s.findHandle h with
  | none => [⟨1, []⟩, ⟨2, []⟩]
  | some (i, r) => [dataItem 1 2 i, ⟨2, r.bytes⟩]

/-- The body of SUBSCRIPTION READ in its two forms (R152). -/
def runSubscriptionRead (q : Queued) (s : State) : State × Reply :=
  match itemNat q.items 1, itemNat q.items 2, itemNat q.items 3 with
  | some first, some count, none =>
    if first ≤ 4095 ∧ 1 ≤ count ∧ count ≤ 32 then (s, .done false (s.rangeItems first count)) else s.refuse .badParameter
  | none, none, some h => if h = 0 then s.refuse .badParameter else (s, .done false (s.handleItems h))
  | _, _, _ => s.refuse .badParameter

/-- SUBSCRIPTION_READ (R152). -/
def execSubscriptionRead (t : Nat) (s : State) : Outcome :=
  .next ((s.advance t).runHead subscriptionReadCode runSubscriptionRead)

/-! ### DEVICE DETACH (R150) -/

/-- The body of DEVICE DETACH, judged in the order of R150. -/
def runDeviceDetach (q : Queued) (s : State) : State × Reply :=
  let a := argument q.items 1
  let h := argument q.items 2
  if !auditoriumNumber a || decide (h = 0) then s.refuse .badParameter
  else if s.lifecycle a = .closing then s.refuse .wrongState
  else
    match s.findHandle h with
    | none => s.refuse .badParameter
    | some (i, r) =>
      if r.auditorium ≠ a then s.refuse .badParameter
      else if r.detached then (s, .done false [])
      else (s.detach i r s.engineTime, .done false [])

/-- DEVICE_DETACH (R150). -/
def execDeviceDetach (t : Nat) (s : State) : Outcome := .next ((s.advance t).runHead deviceDetachCode runDeviceDetach)

end Sys2Proof.Machine
end

