-- ==== Sys2Proof/Machine/Due.lean ====
section
/-! DEFINITION. The timed events that are due at the present engine time: what the part takes by itself when no step waits
(log entry 2). Every event listed is one whose deadline or instant has been reached, so that taking it changes the
state. -/

namespace Sys2Proof.Machine

/-- An event listed when a condition holds. -/
def dueIf (c : Bool) (i : Instr) : List Instr := if c then [i] else []

/-- A release instant of a band of a track has been reached (R100). -/
def State.instantDue (s : State) (k : Nat) (b : Band) : Bool :=
  match s.track k with
  | none => false
  | some tr =>
    let au := s.auditorium tr.auditorium
    let sh := s.showTime tr.auditorium
    au.lifecycle.advancing &&
      match tr.kind with
      | .caption =>
        (tr.positionCue b).any fun c => (dueBands au tr c.caption.ts c.marks sh true).contains b
      | .description =>
        (tr.positionBlock b).any fun x => (dueBands au tr x.audio.tp x.marks sh true).contains b

/-- The lost watch of an auditorium that it can expire in has been reached (R43). -/
def State.lostDue (s : State) (a : Nat) : Bool :=
  (s.lifecycle a == .running || s.lifecycle a == .holdover) && s.reached (s.clock a).lostDeadline

/-- A generation deadline of a check on a track of a kind has been reached (R157, R158). -/
def State.generationDue (s : State) (a : Nat) (kind : TrackKind) : Bool :=
  (s.checkedTrack a kind).isSome && s.reached (s.check a).deadline

/-- The timed events of an auditorium that are due. -/
def State.dueAuditorium (s : State) (a : Nat) : List Instr :=
  let t := s.engineTime
  dueIf (s.lifecycle a == .running && s.reached (s.clock a).holdoverDeadline) (.holdoverExpiry t a) ++
    dueIf (s.lostDue a) (.lostExpiry t a) ++ dueIf (s.reached (s.beacon a)) (.beaconExpiry t a) ++
    dueIf (s.generationDue a .caption) (.generationDeadlineCue t a) ++
    dueIf (s.generationDue a .description) (.generationDeadlineBlock t a)

/-- The timed events of a track that are due. -/
def State.dueTrack (s : State) (k : Nat) : List Instr :=
  let t := s.engineTime
  (bands.filter (s.instantDue k)).map (fun b => .releaseInstant t k b) ++
    dueIf (s.currentEnded k) (.currentCueRetirement t k)

/-- The timed events of a subscription record that are due. -/
def State.dueRecord (s : State) (e : Nat × Subscription) : List Instr :=
  let t := s.engineTime
  dueIf (s.reached e.2.window) (.reportWindowExpiry t e.1) ++ dueIf (s.reached e.2.hold) (.holdExpiry t e.1)

/-- Every timed event that is due at the present engine time. -/
def State.due (s : State) : List Instr :=
  dueIf (s.reached s.egress.pauseEnd) (.pauseWindowClose s.engineTime) ++ auditoria.flatMap s.dueAuditorium ++
    trackNumbers.flatMap s.dueTrack ++ s.records.flatMap s.dueRecord

end Sys2Proof.Machine
end

