-- ==== Sys2Proof/Machine/Dispatch.lean ====
section
/-! DEFINITION. One arm per step of the part, each one call of its meaning. -/

namespace Sys2Proof.Machine

def exec (i : Instr) (s : State) : Host.Outcome State Fault Refusal :=
  match i with
  | .powerOn => Sys2Proof.Machine.execPowerOn s
  | .engineReset t => Sys2Proof.Machine.execEngineReset t s
  | .resetCompletion t => Sys2Proof.Machine.execResetCompletion t s
  | .contentLinkDown t => Sys2Proof.Machine.execContentLinkDown t s
  | .contentLinkUp t => Sys2Proof.Machine.execContentLinkUp t s
  | .deliveryLinkDown t => Sys2Proof.Machine.execDeliveryLinkDown t s
  | .deliveryLinkUp t => Sys2Proof.Machine.execDeliveryLinkUp t s
  | .frameDiscarded t port frame => Sys2Proof.Machine.execFrameDiscarded t port frame s
  | .showtime ea frame => Sys2Proof.Machine.execShowtime ea frame s
  | .cue ea src body => Sys2Proof.Machine.execCue ea src body s
  | .block ea src body => Sys2Proof.Machine.execBlock ea src body s
  | .copyOffer t => Sys2Proof.Machine.execCopyOffer t s
  | .control ea src frame => Sys2Proof.Machine.execControl ea src frame s
  | .join ea frame => Sys2Proof.Machine.execJoin ea frame s
  | .leave ea frame => Sys2Proof.Machine.execLeave ea frame s
  | .report ea frame => Sys2Proof.Machine.execReport ea frame s
  | .flowControlPause ea quanta => Sys2Proof.Machine.execFlowControlPause ea quanta s
  | .pauseWindowClose t => Sys2Proof.Machine.execPauseWindowClose t s
  | .holdoverExpiry t auditorium => Sys2Proof.Machine.execHoldoverExpiry t auditorium s
  | .lostExpiry t auditorium => Sys2Proof.Machine.execLostExpiry t auditorium s
  | .releaseInstant t track band => Sys2Proof.Machine.execReleaseInstant t track band s
  | .currentCueRetirement t track => Sys2Proof.Machine.execCurrentCueRetirement t track s
  | .beaconExpiry t auditorium => Sys2Proof.Machine.execBeaconExpiry t auditorium s
  | .reportWindowExpiry t index => Sys2Proof.Machine.execReportWindowExpiry t index s
  | .holdExpiry t index => Sys2Proof.Machine.execHoldExpiry t index s
  | .generationDeadlineCue t auditorium => Sys2Proof.Machine.execGenerationDeadlineCue t auditorium s
  | .generationDeadlineBlock t auditorium => Sys2Proof.Machine.execGenerationDeadlineBlock t auditorium s
  | .transmissionCompletion t => Sys2Proof.Machine.execTransmissionCompletion t s
  | .controllerSet t => Sys2Proof.Machine.execControllerSet t s
  | .filterWrite t => Sys2Proof.Machine.execFilterWrite t s
  | .filterRead t => Sys2Proof.Machine.execFilterRead t s
  | .maskWrite t => Sys2Proof.Machine.execMaskWrite t s
  | .auditoriumOpen t => Sys2Proof.Machine.execAuditoriumOpen t s
  | .auditoriumSet t => Sys2Proof.Machine.execAuditoriumSet t s
  | .auditoriumClose t => Sys2Proof.Machine.execAuditoriumClose t s
  | .bandSet t => Sys2Proof.Machine.execBandSet t s
  | .trackBind t => Sys2Proof.Machine.execTrackBind t s
  | .trackSet t => Sys2Proof.Machine.execTrackSet t s
  | .trackUnbind t => Sys2Proof.Machine.execTrackUnbind t s
  | .clockRead t => Sys2Proof.Machine.execClockRead t s
  | .rotationSet t => Sys2Proof.Machine.execRotationSet t s
  | .houseCheckStart t => Sys2Proof.Machine.execHouseCheckStart t s
  | .houseCheckStop t => Sys2Proof.Machine.execHouseCheckStop t s
  | .houseCheckRead t => Sys2Proof.Machine.execHouseCheckRead t s
  | .statusRead t => Sys2Proof.Machine.execStatusRead t s
  | .statusClear t => Sys2Proof.Machine.execStatusClear t s
  | .alertEnable t => Sys2Proof.Machine.execAlertEnable t s
  | .statisticsSnapshot t => Sys2Proof.Machine.execStatisticsSnapshot t s
  | .statisticsRead t => Sys2Proof.Machine.execStatisticsRead t s
  | .subscriptionRead t => Sys2Proof.Machine.execSubscriptionRead t s
  | .deviceDetach t => Sys2Proof.Machine.execDeviceDetach t s
  | .unknownCommand t => Sys2Proof.Machine.execUnknownCommand t s

end Sys2Proof.Machine
end

