-- ==== Sys2Proof/Machine/Idle.lean ====
section
/-! DEFINITION. What the part does when no step waits: it takes a timed event that is due, or one microsecond passes
(R24; log entries 2 and 3). -/

namespace Sys2Proof.Machine

/-- The part left to itself: a due event, the free choice deciding among several, or the next microsecond. -/
def State.idle (s : State) : Host.Outcome State Fault Refusal :=
  match s.due with
  | [] => .next { s with engineTime := s.engineTime + 1 }
  | [i] => exec i s
  | i :: j :: is =>
    exec ((i :: j :: is).getD (Config.dueChoice s.choices % (is.length + 2)) i) { s with choices := s.choices + 1 }

end Sys2Proof.Machine
end

