-- ==== Sys2Proof/Machine/Step.lean ====
section
/-! DEFINITION. One step of the part: the step at the front of the queue is taken; on an empty queue the part is left to
itself. -/

namespace Sys2Proof.Machine

/-- The step at the front of the queue, run with the queue's rest; or the part left to itself. -/
def step (s : State) : Host.Outcome State Fault Refusal :=
  match s.pending with
  | [] => s.idle
  | c :: cs => exec c { s with pending := cs }

/-- The state with the step that a table word spells put at the front of its queue; no word spells one (log entry 26). -/
def State.withFetchWord (s : State) (nbits w : Nat) : State :=
  match Sys2Proof.decodeTableWord nbits w with
  | none => s
  | some c => { s with pending := c :: s.pending }

end Sys2Proof.Machine
end

