-- ==== Sys2Proof/Safety.lean ====
section
/-! DEFINITION. The terms claims are stated in: what holds of every reachable state (the bounds and ranges the chapters
give), what a run of a command leaves behind, and which groups of state an event leaves as they stood. -/

namespace Sys2Proof.Machine

/-! ### What every step keeps -/

/-- The egress pool holds at most 1,024 entries (R119). -/
def State.PoolBounded (s : State) : Prop := s.egress.occupancy ≤ poolSize

/-- The command queue holds at most four commands (R164). -/
def State.QueueBounded (s : State) : Prop := s.queue.length ≤ queuePlaces

/-- Each class's rotation order ranks the auditoria 1 to 24, each once (R123). -/
def Rotations.Ranked (r : Rotations) : Prop := ∀ c, (r.get c).order.Perm auditoria

/-- Every live counter is at most its maximum (R171). -/
def State.CountersBounded (s : State) : Prop := ∀ c, s.count c ≤ counterMax

/-- A filter entry's fields are in the ranges of Table 3-1 (R47). -/
def Filter.InRange (f : Filter) : Prop := f.mask ≤ 7 ∧ f.bits ≤ 8 ∧ f.target ≤ 95

/-- Every filter entry's fields are in their ranges (R47). -/
def State.FiltersInRange (s : State) : Prop := ∀ i, (s.filter i).InRange

/-- A pending list and a ring hold at most the track's depth (R70, R85). -/
def Track.Fits (tr : Track) : Prop := tr.pending.length ≤ tr.depth ∧ tr.ring.length ≤ tr.depth

/-- Every bound track's list and ring fit its depth (R70, R85). -/
def State.TracksFit (s : State) : Prop := ∀ k tr, s.track k = some tr → tr.Fits

/-- A record's score is at most 256; at 256 its hold is present and its window absent, below 256 the other way round
(R146 to R148, Table 8-1). -/
def Subscription.Timed (r : Subscription) : Prop :=
  r.score ≤ 256 ∧ (r.score = 256 ↔ r.window = none) ∧ (r.score = 256 ↔ r.hold.isSome = true)

/-- A record is a member of a track's band (R135): it names both and is not DETACHED. -/
def Subscription.memberOf (k : Nat) (b : Band) (r : Subscription) : Bool := r.track == k && r.band == b && !r.detached

/-- The Subscription Table and the member counts agree (R134, R135, R146 to R148): the table is in its canonical form, so
no index is listed twice; no two records hold one handle; every record is timed by its score and names a BOUND track of
its auditorium; and each member count is the number of its records. -/
structure State.PatronsCounted (s : State) : Prop where
  canonical : Tbl.Wf id none s.subscriptions
  handles : (s.records.map fun e => e.2.handle).Nodup
  timed : ∀ e ∈ s.records, e.2.Timed
  tracks : ∀ k tr, s.track k = some tr → k ≤ 95
  bound : ∀ e ∈ s.records, ∃ tr, s.track e.2.track = some tr ∧ tr.auditorium = e.2.auditorium
  counts : ∀ k b, s.memberCount k b = (s.records.filter fun e => e.2.memberOf k b).length

/-! ### Groups of state that an event leaves as they stood -/

/-- Ports, resets and the model's own fields but the clock of engine time. -/
structure SamePorts (s t : State) : Prop where
  resetting : t.resetting = s.resetting
  contentUp : t.contentUp = s.contentUp
  deliveryUp : t.deliveryUp = s.deliveryUp
  choices : t.choices = s.choices
  pending : t.pending = s.pending

/-- Auditorium contexts, clock records, house checks and beacon deadlines. -/
structure SameShows (s t : State) : Prop where
  auditoriums : t.auditoriums = s.auditoriums
  clocks : t.clocks = s.clocks
  checks : t.checks = s.checks
  beacons : t.beacons = s.beacons

/-- The Filter Table, the Mask Table and the copies not yet offered. -/
structure SameClassifier (s t : State) : Prop where
  filters : t.filters = s.filters
  masks : t.masks = s.masks
  copies : t.copies = s.copies

/-- Track contexts and delivery sequence numbers. -/
structure SameTracks (s t : State) : Prop where
  tracks : t.tracks = s.tracks
  sequences : t.sequences = s.sequences

/-- Every track but those that `p` names stands as it stood, with its sequence numbers, counters and flags. -/
structure OtherTracks (p : Nat → Prop) (s t : State) : Prop where
  track : ∀ k, ¬p k → t.track k = s.track k
  sequences : ∀ k, ¬p k → t.trackSequences k = s.trackSequences k
  counts : ∀ k c, ¬p k → t.count (.track k c) = s.count (.track k c)
  overflow : ∀ k, ¬p k → t.flagSet ⟨.overflow, k⟩ = s.flagSet ⟨.overflow, k⟩
  paceHold : ∀ k, ¬p k → t.flagSet ⟨.paceHold, k⟩ = s.flagSet ⟨.paceHold, k⟩

/-- A counter that content work may move: a track's own, those of the egress pool, and ALERTS_SENT. -/
def Counter.ofContent (c : Counter) : Bool :=
  match c with
  | .track _ _ => true
  | .auditorium _ d => d ∈ [.entriesMade, .stale, .withdrawn, .evicted, .egressFull]
  | .device d => d == .alertsSent
  | .filterHits _ => false

/-- A flag that content work may set (R73, R80, R92, R122). -/
def Flag.ofContent (f : Flag) : Bool := f.name ∈ [.overflow, .paceHold, .egressFull]

/-- A track bound to an auditorium (R62). -/
def State.owns (s : State) (a k : Nat) : Prop := ∃ tr, s.track k = some tr ∧ tr.auditorium = a

/-- Every auditorium but `a` stands as it stood: its context, clock record, house check and beacon deadline. -/
structure OtherShows (a : Nat) (s t : State) : Prop where
  auditorium : ∀ j, j ≠ a → t.auditorium j = s.auditorium j
  clock : ∀ j, j ≠ a → t.clock j = s.clock j
  check : ∀ j, j ≠ a → t.check j = s.check j
  beacon : ∀ j, j ≠ a → t.beacon j = s.beacon j

/-- The egress pool with all that stands behind it, and what the delivery port has sent. -/
structure SameEgress (s t : State) : Prop where
  egress : t.egress = s.egress
  deliveryOut : t.deliveryOut = s.deliveryOut

/-- Subscription records and member counts. -/
structure SamePatrons (s t : State) : Prop where
  subscriptions : t.subscriptions = s.subscriptions
  members : t.members = s.members

/-- The controller list, flags, enables and the snapshot. -/
structure SameReports (s t : State) : Prop where
  controllers : t.controllers = s.controllers
  flags : t.flags = s.flags
  alertEnables : t.alertEnables = s.alertEnables
  snapshot : t.snapshot = s.snapshot
  snapshotTime : t.snapshotTime = s.snapshotTime

/-- The command queue, and what the content port has sent. -/
structure SameCommands (s t : State) : Prop where
  queue : t.queue = s.queue
  contentOut : t.contentOut = s.contentOut

/-- Every counter stands but those in a list. -/
def SameCounts (s t : State) (but : List Counter) : Prop := ∀ c, c ∉ but → t.count c = s.count c

/-- What is fixed for the life of a binding, and what TRACK SET alone retunes (R66). -/
def Track.binding (tr : Track) : TrackKind × Nat × Nat × Nat × Nat × Nat × Nat × Nat × Nat :=
  (tr.kind, tr.auditorium, tr.slot, tr.language, tr.variant, tr.depth, tr.lead, tr.high, tr.low)

/-- Every track stays FREE, or stays bound as it was with its lead and marks (R62, R66). -/
def BindingsStand (s t : State) : Prop := ∀ k, (t.track k).map Track.binding = (s.track k).map Track.binding

/-- A track that holds no content (R110, R113). -/
def Track.isEmptied (tr : Track) : Prop :=
  tr.pending = [] ∧ tr.ring = [] ∧ tr.current = none ∧ tr.lastBlock = none

/-- Every track of an auditorium is empty (R113). -/
def State.emptiedShow (t : State) (a : Nat) : Prop :=
  ∀ k ∈ t.boundTracks a, ∀ tr, t.track k = some tr → tr.isEmptied

/-! ### Counts and flags -/

/-- One increment of one counter, and nothing else. -/
structure Counted (s t : State) (c : Counter) : Prop where
  frame : t = { s with live := t.live }
  counted : t.count c = min counterMax (s.count c + 1)
  others : SameCounts s t [c]

/-- `n` increments of one counter, and nothing else. -/
structure CountedBy (s t : State) (c : Counter) (n : Nat) : Prop where
  frame : t = { s with live := t.live }
  counted : t.count c = min counterMax (s.count c + n)
  others : SameCounts s t [c]

/-- A flag's setting event (R167, R170): one that is set already changes nothing; a clear one is set and, its enable on, a
controller entry present and the content link UP, makes its ALERT, counted ALERTS_SENT. -/
structure Flagged (f : Flag) (s t : State) : Prop where
  set : t.flagSet f = true
  others : ∀ g, g ≠ f → t.flagSet g = s.flagSet g
  again : s.flagSet f = true → t = s
  alert : ∀ dest, s.flagSet f = false → s.alertEnabled f.name = true → s.contentUp = true →
    s.controllers.first = some dest → t.contentOut = s.contentOut ++ [.alert dest f s.engineTime t.summary] ∧
      t.count (.device .alertsSent) = min counterMax (s.count (.device .alertsSent) + 1)
  silent : (s.alertEnabled f.name = false ∨ s.contentUp = false ∨ s.controllers.first = none) →
    t.contentOut = s.contentOut ∧ t.live = s.live
  counts : SameCounts s t [.device .alertsSent]
  frame : t = { s with flags := t.flags, live := t.live, contentOut := t.contentOut }

/-! ### Events of one auditorium -/

/-- An event of auditorium `a` that works on the tracks `p` names: all outside the auditorium's own records, those tracks,
the egress pool and the frames sent stands as it stood. Of the counters only those of content work and `cs` move, of the
flags only those of content work and `fs`; tracks stay bound as they were. -/
structure WithinShow (a : Nat) (p : Nat → Prop) (cs : List Counter) (fs : List Flag) (s t : State) : Prop where
  engineTime : t.engineTime = s.engineTime
  ports : SamePorts s t
  classifier : SameClassifier s t
  shows : OtherShows a s t
  tracks : OtherTracks p s t
  bindings : BindingsStand s t
  patrons : SamePatrons s t
  controllers : t.controllers = s.controllers
  alertEnables : t.alertEnables = s.alertEnables
  snapshot : t.snapshot = s.snapshot ∧ t.snapshotTime = s.snapshotTime
  queue : t.queue = s.queue
  wire : t.deliveryOut = s.deliveryOut ∧ t.egress.pauseEnd = s.egress.pauseEnd ∧ t.egress.wireTail = s.egress.wireTail
  counts : ∀ c, c.ofContent = false → c ∉ cs → t.count c = s.count c
  flags : ∀ f, f.ofContent = false → f ∉ fs → t.flagSet f = s.flagSet f

/-- The withdrawal of step 1: of the auditorium's AUDIO, CAPTION and CATCHUP entries only those made since wait (R109). -/
def OldContentWithdrawn (a : Nat) (s t : State) : Prop :=
  ∀ e ∈ t.egress.waiting, e.auditorium = a → e.cls ≠ .beacon → s.egress.nextOrder ≤ e.order

/-- The beacon deadline of an auditorium in a state in which beacons run: kept or set while it has a member, absent without
(R116). -/
def State.beaconRunning (s : State) (a : Nat) : Option Nat :=
  if s.memberSum a = 0 then none
  else some ((s.beacon a).getD (s.engineTime + (s.auditorium a).params.beaconInterval * 1000))

/-- A SHOWTIME frame that passes the checks of Table 2-2 which do not turn on its status (R29, R25). -/
structure Reports (s : State) (f : ShowtimeFrame) : Prop where
  port : s.contentUp = true ∧ s.resetting = false
  range : 1 ≤ f.auditorium ∧ f.auditorium ≤ 24
  source : (s.auditorium f.auditorium).params.source = 255 ∨ (s.auditorium f.auditorium).params.source = f.server

/-- Target: the server show time plus the transit allowance, each held at 2^40 - 1 (R30). -/
def State.target (s : State) (f : ShowtimeFrame) : Nat :=
  min showMax (min showMax f.serverTime + (s.auditorium f.auditorium).params.transit)

/-- The clock record of an auditorium with both watches started at `ea`, and the frame at `ea` its last accepted (R31,
R41). -/
def State.watched (s : State) (a ea : Nat) : Clock :=
  { s.clock a with
    lastAccepted := some ea
    holdoverDeadline := some (ea + (s.auditorium a).params.holdover * 1000)
    lostDeadline := some (ea + (s.auditorium a).params.lost * 1000) }

/-- The clock record with both watches cancelled, and the frame at `ea` its last accepted (R31, R41). -/
def State.unwatched (s : State) (a ea : Nat) : Clock :=
  { s.clock a with lastAccepted := some ea, holdoverDeadline := none, lostDeadline := none }

/-- Steps 2 to 7 of the step handling for each bound track of an auditorium in increasing track number (R108). -/
def State.steppedEach (s : State) (a sh : Nat) (form : StepForm) : State :=
  (s.boundTracks a).foldl (fun x k => x.stepTrack a sh form k) s

/-- The step handling of an auditorium at show time `sh` in one of its forms (R108, Table 6-2). `v` is the state it starts
from with step 1 made: of the part before, `s`, its contexts and clock have moved on as they stand at the end, and the
auditorium's AUDIO, CAPTION and CATCHUP entries have left the pool. Steps 2 to 7 are then made for each bound track in
increasing track number, and last the beacon deadline is looked at. -/
structure Handled (a sh : Nat) (form : StepForm) (s v u : State) : Prop where
  started : v = { s with
    engineTime := u.engineTime, auditoriums := u.auditoriums, clocks := u.clocks, flags := v.flags, live := v.live
    contentOut := v.contentOut, egress := v.egress }
  withdrawn : v.egress = { s.egress with
    waiting := s.egress.waiting.filter fun e => !(e.auditorium == a && e.cls != .beacon) }
  stepped : u = { v.steppedEach a sh form with beacons := u.beacons }

/-- The evaluation of the pending content of each bound track of an auditorium in increasing track number: the late rule
over the track, then its passed instants (R107; the order between the two and the next track is log entry 23). -/
def State.evaluatedEach (s : State) (a sh : Nat) : State :=
  (s.boundTracks a).foldl (fun x k => x.evaluateTrack k sh) s

/-- The judgement of the current cue of each bound track of an auditorium (R114). -/
def State.judgedEach (s : State) (a sh : Nat) : State := (s.boundTracks a).foldl (fun x k => x.judgeCurrent k sh) s

/-- An accepted SHOWTIME frame counted, the contexts and clock already as they stand at the end of its event, and nothing
else yet: the state in which content is judged and evaluated (R107: "in the auditorium's state after the event"). -/
structure Accepted (a : Nat) (s v u : State) : Prop where
  frame : v = { s with
    engineTime := u.engineTime, auditoriums := u.auditoriums, clocks := u.clocks, live := v.live }
  counted : v.count (.auditorium a .showtimeAccepted) = min counterMax (s.count (.auditorium a .showtimeAccepted) + 1)
  counts : SameCounts s v [.auditorium a .showtimeAccepted]

/-- What a step taken by a SHOWTIME leaves besides its clock record: one step handling counted, CLOCK_STEPPED set, the old
AUDIO, CAPTION and CATCHUP entries withdrawn, steps 2 to 7 made for each track at the new show time `sh` and, where it is
`full`, every track emptied (R34, R35, R108 to R112). -/
structure Stepped (a ea sh : Nat) (full : Prop) (s u : State) : Prop where
  steps : ∃ (wide : Bool) (v : State), (wide = true ↔ full) ∧ Handled a sh (.step wide) s v u
  flag : u.flagSet ⟨.clockStepped, a⟩ = true
  handled : u.count (.auditorium a .stepHandlings) = min counterMax (s.count (.auditorium a .stepHandlings) + 1)
  accepted : u.count (.auditorium a .showtimeAccepted) = min counterMax (s.count (.auditorium a .showtimeAccepted) + 1)
  withdrawn : OldContentWithdrawn a s u
  emptied : full → u.emptiedShow a
  check : u.check a = s.check a
  beacon : u.beacon a = (s.advance ea).beaconRunning a
  within :
    WithinShow a (s.owns a) [.auditorium a .showtimeAccepted, .auditorium a .stepHandlings] [⟨.clockStepped, a⟩]
      (s.advance ea) u

/-! ### The end of a run (R164, R165) -/

/-- A command `q` heads the queue, its code is `code` and its items are the ones its command takes (R166, R177). -/
structure Heads (s : State) (q : Queued) (rest : List Queued) (code : Nat) : Prop where
  queue : s.queue = q :: rest
  codeIs : q.code = code
  items : itemsFit ((commandParams code).getD []) q.items = true

/-- A run ended with a RESULT at engine time `e`: it echoes tag and code to the command's station, or is lost while the
content link is DOWN; the command has left the queue; and COMMANDS_RUN, RESULTS_SENT and COMMANDS_REFUSED are counted
(R164, R165). -/
structure RunEnded (s t : State) (q : Queued) (rest : List Queued) (e : Nat) (status : Status) (items : List Item) :
    Prop where
  queue : t.queue = rest
  result :
    t.contentOut =
      s.contentOut ++ if s.contentUp then [.result q.station q.tag q.code status e (cutItems items)] else []
  run : t.count (.device .commandsRun) = min counterMax (s.count (.device .commandsRun) + 1)
  sent :
    t.count (.device .resultsSent) =
      if s.contentUp then min counterMax (s.count (.device .resultsSent) + 1) else s.count (.device .resultsSent)
  refused :
    t.count (.device .commandsRefused) =
      match status with
      | .done _ => s.count (.device .commandsRefused)
      | .refused _ => min counterMax (s.count (.device .commandsRefused) + 1)

/-- The counters a run's end may move. -/
def runCounters : List Counter := [.device .commandsRun, .device .resultsSent, .device .commandsRefused]

/-- Nothing but the queue, the frames sent and the counters of a run changes: the run of a read, or of a refused command,
with no effect of its own (R165). -/
structure OnlyEnds (s t : State) : Prop where
  engineTime : t.engineTime = s.engineTime
  ports : SamePorts s t
  shows : SameShows s t
  classifier : SameClassifier s t
  tracks : SameTracks s t
  egress : SameEgress s t
  patrons : SamePatrons s t
  reports : SameReports s t
  counts : SameCounts s t runCounters

/-- A command taken: its DONE RESULT and the counts of its run, and nothing besides the effect that led from the state
before to `s` (R165). -/
structure RunDone (s t : State) (q : Queued) (rest : List Queued) (clamped : Bool) (items : List Item) : Prop where
  ended : RunEnded s t q rest s.engineTime (.done clamped) items
  only : OnlyEnds s t

/-- A refused command: its REFUSED RESULT and the counts of its run, and nothing else (R165). -/
structure RunRefused (s t : State) (q : Queued) (rest : List Queued) (r : Reason) : Prop where
  ended : RunEnded s t q rest s.engineTime (.refused r) []
  only : OnlyEnds s t

/-! ### Resets -/

/-- What power-on and ENGINE RESET both leave: every auditorium DARK with its defaults, every track FREE, the tables and
the pool empty, no window, deadline or check, every enable off and every counter and snapshot value 0 (R1, R26, R62, R63,
R99, R119, R131, R134, R135, R154, R164, R170, R171, R173, R174). -/
structure Cleared (t : State) : Prop where
  auditorium : ∀ a, t.auditorium a = Auditorium.initial
  clock : ∀ a, t.clock a = Clock.initial
  check : ∀ a, t.check a = HouseCheck.initial
  beacon : ∀ a, t.beacon a = none
  copies : t.copies = []
  track : ∀ k, t.track k = none
  nextSeq : ∀ k b, t.nextSeq k b = 0
  waiting : t.egress.waiting = []
  inFlight : t.egress.inFlight = none
  pauseEnd : t.egress.pauseEnd = none
  subscription : ∀ i, t.subscription i = none
  memberCount : ∀ k b, t.memberCount k b = 0
  queue : t.queue = []
  alertEnabled : ∀ n, t.alertEnabled n = false
  count : ∀ c, t.count c = 0
  snapshotCount : ∀ c, t.snapshotCount c = 0
  snapshotTime : t.snapshotTime = none

/-- What power-on leaves besides (R24, R47, R48, R123, R162, R174). -/
structure PoweredOn (t : State) : Prop extends Cleared t where
  engineTime : t.engineTime = 0
  resetting : t.resetting = false
  controllers : t.controllers = ⟨none, none⟩
  filter : ∀ i, t.filter i = Filter.initial
  mask : ∀ i, t.mask i = 0xFFFFFFFF
  rotation : ∀ c, t.egress.rotation.get c = ⟨auditoria, .automatic⟩

/-- The flags that a completed reset leaves set: that of each link that is DOWN (R173, R174). -/
def FlagsOfLinks (t : State) : Prop :=
  ∀ f, t.flagSet f = true ↔
    (f = ⟨.deliveryLinkDown, 0⟩ ∧ t.deliveryUp = false) ∨ (f = ⟨.contentLinkDown, 0⟩ ∧ t.contentUp = false)

/-! ### Frames handed to the egress pool -/

/-- An entry as a maker gives it; its making position comes with its placement (R120). -/
def madeEntry (frame : DeliveryFrame) (cls : EgressClass) (a : Nat) (track deadline : Option Nat) : Entry :=
  ⟨frame, cls, a, track, deadline, 0⟩

/-! ### Content work on one track -/

/-- Of the whole part only the record of track `k` changes: it becomes `tr`. -/
structure TrackBecomes (k : Nat) (tr : Track) (s t : State) : Prop where
  frame : t = { s with tracks := t.tracks }
  track : t.track k = some tr
  others : ∀ j, j ≠ k → t.track j = s.track j

/-- Work on the content of track `k`: that track with its sequence numbers, the egress pool and the frames sent may change,
with the counters and flags of content work, and nothing else. -/
structure WithinTrack (k : Nat) (s t : State) : Prop where
  shows : SameShows s t
  within : WithinShow 0 (· = k) [] [] s t

/-- The counters of track `k` that stand but those in a list. -/
def SameTrackCounts (k : Nat) (but : List TrackCounter) (s t : State) : Prop :=
  ∀ c, c ∉ but → t.count (.track k c) = s.count (.track k c)

/-- A frame to each of the bands of track `k` that `p` names, in increasing band number (R102). -/
def SentEach (k : Nat) (tr : Track) (p : Band → Prop) (cls : EgressClass) (body : DeliveryBody) (d : Option Nat)
    (s t : State) : Prop :=
  ∃ bs : List Band, bs.Pairwise (· < ·) ∧ (∀ b, b ∈ bs ↔ p b) ∧
    t = bs.foldl (fun x b => x.sendToBand k tr b cls body d) s

/-- A CAPTION or CAPTION REPLACE to each of the bands of track `k` that `p` names, in increasing band number, each followed
by its degraded repeat copies (R79, R111, R115). -/
def CaptionedEach (k : Nat) (tr : Track) (p : Band → Prop) (body : DeliveryBody) (d : Option Nat) (s t : State) : Prop :=
  ∃ bs : List Band, bs.Pairwise (· < ·) ∧ (∀ b, b ∈ bs ↔ p b) ∧ t = bs.foldl (fun x b => x.sendCaption k tr b body d) s

/-- The bands that `p` names in the order in which instants of one record are taken together: increasing instant, ties in
increasing number, band 0 last (R100). -/
structure ReleaseOrder (au : Auditorium) (tr : Track) (time : Nat) (p : Band → Prop) (bs : List Band) : Prop where
  names : ∀ b, b ∈ bs ↔ p b
  order : bs.Pairwise fun b c => b ≠ 0 ∧ (c = 0 ∨
    time - tr.lead - (au.band b).offset < time - tr.lead - (au.band c).offset ∨
    (time - tr.lead - (au.band b).offset = time - tr.lead - (au.band c).offset ∧ b < c))

/-- A show time that has reached a record's band-0 instant, in a state in which show time advances (R72, R91, R105). -/
def State.lateFor (s : State) (tr : Track) (time : Nat) : Prop :=
  (s.lifecycle tr.auditorium).advancing = true ∧ time - tr.lead ≤ s.showTime tr.auditorium

/-- A cue put behind every pending cue of equal or earlier start and before every later one (R70, R72). -/
def Placed (c : Cue) (before after : List Cue) : Prop :=
  ∃ l₁ l₂, before = l₁ ++ l₂ ∧ after = l₁ ++ c :: l₂ ∧ (∀ d ∈ l₁, d.caption.ts ≤ c.caption.ts) ∧
    ∀ d ∈ l₂.head?, c.caption.ts < d.caption.ts

/-- The deadline of a CAPTION (Table 6-1, R102). -/
def shownUntil (au : Auditorium) (c : Caption) : Nat :=
  min showMax
    (if c.late = true ∨ c.repeated = true then
      max (c.ts + au.params.staleAllowance * 1000) (c.te - au.params.minDisplay * 1000)
    else c.ts + au.params.staleAllowance * 1000)

/-- What steps 3 and 4 of the step handling leave of a track (Table 6-2). -/
def Track.keptBy (tr : Track) (sh : Nat) (form : StepForm) : Track :=
  match form with
  | .step false => { tr with
      pending := tr.pending.filter fun c => sh < c.caption.te, ring := tr.ring.filter fun x => sh ≤ x.audio.tp
      lastBlock := none }
  | .step true => { tr with pending := [], ring := [], lastBlock := none }
  | .showEnd => { tr with pending := [], ring := [], lastBlock := none }
  | .lost => tr

/-- A track whose records hold no mark (R110). -/
def Track.unmarked (tr : Track) : Track :=
  { tr with
    pending := tr.pending.map fun c => { c with marks := PerBand.all false }
    ring := tr.ring.map fun x => { x with marks := PerBand.all false } }

/-- A malformed cue copy: of a deletion, text length 0, only the number and the body length are checked (R71). -/
def MalformedCue (b : CueBody) : Prop :=
  b.tail.length ≠ b.textLen + b.speakerLen ∨ b.number = 0 ∨
    (b.textLen ≠ 0 ∧ (b.te ≤ b.ts ∨ showMax < b.ts ∨ showMax < b.te ∨ 200 < b.textLen ∨ 32 < b.speakerLen ∨
      15 < b.region))

/-- A malformed block copy (R87). -/
def MalformedBlock (b : BlockBody) : Prop :=
  b.duration < 10000 ∨ 60000 < b.duration ∨ b.tail.length < 16 ∨ 960 < b.tail.length ∨ showMax < b.tp ∨
    b.payloadLen ≠ b.tail.length

/-- The track with the source that an accepted copy sets; a generated item leaves it (R71, R87). -/
def Track.sourced (tr : Track) (src : Option Source) : Track :=
  { tr with source := if src.isSome then src else tr.source }

/-- The track without the pending cues of a number. -/
def Track.withoutCue (tr : Track) (n : Nat) : Track :=
  { tr with pending := tr.pending.filter fun c => c.caption.number != n }

/-- A band of a track is enabled and has members (R21). -/
def State.hears (s : State) (k : Nat) (tr : Track) (b : Band) : Prop :=
  ((s.auditorium tr.auditorium).band b).enabled = true ∧ s.memberCount k b ≠ 0

/-- Each band that `p` names has been sent one more frame, and no other band of the track (R102). -/
def OneFrameEach (k : Nat) (p : Band → Prop) (s t : State) : Prop :=
  ∀ b, (p b → t.nextSeq k b = s.nextSeq k b + 1) ∧ (¬p b → t.nextSeq k b = s.nextSeq k b)

/-! ### Subscriptions (Chapter 8) -/

/-- Track `k` is one that a JOIN may find: BOUND to its auditorium, of its kind and of its language, 0 accepting any (R137).
-/
def JoinFits (s : State) (f : JoinFrame) (k : Nat) : Prop :=
  ∃ tr, k ≤ 95 ∧ s.track k = some tr ∧ tr.auditorium = f.auditorium ∧
    ((f.kind = 1 ∧ tr.kind = .caption) ∨ (f.kind = 2 ∧ tr.kind = .description)) ∧
      (f.language = 0 ∨ f.language = tr.language)

/-- The JOIN would add a member to its auditorium: its handle holds no record there, or a DETACHED one (R138). -/
def JoinAdds (s : State) (f : JoinFrame) : Prop :=
  ∀ i r, s.findHandle f.handle = some (i, r) → r.detached = true ∨ r.auditorium ≠ f.auditorium

/-- Return frames arrive: the delivery link is UP and no reset completes (R132, R136, R173). -/
def State.ReturnsArrive (s : State) : Prop := s.deliveryUp = true ∧ s.resetting = false

/-- A return frame that passes R136: it arrives, whatever the content link state, and its handle and auditorium are in
range. -/
structure Returned (s : State) (handle a : Nat) : Prop where
  port : s.ReturnsArrive
  handle : handle ≠ 0
  range : 1 ≤ a ∧ a ≤ 24

/-- Record `i`, as it stood in `r`, enters DETACHED at engine time `e` (R148); of the counters only those of `cs` move
besides. -/
structure Detaches (i : Nat) (r : Subscription) (e : Nat) (cs : List Counter) (s u : State) : Prop where
  record : u.subscription i = some { r with score := 256, window := none, hold := some (e + 60000000) }
  others : ∀ j, j ≠ i → u.subscription j = s.subscription j
  members : ∀ k b, u.memberCount k b = s.memberCount k b - if k = r.track ∧ b = r.band then 1 else 0
  flag : u.flagSet ⟨.deviceDetached, r.auditorium⟩ = true
  flags : ∀ f, f ≠ ⟨.deviceDetached, r.auditorium⟩ → u.flagSet f = s.flagSet f
  counted : u.count (.auditorium r.auditorium .detachments) =
    min counterMax (s.count (.auditorium r.auditorium .detachments) + 1)
  counts : SameCounts s u ([.auditorium r.auditorium .detachments, .device .alertsSent] ++ cs)
  beacons : ∀ a, a ≠ r.auditorium → u.beacon a = s.beacon a
  stopped : u.memberSum r.auditorium = 0 → u.beacon r.auditorium = none

/-! ### Timed events (R12, R28, R78, R100, R117, R131, R147, R149, R157, R158) -/

/-- A deadline that is present and that engine time has reached. -/
def State.Reached (s : State) (deadline : Option Nat) : Prop := ∃ d, deadline = some d ∧ d ≤ s.engineTime

/-- The check of an auditorium runs on a track of a kind, and its generation deadline has been reached (R157, R158). -/
def State.GenerationReached (s : State) (a : Nat) (kind : TrackKind) : Prop :=
  (s.check a).running = true ∧ s.Reached (s.check a).deadline ∧
    ∃ k tr, (s.check a).track = some k ∧ s.track k = some tr ∧ tr.kind = kind

/-- The first record of a track that is not marked for a band has its instant for that band behind it, the band enabled and
show time advancing (R99, R100); `time` is its Ts or Tp. -/
def State.InstantReached (s : State) (k : Nat) (b : Band) : Prop :=
  ∃ tr time, s.track k = some tr ∧ (s.lifecycle tr.auditorium).advancing = true ∧
    ((s.auditorium tr.auditorium).band b).enabled = true ∧
      time - tr.lead - ((s.auditorium tr.auditorium).band b).offset ≤ s.showTime tr.auditorium ∧
        ((tr.kind = .caption ∧ ∃ c, tr.pending.find? (fun d => !d.marks.get b) = some c ∧ c.caption.ts = time) ∨
          (tr.kind = .description ∧ ∃ x, tr.ring.find? (fun y => !y.marks.get b) = some x ∧ x.audio.tp = time))

/-- The timed events whose deadline or instant has been reached at the present engine time; no other step comes by itself. -/
def State.Due (s : State) (i : Instr) : Prop :=
  match i with
  | .pauseWindowClose t => t = s.engineTime ∧ s.Reached s.egress.pauseEnd
  | .holdoverExpiry t a =>
    t = s.engineTime ∧ a ∈ auditoria ∧ s.lifecycle a = .running ∧ s.Reached (s.clock a).holdoverDeadline
  | .lostExpiry t a =>
    t = s.engineTime ∧ a ∈ auditoria ∧ (s.lifecycle a = .running ∨ s.lifecycle a = .holdover) ∧
      s.Reached (s.clock a).lostDeadline
  | .beaconExpiry t a => t = s.engineTime ∧ a ∈ auditoria ∧ s.Reached (s.beacon a)
  | .generationDeadlineCue t a => t = s.engineTime ∧ a ∈ auditoria ∧ s.GenerationReached a .caption
  | .generationDeadlineBlock t a => t = s.engineTime ∧ a ∈ auditoria ∧ s.GenerationReached a .description
  | .releaseInstant t k b => t = s.engineTime ∧ k ∈ trackNumbers ∧ s.InstantReached k b
  | .currentCueRetirement t k =>
    t = s.engineTime ∧ k ∈ trackNumbers ∧ ∃ tr c, s.track k = some tr ∧ tr.current = some c ∧
      (s.lifecycle tr.auditorium).advancing = true ∧ c.caption.te ≤ s.showTime tr.auditorium
  | .reportWindowExpiry t i => t = s.engineTime ∧ ∃ r, s.subscription i = some r ∧ s.Reached r.window
  | .holdExpiry t i => t = s.engineTime ∧ ∃ r, s.subscription i = some r ∧ s.Reached r.hold
  | _ => False

/-! ### The status flags and the frames received -/

/-- Table 10-3: each flag with its rank and scope. -/
def flagTable : List (FlagName × Nat × Scope) :=
  [(.clockLost, 12, .auditorium), (.deliveryLinkDown, 11, .device), (.contentLinkDown, 10, .device),
    (.egressFull, 9, .device), (.clockHoldover, 8, .auditorium), (.overflow, 7, .track), (.clockStepped, 6, .auditorium),
    (.houseCheckAborted, 5, .auditorium), (.paceHold, 4, .track), (.deviceDetached, 3, .auditorium),
    (.unclaimedSeen, 2, .device), (.houseCheckDone, 1, .auditorium)]

/-- A flag of the part: its instance is one of its scope (R167). -/
def Flag.Exists (f : Flag) : Prop :=
  match f.name.scope with
  | .device => f.inst = 0
  | .auditorium => 1 ≤ f.inst ∧ f.inst ≤ 24
  | .track => f.inst ≤ 95

/-- The set flags of a scope's instance as one item's number: bit r - 1 for rank r (R179). -/
def FlagBits (s : State) (sc : Scope) (inst bits : Nat) : Prop :=
  ∀ i, bits.testBit i = true ↔ ∃ n : FlagName, n.rank = i + 1 ∧ n.scope = sc ∧ s.flagSet ⟨n, inst⟩ = true

/-- The kinds each port receives, with the fixed part of their body and whether a variable part may follow (Table 11-2). -/
def inboundTable : List (Port × Nat × Nat × Bool) :=
  [(.content, 0x01, 15, false), (.content, 0x02, 28, true), (.content, 0x03, 22, true), (.content, 0x04, 3, true),
    (.delivery, 0x31, 11, false), (.delivery, 0x32, 7, false), (.delivery, 0x33, 11, false)]

/-- Items end exactly where the bytes end (R177). -/
def SpellsItems (bytes : List Byte) : Prop :=
  ∃ items : List Item, (∀ i ∈ items, i.id < 256 ∧ i.value.length < 256) ∧ bytes = items.flatMap itemBytesOut

/-- A frame of kind `kind` with body `body` that passes the fourth check of R176 behind the first three. -/
structure FrameFits (port : Port) (f : RawFrame) (kind : Nat) (body : List Byte) : Prop where
  header : 4 ≤ f.data.length ∧ fieldAt f.data 0 1 = 1 ∧ fieldAt f.data 1 1 = kind
  received : fieldAt f.data 2 2 ≤ f.data.length - 4 ∧ body = (f.data.drop 4).take (fieldAt f.data 2 2)
  inbound : ∃ fixed more, (port, kind, fixed, more) ∈ inboundTable ∧ fixed ≤ body.length ∧
    (more = false → body.length = fixed)
  items : port = .content → kind = 0x04 → SpellsItems (body.drop 3)

/-- A flow-control pause frame: its type, its opcode and a quanta field behind it (section 11.4; a frame too short for the
field is none, log entry 37). -/
def PauseFrame (port : Port) (f : RawFrame) : Prop :=
  port = .delivery ∧ f.etherType = 0x8808 ∧ 4 ≤ f.data.length ∧ fieldAt f.data 0 2 = 1

/-! ### Commands by their codes -/

/-- The run of the command of each code of Table 11-7 but ENGINE RESET, at engine time `t`. -/
def runOfCode (t code : Nat) : Option Instr :=
  match code with
  | 0x01 => some (.controllerSet t)
  | 0x02 => some (.filterWrite t)
  | 0x03 => some (.filterRead t)
  | 0x04 => some (.maskWrite t)
  | 0x05 => some (.auditoriumOpen t)
  | 0x06 => some (.auditoriumSet t)
  | 0x07 => some (.auditoriumClose t)
  | 0x08 => some (.bandSet t)
  | 0x09 => some (.trackBind t)
  | 0x0A => some (.trackSet t)
  | 0x0B => some (.trackUnbind t)
  | 0x0C => some (.clockRead t)
  | 0x0D => some (.rotationSet t)
  | 0x0E => some (.houseCheckStart t)
  | 0x0F => some (.houseCheckStop t)
  | 0x10 => some (.houseCheckRead t)
  | 0x11 => some (.statusRead t)
  | 0x12 => some (.statusClear t)
  | 0x13 => some (.alertEnable t)
  | 0x14 => some (.statisticsSnapshot t)
  | 0x15 => some (.statisticsRead t)
  | 0x16 => some (.subscriptionRead t)
  | 0x17 => some (.deviceDetach t)
  | _ => none

end Sys2Proof.Machine
end

