-- ==== Sys2Proof/Certificates/Slice0/Obligations.lean ====
section
/-! DEFINITION. What is claimed of the part, rule by rule, for the provers. -/

open Sys2Proof Sys2Proof.Machine

/-! ### Steps, power-on and resets -/

/-- A step takes the step at the front of the queue and runs it with the queue's rest. -/
def Obligations.StepRunsFrontOfQueue : Prop :=
  ∀ (s : State) (c : Instr) (cs : List Instr), s.pending = c :: cs → step s = exec c { s with pending := cs }

/-- With no step waiting the part takes a timed event that is due, the free choice deciding among several, or a
microsecond passes (the model's choice, log entries 2 and 3; R24 says that engine time advances by one each
microsecond). Due are just the events whose deadline or instant the present engine time has reached: the close of a
pause window, the watches, the beacon, generation, window and hold deadlines, the release instants of the enabled
bands and the end of the current cue (R12, R28, R78, R100, R117, R131, R147, R149, R157, R158). -/
def Obligations.IdlePartTakesDueEventOrTime : Prop :=
  (∀ s : State, s.pending = [] →
    (s.due = [] → step s = .next { s with engineTime := s.engineTime + 1 }) ∧
      (∀ i, s.due = [i] → step s = exec i s) ∧
        (2 ≤ s.due.length → ∃ i ∈ s.due, step s = exec i { s with choices := s.choices + 1 })) ∧
  ∀ s : State, Tbl.Wf id none s.subscriptions → ∀ i, i ∈ s.due ↔ s.Due i

/-- The state after reset is the one that power-on leaves, every flag clear, both links UP (the model's choice, log
entry 4). The values are those of Tables 1-1 and 1-4, R26, Table 9-1 and Table 3-1, spelled out; the rotations run 1
to 24 (R1, R26, R47, R123, R154). POWER_ON from any state leaves every block at its power-on values and sets the flag
of each link that is DOWN (R174); the links and the model's own fields stand (log entry 19). -/
def Obligations.PowerOnSetsEveryBlock : Prop :=
  (PoweredOn State.reset ∧ (∀ f, State.reset.flagSet f = false) ∧ State.reset.egress.wireTail = none ∧
    State.reset.pending = [] ∧ State.reset.contentUp = true ∧ State.reset.deliveryUp = true ∧
    Auditorium.initial = {
      lifecycle := .dark
      params := {
        source := 255, transit := 2000, stepThreshold := 250000, holdover := 3000, lost := 30000, minDisplay := 500
        memberLimit := 512, beaconInterval := 500, reportPeriod := 5, staleAllowance := 1000 }
      band1 := ⟨false, 40000⟩, band2 := ⟨false, 120000⟩, band3 := ⟨false, 250000⟩, owed := none } ∧
    Params.default = Auditorium.initial.params ∧
    Clock.initial = {
      e0 := 0, s0 := 0, drift := 0, correction := 0, rate := 0, lastError := 0, stepCount := 0, composition := none
      lastAccepted := none, holdoverDeadline := none, lostDeadline := none } ∧
    HouseCheck.initial = {
      running := false, outcome := .none, track := none, mode := none, text := none, pattern := none, count := none
      interval := none, duration := none, next := none, deadline := none, previousTp := none, items := 0
      reports := 0, missed := 0, devices := 0, highest := 0 } ∧
    Filter.initial = {
      enabled := false, label := 0, mask := 0, bits := 0, selector := 0, continues := false, target := 0 } ∧
    auditoria = [1, 2, 3, 4, 5, 6, 7, 8, 9, 10, 11, 12, 13, 14, 15, 16, 17, 18, 19, 20, 21, 22, 23, 24]) ∧
  ∀ s : State, ∃ t, exec .powerOn s = .next t ∧ PoweredOn t ∧ FlagsOfLinks t ∧ t.egress.wireTail = none ∧
    t.contentUp = s.contentUp ∧ t.deliveryUp = s.deliveryUp ∧ t.contentOut = s.contentOut ∧
      t.deliveryOut = s.deliveryOut ∧ t.choices = s.choices ∧ t.pending = s.pending

/-- ENGINE_RESET sends its RESULT first, then clears the part but for engine time, the controller list, the Filter and
Mask Tables and the rotations; a frame on the wire is left there to finish (R119, R173; log entry 8). One that carries
an item is refused BAD_PARAMETER (R177; the model's reading, log entry 17). RESET_COMPLETION ends a reset with every
block at the reset values and the flag of each link that is DOWN set; that the values are set at the run and again at
the completion is the model's choice (log entry 27), and with no reset under way it does nothing (log entry 6). -/
def Obligations.EngineResetClears : Prop :=
  (∀ (s : State) (t : Nat) (q : Queued) (rest : List Queued), s.queue = q :: rest → q.code = 0x18 →
    (q.items = [] → ∃ u, exec (.engineReset t) s = .next u ∧ Cleared u ∧ u.resetting = true ∧
      (∀ f, u.flagSet f = false) ∧ (s.egress.inFlight = none → u.egress.wireTail = s.egress.wireTail) ∧
      (∀ e, s.egress.inFlight = some e → u.egress.wireTail = some e.frame) ∧
      u.egress.rotation = s.egress.rotation ∧
      u.contentOut = s.contentOut ++
        (if s.contentUp then [.result q.station q.tag 0x18 (.done false) (max s.engineTime t) []] else []) ∧
      u = { s with
        engineTime := max s.engineTime t, resetting := u.resetting, auditoriums := u.auditoriums, clocks := u.clocks
        checks := u.checks, beacons := u.beacons, copies := u.copies, tracks := u.tracks, sequences := u.sequences
        egress := u.egress, subscriptions := u.subscriptions, members := u.members, queue := u.queue, flags := u.flags
        alertEnables := u.alertEnables, live := u.live, snapshot := u.snapshot, snapshotTime := u.snapshotTime
        contentOut := u.contentOut }) ∧
    (q.items ≠ [] → ∃ u, exec (.engineReset t) s = .next u ∧ RunRefused (s.advance t) u q rest .badParameter)) ∧
  ∀ (s : State) (t : Nat),
    (s.resetting = true → ∃ u, exec (.resetCompletion t) s = .next u ∧ Cleared u ∧ u.resetting = false ∧
      FlagsOfLinks u ∧ u.egress.rotation = s.egress.rotation ∧
      u = { s with
        engineTime := max s.engineTime t, resetting := u.resetting, auditoriums := u.auditoriums, clocks := u.clocks
        checks := u.checks, beacons := u.beacons, copies := u.copies, tracks := u.tracks, sequences := u.sequences
        egress := u.egress, subscriptions := u.subscriptions, members := u.members, queue := u.queue, flags := u.flags
        alertEnables := u.alertEnables, live := u.live, snapshot := u.snapshot, snapshotTime := u.snapshotTime }) ∧
    (s.resetting = false → exec (.resetCompletion t) s = .next (s.advance t))

/-! ### Links, pauses and discarded frames -/

/-- CONTENT_LINK_DOWN sets its flag and sends nothing; the link's return changes nothing else (R175).
DELIVERY_LINK_DOWN sets its flag, closes any pause window and ends the transmission in flight unsent: its entry leaves
the pool, counted LINK_ABORT, and a SHOW ENDED of a CLOSING auditorium takes it to DARK with its owed RESULT (R132,
R19). What waits stays. Two clauses are the model's choice: that a frame which a reset left on the wire is ended too
(log entry 8), and that a link which is DOWN already changes nothing (log entry 6). -/
def Obligations.LinksGoDown : Prop :=
  (∀ (s : State) (t : Nat),
    (s.contentUp = true → ∃ u, exec (.contentLinkDown t) s = .next u ∧ u.contentUp = false ∧
      u.flagSet ⟨.contentLinkDown, 0⟩ = true ∧ (∀ f, f ≠ ⟨.contentLinkDown, 0⟩ → u.flagSet f = s.flagSet f) ∧
      u = { s with engineTime := max s.engineTime t, contentUp := u.contentUp, flags := u.flags }) ∧
    (s.contentUp = false → exec (.contentLinkDown t) s = .next (s.advance t)) ∧
    exec (.contentLinkUp t) s = .next { s.advance t with contentUp := true }) ∧
  ∀ (s : State) (t : Nat),
    (s.deliveryUp = false → exec (.deliveryLinkDown t) s = .next (s.advance t)) ∧
    (s.deliveryUp = true → ∃ u, exec (.deliveryLinkDown t) s = .next u ∧ u.deliveryUp = false ∧
      u.flagSet ⟨.deliveryLinkDown, 0⟩ = true ∧ (∀ f, f ≠ ⟨.deliveryLinkDown, 0⟩ → u.flagSet f = s.flagSet f) ∧
      u.egress = { s.egress with pauseEnd := none, inFlight := none, wireTail := none } ∧
      (∀ c, (∀ e, s.egress.inFlight = some e → c ≠ .auditorium e.auditorium .linkAbort) → c ≠ .device .alertsSent →
        c ≠ .device .resultsSent → u.count c = s.count c) ∧
      (∀ e, s.egress.inFlight = some e → u.count (.auditorium e.auditorium .linkAbort) =
        min counterMax (s.count (.auditorium e.auditorium .linkAbort) + 1)) ∧
      (∀ e a, s.egress.inFlight = some e → e.frame.body = .showEnded a → s.lifecycle a = .closing →
        u.auditorium a = { s.auditorium a with lifecycle := .dark, owed := none } ∧
          ∀ o, (s.auditorium a).owed = some o → s.contentUp = true → u.contentOut.getLast? =
            some (.result o.station o.tag 0x07 (.done false) (max s.engineTime t) [])) ∧
      (∀ j, (∀ e, s.egress.inFlight = some e → e.frame.body = .showEnded j → s.lifecycle j ≠ .closing) →
        u.auditorium j = s.auditorium j) ∧
      u = { s with
        engineTime := max s.engineTime t, deliveryUp := u.deliveryUp, flags := u.flags, egress := u.egress
        live := u.live, contentOut := u.contentOut, auditoriums := u.auditoriums })

/-- A flow-control pause frame is counted; quanta q above 0 hold grants until Ea + ⌈q × 512 / 1,000⌉, replacing an
open window; 0 closes the window and lets a grant be taken (R131). While the link is DOWN or a reset completes no
frame arrives (R132, R173; that such a frame changes nothing is log entry 28). DELIVERY_LINK_UP and the close of a
window let a grant be taken at once; that a window stays open before its end, and that with none open nothing happens,
is the model's choice (log entry 6). -/
def Obligations.PauseWindowHoldsGrants : Prop :=
  (∀ (s : State) (ea q : Nat),
    (s.deliveryUp = true → s.resetting = false → ∃ v, Counted (s.advance ea) v (.device .pauseFrames) ∧
      (0 < q → exec (.flowControlPause ea q) s =
        .next { v with egress := { v.egress with pauseEnd := some (ea + (q * 512 + 999) / 1000) } }) ∧
      (q = 0 → exec (.flowControlPause ea q) s =
        .next (State.grant { v with egress := { v.egress with pauseEnd := none } }))) ∧
    ((s.deliveryUp = false ∨ s.resetting = true) → exec (.flowControlPause ea q) s = .next (s.advance ea))) ∧
  ∀ (s : State) (t : Nat),
    exec (.deliveryLinkUp t) s = .next (State.grant { s.advance t with deliveryUp := true }) ∧
    (∀ e, s.egress.pauseEnd = some e → e ≤ max s.engineTime t →
      exec (.pauseWindowClose t) s =
        .next (State.grant { s.advance t with egress := { s.egress with pauseEnd := none } })) ∧
    (∀ e, s.egress.pauseEnd = some e → max s.engineTime t < e → exec (.pauseWindowClose t) s = .next (s.advance t)) ∧
    (s.egress.pauseEnd = none → exec (.pauseWindowClose t) s = .next (s.advance t))

/-- A frame that fails a check of R176 is counted on its port, BAD_FCS for its check sequence and BAD_FRAME otherwise,
and changes nothing else; on a port whose link is DOWN, or while a reset completes, no frame arrives (R132, R173,
R175). The checks run in their order: the check sequence, on the delivery port the pause frame, the type, then
version, length, the kind of the port with its fixed part and the end of a CONTROL frame's items; a frame that passes
them is accepted with its kind and body, and one that fails any is a bad frame. That a FRAME_DISCARDED on a port that
is not open changes nothing is log entry 28. That a pause frame has a quanta field, a frame of its type without one
being bad, is the model's choice (log entry 37), and so is that a discard whose frame would be accepted changes
nothing (log entry 6). -/
def Obligations.BadFramesAreDiscarded : Prop :=
  (∀ (s : State) (t : Nat) (port : Port) (f : RawFrame),
    (s.portOpen port = true → judgeFrame port f = .badFcs → ∃ u, exec (.frameDiscarded t port f) s = .next u ∧
      Counted (s.advance t) u (.device (match port with
        | .content => .contentBadFcs
        | .delivery => .deliveryBadFcs))) ∧
    (s.portOpen port = true → judgeFrame port f = .badFrame → ∃ u, exec (.frameDiscarded t port f) s = .next u ∧
      Counted (s.advance t) u (.device (match port with
        | .content => .contentBadFrame
        | .delivery => .deliveryBadFrame))) ∧
    (s.portOpen port = false → exec (.frameDiscarded t port f) s = .next (s.advance t)) ∧
    (((∃ q, judgeFrame port f = .pause q) ∨ ∃ kind body, judgeFrame port f = .accepted kind body) →
      exec (.frameDiscarded t port f) s = .next (s.advance t)) ∧
    (s.portOpen .content = true ↔ s.contentUp = true ∧ s.resetting = false) ∧
    (s.portOpen .delivery = true ↔ s.deliveryUp = true ∧ s.resetting = false)) ∧
  ∀ (port : Port) (f : RawFrame),
    (f.fcsOk = false → judgeFrame port f = .badFcs) ∧
    (f.fcsOk = true → PauseFrame port f → judgeFrame port f = .pause (fieldAt f.data 2 2)) ∧
    (f.fcsOk = true → ¬PauseFrame port f → f.etherType ≠ 0x9A16 → judgeFrame port f = .badFrame) ∧
    (f.fcsOk = true → f.etherType = 0x9A16 →
      (∀ kind body, FrameFits port f kind body → judgeFrame port f = .accepted kind body) ∧
      ((∀ kind body, ¬FrameFits port f kind body) → judgeFrame port f = .badFrame))

/-! ### The Egress Arbiter (Chapter 7) -/

/-- A grant takes the entry it chooses: a stale one is dropped, counted, and the grant chooses again; any other leaves
its FIFO, stays in the pool as the transmission in flight, a BEACON filled with the auditorium's state, its
composition and its show time at the grant, and in AUTOMATIC mode its auditorium moves to the lowest rank (R125 to
R128). Where a grant condition fails no grant is taken; that a frame which a reset left on the wire holds grants back
is the model's choice (log entry 8). -/
def Obligations.GrantTakesChosenEntry : Prop :=
  ∀ s : State,
    (s.deliveryUp = false ∨ s.egress.inFlight ≠ none ∨ s.egress.wireTail ≠ none ∨ s.egress.pauseEnd ≠ none →
      s.grant = s) ∧
    (s.egress.waiting = [] → s.grant = s) ∧
    ∀ e, s.deliveryUp = true → s.egress.inFlight = none → s.egress.wireTail = none → s.egress.pauseEnd = none →
      s.egress.choose = some e →
        ((∃ d, e.deadline = some d ∧ d < s.showTime e.auditorium) → ∃ v,
          Counted { s with egress := { s.egress with waiting := s.egress.waiting.erase e } } v
            (.auditorium e.auditorium .stale) ∧ s.grant = v.grant) ∧
        ((∀ d, e.deadline = some d → s.showTime e.auditorium ≤ d) → ∃ u, s.grant = u ∧
          u = { s with egress := u.egress } ∧ u.egress.waiting = s.egress.waiting.erase e ∧
          (∃ f, u.egress.inFlight = some { e with frame := f } ∧
            (∀ a x, e.frame.body = .beacon a x → f = { e.frame with
              body := .beacon a (some ⟨s.lifecycle a, (s.clock a).composition, s.showTime a⟩) }) ∧
            ((∀ a x, e.frame.body ≠ .beacon a x) → f = e.frame)) ∧
          (∀ c, c ≠ e.cls → u.egress.rotation.get c = s.egress.rotation.get c) ∧
          ((s.egress.rotation.get e.cls).mode = .automatic → (u.egress.rotation.get e.cls).order =
            (s.egress.rotation.get e.cls).order.erase e.auditorium ++ [e.auditorium]) ∧
          ((s.egress.rotation.get e.cls).mode = .fixed →
            u.egress.rotation.get e.cls = s.egress.rotation.get e.cls) ∧
          u.egress.pauseEnd = none ∧ u.egress.wireTail = none ∧ u.egress.nextOrder = s.egress.nextOrder)

/-- A grant chooses the highest class in which an entry waits, in it the auditorium ranked highest among those with
one, and of that FIFO its head; with ranks for every auditorium it always finds one (R126). -/
def Obligations.ChoiceIsByClassThenRankThenAge : Prop :=
  ∀ g : Egress,
    (∀ e, g.choose = some e → e ∈ g.waiting ∧
      (∀ x ∈ g.waiting, egressClasses.idxOf e.cls ≤ egressClasses.idxOf x.cls) ∧
      (∃ l₁ l₂, (g.rotation.get e.cls).order = l₁ ++ e.auditorium :: l₂ ∧
        ∀ x ∈ g.waiting, x.cls = e.cls → x.auditorium ∉ l₁) ∧
      ∃ l₁ l₂, g.waiting = l₁ ++ e :: l₂ ∧ ∀ x ∈ l₁, ¬(x.cls = e.cls ∧ x.auditorium = e.auditorium)) ∧
    (g.rotation.Ranked → g.waiting ≠ [] → (∀ x ∈ g.waiting, x.auditorium ∈ auditoria) → g.choose.isSome = true)

/-- An entry offered below 1,024 goes to the tail and is counted ENTRIES_MADE, with a grant at once if the conditions
hold; offered to a full pool, an AUDIO or CAPTION entry evicts the oldest waiting CATCHUP entry, or with none the
oldest waiting BEACON entry, and any other entry, or one that finds no victim, is refused and counted, EGRESS_FULL set
(R121, R122). That a CATCHUP entry evicts none, as the second bullet of R122 says and its last sentence does not, is
the model's choice (log entry 41). -/
def Obligations.OfferPlacesEvictsOrRefuses : Prop :=
  ∀ (s : State) (e : Entry),
    (s.egress.occupancy < 1024 → ∃ v, s.offer e = v.grant ∧
      Counted { s with egress := { s.egress with
        waiting := s.egress.waiting ++ [{ e with order := s.egress.nextOrder }]
        nextOrder := s.egress.nextOrder + 1 } } v (.auditorium e.auditorium .entriesMade)) ∧
    (∀ l₁ x l₂, 1024 ≤ s.egress.occupancy → (e.cls = .audio ∨ e.cls = .caption) → s.egress.waiting = l₁ ++ x :: l₂ →
      ((x.cls = .catchup ∧ ∀ y ∈ l₁, y.cls ≠ .catchup) ∨
        (x.cls = .beacon ∧ (∀ y ∈ l₁, y.cls ≠ .beacon) ∧ ∀ y ∈ s.egress.waiting, y.cls ≠ .catchup)) →
      ∃ v w, Counted { s with egress := { s.egress with waiting := s.egress.waiting.erase x } } v
          (.auditorium x.auditorium .evicted) ∧
        Counted { v with egress := { v.egress with
          waiting := v.egress.waiting ++ [{ e with order := v.egress.nextOrder }]
          nextOrder := v.egress.nextOrder + 1 } } w (.auditorium e.auditorium .entriesMade) ∧ s.offer e = w.grant) ∧
    (1024 ≤ s.egress.occupancy →
      (e.cls = .beacon ∨ e.cls = .catchup ∨ ∀ y ∈ s.egress.waiting, y.cls ≠ .catchup ∧ y.cls ≠ .beacon) →
      ∃ u, s.offer e = u ∧ u.flagSet ⟨.egressFull, 0⟩ = true ∧
        (∀ f, f ≠ ⟨.egressFull, 0⟩ → u.flagSet f = s.flagSet f) ∧
        u.count (.auditorium e.auditorium .egressFull) =
          min counterMax (s.count (.auditorium e.auditorium .egressFull) + 1) ∧
        SameCounts s u [.auditorium e.auditorium .egressFull, .device .alertsSent] ∧
        u = { s with flags := u.flags, live := u.live, contentOut := u.contentOut })

/-- A withdrawal removes every waiting entry it covers, each counted WITHDRAWN on its auditorium; those that remain
keep their order, the entry in flight stays and no rotation changes (R130). -/
def Obligations.WithdrawalRemovesWhatItCovers : Prop :=
  ∀ (s : State) (covers : Entry → Bool), s.CountersBounded →
    (s.withdraw covers).egress = { s.egress with waiting := s.egress.waiting.filter fun e => !covers e } ∧
    (∀ a, (s.withdraw covers).count (.auditorium a .withdrawn) = min counterMax (s.count (.auditorium a .withdrawn) +
      (s.egress.waiting.filter fun e => covers e && e.auditorium == a).length)) ∧
    (∀ c, (∀ a, c ≠ .auditorium a .withdrawn) → (s.withdraw covers).count c = s.count c) ∧
    s.withdraw covers = { s with egress := (s.withdraw covers).egress, live := (s.withdraw covers).live }

/-- A frame made to a band group carries the group's present sequence number, which is then incremented modulo 65,536;
it is offered with the track's auditorium and the track, addressed to group auditorium × 64 + slot × 4 + band (R101,
R102). -/
def Obligations.BandFrameTakesSequenceNumber : Prop :=
  ∀ (s : State) (k : Nat) (tr : Track) (b : Band) (cls : EgressClass) (body : DeliveryBody) (d : Option Nat),
    (s.sendToBand k tr b cls body d).nextSeq k b = s.nextSeq k b + 1 ∧
    (∀ j c, (j ≠ k ∨ c ≠ b) → (s.sendToBand k tr b cls body d).nextSeq j c = s.nextSeq j c) ∧
    ∃ v : State, v = { s with sequences := v.sequences } ∧ s.sendToBand k tr b cls body d =
      v.offer ⟨⟨.group (tr.auditorium * 64 + tr.slot * 4 + b.val), some (s.nextSeq k b), body⟩, cls, tr.auditorium,
        some k, d, 0⟩

/-- TRANSMISSION_COMPLETION: the entry in flight leaves the pool and is counted FRAMES_SENT, a SHOW ENDED of a CLOSING
auditorium takes it to DARK with its owed RESULT, and the next grant is taken (R129, R19). A frame that a reset left
on the wire is finished and has gone out whole (R119); that its end has no effect besides but that grants resume is
the model's choice (log entry 8), and so is that with nothing on the wire nothing happens (log entry 6). -/
def Obligations.CompletionEndsTransmission : Prop :=
  ∀ (s : State) (t : Nat),
    (∀ f, s.egress.wireTail = some f → exec (.transmissionCompletion t) s = .next (State.grant { s.advance t with
      egress := { s.egress with wireTail := none }, deliveryOut := s.deliveryOut ++ [f] })) ∧
    (s.egress.wireTail = none → s.egress.inFlight = none →
      exec (.transmissionCompletion t) s = .next (s.advance t)) ∧
    (∀ e, s.egress.wireTail = none → s.egress.inFlight = some e → ∃ v,
      exec (.transmissionCompletion t) s = .next v.grant ∧
      v.egress = { s.egress with inFlight := none } ∧ v.deliveryOut = s.deliveryOut ++ [e.frame] ∧
      v.count (.auditorium e.auditorium .framesSent) =
        min counterMax (s.count (.auditorium e.auditorium .framesSent) + 1) ∧
      SameCounts s v [.auditorium e.auditorium .framesSent, .device .resultsSent] ∧
      (∀ a, e.frame.body = .showEnded a → s.lifecycle a = .closing →
        v.auditorium a = { s.auditorium a with lifecycle := .dark, owed := none } ∧
          ∀ o, (s.auditorium a).owed = some o → s.contentUp = true → v.contentOut = s.contentOut ++
            [.result o.station o.tag 0x07 (.done false) (max s.engineTime t) []]) ∧
      (∀ j, (e.frame.body = .showEnded j → s.lifecycle j ≠ .closing) → v.auditorium j = s.auditorium j) ∧
      v = { s with
        engineTime := max s.engineTime t, egress := v.egress, deliveryOut := v.deliveryOut, live := v.live
        contentOut := v.contentOut, auditoriums := v.auditoriums })

/-! ### SHOWTIME (Chapters 1 and 2) -/

/-- The five checks of Table 2-2 in their order: the first that fails counts one counter and changes nothing else
(R29). While the content link is DOWN or a reset completes no frame arrives (R173, R175); that such a frame changes
nothing is log entry 28. -/
def Obligations.ShowtimeChecksInOrder : Prop :=
  ∀ (s : State) (ea a : Nat) (f : ShowtimeFrame), f.auditorium = a →
    ((s.contentUp = false ∨ s.resetting = true) → exec (.showtime ea f) s = .next (s.advance ea)) ∧
    (s.contentUp = true → s.resetting = false →
      (¬(1 ≤ a ∧ a ≤ 24) → ∃ u, exec (.showtime ea f) s = .next u ∧
        Counted (s.advance ea) u (.device .showtimeBadAuditorium)) ∧
      (1 ≤ a → a ≤ 24 →
        (s.lifecycle a ∈ [.dark, .preparing, .closing] → ∃ u, exec (.showtime ea f) s = .next u ∧
          Counted (s.advance ea) u (.auditorium a .showtimeIgnored)) ∧
        (s.lifecycle a ∉ [.dark, .preparing, .closing] →
          (f.status ∉ [1, 2, 3] → ∃ u, exec (.showtime ea f) s = .next u ∧
            Counted (s.advance ea) u (.auditorium a .showtimeBadStatus)) ∧
          (f.status ∈ [1, 2, 3] →
            ((s.auditorium a).params.source ≠ 255 → (s.auditorium a).params.source ≠ f.server →
              ∃ u, exec (.showtime ea f) s = .next u ∧
                Counted (s.advance ea) u (.auditorium a .showtimeForeign)) ∧
            ((s.auditorium a).params.source = 255 ∨ (s.auditorium a).params.source = f.server →
              (f.status = 3 ∧ s.lifecycle a = .ready) ∨ (f.status ≠ 1 ∧ s.lifecycle a = .test) →
                ∃ u, exec (.showtime ea f) s = .next u ∧
                  Counted (s.advance ea) u (.auditorium a .showtimeIgnored))))))

/-- PLAYING in READY or TEST starts the show on a fresh clock at Target with both watches from Ea; in READY the
pending content of every track is then evaluated at Target (R107); in TEST the house check is aborted first: its end
results are read, HOUSE_CHECK_ABORTED is set and every track of the auditorium is emptied in the show-end form (R8,
R16, R37, R41, R113, R160). PAUSED in READY sets the fresh clock and pauses it at Target, with no content evaluated
(R8, R37). Two clauses are the model's choice: that the clearing of an aborted check is not counted in STEP_HANDLINGS
(log entry 12), and that a track's records are judged and its passed instants taken before the next track's (log entry
23). -/
def Obligations.ShowStarts : Prop :=
  (∀ (s : State) (ea a : Nat) (f : ShowtimeFrame), Reports s f → f.auditorium = a → f.status = 1 →
    (s.lifecycle a = .ready ∨ s.lifecycle a = .test) → ∃ u, exec (.showtime ea f) s = .next u ∧
      u.clock a = { s.watched a ea with
        e0 := ea, s0 := s.target f, drift := 0, correction := 0, rate := 0, lastError := 0
        composition := some f.composition } ∧
      u.auditorium a = { s.auditorium a with lifecycle := .running } ∧
      u.beacon a = (s.advance ea).beaconRunning a ∧
      u.count (.auditorium a .showtimeAccepted) = min counterMax (s.count (.auditorium a .showtimeAccepted) + 1) ∧
      (s.lifecycle a = .ready → u.check a = s.check a ∧
        WithinShow a (s.owns a) [.auditorium a .showtimeAccepted] [] (s.advance ea) u ∧
        ∃ v, Accepted a s v u ∧ u = { v.evaluatedEach a (s.target f) with beacons := u.beacons }) ∧
      (s.lifecycle a = .test → u.flagSet ⟨.houseCheckAborted, a⟩ = true ∧ u.emptiedShow a ∧
        u.check a = { s.check a with
          running := false, outcome := .aborted, deadline := none, previousTp := none
          devices := (u.check a).devices, highest := (u.check a).highest } ∧
        (∀ k, (s.check a).track = some k → (u.check a).devices = (bands.map (s.memberCount k)).sum ∧
          (u.check a).highest = s.highestScore k) ∧
        (∃ v w : State, v = { s with engineTime := u.engineTime, clocks := v.clocks, checks := u.checks, live := v.live } ∧
          w = v.steppedEach a ((s.advance ea).showTime a) .showEnd ∧ u.tracks = w.tracks ∧ u.sequences = w.sequences ∧
          u.egress = w.egress) ∧
        WithinShow a (s.owns a) [.auditorium a .showtimeAccepted] [⟨.houseCheckAborted, a⟩] (s.advance ea) u)) ∧
  ∀ (s : State) (ea a : Nat) (f : ShowtimeFrame), Reports s f → f.auditorium = a → f.status = 2 →
    s.lifecycle a = .ready → ∃ u, exec (.showtime ea f) s = .next u ∧
      u.clock a = { s.clock a with
        e0 := ea, s0 := s.target f, drift := 0, correction := 0, rate := 0, lastError := 0
        composition := some f.composition, lastAccepted := some ea } ∧
      u.auditorium a = { s.auditorium a with lifecycle := .paused } ∧
      u.beacon a = (s.advance ea).beaconRunning a ∧
      u.count (.auditorium a .showtimeAccepted) = min counterMax (s.count (.auditorium a .showtimeAccepted) + 1) ∧
      OtherShows a s u ∧ SameCounts s u [.auditorium a .showtimeAccepted] ∧
      u = { s with
        engineTime := max s.engineTime ea, auditoriums := u.auditoriums, clocks := u.clocks, beacons := u.beacons
        live := u.live }

/-- The slew: an error below the threshold, with the stored composition, moves the anchor to the clock's own value at
Ea and sets C, D and R in that order, truncating toward zero; both watches restart and nothing else happens (R32, R33,
R41). -/
def Obligations.SmallErrorSlews : Prop :=
  ∀ (s : State) (ea a : Nat) (f : ShowtimeFrame) (e : Int), Reports s f → f.auditorium = a → f.status = 1 →
    (s.lifecycle a = .running ∨ s.lifecycle a = .holdover) → (s.clock a).composition = some f.composition →
      e = (s.target f : Int) - s.showTimeAt a ea → e.natAbs < (s.auditorium a).params.stepThreshold →
        ∃ u c d, exec (.showtime ea f) s = .next u ∧
          c = max (-300) (min 300 (e.tdiv 8)) ∧ d = max (-200) (min 200 ((s.clock a).drift + c.tdiv 16)) ∧
          u.clock a = { s.watched a ea with
            e0 := ea, s0 := s.showTimeAt a ea, correction := c, drift := d, rate := d + c, lastError := e } ∧
          u.auditorium a = { s.auditorium a with lifecycle := .running } ∧
          u.beacon a = (s.advance ea).beaconRunning a ∧
          u.count (.auditorium a .showtimeAccepted) =
            min counterMax (s.count (.auditorium a .showtimeAccepted) + 1) ∧
          OtherShows a s u ∧ SameCounts s u [.auditorium a .showtimeAccepted] ∧
          u = { s with
            engineTime := max s.engineTime ea, auditoriums := u.auditoriums, clocks := u.clocks
            beacons := u.beacons, live := u.live }

/-- PLAYING in RUNNING or HOLDOVER is a step when the error reaches the threshold or the composition differs: the
anchor at Target, C 0, D kept, R = D clamped, the step counted and CLOCK_STEPPED set (R32, R34, R35); the auditorium's
AUDIO, CAPTION and CATCHUP entries are withdrawn and steps 2 to 7 made for each bound track in increasing number
(R108, R109). Of one track: a CAPTION CLEAR or AUDIO FLUSH to each populated band; the purge, counted PURGED, with
pacing where anything went; the marks of what remains cleared; the current cue judged, purged or kept; and unless
PAUSED the late rule and the passed instants (R109 to R114, Table 6-2). The order of the late rule and the passed
instants within a track is log entry 23. -/
def Obligations.LargeErrorSteps : Prop :=
  (∀ (s : State) (ea a : Nat) (f : ShowtimeFrame) (e : Int), Reports s f → f.auditorium = a → f.status = 1 →
    (s.lifecycle a = .running ∨ s.lifecycle a = .holdover) → e = (s.target f : Int) - s.showTimeAt a ea →
      ((s.clock a).composition ≠ some f.composition ∨ (s.auditorium a).params.stepThreshold ≤ e.natAbs) →
        ∃ u, exec (.showtime ea f) s = .next u ∧
          u.clock a = { s.watched a ea with
            e0 := ea, s0 := s.target f, correction := 0, rate := max (-500) (min 500 (s.clock a).drift), lastError := e
            stepCount := min counterMax ((s.clock a).stepCount + 1), composition := some f.composition } ∧
          u.auditorium a = { s.auditorium a with lifecycle := .running } ∧
          Stepped a ea (s.target f) ((s.clock a).composition ≠ some f.composition) s u) ∧
  ∀ (s : State) (a sh k : Nat) (form : StepForm) (tr : Track) (gone : Nat), s.track k = some tr →
    gone = (tr.pending.length - (tr.keptBy sh form).pending.length) + (tr.ring.length - (tr.keptBy sh form).ring.length) →
      ∃ v w x y z tr' p,
        (tr.kind = .caption → SentEach k tr (s.hears k tr) .caption (.captionClear k) none s v) ∧
        (tr.kind = .description → SentEach k tr (s.hears k tr) .audio (.audioFlush k) none s v) ∧
        TrackBecomes k (tr.keptBy sh form) v w ∧ CountedBy w x (.track k .purged) gone ∧
        y = (if gone = 0 then x else x.paceDown k) ∧ y.track k = some tr' ∧ TrackBecomes k tr'.unmarked y z ∧
        (tr.current = none → p = z) ∧
        (tr.current ≠ none →
          ∃ o, TrackBecomes k { tr'.unmarked with current := none } z o ∧ Counted o p (.track k .purged)) ∧
        (form = .lost → s.stepTrack a sh form k = z) ∧ (form = .showEnd → s.stepTrack a sh form k = p) ∧
        ∀ wide q, form = .step wide → (wide = true → q = p) → (wide = false → q = z.judgeCurrent k sh) →
          (s.lifecycle a = .paused → s.stepTrack a sh form k = q) ∧
          (s.lifecycle a ≠ .paused → s.stepTrack a sh form k = q.evaluateTrack k sh)

/-- PAUSED in RUNNING, HOLDOVER, LOST or PAUSED freezes the clock at Target with the watches cancelled; a move that
reaches the threshold, or another composition, is a step; a smaller move keeps content and marks, and from LOST the
current cue of each bound track is judged at once and nothing else moves (R38, R39, R114). The judgement at show time
S: a cue with Ts at or below S and Te - M above it gets REPEAT and the mark of every enabled band, a CAPTION made to
each populated band with the deadline of Table 6-1, counted REPEATS; any other is absent, counted PURGED (R111). -/
def Obligations.PausedFreezesOrMoves : Prop :=
  (∀ (s : State) (ea a : Nat) (f : ShowtimeFrame) (e : Int), Reports s f → f.auditorium = a → f.status = 2 →
    s.lifecycle a ∈ [.running, .holdover, .lost, .paused] → e = (s.target f : Int) - s.showTimeAt a ea →
      ((s.clock a).composition ≠ some f.composition ∨ (s.auditorium a).params.stepThreshold ≤ e.natAbs →
        ∃ u, exec (.showtime ea f) s = .next u ∧
          u.clock a = { s.unwatched a ea with
            e0 := ea, s0 := s.target f, lastError := e, composition := some f.composition
            stepCount := min counterMax ((s.clock a).stepCount + 1) } ∧
          u.auditorium a = { s.auditorium a with lifecycle := .paused } ∧
          Stepped a ea (s.target f) ((s.clock a).composition ≠ some f.composition) s u) ∧
      ((s.clock a).composition = some f.composition → e.natAbs < (s.auditorium a).params.stepThreshold →
        ∃ u, exec (.showtime ea f) s = .next u ∧
          u.clock a = { s.unwatched a ea with e0 := ea, s0 := s.target f, lastError := e } ∧
          u.auditorium a = { s.auditorium a with lifecycle := .paused } ∧ u.check a = s.check a ∧
          u.beacon a = (s.advance ea).beaconRunning a ∧
          u.count (.auditorium a .showtimeAccepted) =
            min counterMax (s.count (.auditorium a .showtimeAccepted) + 1) ∧
          (s.lifecycle a ≠ .lost → SameTracks s u ∧ SameEgress s u) ∧
          (s.lifecycle a = .lost →
            ∃ v, Accepted a s v u ∧ u = { v.judgedEach a (s.target f) with beacons := u.beacons }) ∧
          WithinShow a (s.owns a) [.auditorium a .showtimeAccepted] [] (s.advance ea) u)) ∧
  ∀ (s : State) (k sh : Nat) (tr : Track) (au : Auditorium), s.track k = some tr → au = s.auditorium tr.auditorium →
    (tr.current = none → s.judgeCurrent k sh = s) ∧
    (∀ c, tr.current = some c →
      (c.caption.ts ≤ sh → sh + au.params.minDisplay * 1000 < c.caption.te → ∃ cur v w,
        cur.caption = { c.caption with repeated := true } ∧
        (∀ b, PerBand.get cur.marks b = (c.marks.get b || (au.band b).enabled)) ∧
        TrackBecomes k { tr with current := some cur } s v ∧
        CaptionedEach k tr (s.hears k tr) (.caption k cur.caption) (some (shownUntil au cur.caption)) v w ∧
        Counted w (s.judgeCurrent k sh) (.track k .repeats)) ∧
      ((sh < c.caption.ts ∨ c.caption.te ≤ sh + au.params.minDisplay * 1000) → ∃ v,
        TrackBecomes k { tr with current := none } s v ∧ Counted v (s.judgeCurrent k sh) (.track k .purged)))

/-- PLAYING in PAUSED or LOST resumes by the resume rule: the difference from the frozen S0 is kept as the last error,
the anchor set at Target with C 0 and R = D clamped, both watches started; a difference that reaches the threshold, or
another composition, is a step; otherwise the current cues are judged on a resume from LOST, and the pending content
of every track is evaluated at Target (R11, R14, R40, R107, R114). That a track's records are judged and its passed
instants taken before the next track's is the model's choice (log entry 23). -/
def Obligations.PlayingResumes : Prop :=
  ∀ (s : State) (ea a : Nat) (f : ShowtimeFrame) (e : Int), Reports s f → f.auditorium = a → f.status = 1 →
    (s.lifecycle a = .paused ∨ s.lifecycle a = .lost) → e = (s.target f : Int) - (s.clock a).s0 →
      ((s.clock a).composition ≠ some f.composition ∨ (s.auditorium a).params.stepThreshold ≤ e.natAbs →
        ∃ u, exec (.showtime ea f) s = .next u ∧
          u.clock a = { s.watched a ea with
            e0 := ea, s0 := s.target f, correction := 0, rate := max (-500) (min 500 (s.clock a).drift), lastError := e
            stepCount := min counterMax ((s.clock a).stepCount + 1), composition := some f.composition } ∧
          u.auditorium a = { s.auditorium a with lifecycle := .running } ∧
          Stepped a ea (s.target f) ((s.clock a).composition ≠ some f.composition) s u) ∧
      ((s.clock a).composition = some f.composition → e.natAbs < (s.auditorium a).params.stepThreshold →
        ∃ u, exec (.showtime ea f) s = .next u ∧
          u.clock a = { s.watched a ea with
            e0 := ea, s0 := s.target f, correction := 0, rate := max (-500) (min 500 (s.clock a).drift)
            lastError := e } ∧
          u.auditorium a = { s.auditorium a with lifecycle := .running } ∧ u.check a = s.check a ∧
          u.beacon a = (s.advance ea).beaconRunning a ∧
          u.count (.auditorium a .showtimeAccepted) =
            min counterMax (s.count (.auditorium a .showtimeAccepted) + 1) ∧
          (∃ v w, Accepted a s v u ∧ (s.lifecycle a = .paused → w = v) ∧
            (s.lifecycle a = .lost → w = v.judgedEach a (s.target f)) ∧
            u = { w.evaluatedEach a (s.target f) with beacons := u.beacons }) ∧
          WithinShow a (s.owns a) [.auditorium a .showtimeAccepted] [] (s.advance ea) u)

/-- STOPPED ends the show: show time frozen at its value at Ea, composition and watches absent, READY or without a
bound track PREPARING, the old AUDIO, CAPTION and CATCHUP entries withdrawn, a CAPTION CLEAR or AUDIO FLUSH to each
populated band and every track emptied in the show-end form of the step handling, no beacon deadline (R15, R44, R108,
R109, R113). -/
def Obligations.StoppedEndsShow : Prop :=
  ∀ (s : State) (ea a : Nat) (f : ShowtimeFrame), Reports s f → f.auditorium = a → f.status = 3 →
    s.lifecycle a ∈ [.running, .paused, .holdover, .lost] → ∃ u, exec (.showtime ea f) s = .next u ∧
      u.clock a = { s.unwatched a ea with e0 := ea, s0 := s.showTimeAt a ea, composition := none } ∧
      (s.boundTracks a = [] → u.auditorium a = { s.auditorium a with lifecycle := .preparing }) ∧
      (s.boundTracks a ≠ [] → u.auditorium a = { s.auditorium a with lifecycle := .ready }) ∧
      u.check a = s.check a ∧ u.beacon a = none ∧ u.emptiedShow a ∧ OldContentWithdrawn a s u ∧
      (∃ v, Handled a (s.showTimeAt a ea) .showEnd s v u) ∧
      u.count (.auditorium a .stepHandlings) = min counterMax (s.count (.auditorium a .stepHandlings) + 1) ∧
      u.count (.auditorium a .showtimeAccepted) = min counterMax (s.count (.auditorium a .showtimeAccepted) + 1) ∧
      WithinShow a (s.owns a) [.auditorium a .showtimeAccepted, .auditorium a .stepHandlings] [] (s.advance ea) u

/-- The holdover deadline reached in RUNNING takes the auditorium to HOLDOVER: its flag set, the deadline absent, the
clock otherwise as it stood (R12, R42). The lost deadline X reached in HOLDOVER, or in RUNNING through HOLDOVER, takes
it to LOST: show time frozen at its value at X, the flags set, the old entries withdrawn, one CLEAR or FLUSH to each
populated band, every record kept with its marks clear, no beacon (R13, R43, R114). Two clauses are the model's
choice: that show time is frozen at the deadline also where the step comes later (log entry 24), and that in any other
state, or before the deadline, nothing happens (log entry 6). -/
def Obligations.WatchesExpire : Prop :=
  (∀ (s : State) (t a : Nat),
    ((s.lifecycle a ≠ .running ∨ ∀ d, (s.clock a).holdoverDeadline = some d → max s.engineTime t < d) →
      exec (.holdoverExpiry t a) s = .next (s.advance t)) ∧
    (∀ d, s.lifecycle a = .running → (s.clock a).holdoverDeadline = some d → d ≤ max s.engineTime t →
      ∃ u, exec (.holdoverExpiry t a) s = .next u ∧ u.clock a = { s.clock a with holdoverDeadline := none } ∧
        u.auditorium a = { s.auditorium a with lifecycle := .holdover } ∧ u.flagSet ⟨.clockHoldover, a⟩ = true ∧
        (∀ f, f ≠ ⟨.clockHoldover, a⟩ → u.flagSet f = s.flagSet f) ∧ OtherShows a s u ∧
        SameCounts s u [.device .alertsSent] ∧
        u = { s with
          engineTime := max s.engineTime t, clocks := u.clocks, auditoriums := u.auditoriums, flags := u.flags
          live := u.live, contentOut := u.contentOut })) ∧
  ∀ (s : State) (t a : Nat),
    (((s.lifecycle a ≠ .running ∧ s.lifecycle a ≠ .holdover) ∨
        ∀ x, (s.clock a).lostDeadline = some x → max s.engineTime t < x) →
      exec (.lostExpiry t a) s = .next (s.advance t)) ∧
    (∀ x, (s.lifecycle a = .running ∨ s.lifecycle a = .holdover) → (s.clock a).lostDeadline = some x →
      x ≤ max s.engineTime t → ∃ u, exec (.lostExpiry t a) s = .next u ∧
        u.clock a = { s.clock a with
          e0 := x, s0 := s.showTimeAt a x, holdoverDeadline := none, lostDeadline := none } ∧
        u.auditorium a = { s.auditorium a with lifecycle := .lost } ∧ u.check a = s.check a ∧ u.beacon a = none ∧
        u.flagSet ⟨.clockLost, a⟩ = true ∧ (s.lifecycle a = .running → u.flagSet ⟨.clockHoldover, a⟩ = true) ∧
        (s.lifecycle a = .holdover → u.flagSet ⟨.clockHoldover, a⟩ = s.flagSet ⟨.clockHoldover, a⟩) ∧
        u.count (.auditorium a .stepHandlings) = min counterMax (s.count (.auditorium a .stepHandlings) + 1) ∧
        OldContentWithdrawn a s u ∧ (∃ v, Handled a (s.showTimeAt a x) .lost s v u) ∧
        (∀ k ∈ s.boundTracks a, ∀ tr, s.track k = some tr →
          u.track k = some { tr with
            pending := tr.pending.map fun c => { c with marks := PerBand.all false }
            ring := tr.ring.map fun b => { b with marks := PerBand.all false } } ∧
          OneFrameEach k (s.hears k tr) s u) ∧
        WithinShow a (s.owns a) [.auditorium a .stepHandlings] [⟨.clockLost, a⟩, ⟨.clockHoldover, a⟩] (s.advance t) u)

/-! ### Classification and copies (Chapter 3) -/

/-- A CUE or BLOCK frame is scanned by its label and class, a BLOCK as class 0: no match is counted UNCLAIMED and sets
its flag; otherwise the first four matches make copies, each counted for its filter, and the others count FANOUT_LIMIT
(R50 to R54, R61). A scan finds, in index order, the enabled filters whose label agrees under the mask and whose
leading selector bits agree; a match with its continue flag clear ends it (R49 to R51). While the content link is DOWN
or a reset completes no frame arrives (R173, R175); that such a frame changes nothing is log entry 28. -/
def Obligations.ContentFramesAreClassified : Prop :=
  (∀ (s : State) (ea src : Nat) (i : Instr) (content : Content) (label : Label) (cls : ContentClass),
    ((∃ b, i = .cue ea src b ∧ content = .cue b ∧ label = b.label ∧ cls = b.cls) ∨
      ∃ b, i = .block ea src b ∧ content = .block b ∧ label = b.label ∧ cls = 0) →
    ((s.contentUp = false ∨ s.resetting = true) → exec i s = .next (s.advance ea)) ∧
    (s.contentUp = true → s.resetting = false → ∀ hits, s.scan label cls = hits → ∃ u, exec i s = .next u ∧
      u.count (.device .contentClassified) = min counterMax (s.count (.device .contentClassified) + 1) ∧
      (hits = [] → u.flagSet ⟨.unclaimedSeen, 0⟩ = true ∧
        (∀ f, f ≠ ⟨.unclaimedSeen, 0⟩ → u.flagSet f = s.flagSet f) ∧
        u.count (.device .unclaimed) = min counterMax (s.count (.device .unclaimed) + 1) ∧
        SameCounts s u [.device .contentClassified, .device .unclaimed, .device .alertsSent] ∧
        u = { s with
          engineTime := max s.engineTime ea, flags := u.flags, live := u.live, contentOut := u.contentOut }) ∧
      (hits ≠ [] →
        u.copies = s.copies ++ (hits.take 4).map (fun j => ⟨content, src, ea, j, (s.filter j).target⟩) ∧
        (∀ j, u.count (.filterHits j) =
          if j ∈ hits.take 4 then min counterMax (s.count (.filterHits j) + 1) else s.count (.filterHits j)) ∧
        u.count (.device .fanoutLimit) = min counterMax (s.count (.device .fanoutLimit) + (hits.length - 4)) ∧
        (∀ c, (∀ j, c ≠ .filterHits j) → c ∉ [.device .contentClassified, .device .fanoutLimit] →
          u.count c = s.count c) ∧
        u = { s with engineTime := max s.engineTime ea, copies := u.copies, live := u.live }))) ∧
  ∀ (s : State) (label : Label) (cls : ContentClass),
    (s.scan label cls).Pairwise (· < ·) ∧
    (∀ j, j ∈ s.scan label cls ↔ j ≤ 63 ∧ s.filterMatches label cls j = true ∧
      ∀ i, i < j → s.filterMatches label cls i = true → (s.filter i).continues = true) ∧
    (∀ j, s.filterMatches label cls j = true ↔ (s.filter j).enabled = true ∧
      (∀ n, n < 32 → (s.mask (s.filter j).mask).getLsbD n = true → label.getLsbD n = (s.filter j).label.getLsbD n) ∧
      ∀ n, n < 8 → 8 ≤ n + (s.filter j).bits → cls.getLsbD n = (s.filter j).selector.getLsbD n)

/-- The oldest copy not yet offered is offered to its target: UNDELIVERABLE to a FREE track or one of an auditorium in
DARK, CLOSING or TEST, KIND_MISMATCH to a track of the other kind, otherwise delivered as an arrival with its label
and station (R54 to R56). Two clauses are the model's choice: that the oldest copy is the one offered (log entry 29),
and that with no copy waiting the step moves engine time only (log entry 6). -/
def Obligations.CopyIsOfferedToItsTrack : Prop :=
  ∀ (s : State) (t : Nat),
    (s.copies = [] → exec (.copyOffer t) s = .next (s.advance t)) ∧
    ∀ c cs v, s.copies = c :: cs → v = { s.advance t with copies := cs } →
      ((∀ tr, s.track c.target = some tr → s.lifecycle tr.auditorium ∈ [.dark, .closing, .test]) →
        ∃ u, exec (.copyOffer t) s = .next u ∧ Counted v u (.track c.target .undeliverable)) ∧
      (∀ tr, s.track c.target = some tr → s.lifecycle tr.auditorium ∉ [.dark, .closing, .test] →
        ((((∃ b, c.content = .cue b) ∧ tr.kind = .description) ∨ ((∃ b, c.content = .block b) ∧ tr.kind = .caption)) →
          ∃ u, exec (.copyOffer t) s = .next u ∧ Counted v u (.track c.target .kindMismatch)) ∧
        (∀ b, c.content = .cue b → tr.kind = .caption → ∃ w, Counted v w (.track c.target .copiesDelivered) ∧
          exec (.copyOffer t) s = .next (w.arriveCue c.target b (some ⟨b.label, c.station⟩) false)) ∧
        (∀ b, c.content = .block b → tr.kind = .description → ∃ w, Counted v w (.track c.target .copiesDelivered) ∧
          exec (.copyOffer t) s = .next (w.arriveBlock c.target b (some ⟨b.label, c.station⟩) false)))

/-! ### Caption tracks (Chapter 4) -/

/-- The arrival of a cue copy works on its track alone, and a malformed copy is counted BAD_CUE and changes nothing
else (R71). A deletion takes its number from the pending list, or the current cue, and makes a CAPTION WITHDRAW to
each band that has been sent the cue and has members; a number that neither holds is counted DELETE_MISS (R77, R79).
That the frames to several bands are made in increasing band number is the model's choice (log entry 39). -/
def Obligations.DeletionWithdrawsCue : Prop :=
  (∀ (s : State) (k : Nat) (b : CueBody) (src : Option Source) (test : Bool),
    (MalformedCue b → Counted s (s.arriveCue k b src test) (.track k .badCue)) ∧
      WithinTrack k s (s.arriveCue k b src test)) ∧
  ∀ (s : State) (k : Nat) (b : CueBody) (src : Option Source) (test : Bool) (tr tr' : Track),
    s.track k = some tr → tr' = tr.sourced src → ¬MalformedCue b → b.textLen = 0 →
      (∀ c, tr.pendingCue b.number = some c → ∃ v w, ∃ bs : List Band, TrackBecomes k (tr'.withoutCue b.number) s v ∧
        Counted v w (.track k .deletions) ∧ bs.Pairwise (· < ·) ∧
        (∀ d, d ∈ bs ↔ s.hears k tr d ∧ c.marks.get d = true) ∧ s.arriveCue k b src test = State.paceDown
          (bs.foldl (fun x d => x.sendToBand k tr' d .caption (.captionWithdraw k b.number) none) w) k) ∧
      (tr.pendingCue b.number = none →
        (∀ c, tr.current = some c → c.caption.number = b.number →
          ∃ v w, ∃ bs : List Band, TrackBecomes k { tr' with current := none } s v ∧
          Counted v w (.track k .deletions) ∧ bs.Pairwise (· < ·) ∧ (∀ d, d ∈ bs ↔ s.hears k tr d) ∧
          s.arriveCue k b src test =
            bs.foldl (fun x d => x.sendToBand k tr' d .caption (.captionWithdraw k b.number) none) w) ∧
        ((∀ c, tr.current = some c → c.caption.number ≠ b.number) → ∃ v, TrackBecomes k tr' s v ∧
          Counted v (s.arriveCue k b src test) (.track k .deleteMiss)))

/-- A new cue that show time finds late is released LATE at once to every enabled band, in order, and is current, or
past Te - M is counted EXPIRED; it takes no place. Any other is placed behind every pending cue of equal or earlier
start; on a full list the last cue in list order gives way to one of earlier start, withdrawn from the bands that have
had it, and otherwise the new cue is dropped, OVERFLOW set either way. A cue placed while show time advances has its
passed instants taken at once, band 0 excepted (R69, R72, R73, R105, R107). That a cue placed in a full list is
counted CUES_ACCEPTED too is the model's reading (log entry 30); that OVERFLOW is set before the victim is withdrawn
(log entry 40) and that the withdrawals go out in increasing band number (log entry 39) are its choices. -/
def Obligations.NewCueTakesItsPlace : Prop :=
  ∀ (s : State) (k : Nat) (b : CueBody) (src : Option Source) (test : Bool) (tr tr' : Track) (c : Cue) (sh : Nat)
    (au : Auditorium), s.track k = some tr → tr' = tr.sourced src → ¬MalformedCue b → b.textLen ≠ 0 →
    tr.pendingCue b.number = none → (∀ d, tr.current = some d → d.caption.number ≠ b.number) →
    c = ⟨newCaption b test, PerBand.all false⟩ → au = s.auditorium tr.auditorium → sh = s.showTime tr.auditorium →
      (s.lateFor tr b.ts →
        (b.te ≤ sh + au.params.minDisplay * 1000 → ∃ v, TrackBecomes k tr' s v ∧
          Counted v (s.arriveCue k b src test) (.track k .expired)) ∧
        (sh + au.params.minDisplay * 1000 < b.te → ∃ v w x y bs cap marks, cap = { c.caption with late := true } ∧
          TrackBecomes k tr' s v ∧ ReleaseOrder au tr b.ts (fun d => (au.band d).enabled = true) bs ∧
          w = bs.foldl (fun z d => z.releaseCaption k tr' cap d) v ∧
          (∀ d, PerBand.get marks d = (au.band d).enabled) ∧
            TrackBecomes k { tr' with current := some ⟨cap, marks⟩ } w x ∧
          (tr.current = none → y = x) ∧ (tr.current ≠ none → Counted x y (.track k .cuesRetired)) ∧
          Counted y (s.arriveCue k b src test) (.track k .lateReleases))) ∧
      (¬s.lateFor tr b.ts →
        (tr.pending.length < tr.depth → ∃ v w after, Placed c tr.pending after ∧
          TrackBecomes k { tr' with pending := after } s v ∧ Counted v w (.track k .cuesAccepted) ∧
          s.arriveCue k b src test =
            if (s.lifecycle tr.auditorium).advancing then (w.paceUp k).takePassedCue k sh false b.number
            else w.paceUp k) ∧
        (∀ p, tr.depth ≤ tr.pending.length → tr.pending.getLast? = some p → ∃ v w x, TrackBecomes k tr' s v ∧
          Flagged ⟨.overflow, k⟩ v w ∧ Counted w x (.track k .overflowDrops) ∧
          (p.caption.ts ≤ b.ts → s.arriveCue k b src test = x) ∧
          (b.ts < p.caption.ts → ∃ y z after o r, TrackBecomes k (tr'.withoutCue p.caption.number) x y ∧
            SentEach k tr' (fun d => s.hears k tr d ∧ p.marks.get d = true) .caption
              (.captionWithdraw k p.caption.number) none y z ∧
            Placed c (tr.withoutCue p.caption.number).pending after ∧
            TrackBecomes k { tr' with pending := after } z o ∧ Counted o r (.track k .cuesAccepted) ∧
            s.arriveCue k b src test =
              if (s.lifecycle tr.auditorium).advancing then r.takePassedCue k sh false b.number else r)))

/-- An amendment keeps marks, LATE, TEST and REPEAT, sets AMENDED and takes the copy's other fields. A pending cue
that is not late by its new times is placed anew, its REPLACE made to the bands that have had it and, while show time
advances, its passed instants taken, band 0 excepted; a late one is replaced where it stands and then released by the
late rule, or past Te - M removed, EXPIRED, and withdrawn from the bands that have had it. The current cue is replaced
on every band with members while its new end lies ahead, and otherwise withdrawn (R69, R74 to R76, R79, R105).That the
frames to several bands are made in increasing band number is the model's choice (log entry 39). -/
def Obligations.AmendmentReplacesCue : Prop :=
  ∀ (s : State) (k : Nat) (b : CueBody) (src : Option Source) (test : Bool) (tr tr' : Track) (old new : Cue) (sh : Nat)
    (au : Auditorium) (had : Band → Prop),
    s.track k = some tr → tr' = tr.sourced src → ¬MalformedCue b → b.textLen ≠ 0 → sh = s.showTime tr.auditorium →
    au = s.auditorium tr.auditorium → had = (fun d => s.hears k tr d ∧ old.marks.get d = true) →
    new = { old with caption := { newCaption b old.caption.test with
      amended := true, late := old.caption.late, repeated := old.caption.repeated } } →
      (tr.pendingCue b.number = some old →
        (¬s.lateFor tr b.ts → ∃ v w x after, Placed new (tr.withoutCue b.number).pending after ∧
          TrackBecomes k { tr' with pending := after } s v ∧ Counted v w (.track k .amendments) ∧
          CaptionedEach k tr' had (.captionReplace k new.caption) (some b.te) w x ∧ s.arriveCue k b src test =
            if (s.lifecycle tr.auditorium).advancing then x.takePassedCue k sh false b.number else x) ∧
        (s.lateFor tr b.ts → sh + au.params.minDisplay * 1000 < b.te → ∃ v w x,
          TrackBecomes k { tr' with pending := tr.pending.map fun d => if d.caption.number = b.number then new else d } s v ∧
          Counted v w (.track k .amendments) ∧
            CaptionedEach k tr' had (.captionReplace k new.caption) (some b.te) w x ∧
          s.arriveCue k b src test = x.evaluateCue k sh b.number) ∧
        (s.lateFor tr b.ts → b.te ≤ sh + au.params.minDisplay * 1000 → ∃ v w x y,
          TrackBecomes k (tr'.withoutCue b.number) s v ∧ Counted v w (.track k .amendments) ∧
          Counted w x (.track k .expired) ∧ SentEach k tr' had .caption (.captionWithdraw k b.number) none x y ∧
          s.arriveCue k b src test = y.paceDown k)) ∧
      (tr.pendingCue b.number = none → tr.current = some old → old.caption.number = b.number → ∃ v w,
        Counted v w (.track k .amendments) ∧
        (sh < b.te → TrackBecomes k { tr' with current := some new } s v ∧
          CaptionedEach k tr' (s.hears k tr) (.captionReplace k new.caption) (some b.te) w (s.arriveCue k b src test)) ∧
        (b.te ≤ sh → TrackBecomes k { tr' with current := none } s v ∧
          SentEach k tr' (s.hears k tr) .caption (.captionWithdraw k b.number) none w (s.arriveCue k b src test)))

/-- Pacing: a track in OPEN at or above its high mark enters HOLDING with its flag set, one in HOLDING at or below its
low mark enters OPEN; each sends its PACE notice to the track's source, if it has one and the link is UP (R80, R81).
-/
def Obligations.PacingFollowsOccupancy : Prop :=
  ∀ (s : State) (k : Nat) (tr : Track), s.track k = some tr →
    ((tr.pace = .opened ∧ tr.high ≤ tr.occupancy) → ∃ u, s.paceUp k = u ∧
      u.track k = some { tr with pace := .holding } ∧
      u.flagSet ⟨.paceHold, k⟩ = true ∧ WithinTrack k s u ∧ OneFrameEach k (fun _ => False) s u ∧
      (∀ o, tr.source = some o → s.contentUp = true →
        (s.contentOut ++ [.pace o.station true k o.label]) <+: u.contentOut ∧
        u.count (.track k .paceSent) = min counterMax (s.count (.track k .paceSent) + 1)) ∧
      ((tr.source = none ∨ s.contentUp = false) → SameTrackCounts k [] s u)) ∧
    (¬(tr.pace = .opened ∧ tr.high ≤ tr.occupancy) → s.paceUp k = s) ∧
    ((tr.pace = .holding ∧ tr.occupancy ≤ tr.low) → ∃ u, s.paceDown k = u ∧
      u.track k = some { tr with pace := .opened } ∧ WithinTrack k s u ∧ u.flags = s.flags ∧
      (∀ o, tr.source = some o → s.contentUp = true →
        u.contentOut = s.contentOut ++ [.pace o.station false k o.label] ∧
        u.count (.track k .paceSent) = min counterMax (s.count (.track k .paceSent) + 1)) ∧
      ((tr.source = none ∨ s.contentUp = false) → TrackBecomes k { tr with pace := .opened } s u)) ∧
    (¬(tr.pace = .holding ∧ tr.occupancy ≤ tr.low) → s.paceDown k = s)

/-! ### Description tracks (Chapter 5) -/

/-- The checks of an arriving block: form, sequence, Tp; a gap is marked against the last accepted block, and with
none the blocks that would stand out of order give way, pacing evaluated where any did (R87 to R90). -/
def Obligations.BlockOrderIsChecked : Prop :=
  ∀ (s : State) (k : Nat) (b : BlockBody) (src : Option Source) (test : Bool) (tr tr' : Track),
    s.track k = some tr → tr' = tr.sourced src →
    WithinTrack k s (s.arriveBlock k b src test) ∧
    (MalformedBlock b → Counted s (s.arriveBlock k b src test) (.track k .badBlock)) ∧
    (¬MalformedBlock b → ∃ v, TrackBecomes k tr' s v ∧
      (∀ last, tr.lastBlock = some last →
        (b.seq ≤ last.seq → Counted v (s.arriveBlock k b src test) (.track k .reordered)) ∧
        (last.seq < b.seq → b.tp < last.tp → Counted v (s.arriveBlock k b src test) (.track k .outOfOrder)) ∧
        (b.seq = last.seq + 1 → last.tp ≤ b.tp → s.arriveBlock k b src test = v.acceptBlock k b none test) ∧
        (last.seq + 1 < b.seq → last.tp ≤ b.tp → ∃ w, Counted v w (.track k .gapsMarked) ∧
          s.arriveBlock k b src test =
          w.acceptBlock k b (some ⟨min 255 (b.seq - last.seq - 1), b.tp - (last.tp + last.duration)⟩) test)) ∧
      (tr.lastBlock = none →
        ((∀ x ∈ tr.ring, x.audio.seq < b.seq ∧ x.audio.tp ≤ b.tp) →
          s.arriveBlock k b src test = v.acceptBlock k b none test) ∧
        (∀ kept gone, tr.ring = kept ++ gone → gone ≠ [] → (∀ x ∈ kept, x.audio.seq < b.seq ∧ x.audio.tp ≤ b.tp) →
          (∀ x ∈ gone, b.seq ≤ x.audio.seq ∨ b.tp < x.audio.tp) → ∃ w, w.track k = some { tr' with ring := kept } ∧
            (∀ j, j ≠ k → w.track j = s.track j) ∧
            w.count (.track k .superseded) = min counterMax (s.count (.track k .superseded) + gone.length) ∧
            SameCounts s w [.track k .superseded] ∧ w = { s with tracks := w.tracks, live := w.live } ∧
            s.arriveBlock k b src test = (w.paceDown k).acceptBlock k b none test)))

/-- A block past the order checks: where show time advances and has reached its band-0 instant it is released LATE at
once to every enabled band, in order, or past its Tp EXPIRED, and is the last accepted block either way; otherwise it
joins the tail of the ring, and while show time advances its passed instants are taken, or it is dropped from a full
ring with OVERFLOW (R91 to R93, R106, R107). -/
def Obligations.BlockIsPlacedReleasedOrDropped : Prop :=
  ∀ (s : State) (k : Nat) (b : BlockBody) (gap : Option Gap) (test : Bool) (tr : Track) (a : Audio) (last : LastBlock)
    (sh : Nat), s.track k = some tr → a = ⟨b.seq, b.tp, b.duration, b.tail, false, test⟩ →
    last = ⟨b.seq, b.tp, b.duration⟩ → sh = s.showTime tr.auditorium →
      (((s.lifecycle tr.auditorium).advancing = true ∧ b.tp - tr.lead ≤ sh) →
        (b.tp ≤ sh → ∃ v, TrackBecomes k { tr with lastBlock := some last } s v ∧
          Counted v (s.acceptBlock k b gap test) (.track k .expired)) ∧
        (sh < b.tp → ∃ u, s.acceptBlock k b gap test = u ∧ u.track k = some { tr with lastBlock := some last } ∧
          (∃ v w bs, TrackBecomes k { tr with lastBlock := some last } s v ∧
            ReleaseOrder (s.auditorium tr.auditorium) tr b.tp
              (fun d => ((s.auditorium tr.auditorium).band d).enabled = true) bs ∧
            w = bs.foldl (fun y d => y.releaseAudio k tr ⟨{ a with late := true }, gap, PerBand.all false⟩ d) v ∧
            Counted w u (.track k .lateReleases)) ∧
          WithinTrack k s u ∧
          u.count (.track k .lateReleases) = min counterMax (s.count (.track k .lateReleases) + 1) ∧
          SameTrackCounts k [.lateReleases, .releases] s u ∧
          ∀ d, (s.hears k tr d → u.nextSeq k d = s.nextSeq k d + (if gap.isSome then 2 else 1)) ∧
            (¬s.hears k tr d → u.nextSeq k d = s.nextSeq k d))) ∧
      (¬((s.lifecycle tr.auditorium).advancing = true ∧ b.tp - tr.lead ≤ sh) →
        (tr.depth ≤ tr.ring.length → ∃ u, s.acceptBlock k b gap test = u ∧ u.flagSet ⟨.overflow, k⟩ = true ∧
          u.track k = some tr ∧ u.count (.track k .overflowDrops) =
            min counterMax (s.count (.track k .overflowDrops) + 1) ∧
          SameCounts s u [.track k .overflowDrops, .device .alertsSent] ∧
          u = { s with flags := u.flags, live := u.live, contentOut := u.contentOut }) ∧
        (tr.ring.length < tr.depth → ∃ v w,
          TrackBecomes k { tr with ring := tr.ring ++ [⟨a, gap, PerBand.all false⟩], lastBlock := some last } s v ∧
          Counted v w (.track k .blocksAccepted) ∧ s.acceptBlock k b gap test =
            if (s.lifecycle tr.auditorium).advancing then (w.paceUp k).takePassedBlock k sh false b.seq
            else w.paceUp k))

/-! ### Releases (Chapter 6) -/

/-- Instants of one record that are due together are taken in increasing instant, ties in increasing band number, band
0 last; due are the enabled, unmarked bands whose instant, held at 0, show time has reached (R100). RELEASE_INSTANT
takes the instant of its band on the first record of the track not marked for it, once show time has reached it, and
changes nothing otherwise, a disabled band's included, but what ends a house check; on a FREE track it changes nothing
(R21, R100, R101, R159); that it takes it behind the instants of the record that come before it, and that it does
nothing where it finds no instant, is log entry 6. The passed instants of a record are its due bands in that order,
band 0 only where it is asked for (R107); that those of a track's records are taken one record after another is the
model's choice (log entry 34). -/
def Obligations.ReleaseInstantsAreTakenInOrder : Prop :=
  (∀ (au : Auditorium) (tr : Track) (time sh : Nat) (marks : PerBand Bool) (withZero : Bool),
    (∀ b, b ∈ dueBands au tr time marks sh withZero ↔ (au.band b).enabled = true ∧ marks.get b = false ∧
      time - tr.lead - (au.band b).offset ≤ sh ∧ (withZero = true ∨ b ≠ 0)) ∧
    (dueBands au tr time marks sh withZero).Pairwise fun b c => b ≠ 0 ∧ (c = 0 ∨
      time - tr.lead - (au.band b).offset < time - tr.lead - (au.band c).offset ∨
      (time - tr.lead - (au.band b).offset = time - tr.lead - (au.band c).offset ∧ b < c))) ∧
  ((∀ (s : State) (t k : Nat) (b : Band), s.track k = none → exec (.releaseInstant t k b) s = .next (s.advance t)) ∧
  ∀ (s v : State) (t k : Nat) (b : Band) (tr : Track) (sh : Nat), v = s.advance t → s.track k = some tr →
    sh = v.showTime tr.auditorium →
      (((s.auditorium tr.auditorium).band b).enabled = false →
        exec (.releaseInstant t k b) s = .next (v.completeCheck tr.auditorium)) ∧
      ((s.lifecycle tr.auditorium).advancing = true →
        (∀ c pre post, tr.kind = .caption → tr.pending.find? (fun d => !d.marks.get b) = some c →
          dueBands (s.auditorium tr.auditorium) tr c.caption.ts c.marks sh true = pre ++ b :: post →
            exec (.releaseInstant t k b) s = .next
              (((pre ++ [b]).foldl (fun x d => x.releasePending k c.caption.number d) v).completeCheck tr.auditorium)) ∧
        (∀ x pre post, tr.kind = .description → tr.ring.find? (fun y => !y.marks.get b) = some x →
          dueBands (s.auditorium tr.auditorium) tr x.audio.tp x.marks sh true = pre ++ b :: post →
            exec (.releaseInstant t k b) s = .next
              (((pre ++ [b]).foldl (fun y d => y.releaseBlock k x.audio.seq d) v).completeCheck tr.auditorium))) ∧
      (((s.lifecycle tr.auditorium).advancing = false ∨
        (tr.kind = .caption ∧ ∀ c, tr.pending.find? (fun d => !d.marks.get b) = some c →
          sh < c.caption.ts - tr.lead - ((s.auditorium tr.auditorium).band b).offset) ∨
        (tr.kind = .description ∧ ∀ x, tr.ring.find? (fun y => !y.marks.get b) = some x →
          sh < x.audio.tp - tr.lead - ((s.auditorium tr.auditorium).band b).offset)) →
        exec (.releaseInstant t k b) s = .next (v.completeCheck tr.auditorium))) ∧
  ∀ (s : State) (k sh : Nat) (tr : Track) (zero : Bool) (au : Auditorium), s.track k = some tr →
    au = s.auditorium tr.auditorium →
    (∀ n c, tr.pendingCue n = some c → ∃ bs, ReleaseOrder au tr c.caption.ts (fun b => (au.band b).enabled = true ∧
        c.marks.get b = false ∧ c.caption.ts - tr.lead - (au.band b).offset ≤ sh ∧ (zero = true ∨ b ≠ 0)) bs ∧
      s.takePassedCue k sh zero n = bs.foldl (fun x b => x.releasePending k n b) s) ∧
    (∀ n x, tr.ringBlock n = some x → ∃ bs, ReleaseOrder au tr x.audio.tp (fun b => (au.band b).enabled = true ∧
        x.marks.get b = false ∧ x.audio.tp - tr.lead - (au.band b).offset ≤ sh ∧ (zero = true ∨ b ≠ 0)) bs ∧
      s.takePassedBlock k sh zero n = bs.foldl (fun y b => y.releaseBlock k n b) s) ∧
    (tr.kind = .caption → s.takePassedTrack k sh zero =
      (tr.pending.map fun c => c.caption.number).foldl (fun x n => x.takePassedCue k sh zero n) s) ∧
    (tr.kind = .description → s.takePassedTrack k sh zero =
      (tr.ring.map fun x => x.audio.seq).foldl (fun x n => x.takePassedBlock k sh zero n) s)

/-- A release to a band marks it and is counted RELEASES; to a band with members it sends a CAPTION in CAPTION class
with the deadline of Table 6-1, or an AUDIO in AUDIO class with deadline Tp behind the AUDIO GAP that its block
carries, each with the band group's next sequence number (R101 to R104, Table 6-1). At band 0 a cue leaves the pending
list and becomes current, the cue that was current counted CUES_RETIRED, and a block leaves the ring; pacing follows
(R78, R94, R101). A CAPTION or CAPTION REPLACE is followed by its degraded repeat copies: to each of the first 16
DEGRADED records of its track and band, in index order, the frame's body, sequence number and deadline in CATCHUP
class, counted DEGRADED_COPIES; each record beyond them counts DEGRADED_LIMIT (R115). -/
def Obligations.ReleaseMarksAndSends : Prop :=
  (∀ (s : State) (k : Nat) (tr : Track) (b : Band) (n : Nat), s.track k = some tr →
    (∀ c, tr.pendingCue n = some c → ∃ u tr' marked, s.releasePending k n b = u ∧ WithinTrack k s u ∧
      u.track k = some tr' ∧ marked = ({ c with marks := c.marks.set b true } : Cue) ∧ tr'.ring = tr.ring ∧
      u.count (.track k .releases) = min counterMax (s.count (.track k .releases) + 1) ∧
      OneFrameEach k (fun d => d = b ∧ s.memberCount k b ≠ 0) s u ∧
      (b ≠ 0 → tr' = { tr with pending := tr.pending.map fun d => if d.caption.number = n then marked else d }) ∧
      (b = 0 → tr'.pending = (tr.withoutCue n).pending ∧ tr'.current = some marked ∧
        u.count (.track k .cuesRetired) =
          if tr.current.isSome then min counterMax (s.count (.track k .cuesRetired) + 1)
          else s.count (.track k .cuesRetired))) ∧
    (∀ x, tr.ringBlock n = some x → ∃ u tr', s.releaseBlock k n b = u ∧ WithinTrack k s u ∧
      u.track k = some tr' ∧ tr'.pending = tr.pending ∧ tr'.current = tr.current ∧
      u.count (.track k .releases) = min counterMax (s.count (.track k .releases) + 1) ∧
      (∀ d, u.nextSeq k d = s.nextSeq k d +
        if d = b ∧ s.memberCount k b ≠ 0 then (if x.gap.isSome then 2 else 1) else 0) ∧
      (b ≠ 0 → tr' = { tr with ring := tr.ring.map fun y =>
        if y.audio.seq = n then { x with marks := x.marks.set b true } else y }) ∧
      (b = 0 → tr'.ring = tr.ring.filter fun y => y.audio.seq != n))) ∧
  (∀ (s : State) (k : Nat) (tr : Track) (b : Band), s.track k = some tr →
    (∀ c : Caption, ∃ v, Counted s v (.track k .releases) ∧
      (s.memberCount k b = 0 → s.releaseCaption k tr c b = v) ∧
      (s.memberCount k b ≠ 0 → s.releaseCaption k tr c b =
        v.sendCaption k tr b (.caption k c) (some (shownUntil (s.auditorium tr.auditorium) c)))) ∧
    (∀ x : Block, ∃ v w, Counted s v (.track k .releases) ∧
      (s.memberCount k b = 0 → s.releaseAudio k tr x b = v) ∧ (x.gap = none → w = v) ∧
      (∀ g, x.gap = some g → w = v.sendToBand k tr b .audio (.audioGap k x.audio.seq g) (some x.audio.tp)) ∧
      (s.memberCount k b ≠ 0 → s.releaseAudio k tr x b =
        w.sendToBand k tr b .audio (.audio k x.audio) (some x.audio.tp))) ∧
    (∀ n c marked, tr.pendingCue n = some c → marked = ({ c with marks := c.marks.set b true } : Cue) → ∃ v w,
      TrackBecomes k { tr with pending := tr.pending.map fun d => if d.caption.number = n then marked else d } s v ∧
      w = v.releaseCaption k tr c.caption b ∧ (b ≠ 0 → s.releasePending k n b = w) ∧
      (b = 0 → ∃ x y, TrackBecomes k { tr.withoutCue n with current := some marked } w x ∧
        (tr.current = none → y = x) ∧ (tr.current ≠ none → Counted x y (.track k .cuesRetired)) ∧
        s.releasePending k n b = y.paceDown k)) ∧
    (∀ n x, tr.ringBlock n = some x → ∃ v w,
      TrackBecomes k { tr with ring := tr.ring.map fun y =>
        if y.audio.seq = n then { x with marks := x.marks.set b true } else y } s v ∧
      w = v.releaseAudio k tr x b ∧ (b ≠ 0 → s.releaseBlock k n b = w) ∧
      (b = 0 → ∃ y, TrackBecomes k { tr with ring := tr.ring.filter fun z => z.audio.seq != n } w y ∧
        s.releaseBlock k n b = y.paceDown k))) ∧
  ∀ (s : State) (k : Nat) (tr : Track) (b : Band) (body : DeliveryBody) (d : Option Nat) (rs : List (Nat × Subscription)),
    rs = s.records.filter (fun e => e.2.track = k ∧ e.2.band = b ∧ 128 ≤ e.2.score ∧ e.2.score < 256) →
      ∃ v, v = (rs.take 16).foldl (fun x e => (x.bump (.track k .degradedCopies)).offer
          (madeEntry ⟨.device e.2.handle, some (s.nextSeq k b), body⟩ .catchup tr.auditorium (some k) d))
          (s.sendToBand k tr b .caption body d) ∧
        CountedBy v (s.sendCaption k tr b body d) (.track k .degradedLimit) (rs.length - 16)

/-- The current cue retires, without a frame, when advancing show time has reached its Te; before that, or while show
time stands, it does not (R78). The house check whose last item it was completes (R159). That a step taken before the
Te has no effect of its own is log entry 6. -/
def Obligations.CurrentCueRetires : Prop :=
  ∀ (s : State) (t k : Nat) (tr : Track), s.track k = some tr →
    (∀ c, tr.current = some c → (s.lifecycle tr.auditorium).advancing = true →
      c.caption.te ≤ (s.advance t).showTime tr.auditorium →
        ∃ v w, TrackBecomes k { tr with current := none } (s.advance t) v ∧
        Counted v w (.track k .cuesRetired) ∧
          exec (.currentCueRetirement t k) s = .next (w.completeCheck tr.auditorium)) ∧
    ((tr.current = none ∨ (s.lifecycle tr.auditorium).advancing = false ∨
      ∃ c, tr.current = some c ∧ (s.advance t).showTime tr.auditorium < c.caption.te) →
        exec (.currentCueRetirement t k) s = .next ((s.advance t).completeCheck tr.auditorium))

/-- The late rule on a pending cue at show time `sh`: one whose band-0 instant lies ahead stands; one with Te - M
reached is removed and counted EXPIRED; any other is released LATE to every enabled band not marked, band 0 last, and
is current (R103, R105). A late cue has LATE set and is then released to its unmarked enabled bands in the order of
R100, counted LATE_RELEASES. A block whose band-0 instant lies ahead stands; one with Tp reached is removed and
counted EXPIRED; any other is released LATE to every enabled band not marked, in order (R104, R106). The evaluation of
a track runs the late rule on each record in list or ring order and then takes the passed instants of what remains,
band 0 excepted (R107, R112; the order of the two and the next track is log entry 23, that of the records' instants
log entry 34). -/
def Obligations.LateCueIsReleasedOrExpired : Prop :=
  (∀ (s : State) (k sh n : Nat) (tr : Track) (c : Cue) (au : Auditorium), s.track k = some tr →
    tr.pendingCue n = some c → au = s.auditorium tr.auditorium →
      (sh < c.caption.ts - tr.lead → s.evaluateCue k sh n = s) ∧
      (c.caption.ts - tr.lead ≤ sh → c.caption.te ≤ sh + au.params.minDisplay * 1000 → ∃ v w,
        TrackBecomes k (tr.withoutCue n) s v ∧ Counted v w (.track k .expired) ∧
          s.evaluateCue k sh n = w.paceDown k) ∧
      (c.caption.ts - tr.lead ≤ sh → sh + au.params.minDisplay * 1000 < c.caption.te → c.marks.get 0 = false →
        ∃ u tr' cur, s.evaluateCue k sh n = u ∧ WithinTrack k s u ∧ u.track k = some tr' ∧
          tr'.pending = (tr.withoutCue n).pending ∧ tr'.current = some cur ∧ tr'.ring = tr.ring ∧
          cur.caption = { c.caption with late := true } ∧
          (∀ d, cur.marks.get d = (c.marks.get d || (au.band d).enabled)) ∧
          OneFrameEach k (fun d => s.hears k tr d ∧ c.marks.get d = false) s u ∧
          u.count (.track k .lateReleases) = min counterMax (s.count (.track k .lateReleases) + 1) ∧
          u.count (.track k .cuesRetired) =
            if tr.current.isSome then min counterMax (s.count (.track k .cuesRetired) + 1)
            else s.count (.track k .cuesRetired))) ∧
  (∀ (s : State) (k sh n : Nat) (tr : Track) (c : Cue) (au : Auditorium), s.track k = some tr →
    tr.pendingCue n = some c → au = s.auditorium tr.auditorium → c.caption.ts - tr.lead ≤ sh →
      sh + au.params.minDisplay * 1000 < c.caption.te → ∃ v w bs,
        TrackBecomes k { tr with pending := tr.pending.map fun d =>
          if d.caption.number = n then { d with caption := { d.caption with late := true } } else d } s v ∧
        ReleaseOrder au tr c.caption.ts (fun b => (au.band b).enabled = true ∧ c.marks.get b = false) bs ∧
        w = bs.foldl (fun x b => x.releasePending k n b) v ∧
          Counted w (s.evaluateCue k sh n) (.track k .lateReleases)) ∧
  (∀ (s : State) (k sh n : Nat) (tr : Track) (x : Block) (au : Auditorium), s.track k = some tr →
    tr.ringBlock n = some x → au = s.auditorium tr.auditorium →
      (sh < x.audio.tp - tr.lead → s.evaluateBlock k sh n = s) ∧
      (x.audio.tp - tr.lead ≤ sh → x.audio.tp ≤ sh → ∃ v w,
        TrackBecomes k { tr with ring := tr.ring.filter fun y => y.audio.seq != n } s v ∧
        Counted v w (.track k .expired) ∧ s.evaluateBlock k sh n = w.paceDown k) ∧
      (x.audio.tp - tr.lead ≤ sh → sh < x.audio.tp → ∃ v w bs,
        TrackBecomes k { tr with ring := tr.ring.map fun y =>
          if y.audio.seq = n then { y with audio := { y.audio with late := true } } else y } s v ∧
        ReleaseOrder au tr x.audio.tp (fun b => (au.band b).enabled = true ∧ x.marks.get b = false) bs ∧
        w = bs.foldl (fun y b => y.releaseBlock k n b) v ∧
          Counted w (s.evaluateBlock k sh n) (.track k .lateReleases))) ∧
  ∀ (s : State) (k sh : Nat) (tr : Track), s.track k = some tr →
    (tr.kind = .caption → ∃ v tr', v = (tr.pending.map fun c => c.caption.number).foldl (fun x n => x.evaluateCue k sh n) s ∧
      v.track k = some tr' ∧ s.evaluateTrack k sh =
        (tr'.pending.map fun c => c.caption.number).foldl (fun x n => x.takePassedCue k sh false n) v) ∧
    (tr.kind = .description →
      ∃ v tr', v = (tr.ring.map fun x => x.audio.seq).foldl (fun x n => x.evaluateBlock k sh n) s ∧
      v.track k = some tr' ∧ s.evaluateTrack k sh =
        (tr'.ring.map fun x => x.audio.seq).foldl (fun x n => x.takePassedBlock k sh false n) v)

/-- A beacon deadline that engine time has reached is set an interval later; the link DOWN skips the beacon, one still
waiting takes it up, and otherwise a BEACON is made to the auditorium-wide group without a deadline (R117). Two
clauses are the model's choice: that the deadline moves on from itself also where the step comes later (log entry 24),
and that before the deadline, or with none, nothing happens (log entry 6). -/
def Obligations.BeaconExpires : Prop :=
  ∀ (s : State) (t a : Nat),
    ((∀ d, s.beacon a = some d → max s.engineTime t < d) → exec (.beaconExpiry t a) s = .next (s.advance t)) ∧
    (∀ d, s.beacon a = some d → d ≤ max s.engineTime t → ∃ v w c, w.beacon a =
        some (d + (s.auditorium a).params.beaconInterval * 1000) ∧ (∀ j, j ≠ a → w.beacon j = s.beacon j) ∧
      w = { s.advance t with beacons := w.beacons } ∧ Counted w v (.auditorium a c) ∧
      (s.deliveryUp = false → c = .beaconsSkipped ∧ exec (.beaconExpiry t a) s = .next v) ∧
      (s.deliveryUp = true → (∃ e ∈ s.egress.waiting, e.cls = .beacon ∧ e.auditorium = a) →
        c = .beaconsCoalesced ∧ exec (.beaconExpiry t a) s = .next v) ∧
      (s.deliveryUp = true → (∀ e ∈ s.egress.waiting, ¬(e.cls = .beacon ∧ e.auditorium = a)) →
        c = .beaconsMade ∧ exec (.beaconExpiry t a) s = .next
          (v.offer (madeEntry ⟨.group (a * 64 + 32), none, .beacon a none⟩ .beacon a none none))))

/-! ### Subscriptions (Chapter 8) -/

/-- The checks of Table 8-2 in their order, and the lowest-numbered track that fits for a JOIN that passes them (R137,
R138). A JOIN with handle 0 or an auditorium outside 1 to 24 is counted RETURN_MALFORMED; a refused one is counted
JOINS_REFUSED, changes no record and is answered by a JOIN RESULT with its reason (R136, R142). While the delivery
link is DOWN or a reset completes no JOIN arrives (R136, R173; that it then changes nothing is log entry 28). A JOIN
is taken whatever the content link state (R136; that R175, which says otherwise, does not stop it is the model's
choice, log entry 7). -/
def Obligations.JoinsAreJudged : Prop :=
  (∀ (s : State) (f : JoinFrame) (a : Nat), a = f.auditorium →
    (s.lifecycle a ∉ [.ready, .running, .paused, .holdover, .lost, .test] → s.judgeJoin f = .error .noSuchShow) ∧
    (s.lifecycle a ∈ [.ready, .running, .paused, .holdover, .lost, .test] →
      ((∀ k, ¬JoinFits s f k) → s.judgeJoin f = .error .noSuchTrack) ∧
      (∀ k, JoinFits s f k → (∀ j, j < k → ¬JoinFits s f j) →
        ((∀ b : Band, b.val = f.band → ((s.auditorium a).band b).enabled = false) → s.judgeJoin f = .error .bandOff) ∧
        (∀ b : Band, b.val = f.band → ((s.auditorium a).band b).enabled = true →
          (JoinAdds s f → (s.auditorium a).params.memberLimit ≤ s.memberRecords a →
            s.judgeJoin f = .error .auditoriumFull) ∧
          (¬(JoinAdds s f ∧ (s.auditorium a).params.memberLimit ≤ s.memberRecords a) →
            (s.findHandle f.handle = none → (∀ i, i ≤ 4095 → s.subscription i ≠ none) →
              s.judgeJoin f = .error .tableFull) ∧
            ((s.findHandle f.handle ≠ none ∨ ∃ i, i ≤ 4095 ∧ s.subscription i = none) →
              s.judgeJoin f = .ok (k, b))))))) ∧
  ∀ (s : State) (ea : Nat) (f : JoinFrame) (a : Nat), a = f.auditorium →
    (¬s.ReturnsArrive → exec (.join ea f) s = .next (s.advance ea)) ∧
    (s.ReturnsArrive → (f.handle = 0 ∨ a = 0 ∨ 24 < a) →
      ∃ u, exec (.join ea f) s = .next u ∧ Counted (s.advance ea) u (.device .returnMalformed)) ∧
    (Returned s f.handle a → ∀ o, s.judgeJoin f = .error o → ∃ v,
      Counted (s.advance ea) v (.auditorium a .joinsRefused) ∧ exec (.join ea f) s = .next
        (v.offer (madeEntry ⟨.device f.handle, none, .joinResult o a none⟩ .catchup a none none)))

/-- An accepted JOIN makes a record at the lowest free index, restores a DETACHED one at its index with score 0, or
switches one keeping its score; the member counts follow, the window starts from Ea, and a JOIN RESULT goes first,
then catch-up (R101, R116, R139 to R142, R147). That a switch of an auditorium's only member keeps the beacon deadline
is the model's choice (log entry 31), and so is that it holds whatever the content link state (log entry 7). Catch-up
to a caption track of an auditorium in RUNNING, HOLDOVER or PAUSED is the current cue while its Te is ahead and then
each pending cue marked for the band, one CAPTION each to the device in CATCHUP class with its Te as deadline, counted
CATCHUP_FRAMES; to any other it is none (R143; show time is read at the engine time of the step, log entry 23). -/
def Obligations.AcceptedJoinSubscribes : Prop :=
  (∀ (s : State) (ea : Nat) (f : JoinFrame) (a k : Nat) (b : Band) (tr : Track) (fresh : Subscription),
    a = f.auditorium → Returned s f.handle a → s.judgeJoin f = .ok (k, b) → s.track k = some tr →
    fresh = ⟨f.handle, a, k, b, 0, ea, none, none, some (ea + 2 * (s.auditorium a).params.reportPeriod * 1000000), none⟩ →
      ∃ v, exec (.join ea f) s = .next (State.catchUp (v.offer (madeEntry ⟨.device f.handle, none, .joinResult .accepted a
          (some ⟨k, tr.language, tr.variant, b, a * 64 + tr.slot * 4 + b.val, a * 64 + 32, s.nextSeq k b⟩)⟩
          .catchup a (some k) none)) f k tr b) ∧
        v = { s with
          engineTime := max s.engineTime ea, subscriptions := v.subscriptions, members := v.members, live := v.live
          beacons := v.beacons } ∧
        (s.lifecycle a ∈ [.running, .paused, .holdover, .test] → v.beacon a =
          some ((s.beacon a).getD (max s.engineTime ea + (s.auditorium a).params.beaconInterval * 1000))) ∧
        (∀ i, s.findHandle f.handle = none → i ≤ 4095 → s.subscription i = none →
          (∀ j, j < i → s.subscription j ≠ none) → v.subscription i = some fresh ∧
          (∀ j, j ≠ i → v.subscription j = s.subscription j) ∧
          (∀ j c, v.memberCount j c = s.memberCount j c + if j = k ∧ c = b then 1 else 0) ∧
          v.count (.auditorium a .joinsNew) = min counterMax (s.count (.auditorium a .joinsNew) + 1) ∧
          SameCounts s v [.auditorium a .joinsNew] ∧ ∀ j, j ≠ a → v.beacon j = s.beacon j) ∧
        (∀ i r, s.findHandle f.handle = some (i, r) → (∀ j, j ≠ i → v.subscription j = s.subscription j) ∧
          (r.detached = true → v.subscription i = some fresh ∧
            (∀ j c, v.memberCount j c = s.memberCount j c + if j = k ∧ c = b then 1 else 0) ∧
            v.count (.auditorium a .joinsRestored) = min counterMax (s.count (.auditorium a .joinsRestored) + 1) ∧
            SameCounts s v [.auditorium a .joinsRestored] ∧ ∀ j, j ≠ a → v.beacon j = s.beacon j) ∧
          (r.detached = false → v.subscription i = some { r with
              auditorium := a, track := k, band := b, joinTime := ea, lastSeq := none, window := fresh.window } ∧
            (∀ j c, v.memberCount j c = (s.memberCount j c - if j = r.track ∧ c = r.band then 1 else 0) +
              if j = k ∧ c = b then 1 else 0) ∧
            v.count (.auditorium a .joinsSwitched) = min counterMax (s.count (.auditorium a .joinsSwitched) + 1) ∧
            SameCounts s v [.auditorium a .joinsSwitched] ∧
            ∀ j, j ≠ a → j ≠ r.auditorium → v.beacon j = s.beacon j))) ∧
  ∀ (s : State) (f : JoinFrame) (k : Nat) (tr : Track) (b : Band),
    ((tr.kind = .description ∨ s.lifecycle f.auditorium ∉ [.running, .holdover, .paused]) → s.catchUp f k tr b = s) ∧
    (tr.kind = .caption → s.lifecycle f.auditorium ∈ [.running, .holdover, .paused] → ∃ cs : List Caption,
      cs = (tr.current.toList.filter fun c => s.showTime f.auditorium < c.caption.te).map Cue.caption ++
        (tr.pending.filter fun c => c.marks.get b).map Cue.caption ∧
      s.catchUp f k tr b = cs.foldl (fun x c => (x.bump (.track k .catchupFrames)).offer
        (madeEntry ⟨.device f.handle, none, .caption k c⟩ .catchup tr.auditorium (some k) (some c.te))) s)

/-- A LEAVE frees the record its handle holds for the named auditorium, with the member it was; any other is counted
LEAVE_MISS, a malformed one RETURN_MALFORMED (R136, R144). While the delivery link is DOWN or a reset completes no
LEAVE arrives (R136, R173; log entry 28). A LEAVE is taken whatever the content link state (R136; that R175, which
says otherwise, does not stop it is the model's choice, log entry 7). -/
def Obligations.LeaveFreesRecord : Prop :=
  ∀ (s : State) (ea : Nat) (f : LeaveFrame) (a : Nat), a = f.auditorium →
    (¬s.ReturnsArrive → exec (.leave ea f) s = .next (s.advance ea)) ∧
    (s.ReturnsArrive → (f.handle = 0 ∨ a = 0 ∨ 24 < a) →
      ∃ u, exec (.leave ea f) s = .next u ∧ Counted (s.advance ea) u (.device .returnMalformed)) ∧
    (Returned s f.handle a →
      ((∀ i r, s.findHandle f.handle = some (i, r) → r.auditorium ≠ a) →
        ∃ u, exec (.leave ea f) s = .next u ∧ Counted (s.advance ea) u (.device .leaveMiss)) ∧
      (∀ i r, s.findHandle f.handle = some (i, r) → r.auditorium = a → ∃ u, exec (.leave ea f) s = .next u ∧
        u.subscription i = none ∧ (∀ j, j ≠ i → u.subscription j = s.subscription j) ∧
        (∀ k b, u.memberCount k b =
          s.memberCount k b - if r.detached = false ∧ k = r.track ∧ b = r.band then 1 else 0) ∧
        u.count (.auditorium a .leaves) = min counterMax (s.count (.auditorium a .leaves) + 1) ∧
        SameCounts s u [.auditorium a .leaves] ∧ (∀ j, j ≠ a → u.beacon j = s.beacon j) ∧
        (r.detached = false → u.memberSum a = 0 → u.beacon a = none) ∧
        u = { s with
          engineTime := max s.engineTime ea, subscriptions := u.subscriptions, members := u.members
          beacons := u.beacons, live := u.live }))

/-- REPORTs in the order of R145: unknown, mismatched, of a DETACHED record, accepted. An accepted one keeps its
values and moves the score, down by 1 without loss and up by 4 for each of at most 16 missing frames; at 256 the
record enters DETACHED, below it the window restarts from Ea; a RUNNING check counts reports on its track (R145 to
R148, R161). The hold of a record that it detaches runs from Ea (the base is log entry 24). While the delivery link is
DOWN or a reset completes no REPORT arrives (R136, R173; log entry 28). A REPORT is taken whatever the content link
state (R136; that R175, which says otherwise, does not stop it is the model's choice, log entry 7). -/
def Obligations.ReportMovesScore : Prop :=
  ∀ (s : State) (ea : Nat) (f : ReportFrame) (a : Nat), a = f.auditorium →
    (¬s.ReturnsArrive → exec (.report ea f) s = .next (s.advance ea)) ∧
    (s.ReturnsArrive → (f.handle = 0 ∨ a = 0 ∨ 24 < a) →
      ∃ u, exec (.report ea f) s = .next u ∧ Counted (s.advance ea) u (.device .returnMalformed)) ∧
    (Returned s f.handle a →
      (s.findHandle f.handle = none →
        ∃ u, exec (.report ea f) s = .next u ∧ Counted (s.advance ea) u (.device .reportUnknown)) ∧
      ∀ i r, s.findHandle f.handle = some (i, r) →
        ((r.auditorium ≠ a ∨ r.track ≠ f.track) →
          ∃ u, exec (.report ea f) s = .next u ∧ Counted (s.advance ea) u (.device .reportMismatch)) ∧
        (r.auditorium = a → r.track = f.track →
          (r.detached = true →
            ∃ u, exec (.report ea f) s = .next u ∧ Counted (s.advance ea) u (.auditorium a .reportDetached)) ∧
          (r.detached = false → ∀ score r', score = (if f.missed = 0 then r.score - 1
              else min 256 (r.score + 4 * min f.missed 16)) →
            r' = { r with lastReport := some ea, lastSeq := some f.highest } → ∃ u, exec (.report ea f) s = .next u ∧
              u.count (.auditorium a .reportsAccepted) = min counterMax (s.count (.auditorium a .reportsAccepted) + 1) ∧
              (∀ j, j ≠ a → u.check j = s.check j) ∧
              u.check a = (if (s.check a).running = true ∧ (s.check a).track = some f.track then
                { s.check a with
                  reports := min counterMax ((s.check a).reports + 1)
                  missed := min counterMax ((s.check a).missed + f.missed) }
                else s.check a) ∧
              (score < 256 → u.subscription i = some { r' with
                  score := score, window := some (ea + 2 * (s.auditorium a).params.reportPeriod * 1000000) } ∧
                (∀ j, j ≠ i → u.subscription j = s.subscription j) ∧ SameCounts s u [.auditorium a .reportsAccepted] ∧
                u = { s with
                  engineTime := max s.engineTime ea, subscriptions := u.subscriptions, checks := u.checks
                  live := u.live }) ∧
              (score = 256 → Detaches i r' ea [.auditorium a .reportsAccepted] s u ∧
                u = { s with
                  engineTime := max s.engineTime ea, subscriptions := u.subscriptions, members := u.members
                  checks := u.checks, beacons := u.beacons, flags := u.flags, live := u.live
                  contentOut := u.contentOut }))))

/-- A report window that engine time has reached raises the score by 16 and restarts from its own deadline, or at 256
takes the record into DETACHED; a hold that it has reached frees the record (R146 to R149; the base of the restart and
of the hold is log entry 24). That before its deadline, or with none, the step moves engine time only is log entry 6.
-/
def Obligations.WindowAndHoldExpire : Prop :=
  ∀ (s : State) (t i : Nat),
    ((∀ r d, s.subscription i = some r → r.window = some d → max s.engineTime t < d) →
      exec (.reportWindowExpiry t i) s = .next (s.advance t)) ∧
    (∀ r d, s.subscription i = some r → r.window = some d → d ≤ max s.engineTime t →
      ∃ u, exec (.reportWindowExpiry t i) s = .next u ∧
        u.count (.auditorium r.auditorium .windowExpiries) =
          min counterMax (s.count (.auditorium r.auditorium .windowExpiries) + 1) ∧
        (r.score + 16 < 256 → u.subscription i = some { r with
            score := r.score + 16
            window := some (d + 2 * (s.auditorium r.auditorium).params.reportPeriod * 1000000) } ∧
          (∀ j, j ≠ i → u.subscription j = s.subscription j) ∧
          SameCounts s u [.auditorium r.auditorium .windowExpiries] ∧
          u = { s with engineTime := max s.engineTime t, subscriptions := u.subscriptions, live := u.live }) ∧
        (256 ≤ r.score + 16 → Detaches i r d [.auditorium r.auditorium .windowExpiries] s u ∧
          u = { s with
            engineTime := max s.engineTime t, subscriptions := u.subscriptions, members := u.members
            beacons := u.beacons, flags := u.flags, live := u.live, contentOut := u.contentOut })) ∧
    ((∀ r d, s.subscription i = some r → r.hold = some d → max s.engineTime t < d) →
      exec (.holdExpiry t i) s = .next (s.advance t)) ∧
    (∀ r d, s.subscription i = some r → r.hold = some d → d ≤ max s.engineTime t →
      ∃ u, exec (.holdExpiry t i) s = .next u ∧ u.subscription i = none ∧
        (∀ j, j ≠ i → u.subscription j = s.subscription j) ∧
        u.count (.auditorium r.auditorium .holdExpiries) =
          min counterMax (s.count (.auditorium r.auditorium .holdExpiries) + 1) ∧
        SameCounts s u [.auditorium r.auditorium .holdExpiries] ∧
        u = { s with engineTime := max s.engineTime t, subscriptions := u.subscriptions, live := u.live })

/-- DEVICE DETACH is judged in the order of R150; it takes the record into DETACHED at the engine time of the command,
from which its hold runs (the base is log entry 24), and changes nothing of one that is DETACHED already (R148, R150).
-/
def Obligations.DeviceDetachForcesOff : Prop :=
  ∀ (s v : State) (t : Nat) (q : Queued) (rest : List Queued) (a h : Nat), v = s.advance t → Heads s q rest 0x17 →
    a = argument q.items 1 → h = argument q.items 2 → ∃ u, exec (.deviceDetach t) s = .next u ∧
      ((¬(1 ≤ a ∧ a ≤ 24) ∨ h = 0) → RunRefused v u q rest .badParameter) ∧
      (1 ≤ a → a ≤ 24 → h ≠ 0 →
        (s.lifecycle a = .closing → RunRefused v u q rest .wrongState) ∧
        (s.lifecycle a ≠ .closing →
          ((∀ i r, s.findHandle h = some (i, r) → r.auditorium ≠ a) → RunRefused v u q rest .badParameter) ∧
          (∀ i r, s.findHandle h = some (i, r) → r.auditorium = a →
            (r.detached = true → RunDone v u q rest false []) ∧
            (r.detached = false → ∃ w, RunDone w u q rest false [] ∧ Detaches i r v.engineTime [] s w ∧
              w = { v with
                subscriptions := w.subscriptions, members := w.members, beacons := w.beacons, flags := w.flags
                live := w.live, contentOut := w.contentOut }))))

/-! ### House checks (Chapter 9) -/

/-- HOUSE CHECK START is judged in the order of R155; taken, it stores the parameters with the results at 0, anchors
the clock at show time 0, clears every track of the auditorium in the show-end form and enters TEST with its
generation deadline set (R45, R113, R156). HOUSE CHECK STOP reads the end results, clears every track of the
auditorium in the same form, freezes show time and returns it to READY, outcome STOPPED, with no flag; it is refused
in any state but TEST (R113, R160). Two clauses are the model's choice: that neither clearing is counted in
STEP_HANDLINGS (log entry 12), and that parameters of the other kind are not stored (log entry 16). -/
def Obligations.HouseCheckStartsAndStops : Prop :=
  (∀ (s v : State) (t : Nat) (q : Queued) (rest : List Queued) (a k : Nat) (arg : Nat → Nat), Heads s q rest 0x0E →
    arg = argument q.items → a = arg 1 → k = arg 2 → v = s.advance t → ∃ u, exec (.houseCheckStart t) s = .next u ∧
      (¬(1 ≤ a ∧ a ≤ 24 ∧ k ≤ 95 ∧ arg 3 ∈ [1, 2, 3, 4] ∧ arg 4 ∈ [0, 1, 10, 100, 1000]) →
        RunRefused v u q rest .badParameter) ∧
      (∀ mode, 1 ≤ a → a ≤ 24 → k ≤ 95 → [CheckMode.fixed, .counter, .regionSweep, .pattern][arg 3 - 1]? = some mode →
        1 ≤ arg 3 → arg 4 ∈ [0, 1, 10, 100, 1000] →
        ((mode = .fixed ∧ ∀ x, itemBytes q.items 5 = some x → x.length = 0 ∨ 64 < x.length) →
          RunRefused v u q rest .badParameter) ∧
        ((mode = .pattern ∧ itemNat q.items 6 = none) → RunRefused v u q rest .badParameter) ∧
        ((mode = .fixed → ∃ x, itemBytes q.items 5 = some x ∧ 1 ≤ x.length ∧ x.length ≤ 64) →
          (mode = .pattern → itemNat q.items 6 ≠ none) →
          (s.lifecycle a ≠ .ready → RunRefused v u q rest .wrongState) ∧
          (s.lifecycle a = .ready →
            ((∀ tr, s.track k = some tr → tr.auditorium ≠ a ∨ (tr.kind = .caption ↔ mode = .pattern)) →
              RunRefused v u q rest .badParameter) ∧
            (∀ tr, s.track k = some tr → tr.auditorium = a → (tr.kind = .description ↔ mode = .pattern) → ∃ w clamped,
              RunDone w u q rest clamped [] ∧ (clamped = true ↔ mode ≠ .pattern ∧
                ((∃ x, itemNat q.items 7 = some x ∧ (x < 100 ∨ 5000 < x)) ∨
                  ∃ x, itemNat q.items 8 = some x ∧ (x < 500 ∨ 10000 < x))) ∧
              w.auditorium a = { s.auditorium a with lifecycle := .test } ∧
              w.clock a = { s.clock a with e0 := v.engineTime, s0 := 0, correction := 0, drift := 0, rate := 0 } ∧
              w.emptiedShow a ∧ w.beacon a = v.beaconRunning a ∧ (w.check a).running = true ∧
              (w.check a).outcome = .none ∧ (w.check a).track = some k ∧ (w.check a).mode = some mode ∧
              (w.check a).count = some (arg 4) ∧ (w.check a).next = some 1 ∧ (w.check a).items = 0 ∧
              (w.check a).reports = 0 ∧ (w.check a).missed = 0 ∧ (w.check a).devices = 0 ∧ (w.check a).highest = 0 ∧
              (w.check a).previousTp = none ∧
              (mode ≠ .pattern → (w.check a).interval =
                  some (max 100 (min 5000 ((itemNat q.items 7).getD 1000))) ∧
                (w.check a).duration = some (max 500 (min 10000 ((itemNat q.items 8).getD 2000))) ∧
                (w.check a).deadline = (w.check a).interval.map fun i => v.engineTime + i * 1000) ∧
              (mode = .fixed → (w.check a).text = itemBytes q.items 5) ∧
              (mode ≠ .fixed → (w.check a).text = none) ∧ (mode ≠ .pattern → (w.check a).pattern = none) ∧
              (mode = .pattern → (w.check a).interval = none ∧ (w.check a).duration = none) ∧
              (mode = .pattern → (w.check a).pattern = (itemNat q.items 6).map (BitVec.ofNat 8) ∧
                (w.check a).deadline = some (v.engineTime + 20000)) ∧
              (∃ x, x = { v with auditoriums := w.auditoriums, clocks := w.clocks, checks := w.checks } ∧
                w = { x.steppedEach a (x.showTime a) .showEnd with beacons := w.beacons }) ∧
              WithinShow a (s.owns a) [] [] v w))))) ∧
  ∀ (s v : State) (t : Nat) (q : Queued) (rest : List Queued) (a : Nat), Heads s q rest 0x0F →
    a = argument q.items 1 →
    v = s.advance t → ∃ u, exec (.houseCheckStop t) s = .next u ∧
      (¬(1 ≤ a ∧ a ≤ 24) → RunRefused v u q rest .badParameter) ∧
      (1 ≤ a → a ≤ 24 → s.lifecycle a ≠ .test → RunRefused v u q rest .wrongState) ∧
      (1 ≤ a → a ≤ 24 → s.lifecycle a = .test → ∃ w, RunDone w u q rest false [] ∧
        w.check a = { s.check a with
          running := false, outcome := .stopped, deadline := none, previousTp := none
          devices := (w.check a).devices, highest := (w.check a).highest } ∧
        (∀ k, (s.check a).track = some k → (w.check a).devices = (bands.map (s.memberCount k)).sum ∧
          (w.check a).highest = s.highestScore k) ∧
        w.clock a = { s.clock a with e0 := v.engineTime, s0 := v.showTime a } ∧
        (s.boundTracks a ≠ [] → w.auditorium a = { s.auditorium a with lifecycle := .ready }) ∧
        (s.boundTracks a = [] → w.auditorium a = { s.auditorium a with lifecycle := .preparing }) ∧
        w.beacon a = none ∧ w.emptiedShow a ∧
        (∃ x, x = { v with checks := w.checks } ∧ w = { x.steppedEach a (v.showTime a) .showEnd with
          auditoriums := w.auditoriums, clocks := w.clocks, beacons := w.beacons }) ∧
        WithinShow a (s.owns a) [] [] v w)

/-- Generated cue n has number 7000_0000H + n, Ts at the show time of the deadline + lead + 100,000, Te a cue duration
later, the text and region of the mode; it arrives as a cue, and the deadline moves on by the interval or ends with
the count (R157). Generated block n has sequence n, duration 20,000, 240 bytes of the pattern, its Tp the first at
show time + lead + 100,000 and then 20,000 after the one before, held at the maximum; it arrives as a block, and the
deadline moves on by 20,000 or ends with the count (R158). That a step taken before the deadline moves engine time
only is log entry 6. -/
def Obligations.ItemsAreGenerated : Prop :=
  (∀ (s : State) (t a k n x duration interval count ts : Nat) (mode : CheckMode) (tr : Track) (c : HouseCheck)
    (text : List Byte),
    c = s.check a → c.running = true → c.track = some k → s.track k = some tr → tr.kind = .caption →
    c.mode = some mode → mode ≠ .pattern → c.next = some n → c.deadline = some x → c.duration = some duration →
    c.interval = some interval → c.count = some count → ts = min showMax (s.showTimeAt a x + tr.lead + 100000) →
    text = (if mode = .fixed then c.text.getD [] else bytesOf [67, 72, 69, 67, 75, 32] ++ decimal n) →
      (max s.engineTime t < x → exec (.generationDeadlineCue t a) s = .next (s.advance t)) ∧
      (x ≤ max s.engineTime t →
        ∃ (v : State) (c' : HouseCheck), exec (.generationDeadlineCue t a) s = .next (State.completeCheck
          (v.arriveCue k
            { label := 0, cls := 0, region := if mode = .regionSweep then n % 16 else 0
              number := 0x70000000 + n, ts := ts, te := ts + duration * 1000
              textLen := text.length, speakerLen := 0, tail := text } none true) a) ∧
        v.check a = c' ∧ (∀ j, j ≠ a → v.check j = s.check j) ∧ v = { s.advance t with checks := v.checks } ∧
        c' = { c with items := min counterMax (c.items + 1), next := some (n + 1), deadline := c'.deadline } ∧
        (count ≠ 0 → c'.items = count → c'.deadline = none) ∧
        (count ≠ 0 → c'.items ≠ count → c'.deadline = some (x + interval * 1000)) ∧
        (count = 0 → n = 0x8FFFFFFF → c'.deadline = none) ∧
        (count = 0 → n ≠ 0x8FFFFFFF → c'.deadline = some (x + interval * 1000)))) ∧
  ∀ (s : State) (t a k n x count tp : Nat) (pattern : Byte) (tr : Track) (c : HouseCheck),
    c = s.check a → c.running = true → c.track = some k → s.track k = some tr → tr.kind = .description →
    c.pattern = some pattern → c.next = some n → c.deadline = some x → c.count = some count →
    tp = min showMax (if c.previousTp.isSome then c.previousTp.getD 0 + 20000
      else s.showTimeAt a x + tr.lead + 100000) →
      (max s.engineTime t < x → exec (.generationDeadlineBlock t a) s = .next (s.advance t)) ∧
      (x ≤ max s.engineTime t →
        ∃ (v : State) (c' : HouseCheck), exec (.generationDeadlineBlock t a) s = .next (State.completeCheck
          (v.arriveBlock k
            { label := 0, seq := n, tp := tp, duration := 20000, payloadLen := 240
              tail := List.replicate 240 pattern } none true) a) ∧
        v.check a = c' ∧ (∀ j, j ≠ a → v.check j = s.check j) ∧ v = { s.advance t with checks := v.checks } ∧
        c' = { c with
          items := min counterMax (c.items + 1), next := some (n + 1), deadline := c'.deadline
          previousTp := some tp } ∧
        (count ≠ 0 → c'.items = count → c'.deadline = none) ∧
        (count ≠ 0 → c'.items ≠ count → c'.deadline = some (x + 20000)) ∧
        (count = 0 → n = 0x8FFFFFFF → c'.deadline = none) ∧
        (count = 0 → n ≠ 0x8FFFFFFF → c'.deadline = some (x + 20000)))

/-- A house check is complete when it runs without a generation deadline and its track holds no generated item: the
end results are read, show time frozen, the auditorium READY, the flag set and the last accepted block absent;
otherwise nothing happens (R45, R86, R159). -/
def Obligations.HouseCheckCompletes : Prop :=
  ∀ (s : State) (a k : Nat) (tr : Track), (s.check a).track = some k → s.track k = some tr →
    tr.auditorium = a →
    (((s.check a).running = false ∨ (s.check a).deadline ≠ none ∨
        (tr.kind = .caption ∧ ∃ c, (c ∈ tr.pending ∨ tr.current = some c) ∧ c.caption.test = true) ∨
        (tr.kind = .description ∧ ∃ x ∈ tr.ring, x.audio.test = true)) → s.completeCheck a = s) ∧
    ((s.check a).running = true → (s.check a).deadline = none → k ≤ 95 →
      (tr.kind = .caption → ∀ c, (c ∈ tr.pending ∨ tr.current = some c) → c.caption.test = false) →
      (tr.kind = .description → ∀ x ∈ tr.ring, x.audio.test = false) → ∃ u, s.completeCheck a = u ∧
        u.check a = { s.check a with
          running := false, outcome := .completed, previousTp := none
          devices := (bands.map (s.memberCount k)).sum, highest := s.highestScore k } ∧
        u.clock a = { s.clock a with s0 := s.showTimeAt a s.engineTime, e0 := s.engineTime } ∧
        u.auditorium a = { s.auditorium a with lifecycle := .ready } ∧ u.beacon a = none ∧
        u.flagSet ⟨.houseCheckDone, a⟩ = true ∧ (∀ f, f ≠ ⟨.houseCheckDone, a⟩ → u.flagSet f = s.flagSet f) ∧
        u.track k = some { tr with lastBlock := none } ∧ (∀ j, j ≠ k → u.track j = s.track j) ∧ OtherShows a s u ∧
        SameCounts s u [.device .alertsSent] ∧
        u = { s with
          auditoriums := u.auditoriums, clocks := u.clocks, checks := u.checks, beacons := u.beacons
          tracks := u.tracks, flags := u.flags, live := u.live, contentOut := u.contentOut })

/-! ### Commands (Chapters 1, 3, 4, 7 and 10) -/

/-- A CONTROL frame from a station the list does not admit is counted ACCESS_REFUSED; an admitted one takes the tail
of the queue while fewer than four wait, and is otherwise answered BUSY at once (R162, R164). A command whose code
Table 11-7 does not list is refused UNKNOWN_COMMAND, and one whose items are not its own is refused BAD_PARAMETER,
each leaving the queue with its RESULT and nothing else changed (R165, R166, R177). The run of a command that is not
at the head, or with no command waiting, does nothing (log entry 6). Items fit a command just when each has the id and
width of one of its parameters in Table 11-13, none but the flags of a set is given twice, and every mandatory one is
there (R177, R179). While the content link is DOWN or a reset completes no frame arrives (R173, R175); that such a
frame changes nothing is log entry 28. -/
def Obligations.CommandsAreQueuedOrRefused : Prop :=
  (∀ (s : State) (ea src : Nat) (f : ControlFrame),
    ((s.contentUp = false ∨ s.resetting = true) → exec (.control ea src f) s = .next (s.advance ea)) ∧
    (s.contentUp = true → s.resetting = false →
      ((s.controllers.entry0.isSome = true ∨ s.controllers.entry1.isSome = true) → s.controllers.entry0 ≠ some src →
        s.controllers.entry1 ≠ some src →
          ∃ u, exec (.control ea src f) s = .next u ∧ Counted (s.advance ea) u (.device .accessRefused)) ∧
      ((s.controllers = ⟨none, none⟩ ∨ s.controllers.entry0 = some src ∨ s.controllers.entry1 = some src) →
        (s.queue.length < 4 → exec (.control ea src f) s =
          .next { s.advance ea with queue := s.queue ++ [⟨f.tag, f.code, f.items, src, ea⟩] }) ∧
        (4 ≤ s.queue.length → ∃ u, exec (.control ea src f) s = .next u ∧
          u.contentOut = s.contentOut ++ [.result src f.tag f.code (.refused .busy) (max s.engineTime ea) []] ∧
          u.count (.device .commandsBusy) = min counterMax (s.count (.device .commandsBusy) + 1) ∧
          u.count (.device .resultsSent) = min counterMax (s.count (.device .resultsSent) + 1) ∧
          SameCounts s u [.device .commandsBusy, .device .resultsSent] ∧
          u = { s with engineTime := max s.engineTime ea, contentOut := u.contentOut, live := u.live })))) ∧
  (∀ (s : State) (t : Nat) (q : Queued) (rest : List Queued), s.queue = q :: rest →
    ((q.code = 0 ∨ 0x18 < q.code) →
      ∃ u, exec (.unknownCommand t) s = .next u ∧ RunRefused (s.advance t) u q rest .unknownCommand) ∧
    ((1 ≤ q.code ∧ q.code ≤ 0x18) → exec (.unknownCommand t) s = .next (s.advance t)) ∧
    (∀ i, runOfCode t q.code = some i → itemsFit ((commandParams q.code).getD []) q.items = false →
      ∃ u, exec i s = .next u ∧ RunRefused (s.advance t) u q rest .badParameter) ∧
    (∀ i c, runOfCode t c = some i → c ≠ q.code → exec i s = .next (s.advance t)) ∧
    (q.code ≠ 0x18 → exec (.engineReset t) s = .next (s.advance t)) ∧
    (∀ i, i ∈ q.items → (∀ p ∈ (commandParams q.code).getD [], p.id ≠ i.id) →
      itemsFit ((commandParams q.code).getD []) q.items = false)) ∧
  (∀ (s : State) (t : Nat) (i : Instr), s.queue = [] →
    (i = .unknownCommand t ∨ i = .engineReset t ∨ ∃ c, runOfCode t c = some i) → exec i s = .next (s.advance t)) ∧
  (∀ (ps : List Param) (items : List Item), itemsFit ps items = true ↔
    (∀ i ∈ items, ∃ p ∈ ps, p.id = i.id ∧ p.width.admits i.value.length = true) ∧
    ∀ p ∈ ps, (p.repeats = false → (items.filter fun i => i.id == p.id).length ≤ 1) ∧
      (p.mandatory = true → ∃ i ∈ items, i.id = p.id)) ∧
  (∀ w n, (Width.bytes w).admits n = true ↔ n = w) ∧ (∀ n, Width.station.admits n = true ↔ n = 6 ∨ n = 0) ∧
  (∀ n, Width.text.admits n = true) ∧
  (∀ (c : Nat) (must may : List (Nat × Nat)), (c, must, may) ∈
      [(0x02, [(1, 1), (2, 1), (3, 4), (4, 1), (5, 1), (6, 1), (7, 1), (8, 1)], []), (0x03, [(1, 1)], []),
        (0x04, [(1, 1), (2, 4)], []),
        (0x05, [(1, 1)],
          [(2, 1), (3, 8), (4, 8), (5, 4), (6, 4), (7, 4), (8, 2), (9, 4), (10, 4), (11, 4)]),
        (0x06, [(1, 1)],
          [(2, 1), (3, 8), (4, 8), (5, 4), (6, 4), (7, 4), (8, 2), (9, 4), (10, 4), (11, 4)]),
        (0x07, [(1, 1)], []), (0x08, [(1, 1), (2, 1), (3, 1)], [(4, 8)]),
        (0x09, [(1, 1), (2, 1), (3, 2), (4, 1), (5, 2)], [(6, 8), (7, 2), (8, 2)]),
        (0x0A, [(1, 1)], [(2, 8), (3, 2), (4, 2)]), (0x0B, [(1, 1)], []), (0x0C, [(1, 1)], []),
        (0x0D, [(1, 1), (2, 1)], [(3, 1)]), (0x0F, [(1, 1)], []), (0x10, [(1, 1)], []),
        (0x11, [(1, 1)], [(2, 1)]), (0x14, [], [(1, 1)]), (0x15, [(1, 1)], [(2, 1)]),
        (0x16, [], [(1, 2), (2, 1), (3, 6)]), (0x17, [(1, 1), (2, 6)], []), (0x18, [], [])] →
    commandParams c = some ((must.map fun e => ⟨e.1, .bytes e.2, true, false⟩) ++
      may.map fun e => ⟨e.1, .bytes e.2, false, false⟩)) ∧
  commandParams 0x01 = some [⟨1, .station, true, false⟩, ⟨2, .station, true, false⟩] ∧
  commandParams 0x0E = some [⟨1, .bytes 1, true, false⟩, ⟨2, .bytes 1, true, false⟩, ⟨3, .bytes 1, true, false⟩,
    ⟨4, .bytes 2, true, false⟩, ⟨5, .text, false, false⟩, ⟨6, .bytes 1, false, false⟩, ⟨7, .bytes 4, false, false⟩,
    ⟨8, .bytes 4, false, false⟩] ∧
  commandParams 0x12 = some [⟨1, .bytes 1, true, false⟩, ⟨2, .bytes 1, false, false⟩, ⟨3, .bytes 1, false, true⟩] ∧
  commandParams 0x13 = some [⟨1, .bytes 1, true, false⟩, ⟨2, .bytes 1, false, true⟩]

/-- CONTROLLER SET replaces both entries, or refuses a group address; FILTER WRITE replaces every field of an entry
and MASK WRITE a mask, or refuses a number out of range (R57, R58, R163). -/
def Obligations.TableWritesReplace : Prop :=
  ∀ (s : State) (t : Nat) (q : Queued) (rest : List Queued),
    (Heads s q rest 0x01 → ∀ e0 e1, e0 = itemStation q.items 1 → e1 = itemStation q.items 2 →
      ((∃ x, (e0 = some x ∨ e1 = some x) ∧ x / 2 ^ 40 % 2 = 1) →
        ∃ u, exec (.controllerSet t) s = .next u ∧ RunRefused (s.advance t) u q rest .badParameter) ∧
      ((∀ x, (e0 = some x ∨ e1 = some x) → x / 2 ^ 40 % 2 = 0) → ∃ u, exec (.controllerSet t) s = .next u ∧
        RunDone { s.advance t with controllers := ⟨e0, e1⟩ } u q rest false [])) ∧
    (Heads s q rest 0x02 → ∀ arg, arg = argument q.items →
      (¬(arg 1 ≤ 63 ∧ arg 2 ≤ 1 ∧ arg 4 ≤ 7 ∧ arg 5 ≤ 8 ∧ arg 7 ≤ 1 ∧ arg 8 ≤ 95) →
        ∃ u, exec (.filterWrite t) s = .next u ∧ RunRefused (s.advance t) u q rest .badParameter) ∧
      ((arg 1 ≤ 63 ∧ arg 2 ≤ 1 ∧ arg 4 ≤ 7 ∧ arg 5 ≤ 8 ∧ arg 7 ≤ 1 ∧ arg 8 ≤ 95) → ∃ v u,
        exec (.filterWrite t) s = .next u ∧ v.filter (arg 1) =
          ⟨arg 2 == 1, BitVec.ofNat 32 (arg 3), arg 4, arg 5, BitVec.ofNat 8 (arg 6), arg 7 == 1, arg 8⟩ ∧
        (∀ j, j ≠ arg 1 → v.filter j = s.filter j) ∧ v = { s.advance t with filters := v.filters } ∧
        RunDone v u q rest false [])) ∧
    (Heads s q rest 0x04 →
      (7 < argument q.items 1 →
        ∃ u, exec (.maskWrite t) s = .next u ∧ RunRefused (s.advance t) u q rest .badParameter) ∧
      (argument q.items 1 ≤ 7 → ∃ v u, exec (.maskWrite t) s = .next u ∧
        v.mask (argument q.items 1) = BitVec.ofNat 32 (argument q.items 2) ∧
        (∀ j, j ≠ argument q.items 1 → v.mask j = s.mask j) ∧ v = { s.advance t with masks := v.masks } ∧
        RunDone v u q rest false []))

/-- ROTATION SET sets the class's mode and, naming an auditorium, resets its order so that the named one is lowest and
the order runs on cyclically; a class, mode or auditorium out of range is refused BAD_PARAMETER and changes nothing
(R124). -/
def Obligations.RotationSetSetsModeAndOrder : Prop :=
  ∀ (s : State) (t : Nat) (q : Queued) (rest : List Queued) (named : Option Nat), Heads s q rest 0x0D →
    named = itemNat q.items 3 →
      ((3 < argument q.items 1 ∨ 1 < argument q.items 2 ∨ ∃ a, named = some a ∧ ¬(1 ≤ a ∧ a ≤ 24)) →
        ∃ u, exec (.rotationSet t) s = .next u ∧ RunRefused (s.advance t) u q rest .badParameter) ∧
      (∀ c m, egressClasses[argument q.items 1]? = some c →
        ((argument q.items 2 = 0 ∧ m = .automatic) ∨ (argument q.items 2 = 1 ∧ m = .fixed)) →
        (∀ a, named = some a → 1 ≤ a ∧ a ≤ 24) → ∃ v u, exec (.rotationSet t) s = .next u ∧
          RunDone v u q rest false [] ∧ v = { s.advance t with egress := v.egress } ∧
          v.egress = { s.egress with rotation := v.egress.rotation } ∧ (v.egress.rotation.get c).mode = m ∧
          (∀ d, d ≠ c → v.egress.rotation.get d = s.egress.rotation.get d) ∧
          (named = none → (v.egress.rotation.get c).order = (s.egress.rotation.get c).order) ∧
          ∀ a, named = some a → (v.egress.rotation.get c).order = auditoria.drop a ++ auditoria.take a)

/-- FILTER READ, CLOCK READ and HOUSE CHECK READ return their values in the items of Table 11-14 and change nothing; a
number out of range is refused, and a CLOCK READ of a CLOSING auditorium (R20, R46, R59, R161). STATUS READ,
STATISTICS READ and SUBSCRIPTION READ return the items of the scope, counters or records they name and change nothing;
any other form is refused BAD_PARAMETER (R152, R168, R172). The items of each read are then given one by one, with
their ids, widths and order: flags, links, free counts, occupancies, wire, window, controllers and queue of the part;
flags, state, tracks and bands of an auditorium; flags, binding, occupancy, pace, current cue and members of a track,
each with the summary code; the snapshot time and the counters of a scope; the 47 bytes of a record; every field of
Table 9-1; values most significant byte first, an absent one of length 0, and a RESULT that would exceed its frame cut
at a whole item (R179, section 11.3). Four clauses are the model's choice: that the command being run counts among
those queued (log entry 25), that the class of the frame in flight counts it (entry 15), that a frame which a reset
left shows the wire busy (entry 8), and that the count of a range is that of the items the RESULT carries (entry 18).
-/
def Obligations.ReadsChangeNothing : Prop :=
  (∀ (s v : State) (t : Nat) (q : Queued) (rest : List Queued) (n : Nat), v = s.advance t → n = argument q.items 1 →
    (Heads s q rest 0x03 →
      (63 < n → ∃ u, exec (.filterRead t) s = .next u ∧ RunRefused v u q rest .badParameter) ∧
      (∀ f, n ≤ 63 → f = s.filter n → ∃ u, exec (.filterRead t) s = .next u ∧ RunDone v u q rest false
        [dataItem 1 1 (if f.enabled then 1 else 0), dataItem 2 4 f.label.toNat, dataItem 3 1 f.mask, dataItem 4 1 f.bits,
          dataItem 5 1 f.selector.toNat, dataItem 6 1 (if f.continues then 1 else 0), dataItem 7 1 f.target,
          dataItem 8 4 (s.mask f.mask).toNat])) ∧
    (Heads s q rest 0x0C →
      (¬(1 ≤ n ∧ n ≤ 24) → ∃ u, exec (.clockRead t) s = .next u ∧ RunRefused v u q rest .badParameter) ∧
      (1 ≤ n → n ≤ 24 → s.lifecycle n = .closing →
        ∃ u, exec (.clockRead t) s = .next u ∧ RunRefused v u q rest .wrongState) ∧
      (∀ c, 1 ≤ n → n ≤ 24 → s.lifecycle n ≠ .closing → c = s.clock n →
        ∃ u, exec (.clockRead t) s = .next u ∧ RunDone v u q rest false
          [dataItem 1 8 v.engineTime, dataItem 2 1 (s.lifecycle n).code, dataItem 3 8 (v.showTime n),
            ⟨4, beSigned 2 c.rate⟩, ⟨5, beSigned 2 c.drift⟩, ⟨6, beSigned 2 c.correction⟩, ⟨7, beSigned 8 c.lastError⟩,
            dataItem 8 4 c.stepCount, dataOption 9 4 c.composition, dataOption 10 8 c.lastAccepted])) ∧
    (Heads s q rest 0x10 →
      (¬(1 ≤ n ∧ n ≤ 24) → ∃ u, exec (.houseCheckRead t) s = .next u ∧ RunRefused v u q rest .badParameter) ∧
      (1 ≤ n → n ≤ 24 →
        ∃ u, exec (.houseCheckRead t) s = .next u ∧ RunDone v u q rest false (s.check n).readItems))) ∧
  (∀ (s v : State) (t : Nat) (q : Queued) (rest : List Queued), v = s.advance t →
    (Heads s q rest 0x11 → ∃ u, exec (.statusRead t) s = .next u ∧
      (readScope q.items = none → RunRefused v u q rest .badParameter) ∧
      (readScope q.items = some .device → RunDone v u q rest false s.deviceStatus) ∧
      (∀ a, readScope q.items = some (.auditorium a) → RunDone v u q rest false (s.auditoriumStatus a)) ∧
      (∀ k, readScope q.items = some (.track k) → RunDone v u q rest false (s.trackStatus k))) ∧
    (Heads s q rest 0x15 → ∃ u, exec (.statisticsRead t) s = .next u ∧
      (argument q.items 1 = 3 →
        RunDone v u q rest false (s.statisticsItems ((List.range 64).map Counter.filterHits))) ∧
      (argument q.items 1 ≠ 3 → readScope q.items = none → RunRefused v u q rest .badParameter) ∧
      (argument q.items 1 ≠ 3 → readScope q.items = some .device →
        RunDone v u q rest false (s.statisticsItems (deviceCounters.map Counter.device))) ∧
      (∀ a, argument q.items 1 ≠ 3 → readScope q.items = some (.auditorium a) →
        RunDone v u q rest false (s.statisticsItems (auditoriumCounters.map (Counter.auditorium a)))) ∧
      (∀ k, argument q.items 1 ≠ 3 → readScope q.items = some (.track k) →
        RunDone v u q rest false (s.statisticsItems (trackCounters.map (Counter.track k))))) ∧
    (Heads s q rest 0x16 → ∃ u, exec (.subscriptionRead t) s = .next u ∧
      (∀ first count, itemNat q.items 1 = some first → itemNat q.items 2 = some count → itemNat q.items 3 = none →
        (first ≤ 4095 → 1 ≤ count → count ≤ 32 → RunDone v u q rest false (s.rangeItems first count)) ∧
        ((4095 < first ∨ count = 0 ∨ 32 < count) → RunRefused v u q rest .badParameter)) ∧
      (∀ h, itemNat q.items 1 = none → itemNat q.items 2 = none → itemNat q.items 3 = some h →
        (h = 0 → RunRefused v u q rest .badParameter) ∧
        (h ≠ 0 → s.findHandle h = none → RunDone v u q rest false [⟨1, []⟩, ⟨2, []⟩]) ∧
        (∀ i r, h ≠ 0 → s.findHandle h = some (i, r) → RunDone v u q rest false [dataItem 1 2 i, ⟨2, r.bytes⟩])) ∧
      (((itemNat q.items 1).isSome ≠ (itemNat q.items 2).isSome ∨
          (itemNat q.items 1).isSome = (itemNat q.items 3).isSome) → RunRefused v u q rest .badParameter))) ∧
  ((∀ (s : State), ∃ bits, FlagBits s .device 0 bits ∧ ∀ occ : EgressClass → Nat,
    occ = (fun c => (s.egress.waiting.filter fun e => e.cls = c).length +
      (if s.egress.inFlight.map Entry.cls = some c then 1 else 0)) →
    s.deviceStatus =
      [dataItem 1 2 bits, dataItem 2 1 (if s.contentUp then 0 else 1), dataItem 3 1 (if s.deliveryUp then 0 else 1),
        dataItem 4 2 (s.freeSlots .caption), dataItem 5 2 (s.freeSlots .description),
        dataItem 6 2 (s.egress.waiting.length + (if s.egress.inFlight.isSome then 1 else 0)), dataItem 7 2 (occ .audio),
        dataItem 8 2 (occ .caption), dataItem 9 2 (occ .beacon), dataItem 10 2 (occ .catchup),
        dataItem 11 1 (if s.egress.inFlight ≠ none ∨ s.egress.wireTail ≠ none then 1 else 0),
        dataItem 12 1 (if s.egress.pauseEnd ≠ none then 1 else 0), dataOption 13 6 s.controllers.entry0,
        dataOption 14 6 s.controllers.entry1, dataItem 15 1 s.queue.length] ++ s.summaryItems 16) ∧
  (∀ (s : State) (a : Nat) (au : Auditorium), au = s.auditorium a → ∃ bits, FlagBits s .auditorium a bits ∧
    s.auditoriumStatus a =
      [dataItem 1 2 bits, dataItem 2 1 au.lifecycle.code, dataItem 3 1 (s.boundTracks a).length,
        ⟨4, (s.boundTracks a).flatMap fun k => beBytes 1 k ++ beBytes 1 (((s.track k).map Track.slot).getD 0)⟩,
        dataItem 5 1 (if au.band1.enabled then 1 else 0), dataItem 6 8 au.band1.offset,
        dataItem 7 1 (if au.band2.enabled then 1 else 0), dataItem 8 8 au.band2.offset,
        dataItem 9 1 (if au.band3.enabled then 1 else 0), dataItem 10 8 au.band3.offset] ++ s.summaryItems 11) ∧
  (∀ (s : State) (k : Nat), ∃ bits head, FlagBits s .track k bits ∧
    (s.track k = none → head = [dataItem 1 2 bits, dataItem 2 1 0, ⟨3, []⟩, ⟨4, []⟩, dataItem 5 2 0, dataItem 6 1 0,
      dataItem 7 1 0]) ∧
    (∀ tr, s.track k = some tr → head = [dataItem 1 2 bits, dataItem 2 1 1,
      dataItem 3 1 (if tr.kind = .caption then 1 else 2), dataItem 4 1 tr.auditorium,
      dataItem 5 2 (if tr.kind = .caption then tr.pending.length else tr.ring.length),
      dataItem 6 1 (if tr.pace = .holding then 1 else 0), dataItem 7 1 (if tr.current ≠ none then 1 else 0)]) ∧
    s.trackStatus k = head ++ [dataItem 8 2 (s.memberCount k 0), dataItem 9 2 (s.memberCount k 1),
      dataItem 10 2 (s.memberCount k 2), dataItem 11 2 (s.memberCount k 3)] ++ s.summaryItems 12) ∧
  ∀ (s : State) (a k : Nat) (kind : TrackKind),
    ((s.boundTracks a).Pairwise (· < ·) ∧ (k ∈ s.boundTracks a ↔ k ≤ 95 ∧ s.owns a k)) ∧
    s.freeSlots kind = (if kind = .caption then 2048 else 4096) -
      ((List.range 96).map fun j => match s.track j with
        | none => 0
        | some tr => if tr.kind = kind then tr.depth else 0).sum) ∧
  ((∀ (s : State) (cs : List Counter), (s.statisticsItems cs).length = cs.length + 1 ∧
    (s.statisticsItems cs)[0]? = some (dataOption 1 8 s.snapshotTime) ∧
    ∀ j c, cs[j]? = some c → (s.statisticsItems cs)[j + 1]? = some (dataItem (j + 2) 4 (s.snapshotCount c))) ∧
  deviceCounters = [.showtimeBadAuditorium, .contentClassified, .unclaimed, .fanoutLimit, .pauseFrames, .returnMalformed,
    .leaveMiss, .reportUnknown, .reportMismatch, .accessRefused, .commandsBusy, .commandsRun, .commandsRefused,
    .resultsSent, .alertsSent, .contentBadFcs, .contentBadFrame, .deliveryBadFcs, .deliveryBadFrame] ∧
  auditoriumCounters = [.showtimeAccepted, .showtimeIgnored, .showtimeBadStatus, .showtimeForeign, .stepHandlings,
    .beaconsMade, .beaconsSkipped, .beaconsCoalesced, .entriesMade, .framesSent, .stale, .withdrawn, .evicted, .egressFull,
    .linkAbort, .joinsNew, .joinsSwitched, .joinsRestored, .joinsRefused, .leaves, .reportsAccepted, .reportDetached,
    .windowExpiries, .detachments, .holdExpiries, .recordsReleased] ∧
  trackCounters = [.copiesDelivered, .undeliverable, .kindMismatch, .cuesAccepted, .amendments, .deletions, .deleteMiss,
    .badCue, .cuesRetired, .blocksAccepted, .badBlock, .reordered, .outOfOrder, .superseded, .gapsMarked, .overflowDrops,
    .expired, .purged, .paceSent, .releases, .lateReleases, .repeats, .degradedCopies, .degradedLimit, .catchupFrames] ∧
  ∀ items : List Item, (readScope items = some .device ↔ argument items 1 = 0) ∧
    (∀ a, readScope items = some (.auditorium a) ↔
      argument items 1 = 1 ∧ itemNat items 2 = some a ∧ 1 ≤ a ∧ a ≤ 24) ∧
    (∀ k, readScope items = some (.track k) ↔ argument items 1 = 2 ∧ itemNat items 2 = some k ∧ k ≤ 95)) ∧
  ((∀ r : Subscription, r.bytes.length = 47 ∧ r.bytes =
    beBytes 6 r.handle ++ beBytes 1 r.auditorium ++ beBytes 1 r.track ++ beBytes 1 r.band.val ++
      beBytes 1 (if r.score < 64 then 0 else if r.score < 128 then 1 else if r.score < 256 then 2 else 3) ++
      beBytes 2 r.score ++ beBytes 8 r.joinTime ++ beBytes 8 (r.lastReport.getD 0) ++ beBytes 2 (r.lastSeq.getD 0) ++
      beBytes 8 (r.window.getD 0) ++ beBytes 8 (r.hold.getD 0) ++
      beBytes 1 ((if r.lastReport.isSome then 1 else 0) + (if r.lastSeq.isSome then 2 else 0) +
        (if r.window.isSome then 4 else 0) + (if r.hold.isSome then 8 else 0))) ∧
  (∀ (s : State) (first count : Nat), ∃ n, s.rangeItems first count =
      dataItem 1 1 n :: (List.range (min count (4096 - first))).map (fun j =>
        ⟨j + 2, match s.subscription (first + j) with
          | none => []
          | some r => r.bytes⟩) ∧
    (count ≤ 32 → n = ((cutItems (s.rangeItems first count)).filter fun i => 2 ≤ i.id ∧ i.id ≤ 33).length)) ∧
  ∀ c : HouseCheck, c.readItems =
    [dataItem 1 1 (if c.running then 1 else 0), dataItem 2 1 (match c.outcome with
        | .none => 0
        | .completed => 1
        | .stopped => 2
        | .aborted => 3
        | .dropped => 4),
      dataOption 3 1 c.track, dataOption 4 1 (c.mode.map fun m => match m with
        | .fixed => 1
        | .counter => 2
        | .regionSweep => 3
        | .pattern => 4),
      ⟨5, c.text.getD []⟩, dataOption 6 1 (c.pattern.map BitVec.toNat), dataOption 7 2 c.count, dataOption 8 4 c.interval,
      dataOption 9 4 c.duration, dataOption 10 4 c.next, dataOption 11 8 c.deadline, dataOption 12 8 c.previousTp,
      dataItem 13 4 c.items, dataItem 14 4 c.reports, dataItem 15 4 c.missed, dataItem 16 2 c.devices,
      dataItem 17 2 c.highest]) ∧
  (∀ w v, (beBytes w v).length = w ∧ beNat (beBytes w v) = v % 256 ^ w) ∧
  (∀ (b : Byte) (bs : List Byte), beNat (b :: bs) = b.toNat * 256 ^ bs.length + beNat bs) ∧ beNat [] = 0 ∧
  (∀ (w : Nat) (i : Int), (beSigned w i).length = w ∧ (beNat (beSigned w i) : Int) = i % (256 ^ w : Nat)) ∧
  (∀ id w v, dataItem id w v = ⟨id, beBytes w v⟩) ∧ (∀ id w, dataOption id w none = ⟨id, []⟩) ∧
  (∀ id w v, dataOption id w (some v) = dataItem id w v) ∧
  (∀ l : Lifecycle, [Lifecycle.dark, .preparing, .ready, .running, .paused, .holdover, .lost, .test, .closing][l.code]? =
    some l) ∧
  ∀ items : List Item, ((items.map fun i => 2 + i.value.length).sum ≤ 1483 → cutItems items = items) ∧
    (1483 < (items.map fun i => 2 + i.value.length).sum → ∃ kept rest, items = kept ++ rest ∧
      cutItems items = kept ++ [⟨255, []⟩] ∧ (kept.map fun i => 2 + i.value.length).sum ≤ 1481 ∧
      ∀ i ∈ rest.head?, 1481 < (kept.map fun i => 2 + i.value.length).sum + (2 + i.value.length))

/-- The parameters of Table 1-1 after a command: one carried is held to its range, one not carried stands, and the
lost time is raised to the holdover time that stands after the command; CLAMPED tells that a value was moved (R1 to
R3, R5, R166). -/
def Obligations.ParametersAreHeld : Prop :=
  ∀ (items : List Item) (p r : Params) (clamped : Bool) (given : Nat → Nat → Nat), readParams items p = (r, clamped) →
    (given = fun id standing => (itemNat items id).getD standing) →
      r.source = given 2 p.source ∧
      (∀ v, itemNat items 3 = some v → r.transit = min 20000 v) ∧
      (∀ v, itemNat items 4 = some v → r.stepThreshold = max 20000 (min 2000000 v)) ∧
      (∀ v, itemNat items 5 = some v → r.holdover = max 500 (min 10000 v)) ∧
      (∀ v, itemNat items 6 = some v → r.lost = max r.holdover (min 120000 v)) ∧
      (∀ v, itemNat items 7 = some v → r.minDisplay = min 2000 v) ∧
      (∀ v, itemNat items 8 = some v → r.memberLimit = max 1 (min 1024 v)) ∧
      (∀ v, itemNat items 9 = some v → r.beaconInterval = max 100 (min 2000 v)) ∧
      (∀ v, itemNat items 10 = some v → r.reportPeriod = max 1 (min 30 v)) ∧
      (∀ v, itemNat items 11 = some v → r.staleAllowance = min 2000 v) ∧
      (itemNat items 3 = none → r.transit = p.transit) ∧
        (itemNat items 4 = none → r.stepThreshold = p.stepThreshold) ∧
      (itemNat items 5 = none → r.holdover = p.holdover) ∧ (itemNat items 6 = none → r.lost = max r.holdover p.lost) ∧
      (itemNat items 7 = none → r.minDisplay = p.minDisplay) ∧
        (itemNat items 8 = none → r.memberLimit = p.memberLimit) ∧
      (itemNat items 9 = none → r.beaconInterval = p.beaconInterval) ∧
      (itemNat items 10 = none → r.reportPeriod = p.reportPeriod) ∧
      (itemNat items 11 = none → r.staleAllowance = p.staleAllowance) ∧
      (p.holdover ≤ 10000 → (clamped = true ↔ ¬(r.transit = given 3 p.transit ∧
        r.stepThreshold = given 4 p.stepThreshold ∧
        r.holdover = given 5 p.holdover ∧ r.lost = given 6 p.lost ∧ r.minDisplay = given 7 p.minDisplay ∧
        r.memberLimit = given 8 p.memberLimit ∧ r.beaconInterval = given 9 p.beaconInterval ∧
        r.reportPeriod = given 10 p.reportPeriod ∧ r.staleAllowance = given 11 p.staleAllowance)))

/-- AUDITORIUM OPEN takes a DARK auditorium to PREPARING with the parameters carried over the defaults, bands 1 to 3
off at their default offsets, its clock record and house-check context cleared (R5); any other state is refused.
AUDITORIUM SET replaces the parameters carried, measures the watch deadlines that are present anew from the last
accepted SHOWTIME, and takes at once an expiry that has thereby been reached (R2, R3, R41; taking it within the
command, and one already due even where neither time changes, is log entry 9); DARK and CLOSING are refused. -/
def Obligations.AuditoriumOpensAndRetunes : Prop :=
  (∀ (s : State) (t : Nat) (q : Queued) (rest : List Queued) (a : Nat), Heads s q rest 0x05 → a = argument q.items 1 →
    (¬(1 ≤ a ∧ a ≤ 24) →
      ∃ u, exec (.auditoriumOpen t) s = .next u ∧ RunRefused (s.advance t) u q rest .badParameter) ∧
    (1 ≤ a → a ≤ 24 → s.lifecycle a ≠ .dark →
      ∃ u, exec (.auditoriumOpen t) s = .next u ∧ RunRefused (s.advance t) u q rest .wrongState) ∧
    (∀ p c, 1 ≤ a → a ≤ 24 → s.lifecycle a = .dark → readParams q.items Params.default = (p, c) → ∃ v u,
      exec (.auditoriumOpen t) s = .next u ∧ RunDone v u q rest c [] ∧
      v.auditorium a = ⟨.preparing, p, ⟨false, 40000⟩, ⟨false, 120000⟩, ⟨false, 250000⟩, none⟩ ∧
      v.clock a = Clock.initial ∧ v.check a = HouseCheck.initial ∧ OtherShows a s v ∧
      v = { s.advance t with auditoriums := v.auditoriums, clocks := v.clocks, checks := v.checks })) ∧
  ∀ (s : State) (t : Nat) (q : Queued) (rest : List Queued) (a : Nat), Heads s q rest 0x06 → a = argument q.items 1 →
    (¬(1 ≤ a ∧ a ≤ 24) →
      ∃ u, exec (.auditoriumSet t) s = .next u ∧ RunRefused (s.advance t) u q rest .badParameter) ∧
    (1 ≤ a → a ≤ 24 → (s.lifecycle a = .dark ∨ s.lifecycle a = .closing) →
      ∃ u, exec (.auditoriumSet t) s = .next u ∧ RunRefused (s.advance t) u q rest .wrongState) ∧
    (∀ p c, 1 ≤ a → a ≤ 24 → s.lifecycle a ≠ .dark → s.lifecycle a ≠ .closing →
      readParams q.items (s.auditorium a).params = (p, c) → ∃ v w x u, exec (.auditoriumSet t) s = .next u ∧
        v.auditorium a = { s.auditorium a with params := p } ∧ OtherShows a s v ∧
        v.clock a = { s.clock a with
          holdoverDeadline := (v.clock a).holdoverDeadline, lostDeadline := (v.clock a).lostDeadline } ∧
        ((s.clock a).holdoverDeadline = none → (v.clock a).holdoverDeadline = none) ∧
        ((s.clock a).lostDeadline = none → (v.clock a).lostDeadline = none) ∧
        (∀ e d, (s.clock a).lastAccepted = some e → (s.clock a).holdoverDeadline = some d →
          (v.clock a).holdoverDeadline = some (e + p.holdover * 1000)) ∧
        (∀ e d, (s.clock a).lastAccepted = some e → (s.clock a).lostDeadline = some d →
          (v.clock a).lostDeadline = some (e + p.lost * 1000)) ∧
        v = { s.advance t with auditoriums := v.auditoriums, clocks := v.clocks } ∧
        exec (.holdoverExpiry t a) v = .next w ∧ exec (.lostExpiry t a) w = .next x ∧ RunDone x u q rest c [])

/-- AUDITORIUM CLOSE tears the auditorium down: CLOSING with its RESULT owed, watches and beacon cancelled, every
waiting entry withdrawn and counted WITHDRAWN, a running check DROPPED, its tracks FREE with their content counted
PURGED, its records freed and counted RECORDS_RELEASED, and no other count moved; then SHOW ENDED is offered. Where
the pool refuses it, EGRESS_FULL is counted and set, the auditorium is DARK at once and its RESULT is sent, and
nothing else changes. The run ends without a RESULT of its own (R17 to R19, R68, R151). -/
def Obligations.AuditoriumCloses : Prop :=
  ∀ (s : State) (t : Nat) (q : Queued) (rest : List Queued) (a : Nat), Heads s q rest 0x07 → a = argument q.items 1 →
    (¬(1 ≤ a ∧ a ≤ 24) →
      ∃ u, exec (.auditoriumClose t) s = .next u ∧ RunRefused (s.advance t) u q rest .badParameter) ∧
    (1 ≤ a → a ≤ 24 → (s.lifecycle a = .dark ∨ s.lifecycle a = .closing) →
      ∃ u, exec (.auditoriumClose t) s = .next u ∧ RunRefused (s.advance t) u q rest .wrongState) ∧
    (∀ ended, 1 ≤ a → a ≤ 24 → s.lifecycle a ≠ .dark → s.lifecycle a ≠ .closing → s.PatronsCounted →
      ended = madeEntry ⟨.group (a * 64 + 32), none, .showEnded a⟩ .caption a none none → ∃ v w x u,
        exec (.auditoriumClose t) s = .next u ∧
        v.auditorium a = { s.auditorium a with lifecycle := .closing, owed := some ⟨q.tag, q.station⟩ } ∧
        v.clock a = { s.clock a with holdoverDeadline := none, lostDeadline := none } ∧ v.beacon a = none ∧
        ((s.check a).running = false → v.check a = s.check a) ∧
        ((s.check a).running = true → (v.check a).running = false ∧ (v.check a).outcome = .dropped ∧
          ∀ k, (s.check a).track = some k → (v.check a).devices = (bands.map (s.memberCount k)).sum ∧
            (v.check a).highest = s.highestScore k) ∧
        v.egress = { s.egress with waiting := s.egress.waiting.filter fun e => e.auditorium != a } ∧
        (∀ k, k ∈ s.boundTracks a → v.track k = none ∧ ∀ b, v.memberCount k b = 0) ∧
        (∀ k, k ∉ s.boundTracks a → v.track k = s.track k ∧ ∀ b, v.memberCount k b = s.memberCount k b) ∧
        (∀ i r, s.subscription i = some r → v.subscription i = if r.auditorium = a then none else some r) ∧
        (∀ i, s.subscription i = none → v.subscription i = none) ∧ OtherShows a s v ∧
        v = { s.advance t with
          auditoriums := v.auditoriums, clocks := v.clocks, beacons := v.beacons, checks := v.checks, egress := v.egress
          tracks := v.tracks, subscriptions := v.subscriptions, members := v.members, live := v.live } ∧
        SameCounts s v ([.auditorium a .withdrawn, .auditorium a .recordsReleased] ++
          (s.boundTracks a).map fun k => .track k .purged) ∧
        (s.CountersBounded →
          v.count (.auditorium a .withdrawn) = min counterMax (s.count (.auditorium a .withdrawn) +
            (s.egress.waiting.filter fun e => e.auditorium == a).length) ∧
          v.count (.auditorium a .recordsReleased) = min counterMax (s.count (.auditorium a .recordsReleased) +
            (s.records.filter fun e => e.2.auditorium == a).length) ∧
          ∀ k ∈ s.boundTracks a, ∀ tr, s.track k = some tr → v.count (.track k .purged) =
            min counterMax (s.count (.track k .purged) + tr.pending.length + tr.ring.length +
              if tr.current.isSome then 1 else 0)) ∧
        ((v.egress.occupancy < 1024 ∨ ∃ y ∈ v.egress.waiting, y.cls = .catchup ∨ y.cls = .beacon) →
          w = v.offer ended) ∧
        (1024 ≤ v.egress.occupancy → (∀ y ∈ v.egress.waiting, y.cls ≠ .catchup ∧ y.cls ≠ .beacon) →
          w.auditorium a = { s.auditorium a with lifecycle := .dark, owed := none } ∧
          w.flagSet ⟨.egressFull, 0⟩ = true ∧ (s.contentUp = true →
            w.contentOut.getLast? = some (.result q.station q.tag 0x07 (.done false) (max s.engineTime t) [])) ∧
          (∀ j, j ≠ a → w.auditorium j = s.auditorium j) ∧ ∃ y z z', Counted v y (.auditorium a .egressFull) ∧
            Flagged ⟨.egressFull, 0⟩ y z ∧ z' = { z with auditoriums := w.auditoriums } ∧
            (s.contentUp = false → w = z') ∧
            (s.contentUp = true → Counted { z' with contentOut := z.contentOut ++
              [.result q.station q.tag 0x07 (.done false) (max s.engineTime t) []] } w (.device .resultsSent))) ∧
        Counted w x (.device .commandsRun) ∧ u = { x with queue := rest })

/-- BAND SET writes the enable and offset of a band 1 to 3, the offset held to 500,000; it is refused for other
numbers, in DARK and CLOSING, and BUSY while the band has members. A band newly enabled where show time advances has
its passed instants taken at once (R22, R23, R107). That a band newly enabled has the passed instants of every band of
the auditorium's records taken, and not its own alone, is the model's choice (log entry 10), and so are that they are
taken record by record (log entry 34) and that a changed offset of an enabled band takes none (log entry 38). -/
def Obligations.BandSetChangesBand : Prop :=
  ∀ (s : State) (t : Nat) (q : Queued) (rest : List Queued) (a n on : Nat), Heads s q rest 0x08 →
    a = argument q.items 1 →
    n = argument q.items 2 → on = argument q.items 3 →
      ((¬(1 ≤ a ∧ a ≤ 24) ∨ n = 0 ∨ 3 < n ∨ 1 < on) →
        ∃ u, exec (.bandSet t) s = .next u ∧ RunRefused (s.advance t) u q rest .badParameter) ∧
      ((1 ≤ a ∧ a ≤ 24) → on ≤ 1 → ∀ b : Band, b ≠ 0 → b.val = n →
        ((s.lifecycle a = .dark ∨ s.lifecycle a = .closing) →
          ∃ u, exec (.bandSet t) s = .next u ∧ RunRefused (s.advance t) u q rest .wrongState) ∧
        (s.lifecycle a ≠ .dark → s.lifecycle a ≠ .closing →
          ((∃ k ∈ s.boundTracks a, s.memberCount k b ≠ 0) →
            ∃ u, exec (.bandSet t) s = .next u ∧ RunRefused (s.advance t) u q rest .busy) ∧
          (∀ old, (∀ k ∈ s.boundTracks a, s.memberCount k b = 0) → old = (s.auditorium a).band b → ∃ v w u clamped,
            exec (.bandSet t) s = .next u ∧ RunDone (w.completeCheck a) u q rest clamped [] ∧
            (itemNat q.items 4 = none → (v.auditorium a).band b = ⟨on == 1, old.offset⟩ ∧ clamped = false) ∧
            (∀ o, itemNat q.items 4 = some o →
              (v.auditorium a).band b = ⟨on == 1, min 500000 o⟩ ∧ (clamped = true ↔ 500000 < o)) ∧
            (∀ c, c ≠ b → (v.auditorium a).band c = (s.auditorium a).band c) ∧
            v.lifecycle a = s.lifecycle a ∧ (v.auditorium a).params = (s.auditorium a).params ∧
            (v.auditorium a).owed = (s.auditorium a).owed ∧ (∀ j, j ≠ a → v.auditorium j = s.auditorium j) ∧
            v = { s.advance t with auditoriums := v.auditoriums } ∧
            ((on = 1 ∧ old.enabled = false ∧ (s.lifecycle a).advancing = true) →
              w = (s.boundTracks a).foldl (fun x k => x.takePassedTrack k (v.showTime a) true) v ∧ SameShows v w) ∧
            (¬(on = 1 ∧ old.enabled = false ∧ (s.lifecycle a).advancing = true) → w = v))))

/-- TRACK BIND judges its command in the order of R64, then binds the lowest FREE track to the lowest free slot,
empty, OPEN, its sequence numbers at 0, and takes PREPARING to READY (R64, R65, R7). It is CLAMPED just when a lead or
high mark was held or the low mark stood at or above the high mark; that a default low mark lowered under a carried
high mark makes it so too is the reading of log entry 33. -/
def Obligations.TrackBinds : Prop :=
  ∀ (s v : State) (t : Nat) (q : Queued) (rest : List Queued) (a depth : Nat) (arg : Nat → Nat),
    Heads s q rest 0x09 → arg = argument q.items → a = arg 1 → depth = arg 5 → v = s.advance t →
      ∃ u, exec (.trackBind t) s = .next u ∧
        (¬(1 ≤ a ∧ a ≤ 24 ∧ arg 3 ≤ 1023 ∧ arg 4 ≤ 63 ∧
            ((arg 2 = 1 ∧ depth ∈ [8, 16, 32, 64]) ∨ (arg 2 = 2 ∧ depth ∈ [32, 64, 128, 256]))) →
          RunRefused v u q rest .badParameter) ∧
        (∀ kind, 1 ≤ a → a ≤ 24 → arg 3 ≤ 1023 → arg 4 ≤ 63 →
          ((arg 2 = 1 ∧ kind = .caption ∧ depth ∈ [8, 16, 32, 64]) ∨
            (arg 2 = 2 ∧ kind = .description ∧ depth ∈ [32, 64, 128, 256])) →
          (s.lifecycle a ∉ [.preparing, .ready, .paused] → RunRefused v u q rest .wrongState) ∧
          (s.lifecycle a ∈ [.preparing, .ready, .paused] →
            (((∀ k, k ≤ 95 → s.track k ≠ none) ∨ (∀ i, i ≤ 7 → i ∈ s.slots a)) → RunRefused v u q rest .noTrack) ∧
            (∀ k slot, k ≤ 95 → s.track k = none → (∀ j, j < k → s.track j ≠ none) → slot ≤ 7 → slot ∉ s.slots a →
              (∀ i, i < slot → i ∈ s.slots a) →
              (s.freeSlots kind < depth → OnlyEnds v u ∧ RunEnded v u q rest v.engineTime (.refused .noSpace)
                [dataItem 1 2 (s.freeSlots .caption), dataItem 2 2 (s.freeSlots .description)]) ∧
              (depth ≤ s.freeSlots kind → ∃ w tr clamped, RunDone w u q rest clamped
                  [dataItem 1 1 k, dataItem 2 1 slot, dataItem 3 8 tr.lead, dataItem 4 2 tr.high, dataItem 5 2 tr.low] ∧
                w.track k = some tr ∧ (∀ j, j ≠ k → w.track j = s.track j) ∧
                tr = ⟨kind, a, slot, arg 3, arg 4, depth, tr.lead, tr.high, tr.low, .opened, none, [], none, [], none⟩ ∧
                tr.lead = (min 2000000 ((itemNat q.items 6).getD (if kind = .caption then 300000 else 150000))) ∧
                tr.high = (max 1 (min depth ((itemNat q.items 7).getD ((3 * depth + 3) / 4)))) ∧
                tr.low = (min (tr.high - 1) ((itemNat q.items 8).getD (depth / 4))) ∧
                (clamped = true ↔ 2000000 < (itemNat q.items 6).getD 0 ∨
                  (∃ h, itemNat q.items 7 = some h ∧ (h = 0 ∨ depth < h)) ∨
                    tr.high ≤ (itemNat q.items 8).getD (depth / 4)) ∧
                (∀ b, w.nextSeq k b = 0) ∧ (∀ j b, j ≠ k → w.nextSeq j b = s.nextSeq j b) ∧
                w.auditorium a = { s.auditorium a with
                  lifecycle := if s.lifecycle a = .preparing then .ready else s.lifecycle a } ∧
                (∀ j, j ≠ a → w.auditorium j = s.auditorium j) ∧
                w = { v with tracks := w.tracks, sequences := w.sequences, auditoriums := w.auditoriums }))))

/-- TRACK SET changes the lead and marks it carries, held as at a bind; instants that a new lead puts in the past are
taken at once where show time advances, both marks are compared with the occupancy, and a check whose last item this
took completes; a FREE track and one of a CLOSING auditorium are refused (R66, R80; their order is log entry 11). That
the instants of several records are taken record by record is the model's choice (log entry 34); so is that those of a
description check are taken as ordinary releases, where R158 names the late rule (log entry 14). The RESULT is CLAMPED
just when a lead or high mark was held or the low mark stood at or above the high mark. -/
def Obligations.TrackSetRetunes : Prop :=
  ∀ (s : State) (t : Nat) (q : Queued) (rest : List Queued) (k : Nat), Heads s q rest 0x0A → k = argument q.items 1 →
    (95 < k → ∃ u, exec (.trackSet t) s = .next u ∧ RunRefused (s.advance t) u q rest .badParameter) ∧
    (k ≤ 95 → (∀ tr, s.track k = some tr → s.lifecycle tr.auditorium = .closing) →
      ∃ u, exec (.trackSet t) s = .next u ∧ RunRefused (s.advance t) u q rest .wrongState) ∧
    (∀ tr tr', k ≤ 95 → s.track k = some tr → s.lifecycle tr.auditorium ≠ .closing →
      tr' = { tr with
        lead := (if (itemNat q.items 2).isSome then min 2000000 (argument q.items 2) else tr.lead)
        high := (if (itemNat q.items 3).isSome then max 1 (min tr.depth (argument q.items 3)) else tr.high)
        low := tr'.low } →
      tr'.low = (if tr'.high ≤ (itemNat q.items 4).getD tr.low then tr'.high - 1 else (itemNat q.items 4).getD tr.low) →
      ∃ v w u clamped, exec (.trackSet t) s = .next u ∧ TrackBecomes k tr' (s.advance t) v ∧
        (clamped = true ↔ 2000000 < (itemNat q.items 2).getD 0 ∨
          (∃ h, itemNat q.items 3 = some h ∧ (h = 0 ∨ tr.depth < h)) ∨
            tr'.high ≤ (itemNat q.items 4).getD tr.low) ∧
        (((itemNat q.items 2).isSome = true ∧ (s.lifecycle tr.auditorium).advancing = true) →
          w = v.takePassedTrack k (v.showTime tr.auditorium) true ∧ WithinTrack k v w) ∧
        (¬((itemNat q.items 2).isSome = true ∧ (s.lifecycle tr.auditorium).advancing = true) → w = v) ∧
        RunDone (((w.paceUp k).paceDown k).completeCheck tr.auditorium) u q rest clamped [])

/-- TRACK UNBIND is refused BAD_PARAMETER for a track outside 0 to 95 and WRONG_STATE for a FREE track or one whose
auditorium is in a state other than READY or PAUSED, and then changes nothing (R67). -/
def Obligations.TrackUnbindRefusals : Prop :=
  ∀ (s : State) (t : Nat) (q : Queued) (rest : List Queued) (k : Nat), Heads s q rest 0x0B → k = argument q.items 1 →
    (95 < k → ∃ u, exec (.trackUnbind t) s = .next u ∧ RunRefused (s.advance t) u q rest .badParameter) ∧
    (k ≤ 95 → s.track k = none → ∃ u, exec (.trackUnbind t) s = .next u ∧
      RunRefused (s.advance t) u q rest .wrongState) ∧
    (∀ tr, k ≤ 95 → s.track k = some tr → s.lifecycle tr.auditorium ≠ .ready → s.lifecycle tr.auditorium ≠ .paused →
      ∃ u, exec (.trackUnbind t) s = .next u ∧ RunRefused (s.advance t) u q rest .wrongState)

/-- A TRACK UNBIND that is taken withdraws the track's waiting entries, makes a TRACK ENDED with its language and
variant to each populated band in CAPTION class without a deadline, in increasing band number, discards its content,
counted PURGED, frees its records, counted RECORDS_RELEASED, and the context; the last one of a READY auditorium
leaves it PREPARING (R68, R7, R102, R151). That its sequence numbers stand as the frames left them is the model's
choice (log entry 32). -/
def Obligations.TrackUnbindFrees : Prop :=
  ∀ (s : State) (t : Nat) (q : Queued) (rest : List Queued) (k : Nat) (tr : Track) (a : Nat), Heads s q rest 0x0B →
    k = argument q.items 1 → k ≤ 95 → s.track k = some tr → a = tr.auditorium → s.PatronsCounted → s.CountersBounded →
    (s.lifecycle a = .ready ∨ s.lifecycle a = .paused) → ∃ v u, exec (.trackUnbind t) s = .next u ∧
      RunDone v u q rest false [] ∧ v.track k = none ∧ (∀ j, j ≠ k → v.track j = s.track j) ∧
      (∀ b, v.memberCount k b = 0) ∧ (∀ j b, j ≠ k → v.memberCount j b = s.memberCount j b) ∧
      (∀ i r, s.subscription i = some r → v.subscription i = if r.track = k then none else some r) ∧
      (∀ i, s.subscription i = none → v.subscription i = none) ∧ OneFrameEach k (s.hears k tr) s v ∧
      (∃ x y, x = { s.advance t with egress := x.egress, live := x.live } ∧
        x.egress = { s.egress with waiting := s.egress.waiting.filter fun e => e.track != some k } ∧
        SentEach k tr (s.hears k tr) .caption (.trackEnded k tr.language tr.variant) none x y ∧
        v.egress = y.egress ∧ v.sequences = y.sequences ∧ v.flags = y.flags ∧ v.contentOut = y.contentOut) ∧
      (∀ e ∈ v.egress.waiting, e.track = some k → s.egress.nextOrder ≤ e.order) ∧
      v.count (.track k .purged) = min counterMax (s.count (.track k .purged) + tr.pending.length + tr.ring.length +
        if tr.current.isSome then 1 else 0) ∧
      v.count (.auditorium a .recordsReleased) = min counterMax (s.count (.auditorium a .recordsReleased) +
        (s.records.filter fun e => e.2.track == k).length) ∧
      (∀ j, j ≠ a → v.auditorium j = s.auditorium j ∧ v.beacon j = s.beacon j) ∧
      (s.lifecycle a = .ready → (∀ j ∈ s.boundTracks a, j = k) →
        v.auditorium a = { s.auditorium a with lifecycle := .preparing }) ∧
      ((s.lifecycle a = .paused ∨ ∃ j ∈ s.boundTracks a, j ≠ k) → v.auditorium a = s.auditorium a) ∧
      v.clocks = s.clocks ∧ v.checks = s.checks ∧ SameClassifier s v ∧ SamePorts s v ∧ v.queue = s.queue ∧
      v.controllers = s.controllers ∧ v.deliveryOut = s.deliveryOut ∧ v.engineTime = max s.engineTime t

/-- STATUS CLEAR clears the named flags of its scope's instance, or of every instance for ALL, and returns the summary
code that is left; ALERT ENABLE writes the enables of the named flags (R168 to R170). STATISTICS SNAPSHOT copies every
live counter into the snapshot with the engine time, which it returns, and with the clear option zeroes them all; that
its own run is counted after it is the model's choice (R171; log entry 13). The summary code is the rank of the
highest-ranked set flag with its scope and its lowest instance (R168, Table 10-3); with no flag set the code is 0, and
what stands in its scope and instance is a free value (log entry 36). A setting event sets its flag alone and makes
the ALERT of one that was clear (R167, R170); a flag set is the list of flags whose ranks its items carry, none empty
(R169, R170, R177). -/
def Obligations.FlagsEnablesAndSnapshot : Prop :=
  (∀ (s v : State) (t : Nat) (q : Queued) (rest : List Queued), v = s.advance t →
    (Heads s q rest 0x12 → ∃ u, exec (.statusClear t) s = .next u ∧
      (readFlags q.items 3 = none → RunRefused v u q rest .badParameter) ∧
      (∀ names, readFlags q.items 3 = some names →
        (argument q.items 1 = 3 → ∃ w, RunDone w u q rest false (w.summaryItems 1) ∧ w = { v with flags := w.flags } ∧
          ∀ f, w.flagSet f = (s.flagSet f && !(decide (f.name ∈ names) && decide (f.inst ∈ f.name.scope.instances)))) ∧
        (argument q.items 1 ≠ 3 → readScope q.items = none → RunRefused v u q rest .badParameter) ∧
        (∀ sc, argument q.items 1 ≠ 3 → readScope q.items = some sc →
          ((∃ n ∈ names, n.scope ≠ sc.scope) → RunRefused v u q rest .badParameter) ∧
          ((∀ n ∈ names, n.scope = sc.scope) → ∃ w, RunDone w u q rest false (w.summaryItems 1) ∧
            w = { v with flags := w.flags } ∧ ∀ f, w.flagSet f = (s.flagSet f && !decide (f ∈ sc.flags names)))))) ∧
    (Heads s q rest 0x13 → ∃ u, exec (.alertEnable t) s = .next u ∧
      ((1 < argument q.items 1 ∨ readFlags q.items 2 = none) → RunRefused v u q rest .badParameter) ∧
      (∀ names, argument q.items 1 ≤ 1 → readFlags q.items 2 = some names → ∃ w, RunDone w u q rest false [] ∧
        w = { v with alertEnables := w.alertEnables } ∧
        ∀ n, w.alertEnabled n = if n ∈ names then argument q.items 1 == 1 else s.alertEnabled n))) ∧
  (∀ (s v : State) (t : Nat) (q : Queued) (rest : List Queued) (option : Nat), v = s.advance t →
    Heads s q rest 0x14 → option = (itemNat q.items 1).getD 0 → ∃ u, exec (.statisticsSnapshot t) s = .next u ∧
      (1 < option → RunRefused v u q rest .badParameter) ∧
      (option ≤ 1 → ∃ w, RunDone w u q rest false [dataItem 1 8 v.engineTime] ∧
        (∀ c, w.snapshotCount c = s.count c) ∧ w.snapshotTime = some v.engineTime ∧
        (option = 1 → ∀ c, w.count c = 0) ∧ (option = 0 → w.live = s.live) ∧
        w = { v with snapshot := w.snapshot, snapshotTime := w.snapshotTime, live := w.live })) ∧
  (∀ (s : State) (id : Nat),
    ((∀ f : Flag, f.Exists → s.flagSet f = false) → s.summaryItems id =
      [dataItem id 1 0, dataItem (id + 1) 1 Config.noFlagScope, dataItem (id + 2) 1 Config.noFlagInstance]) ∧
    (∀ (f : Flag) (r : Nat) (sc : Scope), f.Exists → s.flagSet f = true → (f.name, r, sc) ∈ flagTable →
      (∀ g : Flag, g.Exists → s.flagSet g = true → g.name.rank < r ∨ (g.name = f.name ∧ f.inst ≤ g.inst)) →
        s.summaryItems id = [dataItem id 1 r, dataItem (id + 1) 1 (match sc with
          | .device => 0
          | .auditorium => 1
          | .track => 2), dataItem (id + 2) 1 f.inst])) ∧
  (∀ (n : FlagName) (r : Nat) (sc : Scope), (n, r, sc) ∈ flagTable ↔ n.rank = r ∧ n.scope = sc) ∧
  (∀ (s : State) (n : FlagName) (i : Nat), Flagged ⟨n, i⟩ s (s.setFlag n i)) ∧
  ∀ (items : List Item) (id : Nat) (names : List FlagName), readFlags items id = some names ↔
    names ≠ [] ∧ names.map FlagName.rank = (items.filter fun i => i.id = id).map fun i => beNat i.value

/-! ### What every step keeps -/

/-- Every step keeps the pool, the queue, the counters, the lists and rings within their bounds, each rotation a
ranking of the auditoria 1 to 24, and every filter field in its range (R47, R70, R85, R119, R123, R164, R171). -/
def Obligations.BoundsAreKept : Prop :=
  ∀ (s t : State), step s = .next t →
    (s.PoolBounded → t.PoolBounded) ∧ (s.QueueBounded → t.QueueBounded) ∧
      (s.egress.rotation.Ranked → t.egress.rotation.Ranked) ∧ (s.CountersBounded → t.CountersBounded) ∧
        (s.FiltersInRange → t.FiltersInRange) ∧ (s.TracksFit → t.TracksFit)

/-- Every step keeps the Subscription Table and the member counts in agreement: one record a handle, every record
timed by its score and bound to a track of its auditorium, and each member count the number of its records (R134,
R135, R146 to R148). -/
def Obligations.PatronsStayCounted : Prop :=
  ∀ (s t : State), step s = .next t → s.PatronsCounted → t.PatronsCounted

/-- Only STATUS CLEAR, a reset and power-on clear a flag; only their commands and power-on change the controller list,
the Filter and Mask Tables and, with ALERT ENABLE and a reset, the enables; and a binding stands, but for the TRACK
SET that names its track, until the TRACK UNBIND that names its track, the AUDITORIUM CLOSE that names its auditorium,
a reset or power-on, and a FREE track is bound by TRACK BIND alone (R18, R47, R48, R62, R65, R66, R162, R167, R170,
R173, R174). And every row of the table completes, FRAME_DISCARDED and the six reads among them: from every state its
meaning answers a next state, because the manual gives each frame, command and event an effect, a count or a refusal
RESULT (R29, R136, R165, R173, R176). -/
def Obligations.OnlyTheirStepsChange : Prop :=
  (∀ (s t : State) (i : Instr), exec i s = .next t → i ≠ .powerOn →
    ((∀ e, i ≠ .statusClear e ∧ i ≠ .engineReset e ∧ i ≠ .resetCompletion e) →
      ∀ f, s.flagSet f = true → t.flagSet f = true) ∧
    ((∀ e, i ≠ .controllerSet e) → t.controllers = s.controllers) ∧
    ((∀ e, i ≠ .filterWrite e) → t.filters = s.filters) ∧ ((∀ e, i ≠ .maskWrite e) → t.masks = s.masks) ∧
    ((∀ e, i ≠ .alertEnable e ∧ i ≠ .engineReset e ∧ i ≠ .resetCompletion e) → t.alertEnables = s.alertEnables) ∧
    ((∀ e, i ≠ .trackSet e ∧ i ≠ .trackBind e ∧ i ≠ .trackUnbind e ∧ i ≠ .auditoriumClose e ∧ i ≠ .engineReset e ∧
      i ≠ .resetCompletion e) → BindingsStand s t) ∧
    (∀ e k, (i = .trackSet e ∨ i = .trackUnbind e) → (∀ q, s.queue.head? = some q → k ≠ argument q.items 1) →
      (t.track k).map Track.binding = (s.track k).map Track.binding) ∧
    (∀ e k tr, i = .auditoriumClose e → s.track k = some tr →
      (∀ q, s.queue.head? = some q → tr.auditorium ≠ argument q.items 1) →
        (t.track k).map Track.binding = some tr.binding) ∧
    (∀ e k tr, i = .trackBind e → s.track k = some tr → (t.track k).map Track.binding = some tr.binding) ∧
    ((∀ e, i ≠ .trackBind e) → ∀ k, s.track k = none → t.track k = none)) ∧
  ∀ (i : Instr) (s : State), ∃ t, exec i s = .next t

/-- The state after reset keeps every bound, and its tables agree. -/
def Obligations.ResetKeepsBounds : Prop :=
  State.reset.PoolBounded ∧ State.reset.QueueBounded ∧ State.reset.egress.rotation.Ranked ∧
    State.reset.CountersBounded ∧ State.reset.FiltersInRange ∧ State.reset.TracksFit ∧ State.reset.PatronsCounted
end

