-- ==== Sys2Proof/Laws/State.lean ====
section
/-! SUPPORT. One lemma per field of State per update, each true by rfl, so that no proof unfolds a record update. -/

namespace Sys2Proof.Machine

@[simp] theorem State.advance_engineTime (s : State) (t : Nat) : (s.advance t).engineTime = max s.engineTime t := rfl
@[simp] theorem State.advance_resetting (s : State) (t : Nat) : (s.advance t).resetting = s.resetting := rfl
@[simp] theorem State.advance_contentUp (s : State) (t : Nat) : (s.advance t).contentUp = s.contentUp := rfl
@[simp] theorem State.advance_deliveryUp (s : State) (t : Nat) : (s.advance t).deliveryUp = s.deliveryUp := rfl
@[simp] theorem State.advance_auditoriums (s : State) (t : Nat) : (s.advance t).auditoriums = s.auditoriums := rfl
@[simp] theorem State.advance_clocks (s : State) (t : Nat) : (s.advance t).clocks = s.clocks := rfl
@[simp] theorem State.advance_checks (s : State) (t : Nat) : (s.advance t).checks = s.checks := rfl
@[simp] theorem State.advance_beacons (s : State) (t : Nat) : (s.advance t).beacons = s.beacons := rfl
@[simp] theorem State.advance_filters (s : State) (t : Nat) : (s.advance t).filters = s.filters := rfl
@[simp] theorem State.advance_masks (s : State) (t : Nat) : (s.advance t).masks = s.masks := rfl
@[simp] theorem State.advance_copies (s : State) (t : Nat) : (s.advance t).copies = s.copies := rfl
@[simp] theorem State.advance_tracks (s : State) (t : Nat) : (s.advance t).tracks = s.tracks := rfl
@[simp] theorem State.advance_sequences (s : State) (t : Nat) : (s.advance t).sequences = s.sequences := rfl
@[simp] theorem State.advance_egress (s : State) (t : Nat) : (s.advance t).egress = s.egress := rfl
@[simp] theorem State.advance_subscriptions (s : State) (t : Nat) :
    (s.advance t).subscriptions = s.subscriptions := rfl
@[simp] theorem State.advance_members (s : State) (t : Nat) : (s.advance t).members = s.members := rfl
@[simp] theorem State.advance_controllers (s : State) (t : Nat) : (s.advance t).controllers = s.controllers := rfl
@[simp] theorem State.advance_queue (s : State) (t : Nat) : (s.advance t).queue = s.queue := rfl
@[simp] theorem State.advance_flags (s : State) (t : Nat) : (s.advance t).flags = s.flags := rfl
@[simp] theorem State.advance_alertEnables (s : State) (t : Nat) : (s.advance t).alertEnables = s.alertEnables := rfl
@[simp] theorem State.advance_live (s : State) (t : Nat) : (s.advance t).live = s.live := rfl
@[simp] theorem State.advance_snapshot (s : State) (t : Nat) : (s.advance t).snapshot = s.snapshot := rfl
@[simp] theorem State.advance_snapshotTime (s : State) (t : Nat) : (s.advance t).snapshotTime = s.snapshotTime := rfl
@[simp] theorem State.advance_contentOut (s : State) (t : Nat) : (s.advance t).contentOut = s.contentOut := rfl
@[simp] theorem State.advance_deliveryOut (s : State) (t : Nat) : (s.advance t).deliveryOut = s.deliveryOut := rfl
@[simp] theorem State.advance_choices (s : State) (t : Nat) : (s.advance t).choices = s.choices := rfl
@[simp] theorem State.advance_pending (s : State) (t : Nat) : (s.advance t).pending = s.pending := rfl

@[simp] theorem State.setAuditorium_engineTime (s : State) (a : Nat) (v : Auditorium) :
    (s.setAuditorium a v).engineTime = s.engineTime := rfl
@[simp] theorem State.setAuditorium_resetting (s : State) (a : Nat) (v : Auditorium) :
    (s.setAuditorium a v).resetting = s.resetting := rfl
@[simp] theorem State.setAuditorium_contentUp (s : State) (a : Nat) (v : Auditorium) :
    (s.setAuditorium a v).contentUp = s.contentUp := rfl
@[simp] theorem State.setAuditorium_deliveryUp (s : State) (a : Nat) (v : Auditorium) :
    (s.setAuditorium a v).deliveryUp = s.deliveryUp := rfl
@[simp] theorem State.setAuditorium_auditoriums (s : State) (a : Nat) (v : Auditorium) :
    (s.setAuditorium a v).auditoriums = Tbl.set id Auditorium.initial s.auditoriums a v := rfl
@[simp] theorem State.setAuditorium_clocks (s : State) (a : Nat) (v : Auditorium) :
    (s.setAuditorium a v).clocks = s.clocks := rfl
@[simp] theorem State.setAuditorium_checks (s : State) (a : Nat) (v : Auditorium) :
    (s.setAuditorium a v).checks = s.checks := rfl
@[simp] theorem State.setAuditorium_beacons (s : State) (a : Nat) (v : Auditorium) :
    (s.setAuditorium a v).beacons = s.beacons := rfl
@[simp] theorem State.setAuditorium_filters (s : State) (a : Nat) (v : Auditorium) :
    (s.setAuditorium a v).filters = s.filters := rfl
@[simp] theorem State.setAuditorium_masks (s : State) (a : Nat) (v : Auditorium) :
    (s.setAuditorium a v).masks = s.masks := rfl
@[simp] theorem State.setAuditorium_copies (s : State) (a : Nat) (v : Auditorium) :
    (s.setAuditorium a v).copies = s.copies := rfl
@[simp] theorem State.setAuditorium_tracks (s : State) (a : Nat) (v : Auditorium) :
    (s.setAuditorium a v).tracks = s.tracks := rfl
@[simp] theorem State.setAuditorium_sequences (s : State) (a : Nat) (v : Auditorium) :
    (s.setAuditorium a v).sequences = s.sequences := rfl
@[simp] theorem State.setAuditorium_egress (s : State) (a : Nat) (v : Auditorium) :
    (s.setAuditorium a v).egress = s.egress := rfl
@[simp] theorem State.setAuditorium_subscriptions (s : State) (a : Nat) (v : Auditorium) :
    (s.setAuditorium a v).subscriptions = s.subscriptions := rfl
@[simp] theorem State.setAuditorium_members (s : State) (a : Nat) (v : Auditorium) :
    (s.setAuditorium a v).members = s.members := rfl
@[simp] theorem State.setAuditorium_controllers (s : State) (a : Nat) (v : Auditorium) :
    (s.setAuditorium a v).controllers = s.controllers := rfl
@[simp] theorem State.setAuditorium_queue (s : State) (a : Nat) (v : Auditorium) :
    (s.setAuditorium a v).queue = s.queue := rfl
@[simp] theorem State.setAuditorium_flags (s : State) (a : Nat) (v : Auditorium) :
    (s.setAuditorium a v).flags = s.flags := rfl
@[simp] theorem State.setAuditorium_alertEnables (s : State) (a : Nat) (v : Auditorium) :
    (s.setAuditorium a v).alertEnables = s.alertEnables := rfl
@[simp] theorem State.setAuditorium_live (s : State) (a : Nat) (v : Auditorium) :
    (s.setAuditorium a v).live = s.live := rfl
@[simp] theorem State.setAuditorium_snapshot (s : State) (a : Nat) (v : Auditorium) :
    (s.setAuditorium a v).snapshot = s.snapshot := rfl
@[simp] theorem State.setAuditorium_snapshotTime (s : State) (a : Nat) (v : Auditorium) :
    (s.setAuditorium a v).snapshotTime = s.snapshotTime := rfl
@[simp] theorem State.setAuditorium_contentOut (s : State) (a : Nat) (v : Auditorium) :
    (s.setAuditorium a v).contentOut = s.contentOut := rfl
@[simp] theorem State.setAuditorium_deliveryOut (s : State) (a : Nat) (v : Auditorium) :
    (s.setAuditorium a v).deliveryOut = s.deliveryOut := rfl
@[simp] theorem State.setAuditorium_choices (s : State) (a : Nat) (v : Auditorium) :
    (s.setAuditorium a v).choices = s.choices := rfl
@[simp] theorem State.setAuditorium_pending (s : State) (a : Nat) (v : Auditorium) :
    (s.setAuditorium a v).pending = s.pending := rfl

@[simp] theorem State.setLifecycle_engineTime (s : State) (a : Nat) (l : Lifecycle) :
    (s.setLifecycle a l).engineTime = s.engineTime := rfl
@[simp] theorem State.setLifecycle_resetting (s : State) (a : Nat) (l : Lifecycle) :
    (s.setLifecycle a l).resetting = s.resetting := rfl
@[simp] theorem State.setLifecycle_contentUp (s : State) (a : Nat) (l : Lifecycle) :
    (s.setLifecycle a l).contentUp = s.contentUp := rfl
@[simp] theorem State.setLifecycle_deliveryUp (s : State) (a : Nat) (l : Lifecycle) :
    (s.setLifecycle a l).deliveryUp = s.deliveryUp := rfl
@[simp] theorem State.setLifecycle_auditoriums (s : State) (a : Nat) (l : Lifecycle) :
    (s.setLifecycle a l).auditoriums = (s.setAuditorium a { s.auditorium a with lifecycle := l }).auditoriums := rfl
@[simp] theorem State.setLifecycle_clocks (s : State) (a : Nat) (l : Lifecycle) :
    (s.setLifecycle a l).clocks = s.clocks := rfl
@[simp] theorem State.setLifecycle_checks (s : State) (a : Nat) (l : Lifecycle) :
    (s.setLifecycle a l).checks = s.checks := rfl
@[simp] theorem State.setLifecycle_beacons (s : State) (a : Nat) (l : Lifecycle) :
    (s.setLifecycle a l).beacons = s.beacons := rfl
@[simp] theorem State.setLifecycle_filters (s : State) (a : Nat) (l : Lifecycle) :
    (s.setLifecycle a l).filters = s.filters := rfl
@[simp] theorem State.setLifecycle_masks (s : State) (a : Nat) (l : Lifecycle) :
    (s.setLifecycle a l).masks = s.masks := rfl
@[simp] theorem State.setLifecycle_copies (s : State) (a : Nat) (l : Lifecycle) :
    (s.setLifecycle a l).copies = s.copies := rfl
@[simp] theorem State.setLifecycle_tracks (s : State) (a : Nat) (l : Lifecycle) :
    (s.setLifecycle a l).tracks = s.tracks := rfl
@[simp] theorem State.setLifecycle_sequences (s : State) (a : Nat) (l : Lifecycle) :
    (s.setLifecycle a l).sequences = s.sequences := rfl
@[simp] theorem State.setLifecycle_egress (s : State) (a : Nat) (l : Lifecycle) :
    (s.setLifecycle a l).egress = s.egress := rfl
@[simp] theorem State.setLifecycle_subscriptions (s : State) (a : Nat) (l : Lifecycle) :
    (s.setLifecycle a l).subscriptions = s.subscriptions := rfl
@[simp] theorem State.setLifecycle_members (s : State) (a : Nat) (l : Lifecycle) :
    (s.setLifecycle a l).members = s.members := rfl
@[simp] theorem State.setLifecycle_controllers (s : State) (a : Nat) (l : Lifecycle) :
    (s.setLifecycle a l).controllers = s.controllers := rfl
@[simp] theorem State.setLifecycle_queue (s : State) (a : Nat) (l : Lifecycle) :
    (s.setLifecycle a l).queue = s.queue := rfl
@[simp] theorem State.setLifecycle_flags (s : State) (a : Nat) (l : Lifecycle) :
    (s.setLifecycle a l).flags = s.flags := rfl
@[simp] theorem State.setLifecycle_alertEnables (s : State) (a : Nat) (l : Lifecycle) :
    (s.setLifecycle a l).alertEnables = s.alertEnables := rfl
@[simp] theorem State.setLifecycle_live (s : State) (a : Nat) (l : Lifecycle) :
    (s.setLifecycle a l).live = s.live := rfl
@[simp] theorem State.setLifecycle_snapshot (s : State) (a : Nat) (l : Lifecycle) :
    (s.setLifecycle a l).snapshot = s.snapshot := rfl
@[simp] theorem State.setLifecycle_snapshotTime (s : State) (a : Nat) (l : Lifecycle) :
    (s.setLifecycle a l).snapshotTime = s.snapshotTime := rfl
@[simp] theorem State.setLifecycle_contentOut (s : State) (a : Nat) (l : Lifecycle) :
    (s.setLifecycle a l).contentOut = s.contentOut := rfl
@[simp] theorem State.setLifecycle_deliveryOut (s : State) (a : Nat) (l : Lifecycle) :
    (s.setLifecycle a l).deliveryOut = s.deliveryOut := rfl
@[simp] theorem State.setLifecycle_choices (s : State) (a : Nat) (l : Lifecycle) :
    (s.setLifecycle a l).choices = s.choices := rfl
@[simp] theorem State.setLifecycle_pending (s : State) (a : Nat) (l : Lifecycle) :
    (s.setLifecycle a l).pending = s.pending := rfl

@[simp] theorem State.setClock_engineTime (s : State) (a : Nat) (v : Clock) :
    (s.setClock a v).engineTime = s.engineTime := rfl
@[simp] theorem State.setClock_resetting (s : State) (a : Nat) (v : Clock) :
    (s.setClock a v).resetting = s.resetting := rfl
@[simp] theorem State.setClock_contentUp (s : State) (a : Nat) (v : Clock) :
    (s.setClock a v).contentUp = s.contentUp := rfl
@[simp] theorem State.setClock_deliveryUp (s : State) (a : Nat) (v : Clock) :
    (s.setClock a v).deliveryUp = s.deliveryUp := rfl
@[simp] theorem State.setClock_auditoriums (s : State) (a : Nat) (v : Clock) :
    (s.setClock a v).auditoriums = s.auditoriums := rfl
@[simp] theorem State.setClock_clocks (s : State) (a : Nat) (v : Clock) :
    (s.setClock a v).clocks = Tbl.set id Clock.initial s.clocks a v := rfl
@[simp] theorem State.setClock_checks (s : State) (a : Nat) (v : Clock) : (s.setClock a v).checks = s.checks := rfl
@[simp] theorem State.setClock_beacons (s : State) (a : Nat) (v : Clock) : (s.setClock a v).beacons = s.beacons := rfl
@[simp] theorem State.setClock_filters (s : State) (a : Nat) (v : Clock) : (s.setClock a v).filters = s.filters := rfl
@[simp] theorem State.setClock_masks (s : State) (a : Nat) (v : Clock) : (s.setClock a v).masks = s.masks := rfl
@[simp] theorem State.setClock_copies (s : State) (a : Nat) (v : Clock) : (s.setClock a v).copies = s.copies := rfl
@[simp] theorem State.setClock_tracks (s : State) (a : Nat) (v : Clock) : (s.setClock a v).tracks = s.tracks := rfl
@[simp] theorem State.setClock_sequences (s : State) (a : Nat) (v : Clock) :
    (s.setClock a v).sequences = s.sequences := rfl
@[simp] theorem State.setClock_egress (s : State) (a : Nat) (v : Clock) : (s.setClock a v).egress = s.egress := rfl
@[simp] theorem State.setClock_subscriptions (s : State) (a : Nat) (v : Clock) :
    (s.setClock a v).subscriptions = s.subscriptions := rfl
@[simp] theorem State.setClock_members (s : State) (a : Nat) (v : Clock) : (s.setClock a v).members = s.members := rfl
@[simp] theorem State.setClock_controllers (s : State) (a : Nat) (v : Clock) :
    (s.setClock a v).controllers = s.controllers := rfl
@[simp] theorem State.setClock_queue (s : State) (a : Nat) (v : Clock) : (s.setClock a v).queue = s.queue := rfl
@[simp] theorem State.setClock_flags (s : State) (a : Nat) (v : Clock) : (s.setClock a v).flags = s.flags := rfl
@[simp] theorem State.setClock_alertEnables (s : State) (a : Nat) (v : Clock) :
    (s.setClock a v).alertEnables = s.alertEnables := rfl
@[simp] theorem State.setClock_live (s : State) (a : Nat) (v : Clock) : (s.setClock a v).live = s.live := rfl
@[simp] theorem State.setClock_snapshot (s : State) (a : Nat) (v : Clock) :
    (s.setClock a v).snapshot = s.snapshot := rfl
@[simp] theorem State.setClock_snapshotTime (s : State) (a : Nat) (v : Clock) :
    (s.setClock a v).snapshotTime = s.snapshotTime := rfl
@[simp] theorem State.setClock_contentOut (s : State) (a : Nat) (v : Clock) :
    (s.setClock a v).contentOut = s.contentOut := rfl
@[simp] theorem State.setClock_deliveryOut (s : State) (a : Nat) (v : Clock) :
    (s.setClock a v).deliveryOut = s.deliveryOut := rfl
@[simp] theorem State.setClock_choices (s : State) (a : Nat) (v : Clock) : (s.setClock a v).choices = s.choices := rfl
@[simp] theorem State.setClock_pending (s : State) (a : Nat) (v : Clock) : (s.setClock a v).pending = s.pending := rfl

@[simp] theorem State.setCheck_engineTime (s : State) (a : Nat) (v : HouseCheck) :
    (s.setCheck a v).engineTime = s.engineTime := rfl
@[simp] theorem State.setCheck_resetting (s : State) (a : Nat) (v : HouseCheck) :
    (s.setCheck a v).resetting = s.resetting := rfl
@[simp] theorem State.setCheck_contentUp (s : State) (a : Nat) (v : HouseCheck) :
    (s.setCheck a v).contentUp = s.contentUp := rfl
@[simp] theorem State.setCheck_deliveryUp (s : State) (a : Nat) (v : HouseCheck) :
    (s.setCheck a v).deliveryUp = s.deliveryUp := rfl
@[simp] theorem State.setCheck_auditoriums (s : State) (a : Nat) (v : HouseCheck) :
    (s.setCheck a v).auditoriums = s.auditoriums := rfl
@[simp] theorem State.setCheck_clocks (s : State) (a : Nat) (v : HouseCheck) :
    (s.setCheck a v).clocks = s.clocks := rfl
@[simp] theorem State.setCheck_checks (s : State) (a : Nat) (v : HouseCheck) :
    (s.setCheck a v).checks = Tbl.set id HouseCheck.initial s.checks a v := rfl
@[simp] theorem State.setCheck_beacons (s : State) (a : Nat) (v : HouseCheck) :
    (s.setCheck a v).beacons = s.beacons := rfl
@[simp] theorem State.setCheck_filters (s : State) (a : Nat) (v : HouseCheck) :
    (s.setCheck a v).filters = s.filters := rfl
@[simp] theorem State.setCheck_masks (s : State) (a : Nat) (v : HouseCheck) : (s.setCheck a v).masks = s.masks := rfl
@[simp] theorem State.setCheck_copies (s : State) (a : Nat) (v : HouseCheck) :
    (s.setCheck a v).copies = s.copies := rfl
@[simp] theorem State.setCheck_tracks (s : State) (a : Nat) (v : HouseCheck) :
    (s.setCheck a v).tracks = s.tracks := rfl
@[simp] theorem State.setCheck_sequences (s : State) (a : Nat) (v : HouseCheck) :
    (s.setCheck a v).sequences = s.sequences := rfl
@[simp] theorem State.setCheck_egress (s : State) (a : Nat) (v : HouseCheck) :
    (s.setCheck a v).egress = s.egress := rfl
@[simp] theorem State.setCheck_subscriptions (s : State) (a : Nat) (v : HouseCheck) :
    (s.setCheck a v).subscriptions = s.subscriptions := rfl
@[simp] theorem State.setCheck_members (s : State) (a : Nat) (v : HouseCheck) :
    (s.setCheck a v).members = s.members := rfl
@[simp] theorem State.setCheck_controllers (s : State) (a : Nat) (v : HouseCheck) :
    (s.setCheck a v).controllers = s.controllers := rfl
@[simp] theorem State.setCheck_queue (s : State) (a : Nat) (v : HouseCheck) : (s.setCheck a v).queue = s.queue := rfl
@[simp] theorem State.setCheck_flags (s : State) (a : Nat) (v : HouseCheck) : (s.setCheck a v).flags = s.flags := rfl
@[simp] theorem State.setCheck_alertEnables (s : State) (a : Nat) (v : HouseCheck) :
    (s.setCheck a v).alertEnables = s.alertEnables := rfl
@[simp] theorem State.setCheck_live (s : State) (a : Nat) (v : HouseCheck) : (s.setCheck a v).live = s.live := rfl
@[simp] theorem State.setCheck_snapshot (s : State) (a : Nat) (v : HouseCheck) :
    (s.setCheck a v).snapshot = s.snapshot := rfl
@[simp] theorem State.setCheck_snapshotTime (s : State) (a : Nat) (v : HouseCheck) :
    (s.setCheck a v).snapshotTime = s.snapshotTime := rfl
@[simp] theorem State.setCheck_contentOut (s : State) (a : Nat) (v : HouseCheck) :
    (s.setCheck a v).contentOut = s.contentOut := rfl
@[simp] theorem State.setCheck_deliveryOut (s : State) (a : Nat) (v : HouseCheck) :
    (s.setCheck a v).deliveryOut = s.deliveryOut := rfl
@[simp] theorem State.setCheck_choices (s : State) (a : Nat) (v : HouseCheck) :
    (s.setCheck a v).choices = s.choices := rfl
@[simp] theorem State.setCheck_pending (s : State) (a : Nat) (v : HouseCheck) :
    (s.setCheck a v).pending = s.pending := rfl

@[simp] theorem State.setBeacon_engineTime (s : State) (a : Nat) (v : Option Nat) :
    (s.setBeacon a v).engineTime = s.engineTime := rfl
@[simp] theorem State.setBeacon_resetting (s : State) (a : Nat) (v : Option Nat) :
    (s.setBeacon a v).resetting = s.resetting := rfl
@[simp] theorem State.setBeacon_contentUp (s : State) (a : Nat) (v : Option Nat) :
    (s.setBeacon a v).contentUp = s.contentUp := rfl
@[simp] theorem State.setBeacon_deliveryUp (s : State) (a : Nat) (v : Option Nat) :
    (s.setBeacon a v).deliveryUp = s.deliveryUp := rfl
@[simp] theorem State.setBeacon_auditoriums (s : State) (a : Nat) (v : Option Nat) :
    (s.setBeacon a v).auditoriums = s.auditoriums := rfl
@[simp] theorem State.setBeacon_clocks (s : State) (a : Nat) (v : Option Nat) :
    (s.setBeacon a v).clocks = s.clocks := rfl
@[simp] theorem State.setBeacon_checks (s : State) (a : Nat) (v : Option Nat) :
    (s.setBeacon a v).checks = s.checks := rfl
@[simp] theorem State.setBeacon_beacons (s : State) (a : Nat) (v : Option Nat) :
    (s.setBeacon a v).beacons = Tbl.set id none s.beacons a v := rfl
@[simp] theorem State.setBeacon_filters (s : State) (a : Nat) (v : Option Nat) :
    (s.setBeacon a v).filters = s.filters := rfl
@[simp] theorem State.setBeacon_masks (s : State) (a : Nat) (v : Option Nat) :
    (s.setBeacon a v).masks = s.masks := rfl
@[simp] theorem State.setBeacon_copies (s : State) (a : Nat) (v : Option Nat) :
    (s.setBeacon a v).copies = s.copies := rfl
@[simp] theorem State.setBeacon_tracks (s : State) (a : Nat) (v : Option Nat) :
    (s.setBeacon a v).tracks = s.tracks := rfl
@[simp] theorem State.setBeacon_sequences (s : State) (a : Nat) (v : Option Nat) :
    (s.setBeacon a v).sequences = s.sequences := rfl
@[simp] theorem State.setBeacon_egress (s : State) (a : Nat) (v : Option Nat) :
    (s.setBeacon a v).egress = s.egress := rfl
@[simp] theorem State.setBeacon_subscriptions (s : State) (a : Nat) (v : Option Nat) :
    (s.setBeacon a v).subscriptions = s.subscriptions := rfl
@[simp] theorem State.setBeacon_members (s : State) (a : Nat) (v : Option Nat) :
    (s.setBeacon a v).members = s.members := rfl
@[simp] theorem State.setBeacon_controllers (s : State) (a : Nat) (v : Option Nat) :
    (s.setBeacon a v).controllers = s.controllers := rfl
@[simp] theorem State.setBeacon_queue (s : State) (a : Nat) (v : Option Nat) :
    (s.setBeacon a v).queue = s.queue := rfl
@[simp] theorem State.setBeacon_flags (s : State) (a : Nat) (v : Option Nat) :
    (s.setBeacon a v).flags = s.flags := rfl
@[simp] theorem State.setBeacon_alertEnables (s : State) (a : Nat) (v : Option Nat) :
    (s.setBeacon a v).alertEnables = s.alertEnables := rfl
@[simp] theorem State.setBeacon_live (s : State) (a : Nat) (v : Option Nat) : (s.setBeacon a v).live = s.live := rfl
@[simp] theorem State.setBeacon_snapshot (s : State) (a : Nat) (v : Option Nat) :
    (s.setBeacon a v).snapshot = s.snapshot := rfl
@[simp] theorem State.setBeacon_snapshotTime (s : State) (a : Nat) (v : Option Nat) :
    (s.setBeacon a v).snapshotTime = s.snapshotTime := rfl
@[simp] theorem State.setBeacon_contentOut (s : State) (a : Nat) (v : Option Nat) :
    (s.setBeacon a v).contentOut = s.contentOut := rfl
@[simp] theorem State.setBeacon_deliveryOut (s : State) (a : Nat) (v : Option Nat) :
    (s.setBeacon a v).deliveryOut = s.deliveryOut := rfl
@[simp] theorem State.setBeacon_choices (s : State) (a : Nat) (v : Option Nat) :
    (s.setBeacon a v).choices = s.choices := rfl
@[simp] theorem State.setBeacon_pending (s : State) (a : Nat) (v : Option Nat) :
    (s.setBeacon a v).pending = s.pending := rfl

@[simp] theorem State.setFilter_engineTime (s : State) (i : Nat) (v : Filter) :
    (s.setFilter i v).engineTime = s.engineTime := rfl
@[simp] theorem State.setFilter_resetting (s : State) (i : Nat) (v : Filter) :
    (s.setFilter i v).resetting = s.resetting := rfl
@[simp] theorem State.setFilter_contentUp (s : State) (i : Nat) (v : Filter) :
    (s.setFilter i v).contentUp = s.contentUp := rfl
@[simp] theorem State.setFilter_deliveryUp (s : State) (i : Nat) (v : Filter) :
    (s.setFilter i v).deliveryUp = s.deliveryUp := rfl
@[simp] theorem State.setFilter_auditoriums (s : State) (i : Nat) (v : Filter) :
    (s.setFilter i v).auditoriums = s.auditoriums := rfl
@[simp] theorem State.setFilter_clocks (s : State) (i : Nat) (v : Filter) : (s.setFilter i v).clocks = s.clocks := rfl
@[simp] theorem State.setFilter_checks (s : State) (i : Nat) (v : Filter) : (s.setFilter i v).checks = s.checks := rfl
@[simp] theorem State.setFilter_beacons (s : State) (i : Nat) (v : Filter) :
    (s.setFilter i v).beacons = s.beacons := rfl
@[simp] theorem State.setFilter_filters (s : State) (i : Nat) (v : Filter) :
    (s.setFilter i v).filters = Tbl.set id Filter.initial s.filters i v := rfl
@[simp] theorem State.setFilter_masks (s : State) (i : Nat) (v : Filter) : (s.setFilter i v).masks = s.masks := rfl
@[simp] theorem State.setFilter_copies (s : State) (i : Nat) (v : Filter) : (s.setFilter i v).copies = s.copies := rfl
@[simp] theorem State.setFilter_tracks (s : State) (i : Nat) (v : Filter) : (s.setFilter i v).tracks = s.tracks := rfl
@[simp] theorem State.setFilter_sequences (s : State) (i : Nat) (v : Filter) :
    (s.setFilter i v).sequences = s.sequences := rfl
@[simp] theorem State.setFilter_egress (s : State) (i : Nat) (v : Filter) : (s.setFilter i v).egress = s.egress := rfl
@[simp] theorem State.setFilter_subscriptions (s : State) (i : Nat) (v : Filter) :
    (s.setFilter i v).subscriptions = s.subscriptions := rfl
@[simp] theorem State.setFilter_members (s : State) (i : Nat) (v : Filter) :
    (s.setFilter i v).members = s.members := rfl
@[simp] theorem State.setFilter_controllers (s : State) (i : Nat) (v : Filter) :
    (s.setFilter i v).controllers = s.controllers := rfl
@[simp] theorem State.setFilter_queue (s : State) (i : Nat) (v : Filter) : (s.setFilter i v).queue = s.queue := rfl
@[simp] theorem State.setFilter_flags (s : State) (i : Nat) (v : Filter) : (s.setFilter i v).flags = s.flags := rfl
@[simp] theorem State.setFilter_alertEnables (s : State) (i : Nat) (v : Filter) :
    (s.setFilter i v).alertEnables = s.alertEnables := rfl
@[simp] theorem State.setFilter_live (s : State) (i : Nat) (v : Filter) : (s.setFilter i v).live = s.live := rfl
@[simp] theorem State.setFilter_snapshot (s : State) (i : Nat) (v : Filter) :
    (s.setFilter i v).snapshot = s.snapshot := rfl
@[simp] theorem State.setFilter_snapshotTime (s : State) (i : Nat) (v : Filter) :
    (s.setFilter i v).snapshotTime = s.snapshotTime := rfl
@[simp] theorem State.setFilter_contentOut (s : State) (i : Nat) (v : Filter) :
    (s.setFilter i v).contentOut = s.contentOut := rfl
@[simp] theorem State.setFilter_deliveryOut (s : State) (i : Nat) (v : Filter) :
    (s.setFilter i v).deliveryOut = s.deliveryOut := rfl
@[simp] theorem State.setFilter_choices (s : State) (i : Nat) (v : Filter) :
    (s.setFilter i v).choices = s.choices := rfl
@[simp] theorem State.setFilter_pending (s : State) (i : Nat) (v : Filter) :
    (s.setFilter i v).pending = s.pending := rfl

@[simp] theorem State.setMask_engineTime (s : State) (i : Nat) (v : Label) :
    (s.setMask i v).engineTime = s.engineTime := rfl
@[simp] theorem State.setMask_resetting (s : State) (i : Nat) (v : Label) :
    (s.setMask i v).resetting = s.resetting := rfl
@[simp] theorem State.setMask_contentUp (s : State) (i : Nat) (v : Label) :
    (s.setMask i v).contentUp = s.contentUp := rfl
@[simp] theorem State.setMask_deliveryUp (s : State) (i : Nat) (v : Label) :
    (s.setMask i v).deliveryUp = s.deliveryUp := rfl
@[simp] theorem State.setMask_auditoriums (s : State) (i : Nat) (v : Label) :
    (s.setMask i v).auditoriums = s.auditoriums := rfl
@[simp] theorem State.setMask_clocks (s : State) (i : Nat) (v : Label) : (s.setMask i v).clocks = s.clocks := rfl
@[simp] theorem State.setMask_checks (s : State) (i : Nat) (v : Label) : (s.setMask i v).checks = s.checks := rfl
@[simp] theorem State.setMask_beacons (s : State) (i : Nat) (v : Label) : (s.setMask i v).beacons = s.beacons := rfl
@[simp] theorem State.setMask_filters (s : State) (i : Nat) (v : Label) : (s.setMask i v).filters = s.filters := rfl
@[simp] theorem State.setMask_masks (s : State) (i : Nat) (v : Label) :
    (s.setMask i v).masks = Tbl.set id maskInitial s.masks i v := rfl
@[simp] theorem State.setMask_copies (s : State) (i : Nat) (v : Label) : (s.setMask i v).copies = s.copies := rfl
@[simp] theorem State.setMask_tracks (s : State) (i : Nat) (v : Label) : (s.setMask i v).tracks = s.tracks := rfl
@[simp] theorem State.setMask_sequences (s : State) (i : Nat) (v : Label) :
    (s.setMask i v).sequences = s.sequences := rfl
@[simp] theorem State.setMask_egress (s : State) (i : Nat) (v : Label) : (s.setMask i v).egress = s.egress := rfl
@[simp] theorem State.setMask_subscriptions (s : State) (i : Nat) (v : Label) :
    (s.setMask i v).subscriptions = s.subscriptions := rfl
@[simp] theorem State.setMask_members (s : State) (i : Nat) (v : Label) : (s.setMask i v).members = s.members := rfl
@[simp] theorem State.setMask_controllers (s : State) (i : Nat) (v : Label) :
    (s.setMask i v).controllers = s.controllers := rfl
@[simp] theorem State.setMask_queue (s : State) (i : Nat) (v : Label) : (s.setMask i v).queue = s.queue := rfl
@[simp] theorem State.setMask_flags (s : State) (i : Nat) (v : Label) : (s.setMask i v).flags = s.flags := rfl
@[simp] theorem State.setMask_alertEnables (s : State) (i : Nat) (v : Label) :
    (s.setMask i v).alertEnables = s.alertEnables := rfl
@[simp] theorem State.setMask_live (s : State) (i : Nat) (v : Label) : (s.setMask i v).live = s.live := rfl
@[simp] theorem State.setMask_snapshot (s : State) (i : Nat) (v : Label) :
    (s.setMask i v).snapshot = s.snapshot := rfl
@[simp] theorem State.setMask_snapshotTime (s : State) (i : Nat) (v : Label) :
    (s.setMask i v).snapshotTime = s.snapshotTime := rfl
@[simp] theorem State.setMask_contentOut (s : State) (i : Nat) (v : Label) :
    (s.setMask i v).contentOut = s.contentOut := rfl
@[simp] theorem State.setMask_deliveryOut (s : State) (i : Nat) (v : Label) :
    (s.setMask i v).deliveryOut = s.deliveryOut := rfl
@[simp] theorem State.setMask_choices (s : State) (i : Nat) (v : Label) : (s.setMask i v).choices = s.choices := rfl
@[simp] theorem State.setMask_pending (s : State) (i : Nat) (v : Label) : (s.setMask i v).pending = s.pending := rfl

@[simp] theorem State.setTrack_engineTime (s : State) (k : Nat) (v : Option Track) :
    (s.setTrack k v).engineTime = s.engineTime := rfl
@[simp] theorem State.setTrack_resetting (s : State) (k : Nat) (v : Option Track) :
    (s.setTrack k v).resetting = s.resetting := rfl
@[simp] theorem State.setTrack_contentUp (s : State) (k : Nat) (v : Option Track) :
    (s.setTrack k v).contentUp = s.contentUp := rfl
@[simp] theorem State.setTrack_deliveryUp (s : State) (k : Nat) (v : Option Track) :
    (s.setTrack k v).deliveryUp = s.deliveryUp := rfl
@[simp] theorem State.setTrack_auditoriums (s : State) (k : Nat) (v : Option Track) :
    (s.setTrack k v).auditoriums = s.auditoriums := rfl
@[simp] theorem State.setTrack_clocks (s : State) (k : Nat) (v : Option Track) :
    (s.setTrack k v).clocks = s.clocks := rfl
@[simp] theorem State.setTrack_checks (s : State) (k : Nat) (v : Option Track) :
    (s.setTrack k v).checks = s.checks := rfl
@[simp] theorem State.setTrack_beacons (s : State) (k : Nat) (v : Option Track) :
    (s.setTrack k v).beacons = s.beacons := rfl
@[simp] theorem State.setTrack_filters (s : State) (k : Nat) (v : Option Track) :
    (s.setTrack k v).filters = s.filters := rfl
@[simp] theorem State.setTrack_masks (s : State) (k : Nat) (v : Option Track) :
    (s.setTrack k v).masks = s.masks := rfl
@[simp] theorem State.setTrack_copies (s : State) (k : Nat) (v : Option Track) :
    (s.setTrack k v).copies = s.copies := rfl
@[simp] theorem State.setTrack_tracks (s : State) (k : Nat) (v : Option Track) :
    (s.setTrack k v).tracks = Tbl.set id none s.tracks k v := rfl
@[simp] theorem State.setTrack_sequences (s : State) (k : Nat) (v : Option Track) :
    (s.setTrack k v).sequences = s.sequences := rfl
@[simp] theorem State.setTrack_egress (s : State) (k : Nat) (v : Option Track) :
    (s.setTrack k v).egress = s.egress := rfl
@[simp] theorem State.setTrack_subscriptions (s : State) (k : Nat) (v : Option Track) :
    (s.setTrack k v).subscriptions = s.subscriptions := rfl
@[simp] theorem State.setTrack_members (s : State) (k : Nat) (v : Option Track) :
    (s.setTrack k v).members = s.members := rfl
@[simp] theorem State.setTrack_controllers (s : State) (k : Nat) (v : Option Track) :
    (s.setTrack k v).controllers = s.controllers := rfl
@[simp] theorem State.setTrack_queue (s : State) (k : Nat) (v : Option Track) :
    (s.setTrack k v).queue = s.queue := rfl
@[simp] theorem State.setTrack_flags (s : State) (k : Nat) (v : Option Track) :
    (s.setTrack k v).flags = s.flags := rfl
@[simp] theorem State.setTrack_alertEnables (s : State) (k : Nat) (v : Option Track) :
    (s.setTrack k v).alertEnables = s.alertEnables := rfl
@[simp] theorem State.setTrack_live (s : State) (k : Nat) (v : Option Track) : (s.setTrack k v).live = s.live := rfl
@[simp] theorem State.setTrack_snapshot (s : State) (k : Nat) (v : Option Track) :
    (s.setTrack k v).snapshot = s.snapshot := rfl
@[simp] theorem State.setTrack_snapshotTime (s : State) (k : Nat) (v : Option Track) :
    (s.setTrack k v).snapshotTime = s.snapshotTime := rfl
@[simp] theorem State.setTrack_contentOut (s : State) (k : Nat) (v : Option Track) :
    (s.setTrack k v).contentOut = s.contentOut := rfl
@[simp] theorem State.setTrack_deliveryOut (s : State) (k : Nat) (v : Option Track) :
    (s.setTrack k v).deliveryOut = s.deliveryOut := rfl
@[simp] theorem State.setTrack_choices (s : State) (k : Nat) (v : Option Track) :
    (s.setTrack k v).choices = s.choices := rfl
@[simp] theorem State.setTrack_pending (s : State) (k : Nat) (v : Option Track) :
    (s.setTrack k v).pending = s.pending := rfl

@[simp] theorem State.setTrackSequences_engineTime (s : State) (k : Nat) (v : PerBand SeqNo) :
    (s.setTrackSequences k v).engineTime = s.engineTime := rfl
@[simp] theorem State.setTrackSequences_resetting (s : State) (k : Nat) (v : PerBand SeqNo) :
    (s.setTrackSequences k v).resetting = s.resetting := rfl
@[simp] theorem State.setTrackSequences_contentUp (s : State) (k : Nat) (v : PerBand SeqNo) :
    (s.setTrackSequences k v).contentUp = s.contentUp := rfl
@[simp] theorem State.setTrackSequences_deliveryUp (s : State) (k : Nat) (v : PerBand SeqNo) :
    (s.setTrackSequences k v).deliveryUp = s.deliveryUp := rfl
@[simp] theorem State.setTrackSequences_auditoriums (s : State) (k : Nat) (v : PerBand SeqNo) :
    (s.setTrackSequences k v).auditoriums = s.auditoriums := rfl
@[simp] theorem State.setTrackSequences_clocks (s : State) (k : Nat) (v : PerBand SeqNo) :
    (s.setTrackSequences k v).clocks = s.clocks := rfl
@[simp] theorem State.setTrackSequences_checks (s : State) (k : Nat) (v : PerBand SeqNo) :
    (s.setTrackSequences k v).checks = s.checks := rfl
@[simp] theorem State.setTrackSequences_beacons (s : State) (k : Nat) (v : PerBand SeqNo) :
    (s.setTrackSequences k v).beacons = s.beacons := rfl
@[simp] theorem State.setTrackSequences_filters (s : State) (k : Nat) (v : PerBand SeqNo) :
    (s.setTrackSequences k v).filters = s.filters := rfl
@[simp] theorem State.setTrackSequences_masks (s : State) (k : Nat) (v : PerBand SeqNo) :
    (s.setTrackSequences k v).masks = s.masks := rfl
@[simp] theorem State.setTrackSequences_copies (s : State) (k : Nat) (v : PerBand SeqNo) :
    (s.setTrackSequences k v).copies = s.copies := rfl
@[simp] theorem State.setTrackSequences_tracks (s : State) (k : Nat) (v : PerBand SeqNo) :
    (s.setTrackSequences k v).tracks = s.tracks := rfl
@[simp] theorem State.setTrackSequences_sequences (s : State) (k : Nat) (v : PerBand SeqNo) :
    (s.setTrackSequences k v).sequences = Tbl.set id (PerBand.all 0) s.sequences k v := rfl
@[simp] theorem State.setTrackSequences_egress (s : State) (k : Nat) (v : PerBand SeqNo) :
    (s.setTrackSequences k v).egress = s.egress := rfl
@[simp] theorem State.setTrackSequences_subscriptions (s : State) (k : Nat) (v : PerBand SeqNo) :
    (s.setTrackSequences k v).subscriptions = s.subscriptions := rfl
@[simp] theorem State.setTrackSequences_members (s : State) (k : Nat) (v : PerBand SeqNo) :
    (s.setTrackSequences k v).members = s.members := rfl
@[simp] theorem State.setTrackSequences_controllers (s : State) (k : Nat) (v : PerBand SeqNo) :
    (s.setTrackSequences k v).controllers = s.controllers := rfl
@[simp] theorem State.setTrackSequences_queue (s : State) (k : Nat) (v : PerBand SeqNo) :
    (s.setTrackSequences k v).queue = s.queue := rfl
@[simp] theorem State.setTrackSequences_flags (s : State) (k : Nat) (v : PerBand SeqNo) :
    (s.setTrackSequences k v).flags = s.flags := rfl
@[simp] theorem State.setTrackSequences_alertEnables (s : State) (k : Nat) (v : PerBand SeqNo) :
    (s.setTrackSequences k v).alertEnables = s.alertEnables := rfl
@[simp] theorem State.setTrackSequences_live (s : State) (k : Nat) (v : PerBand SeqNo) :
    (s.setTrackSequences k v).live = s.live := rfl
@[simp] theorem State.setTrackSequences_snapshot (s : State) (k : Nat) (v : PerBand SeqNo) :
    (s.setTrackSequences k v).snapshot = s.snapshot := rfl
@[simp] theorem State.setTrackSequences_snapshotTime (s : State) (k : Nat) (v : PerBand SeqNo) :
    (s.setTrackSequences k v).snapshotTime = s.snapshotTime := rfl
@[simp] theorem State.setTrackSequences_contentOut (s : State) (k : Nat) (v : PerBand SeqNo) :
    (s.setTrackSequences k v).contentOut = s.contentOut := rfl
@[simp] theorem State.setTrackSequences_deliveryOut (s : State) (k : Nat) (v : PerBand SeqNo) :
    (s.setTrackSequences k v).deliveryOut = s.deliveryOut := rfl
@[simp] theorem State.setTrackSequences_choices (s : State) (k : Nat) (v : PerBand SeqNo) :
    (s.setTrackSequences k v).choices = s.choices := rfl
@[simp] theorem State.setTrackSequences_pending (s : State) (k : Nat) (v : PerBand SeqNo) :
    (s.setTrackSequences k v).pending = s.pending := rfl

@[simp] theorem State.setTrackMembers_engineTime (s : State) (k : Nat) (v : PerBand Nat) :
    (s.setTrackMembers k v).engineTime = s.engineTime := rfl
@[simp] theorem State.setTrackMembers_resetting (s : State) (k : Nat) (v : PerBand Nat) :
    (s.setTrackMembers k v).resetting = s.resetting := rfl
@[simp] theorem State.setTrackMembers_contentUp (s : State) (k : Nat) (v : PerBand Nat) :
    (s.setTrackMembers k v).contentUp = s.contentUp := rfl
@[simp] theorem State.setTrackMembers_deliveryUp (s : State) (k : Nat) (v : PerBand Nat) :
    (s.setTrackMembers k v).deliveryUp = s.deliveryUp := rfl
@[simp] theorem State.setTrackMembers_auditoriums (s : State) (k : Nat) (v : PerBand Nat) :
    (s.setTrackMembers k v).auditoriums = s.auditoriums := rfl
@[simp] theorem State.setTrackMembers_clocks (s : State) (k : Nat) (v : PerBand Nat) :
    (s.setTrackMembers k v).clocks = s.clocks := rfl
@[simp] theorem State.setTrackMembers_checks (s : State) (k : Nat) (v : PerBand Nat) :
    (s.setTrackMembers k v).checks = s.checks := rfl
@[simp] theorem State.setTrackMembers_beacons (s : State) (k : Nat) (v : PerBand Nat) :
    (s.setTrackMembers k v).beacons = s.beacons := rfl
@[simp] theorem State.setTrackMembers_filters (s : State) (k : Nat) (v : PerBand Nat) :
    (s.setTrackMembers k v).filters = s.filters := rfl
@[simp] theorem State.setTrackMembers_masks (s : State) (k : Nat) (v : PerBand Nat) :
    (s.setTrackMembers k v).masks = s.masks := rfl
@[simp] theorem State.setTrackMembers_copies (s : State) (k : Nat) (v : PerBand Nat) :
    (s.setTrackMembers k v).copies = s.copies := rfl
@[simp] theorem State.setTrackMembers_tracks (s : State) (k : Nat) (v : PerBand Nat) :
    (s.setTrackMembers k v).tracks = s.tracks := rfl
@[simp] theorem State.setTrackMembers_sequences (s : State) (k : Nat) (v : PerBand Nat) :
    (s.setTrackMembers k v).sequences = s.sequences := rfl
@[simp] theorem State.setTrackMembers_egress (s : State) (k : Nat) (v : PerBand Nat) :
    (s.setTrackMembers k v).egress = s.egress := rfl
@[simp] theorem State.setTrackMembers_subscriptions (s : State) (k : Nat) (v : PerBand Nat) :
    (s.setTrackMembers k v).subscriptions = s.subscriptions := rfl
@[simp] theorem State.setTrackMembers_members (s : State) (k : Nat) (v : PerBand Nat) :
    (s.setTrackMembers k v).members = Tbl.set id (PerBand.all 0) s.members k v := rfl
@[simp] theorem State.setTrackMembers_controllers (s : State) (k : Nat) (v : PerBand Nat) :
    (s.setTrackMembers k v).controllers = s.controllers := rfl
@[simp] theorem State.setTrackMembers_queue (s : State) (k : Nat) (v : PerBand Nat) :
    (s.setTrackMembers k v).queue = s.queue := rfl
@[simp] theorem State.setTrackMembers_flags (s : State) (k : Nat) (v : PerBand Nat) :
    (s.setTrackMembers k v).flags = s.flags := rfl
@[simp] theorem State.setTrackMembers_alertEnables (s : State) (k : Nat) (v : PerBand Nat) :
    (s.setTrackMembers k v).alertEnables = s.alertEnables := rfl
@[simp] theorem State.setTrackMembers_live (s : State) (k : Nat) (v : PerBand Nat) :
    (s.setTrackMembers k v).live = s.live := rfl
@[simp] theorem State.setTrackMembers_snapshot (s : State) (k : Nat) (v : PerBand Nat) :
    (s.setTrackMembers k v).snapshot = s.snapshot := rfl
@[simp] theorem State.setTrackMembers_snapshotTime (s : State) (k : Nat) (v : PerBand Nat) :
    (s.setTrackMembers k v).snapshotTime = s.snapshotTime := rfl
@[simp] theorem State.setTrackMembers_contentOut (s : State) (k : Nat) (v : PerBand Nat) :
    (s.setTrackMembers k v).contentOut = s.contentOut := rfl
@[simp] theorem State.setTrackMembers_deliveryOut (s : State) (k : Nat) (v : PerBand Nat) :
    (s.setTrackMembers k v).deliveryOut = s.deliveryOut := rfl
@[simp] theorem State.setTrackMembers_choices (s : State) (k : Nat) (v : PerBand Nat) :
    (s.setTrackMembers k v).choices = s.choices := rfl
@[simp] theorem State.setTrackMembers_pending (s : State) (k : Nat) (v : PerBand Nat) :
    (s.setTrackMembers k v).pending = s.pending := rfl

@[simp] theorem State.setMemberCount_engineTime (s : State) (k : Nat) (b : Band) (n : Nat) :
    (s.setMemberCount k b n).engineTime = s.engineTime := rfl
@[simp] theorem State.setMemberCount_resetting (s : State) (k : Nat) (b : Band) (n : Nat) :
    (s.setMemberCount k b n).resetting = s.resetting := rfl
@[simp] theorem State.setMemberCount_contentUp (s : State) (k : Nat) (b : Band) (n : Nat) :
    (s.setMemberCount k b n).contentUp = s.contentUp := rfl
@[simp] theorem State.setMemberCount_deliveryUp (s : State) (k : Nat) (b : Band) (n : Nat) :
    (s.setMemberCount k b n).deliveryUp = s.deliveryUp := rfl
@[simp] theorem State.setMemberCount_auditoriums (s : State) (k : Nat) (b : Band) (n : Nat) :
    (s.setMemberCount k b n).auditoriums = s.auditoriums := rfl
@[simp] theorem State.setMemberCount_clocks (s : State) (k : Nat) (b : Band) (n : Nat) :
    (s.setMemberCount k b n).clocks = s.clocks := rfl
@[simp] theorem State.setMemberCount_checks (s : State) (k : Nat) (b : Band) (n : Nat) :
    (s.setMemberCount k b n).checks = s.checks := rfl
@[simp] theorem State.setMemberCount_beacons (s : State) (k : Nat) (b : Band) (n : Nat) :
    (s.setMemberCount k b n).beacons = s.beacons := rfl
@[simp] theorem State.setMemberCount_filters (s : State) (k : Nat) (b : Band) (n : Nat) :
    (s.setMemberCount k b n).filters = s.filters := rfl
@[simp] theorem State.setMemberCount_masks (s : State) (k : Nat) (b : Band) (n : Nat) :
    (s.setMemberCount k b n).masks = s.masks := rfl
@[simp] theorem State.setMemberCount_copies (s : State) (k : Nat) (b : Band) (n : Nat) :
    (s.setMemberCount k b n).copies = s.copies := rfl
@[simp] theorem State.setMemberCount_tracks (s : State) (k : Nat) (b : Band) (n : Nat) :
    (s.setMemberCount k b n).tracks = s.tracks := rfl
@[simp] theorem State.setMemberCount_sequences (s : State) (k : Nat) (b : Band) (n : Nat) :
    (s.setMemberCount k b n).sequences = s.sequences := rfl
@[simp] theorem State.setMemberCount_egress (s : State) (k : Nat) (b : Band) (n : Nat) :
    (s.setMemberCount k b n).egress = s.egress := rfl
@[simp] theorem State.setMemberCount_subscriptions (s : State) (k : Nat) (b : Band) (n : Nat) :
    (s.setMemberCount k b n).subscriptions = s.subscriptions := rfl
@[simp] theorem State.setMemberCount_members (s : State) (k : Nat) (b : Band) (n : Nat) :
    (s.setMemberCount k b n).members = (s.setTrackMembers k ((s.trackMembers k).set b n)).members := rfl
@[simp] theorem State.setMemberCount_controllers (s : State) (k : Nat) (b : Band) (n : Nat) :
    (s.setMemberCount k b n).controllers = s.controllers := rfl
@[simp] theorem State.setMemberCount_queue (s : State) (k : Nat) (b : Band) (n : Nat) :
    (s.setMemberCount k b n).queue = s.queue := rfl
@[simp] theorem State.setMemberCount_flags (s : State) (k : Nat) (b : Band) (n : Nat) :
    (s.setMemberCount k b n).flags = s.flags := rfl
@[simp] theorem State.setMemberCount_alertEnables (s : State) (k : Nat) (b : Band) (n : Nat) :
    (s.setMemberCount k b n).alertEnables = s.alertEnables := rfl
@[simp] theorem State.setMemberCount_live (s : State) (k : Nat) (b : Band) (n : Nat) :
    (s.setMemberCount k b n).live = s.live := rfl
@[simp] theorem State.setMemberCount_snapshot (s : State) (k : Nat) (b : Band) (n : Nat) :
    (s.setMemberCount k b n).snapshot = s.snapshot := rfl
@[simp] theorem State.setMemberCount_snapshotTime (s : State) (k : Nat) (b : Band) (n : Nat) :
    (s.setMemberCount k b n).snapshotTime = s.snapshotTime := rfl
@[simp] theorem State.setMemberCount_contentOut (s : State) (k : Nat) (b : Band) (n : Nat) :
    (s.setMemberCount k b n).contentOut = s.contentOut := rfl
@[simp] theorem State.setMemberCount_deliveryOut (s : State) (k : Nat) (b : Band) (n : Nat) :
    (s.setMemberCount k b n).deliveryOut = s.deliveryOut := rfl
@[simp] theorem State.setMemberCount_choices (s : State) (k : Nat) (b : Band) (n : Nat) :
    (s.setMemberCount k b n).choices = s.choices := rfl
@[simp] theorem State.setMemberCount_pending (s : State) (k : Nat) (b : Band) (n : Nat) :
    (s.setMemberCount k b n).pending = s.pending := rfl

@[simp] theorem State.setSubscription_engineTime (s : State) (i : Nat) (v : Option Subscription) :
    (s.setSubscription i v).engineTime = s.engineTime := rfl
@[simp] theorem State.setSubscription_resetting (s : State) (i : Nat) (v : Option Subscription) :
    (s.setSubscription i v).resetting = s.resetting := rfl
@[simp] theorem State.setSubscription_contentUp (s : State) (i : Nat) (v : Option Subscription) :
    (s.setSubscription i v).contentUp = s.contentUp := rfl
@[simp] theorem State.setSubscription_deliveryUp (s : State) (i : Nat) (v : Option Subscription) :
    (s.setSubscription i v).deliveryUp = s.deliveryUp := rfl
@[simp] theorem State.setSubscription_auditoriums (s : State) (i : Nat) (v : Option Subscription) :
    (s.setSubscription i v).auditoriums = s.auditoriums := rfl
@[simp] theorem State.setSubscription_clocks (s : State) (i : Nat) (v : Option Subscription) :
    (s.setSubscription i v).clocks = s.clocks := rfl
@[simp] theorem State.setSubscription_checks (s : State) (i : Nat) (v : Option Subscription) :
    (s.setSubscription i v).checks = s.checks := rfl
@[simp] theorem State.setSubscription_beacons (s : State) (i : Nat) (v : Option Subscription) :
    (s.setSubscription i v).beacons = s.beacons := rfl
@[simp] theorem State.setSubscription_filters (s : State) (i : Nat) (v : Option Subscription) :
    (s.setSubscription i v).filters = s.filters := rfl
@[simp] theorem State.setSubscription_masks (s : State) (i : Nat) (v : Option Subscription) :
    (s.setSubscription i v).masks = s.masks := rfl
@[simp] theorem State.setSubscription_copies (s : State) (i : Nat) (v : Option Subscription) :
    (s.setSubscription i v).copies = s.copies := rfl
@[simp] theorem State.setSubscription_tracks (s : State) (i : Nat) (v : Option Subscription) :
    (s.setSubscription i v).tracks = s.tracks := rfl
@[simp] theorem State.setSubscription_sequences (s : State) (i : Nat) (v : Option Subscription) :
    (s.setSubscription i v).sequences = s.sequences := rfl
@[simp] theorem State.setSubscription_egress (s : State) (i : Nat) (v : Option Subscription) :
    (s.setSubscription i v).egress = s.egress := rfl
@[simp] theorem State.setSubscription_subscriptions (s : State) (i : Nat) (v : Option Subscription) :
    (s.setSubscription i v).subscriptions = Tbl.set id none s.subscriptions i v := rfl
@[simp] theorem State.setSubscription_members (s : State) (i : Nat) (v : Option Subscription) :
    (s.setSubscription i v).members = s.members := rfl
@[simp] theorem State.setSubscription_controllers (s : State) (i : Nat) (v : Option Subscription) :
    (s.setSubscription i v).controllers = s.controllers := rfl
@[simp] theorem State.setSubscription_queue (s : State) (i : Nat) (v : Option Subscription) :
    (s.setSubscription i v).queue = s.queue := rfl
@[simp] theorem State.setSubscription_flags (s : State) (i : Nat) (v : Option Subscription) :
    (s.setSubscription i v).flags = s.flags := rfl
@[simp] theorem State.setSubscription_alertEnables (s : State) (i : Nat) (v : Option Subscription) :
    (s.setSubscription i v).alertEnables = s.alertEnables := rfl
@[simp] theorem State.setSubscription_live (s : State) (i : Nat) (v : Option Subscription) :
    (s.setSubscription i v).live = s.live := rfl
@[simp] theorem State.setSubscription_snapshot (s : State) (i : Nat) (v : Option Subscription) :
    (s.setSubscription i v).snapshot = s.snapshot := rfl
@[simp] theorem State.setSubscription_snapshotTime (s : State) (i : Nat) (v : Option Subscription) :
    (s.setSubscription i v).snapshotTime = s.snapshotTime := rfl
@[simp] theorem State.setSubscription_contentOut (s : State) (i : Nat) (v : Option Subscription) :
    (s.setSubscription i v).contentOut = s.contentOut := rfl
@[simp] theorem State.setSubscription_deliveryOut (s : State) (i : Nat) (v : Option Subscription) :
    (s.setSubscription i v).deliveryOut = s.deliveryOut := rfl
@[simp] theorem State.setSubscription_choices (s : State) (i : Nat) (v : Option Subscription) :
    (s.setSubscription i v).choices = s.choices := rfl
@[simp] theorem State.setSubscription_pending (s : State) (i : Nat) (v : Option Subscription) :
    (s.setSubscription i v).pending = s.pending := rfl

@[simp] theorem State.bumpBy_engineTime (s : State) (c : Counter) (n : Nat) :
    (s.bumpBy c n).engineTime = s.engineTime := rfl
@[simp] theorem State.bumpBy_resetting (s : State) (c : Counter) (n : Nat) :
    (s.bumpBy c n).resetting = s.resetting := rfl
@[simp] theorem State.bumpBy_contentUp (s : State) (c : Counter) (n : Nat) :
    (s.bumpBy c n).contentUp = s.contentUp := rfl
@[simp] theorem State.bumpBy_deliveryUp (s : State) (c : Counter) (n : Nat) :
    (s.bumpBy c n).deliveryUp = s.deliveryUp := rfl
@[simp] theorem State.bumpBy_auditoriums (s : State) (c : Counter) (n : Nat) :
    (s.bumpBy c n).auditoriums = s.auditoriums := rfl
@[simp] theorem State.bumpBy_clocks (s : State) (c : Counter) (n : Nat) : (s.bumpBy c n).clocks = s.clocks := rfl
@[simp] theorem State.bumpBy_checks (s : State) (c : Counter) (n : Nat) : (s.bumpBy c n).checks = s.checks := rfl
@[simp] theorem State.bumpBy_beacons (s : State) (c : Counter) (n : Nat) : (s.bumpBy c n).beacons = s.beacons := rfl
@[simp] theorem State.bumpBy_filters (s : State) (c : Counter) (n : Nat) : (s.bumpBy c n).filters = s.filters := rfl
@[simp] theorem State.bumpBy_masks (s : State) (c : Counter) (n : Nat) : (s.bumpBy c n).masks = s.masks := rfl
@[simp] theorem State.bumpBy_copies (s : State) (c : Counter) (n : Nat) : (s.bumpBy c n).copies = s.copies := rfl
@[simp] theorem State.bumpBy_tracks (s : State) (c : Counter) (n : Nat) : (s.bumpBy c n).tracks = s.tracks := rfl
@[simp] theorem State.bumpBy_sequences (s : State) (c : Counter) (n : Nat) :
    (s.bumpBy c n).sequences = s.sequences := rfl
@[simp] theorem State.bumpBy_egress (s : State) (c : Counter) (n : Nat) : (s.bumpBy c n).egress = s.egress := rfl
@[simp] theorem State.bumpBy_subscriptions (s : State) (c : Counter) (n : Nat) :
    (s.bumpBy c n).subscriptions = s.subscriptions := rfl
@[simp] theorem State.bumpBy_members (s : State) (c : Counter) (n : Nat) : (s.bumpBy c n).members = s.members := rfl
@[simp] theorem State.bumpBy_controllers (s : State) (c : Counter) (n : Nat) :
    (s.bumpBy c n).controllers = s.controllers := rfl
@[simp] theorem State.bumpBy_queue (s : State) (c : Counter) (n : Nat) : (s.bumpBy c n).queue = s.queue := rfl
@[simp] theorem State.bumpBy_flags (s : State) (c : Counter) (n : Nat) : (s.bumpBy c n).flags = s.flags := rfl
@[simp] theorem State.bumpBy_alertEnables (s : State) (c : Counter) (n : Nat) :
    (s.bumpBy c n).alertEnables = s.alertEnables := rfl
@[simp] theorem State.bumpBy_live (s : State) (c : Counter) (n : Nat) :
    (s.bumpBy c n).live = Tbl.set Counter.rank 0 s.live c (min counterMax (s.count c + n)) := rfl
@[simp] theorem State.bumpBy_snapshot (s : State) (c : Counter) (n : Nat) :
    (s.bumpBy c n).snapshot = s.snapshot := rfl
@[simp] theorem State.bumpBy_snapshotTime (s : State) (c : Counter) (n : Nat) :
    (s.bumpBy c n).snapshotTime = s.snapshotTime := rfl
@[simp] theorem State.bumpBy_contentOut (s : State) (c : Counter) (n : Nat) :
    (s.bumpBy c n).contentOut = s.contentOut := rfl
@[simp] theorem State.bumpBy_deliveryOut (s : State) (c : Counter) (n : Nat) :
    (s.bumpBy c n).deliveryOut = s.deliveryOut := rfl
@[simp] theorem State.bumpBy_choices (s : State) (c : Counter) (n : Nat) : (s.bumpBy c n).choices = s.choices := rfl
@[simp] theorem State.bumpBy_pending (s : State) (c : Counter) (n : Nat) : (s.bumpBy c n).pending = s.pending := rfl

@[simp] theorem State.bump_engineTime (s : State) (c : Counter) : (s.bump c).engineTime = s.engineTime := rfl
@[simp] theorem State.bump_resetting (s : State) (c : Counter) : (s.bump c).resetting = s.resetting := rfl
@[simp] theorem State.bump_contentUp (s : State) (c : Counter) : (s.bump c).contentUp = s.contentUp := rfl
@[simp] theorem State.bump_deliveryUp (s : State) (c : Counter) : (s.bump c).deliveryUp = s.deliveryUp := rfl
@[simp] theorem State.bump_auditoriums (s : State) (c : Counter) : (s.bump c).auditoriums = s.auditoriums := rfl
@[simp] theorem State.bump_clocks (s : State) (c : Counter) : (s.bump c).clocks = s.clocks := rfl
@[simp] theorem State.bump_checks (s : State) (c : Counter) : (s.bump c).checks = s.checks := rfl
@[simp] theorem State.bump_beacons (s : State) (c : Counter) : (s.bump c).beacons = s.beacons := rfl
@[simp] theorem State.bump_filters (s : State) (c : Counter) : (s.bump c).filters = s.filters := rfl
@[simp] theorem State.bump_masks (s : State) (c : Counter) : (s.bump c).masks = s.masks := rfl
@[simp] theorem State.bump_copies (s : State) (c : Counter) : (s.bump c).copies = s.copies := rfl
@[simp] theorem State.bump_tracks (s : State) (c : Counter) : (s.bump c).tracks = s.tracks := rfl
@[simp] theorem State.bump_sequences (s : State) (c : Counter) : (s.bump c).sequences = s.sequences := rfl
@[simp] theorem State.bump_egress (s : State) (c : Counter) : (s.bump c).egress = s.egress := rfl
@[simp] theorem State.bump_subscriptions (s : State) (c : Counter) : (s.bump c).subscriptions = s.subscriptions := rfl
@[simp] theorem State.bump_members (s : State) (c : Counter) : (s.bump c).members = s.members := rfl
@[simp] theorem State.bump_controllers (s : State) (c : Counter) : (s.bump c).controllers = s.controllers := rfl
@[simp] theorem State.bump_queue (s : State) (c : Counter) : (s.bump c).queue = s.queue := rfl
@[simp] theorem State.bump_flags (s : State) (c : Counter) : (s.bump c).flags = s.flags := rfl
@[simp] theorem State.bump_alertEnables (s : State) (c : Counter) : (s.bump c).alertEnables = s.alertEnables := rfl
@[simp] theorem State.bump_live (s : State) (c : Counter) : (s.bump c).live = (s.bumpBy c 1).live := rfl
@[simp] theorem State.bump_snapshot (s : State) (c : Counter) : (s.bump c).snapshot = s.snapshot := rfl
@[simp] theorem State.bump_snapshotTime (s : State) (c : Counter) : (s.bump c).snapshotTime = s.snapshotTime := rfl
@[simp] theorem State.bump_contentOut (s : State) (c : Counter) : (s.bump c).contentOut = s.contentOut := rfl
@[simp] theorem State.bump_deliveryOut (s : State) (c : Counter) : (s.bump c).deliveryOut = s.deliveryOut := rfl
@[simp] theorem State.bump_choices (s : State) (c : Counter) : (s.bump c).choices = s.choices := rfl
@[simp] theorem State.bump_pending (s : State) (c : Counter) : (s.bump c).pending = s.pending := rfl

@[simp] theorem State.bumpDevice_engineTime (s : State) (c : DeviceCounter) :
    (s.bumpDevice c).engineTime = s.engineTime := rfl
@[simp] theorem State.bumpDevice_resetting (s : State) (c : DeviceCounter) :
    (s.bumpDevice c).resetting = s.resetting := rfl
@[simp] theorem State.bumpDevice_contentUp (s : State) (c : DeviceCounter) :
    (s.bumpDevice c).contentUp = s.contentUp := rfl
@[simp] theorem State.bumpDevice_deliveryUp (s : State) (c : DeviceCounter) :
    (s.bumpDevice c).deliveryUp = s.deliveryUp := rfl
@[simp] theorem State.bumpDevice_auditoriums (s : State) (c : DeviceCounter) :
    (s.bumpDevice c).auditoriums = s.auditoriums := rfl
@[simp] theorem State.bumpDevice_clocks (s : State) (c : DeviceCounter) : (s.bumpDevice c).clocks = s.clocks := rfl
@[simp] theorem State.bumpDevice_checks (s : State) (c : DeviceCounter) : (s.bumpDevice c).checks = s.checks := rfl
@[simp] theorem State.bumpDevice_beacons (s : State) (c : DeviceCounter) : (s.bumpDevice c).beacons = s.beacons := rfl
@[simp] theorem State.bumpDevice_filters (s : State) (c : DeviceCounter) : (s.bumpDevice c).filters = s.filters := rfl
@[simp] theorem State.bumpDevice_masks (s : State) (c : DeviceCounter) : (s.bumpDevice c).masks = s.masks := rfl
@[simp] theorem State.bumpDevice_copies (s : State) (c : DeviceCounter) : (s.bumpDevice c).copies = s.copies := rfl
@[simp] theorem State.bumpDevice_tracks (s : State) (c : DeviceCounter) : (s.bumpDevice c).tracks = s.tracks := rfl
@[simp] theorem State.bumpDevice_sequences (s : State) (c : DeviceCounter) :
    (s.bumpDevice c).sequences = s.sequences := rfl
@[simp] theorem State.bumpDevice_egress (s : State) (c : DeviceCounter) : (s.bumpDevice c).egress = s.egress := rfl
@[simp] theorem State.bumpDevice_subscriptions (s : State) (c : DeviceCounter) :
    (s.bumpDevice c).subscriptions = s.subscriptions := rfl
@[simp] theorem State.bumpDevice_members (s : State) (c : DeviceCounter) : (s.bumpDevice c).members = s.members := rfl
@[simp] theorem State.bumpDevice_controllers (s : State) (c : DeviceCounter) :
    (s.bumpDevice c).controllers = s.controllers := rfl
@[simp] theorem State.bumpDevice_queue (s : State) (c : DeviceCounter) : (s.bumpDevice c).queue = s.queue := rfl
@[simp] theorem State.bumpDevice_flags (s : State) (c : DeviceCounter) : (s.bumpDevice c).flags = s.flags := rfl
@[simp] theorem State.bumpDevice_alertEnables (s : State) (c : DeviceCounter) :
    (s.bumpDevice c).alertEnables = s.alertEnables := rfl
@[simp] theorem State.bumpDevice_live (s : State) (c : DeviceCounter) :
    (s.bumpDevice c).live = (s.bumpBy (.device c) 1).live := rfl
@[simp] theorem State.bumpDevice_snapshot (s : State) (c : DeviceCounter) :
    (s.bumpDevice c).snapshot = s.snapshot := rfl
@[simp] theorem State.bumpDevice_snapshotTime (s : State) (c : DeviceCounter) :
    (s.bumpDevice c).snapshotTime = s.snapshotTime := rfl
@[simp] theorem State.bumpDevice_contentOut (s : State) (c : DeviceCounter) :
    (s.bumpDevice c).contentOut = s.contentOut := rfl
@[simp] theorem State.bumpDevice_deliveryOut (s : State) (c : DeviceCounter) :
    (s.bumpDevice c).deliveryOut = s.deliveryOut := rfl
@[simp] theorem State.bumpDevice_choices (s : State) (c : DeviceCounter) : (s.bumpDevice c).choices = s.choices := rfl
@[simp] theorem State.bumpDevice_pending (s : State) (c : DeviceCounter) : (s.bumpDevice c).pending = s.pending := rfl

@[simp] theorem State.bumpAuditorium_engineTime (s : State) (a : Nat) (c : AuditoriumCounter) :
    (s.bumpAuditorium a c).engineTime = s.engineTime := rfl
@[simp] theorem State.bumpAuditorium_resetting (s : State) (a : Nat) (c : AuditoriumCounter) :
    (s.bumpAuditorium a c).resetting = s.resetting := rfl
@[simp] theorem State.bumpAuditorium_contentUp (s : State) (a : Nat) (c : AuditoriumCounter) :
    (s.bumpAuditorium a c).contentUp = s.contentUp := rfl
@[simp] theorem State.bumpAuditorium_deliveryUp (s : State) (a : Nat) (c : AuditoriumCounter) :
    (s.bumpAuditorium a c).deliveryUp = s.deliveryUp := rfl
@[simp] theorem State.bumpAuditorium_auditoriums (s : State) (a : Nat) (c : AuditoriumCounter) :
    (s.bumpAuditorium a c).auditoriums = s.auditoriums := rfl
@[simp] theorem State.bumpAuditorium_clocks (s : State) (a : Nat) (c : AuditoriumCounter) :
    (s.bumpAuditorium a c).clocks = s.clocks := rfl
@[simp] theorem State.bumpAuditorium_checks (s : State) (a : Nat) (c : AuditoriumCounter) :
    (s.bumpAuditorium a c).checks = s.checks := rfl
@[simp] theorem State.bumpAuditorium_beacons (s : State) (a : Nat) (c : AuditoriumCounter) :
    (s.bumpAuditorium a c).beacons = s.beacons := rfl
@[simp] theorem State.bumpAuditorium_filters (s : State) (a : Nat) (c : AuditoriumCounter) :
    (s.bumpAuditorium a c).filters = s.filters := rfl
@[simp] theorem State.bumpAuditorium_masks (s : State) (a : Nat) (c : AuditoriumCounter) :
    (s.bumpAuditorium a c).masks = s.masks := rfl
@[simp] theorem State.bumpAuditorium_copies (s : State) (a : Nat) (c : AuditoriumCounter) :
    (s.bumpAuditorium a c).copies = s.copies := rfl
@[simp] theorem State.bumpAuditorium_tracks (s : State) (a : Nat) (c : AuditoriumCounter) :
    (s.bumpAuditorium a c).tracks = s.tracks := rfl
@[simp] theorem State.bumpAuditorium_sequences (s : State) (a : Nat) (c : AuditoriumCounter) :
    (s.bumpAuditorium a c).sequences = s.sequences := rfl
@[simp] theorem State.bumpAuditorium_egress (s : State) (a : Nat) (c : AuditoriumCounter) :
    (s.bumpAuditorium a c).egress = s.egress := rfl
@[simp] theorem State.bumpAuditorium_subscriptions (s : State) (a : Nat) (c : AuditoriumCounter) :
    (s.bumpAuditorium a c).subscriptions = s.subscriptions := rfl
@[simp] theorem State.bumpAuditorium_members (s : State) (a : Nat) (c : AuditoriumCounter) :
    (s.bumpAuditorium a c).members = s.members := rfl
@[simp] theorem State.bumpAuditorium_controllers (s : State) (a : Nat) (c : AuditoriumCounter) :
    (s.bumpAuditorium a c).controllers = s.controllers := rfl
@[simp] theorem State.bumpAuditorium_queue (s : State) (a : Nat) (c : AuditoriumCounter) :
    (s.bumpAuditorium a c).queue = s.queue := rfl
@[simp] theorem State.bumpAuditorium_flags (s : State) (a : Nat) (c : AuditoriumCounter) :
    (s.bumpAuditorium a c).flags = s.flags := rfl
@[simp] theorem State.bumpAuditorium_alertEnables (s : State) (a : Nat) (c : AuditoriumCounter) :
    (s.bumpAuditorium a c).alertEnables = s.alertEnables := rfl
@[simp] theorem State.bumpAuditorium_live (s : State) (a : Nat) (c : AuditoriumCounter) :
    (s.bumpAuditorium a c).live = (s.bumpBy (.auditorium a c) 1).live := rfl
@[simp] theorem State.bumpAuditorium_snapshot (s : State) (a : Nat) (c : AuditoriumCounter) :
    (s.bumpAuditorium a c).snapshot = s.snapshot := rfl
@[simp] theorem State.bumpAuditorium_snapshotTime (s : State) (a : Nat) (c : AuditoriumCounter) :
    (s.bumpAuditorium a c).snapshotTime = s.snapshotTime := rfl
@[simp] theorem State.bumpAuditorium_contentOut (s : State) (a : Nat) (c : AuditoriumCounter) :
    (s.bumpAuditorium a c).contentOut = s.contentOut := rfl
@[simp] theorem State.bumpAuditorium_deliveryOut (s : State) (a : Nat) (c : AuditoriumCounter) :
    (s.bumpAuditorium a c).deliveryOut = s.deliveryOut := rfl
@[simp] theorem State.bumpAuditorium_choices (s : State) (a : Nat) (c : AuditoriumCounter) :
    (s.bumpAuditorium a c).choices = s.choices := rfl
@[simp] theorem State.bumpAuditorium_pending (s : State) (a : Nat) (c : AuditoriumCounter) :
    (s.bumpAuditorium a c).pending = s.pending := rfl

@[simp] theorem State.bumpTrack_engineTime (s : State) (k : Nat) (c : TrackCounter) :
    (s.bumpTrack k c).engineTime = s.engineTime := rfl
@[simp] theorem State.bumpTrack_resetting (s : State) (k : Nat) (c : TrackCounter) :
    (s.bumpTrack k c).resetting = s.resetting := rfl
@[simp] theorem State.bumpTrack_contentUp (s : State) (k : Nat) (c : TrackCounter) :
    (s.bumpTrack k c).contentUp = s.contentUp := rfl
@[simp] theorem State.bumpTrack_deliveryUp (s : State) (k : Nat) (c : TrackCounter) :
    (s.bumpTrack k c).deliveryUp = s.deliveryUp := rfl
@[simp] theorem State.bumpTrack_auditoriums (s : State) (k : Nat) (c : TrackCounter) :
    (s.bumpTrack k c).auditoriums = s.auditoriums := rfl
@[simp] theorem State.bumpTrack_clocks (s : State) (k : Nat) (c : TrackCounter) :
    (s.bumpTrack k c).clocks = s.clocks := rfl
@[simp] theorem State.bumpTrack_checks (s : State) (k : Nat) (c : TrackCounter) :
    (s.bumpTrack k c).checks = s.checks := rfl
@[simp] theorem State.bumpTrack_beacons (s : State) (k : Nat) (c : TrackCounter) :
    (s.bumpTrack k c).beacons = s.beacons := rfl
@[simp] theorem State.bumpTrack_filters (s : State) (k : Nat) (c : TrackCounter) :
    (s.bumpTrack k c).filters = s.filters := rfl
@[simp] theorem State.bumpTrack_masks (s : State) (k : Nat) (c : TrackCounter) :
    (s.bumpTrack k c).masks = s.masks := rfl
@[simp] theorem State.bumpTrack_copies (s : State) (k : Nat) (c : TrackCounter) :
    (s.bumpTrack k c).copies = s.copies := rfl
@[simp] theorem State.bumpTrack_tracks (s : State) (k : Nat) (c : TrackCounter) :
    (s.bumpTrack k c).tracks = s.tracks := rfl
@[simp] theorem State.bumpTrack_sequences (s : State) (k : Nat) (c : TrackCounter) :
    (s.bumpTrack k c).sequences = s.sequences := rfl
@[simp] theorem State.bumpTrack_egress (s : State) (k : Nat) (c : TrackCounter) :
    (s.bumpTrack k c).egress = s.egress := rfl
@[simp] theorem State.bumpTrack_subscriptions (s : State) (k : Nat) (c : TrackCounter) :
    (s.bumpTrack k c).subscriptions = s.subscriptions := rfl
@[simp] theorem State.bumpTrack_members (s : State) (k : Nat) (c : TrackCounter) :
    (s.bumpTrack k c).members = s.members := rfl
@[simp] theorem State.bumpTrack_controllers (s : State) (k : Nat) (c : TrackCounter) :
    (s.bumpTrack k c).controllers = s.controllers := rfl
@[simp] theorem State.bumpTrack_queue (s : State) (k : Nat) (c : TrackCounter) :
    (s.bumpTrack k c).queue = s.queue := rfl
@[simp] theorem State.bumpTrack_flags (s : State) (k : Nat) (c : TrackCounter) :
    (s.bumpTrack k c).flags = s.flags := rfl
@[simp] theorem State.bumpTrack_alertEnables (s : State) (k : Nat) (c : TrackCounter) :
    (s.bumpTrack k c).alertEnables = s.alertEnables := rfl
@[simp] theorem State.bumpTrack_live (s : State) (k : Nat) (c : TrackCounter) :
    (s.bumpTrack k c).live = (s.bumpBy (.track k c) 1).live := rfl
@[simp] theorem State.bumpTrack_snapshot (s : State) (k : Nat) (c : TrackCounter) :
    (s.bumpTrack k c).snapshot = s.snapshot := rfl
@[simp] theorem State.bumpTrack_snapshotTime (s : State) (k : Nat) (c : TrackCounter) :
    (s.bumpTrack k c).snapshotTime = s.snapshotTime := rfl
@[simp] theorem State.bumpTrack_contentOut (s : State) (k : Nat) (c : TrackCounter) :
    (s.bumpTrack k c).contentOut = s.contentOut := rfl
@[simp] theorem State.bumpTrack_deliveryOut (s : State) (k : Nat) (c : TrackCounter) :
    (s.bumpTrack k c).deliveryOut = s.deliveryOut := rfl
@[simp] theorem State.bumpTrack_choices (s : State) (k : Nat) (c : TrackCounter) :
    (s.bumpTrack k c).choices = s.choices := rfl
@[simp] theorem State.bumpTrack_pending (s : State) (k : Nat) (c : TrackCounter) :
    (s.bumpTrack k c).pending = s.pending := rfl

@[simp] theorem State.writeFlag_engineTime (s : State) (f : Flag) (v : Bool) :
    (s.writeFlag f v).engineTime = s.engineTime := rfl
@[simp] theorem State.writeFlag_resetting (s : State) (f : Flag) (v : Bool) :
    (s.writeFlag f v).resetting = s.resetting := rfl
@[simp] theorem State.writeFlag_contentUp (s : State) (f : Flag) (v : Bool) :
    (s.writeFlag f v).contentUp = s.contentUp := rfl
@[simp] theorem State.writeFlag_deliveryUp (s : State) (f : Flag) (v : Bool) :
    (s.writeFlag f v).deliveryUp = s.deliveryUp := rfl
@[simp] theorem State.writeFlag_auditoriums (s : State) (f : Flag) (v : Bool) :
    (s.writeFlag f v).auditoriums = s.auditoriums := rfl
@[simp] theorem State.writeFlag_clocks (s : State) (f : Flag) (v : Bool) : (s.writeFlag f v).clocks = s.clocks := rfl
@[simp] theorem State.writeFlag_checks (s : State) (f : Flag) (v : Bool) : (s.writeFlag f v).checks = s.checks := rfl
@[simp] theorem State.writeFlag_beacons (s : State) (f : Flag) (v : Bool) :
    (s.writeFlag f v).beacons = s.beacons := rfl
@[simp] theorem State.writeFlag_filters (s : State) (f : Flag) (v : Bool) :
    (s.writeFlag f v).filters = s.filters := rfl
@[simp] theorem State.writeFlag_masks (s : State) (f : Flag) (v : Bool) : (s.writeFlag f v).masks = s.masks := rfl
@[simp] theorem State.writeFlag_copies (s : State) (f : Flag) (v : Bool) : (s.writeFlag f v).copies = s.copies := rfl
@[simp] theorem State.writeFlag_tracks (s : State) (f : Flag) (v : Bool) : (s.writeFlag f v).tracks = s.tracks := rfl
@[simp] theorem State.writeFlag_sequences (s : State) (f : Flag) (v : Bool) :
    (s.writeFlag f v).sequences = s.sequences := rfl
@[simp] theorem State.writeFlag_egress (s : State) (f : Flag) (v : Bool) : (s.writeFlag f v).egress = s.egress := rfl
@[simp] theorem State.writeFlag_subscriptions (s : State) (f : Flag) (v : Bool) :
    (s.writeFlag f v).subscriptions = s.subscriptions := rfl
@[simp] theorem State.writeFlag_members (s : State) (f : Flag) (v : Bool) :
    (s.writeFlag f v).members = s.members := rfl
@[simp] theorem State.writeFlag_controllers (s : State) (f : Flag) (v : Bool) :
    (s.writeFlag f v).controllers = s.controllers := rfl
@[simp] theorem State.writeFlag_queue (s : State) (f : Flag) (v : Bool) : (s.writeFlag f v).queue = s.queue := rfl
@[simp] theorem State.writeFlag_flags (s : State) (f : Flag) (v : Bool) :
    (s.writeFlag f v).flags = Tbl.set Flag.key false s.flags f v := rfl
@[simp] theorem State.writeFlag_alertEnables (s : State) (f : Flag) (v : Bool) :
    (s.writeFlag f v).alertEnables = s.alertEnables := rfl
@[simp] theorem State.writeFlag_live (s : State) (f : Flag) (v : Bool) : (s.writeFlag f v).live = s.live := rfl
@[simp] theorem State.writeFlag_snapshot (s : State) (f : Flag) (v : Bool) :
    (s.writeFlag f v).snapshot = s.snapshot := rfl
@[simp] theorem State.writeFlag_snapshotTime (s : State) (f : Flag) (v : Bool) :
    (s.writeFlag f v).snapshotTime = s.snapshotTime := rfl
@[simp] theorem State.writeFlag_contentOut (s : State) (f : Flag) (v : Bool) :
    (s.writeFlag f v).contentOut = s.contentOut := rfl
@[simp] theorem State.writeFlag_deliveryOut (s : State) (f : Flag) (v : Bool) :
    (s.writeFlag f v).deliveryOut = s.deliveryOut := rfl
@[simp] theorem State.writeFlag_choices (s : State) (f : Flag) (v : Bool) :
    (s.writeFlag f v).choices = s.choices := rfl
@[simp] theorem State.writeFlag_pending (s : State) (f : Flag) (v : Bool) :
    (s.writeFlag f v).pending = s.pending := rfl

@[simp] theorem State.pushContent_engineTime (s : State) (f : ContentFrame) :
    (s.pushContent f).engineTime = s.engineTime := rfl
@[simp] theorem State.pushContent_resetting (s : State) (f : ContentFrame) :
    (s.pushContent f).resetting = s.resetting := rfl
@[simp] theorem State.pushContent_contentUp (s : State) (f : ContentFrame) :
    (s.pushContent f).contentUp = s.contentUp := rfl
@[simp] theorem State.pushContent_deliveryUp (s : State) (f : ContentFrame) :
    (s.pushContent f).deliveryUp = s.deliveryUp := rfl
@[simp] theorem State.pushContent_auditoriums (s : State) (f : ContentFrame) :
    (s.pushContent f).auditoriums = s.auditoriums := rfl
@[simp] theorem State.pushContent_clocks (s : State) (f : ContentFrame) : (s.pushContent f).clocks = s.clocks := rfl
@[simp] theorem State.pushContent_checks (s : State) (f : ContentFrame) : (s.pushContent f).checks = s.checks := rfl
@[simp] theorem State.pushContent_beacons (s : State) (f : ContentFrame) :
    (s.pushContent f).beacons = s.beacons := rfl
@[simp] theorem State.pushContent_filters (s : State) (f : ContentFrame) :
    (s.pushContent f).filters = s.filters := rfl
@[simp] theorem State.pushContent_masks (s : State) (f : ContentFrame) : (s.pushContent f).masks = s.masks := rfl
@[simp] theorem State.pushContent_copies (s : State) (f : ContentFrame) : (s.pushContent f).copies = s.copies := rfl
@[simp] theorem State.pushContent_tracks (s : State) (f : ContentFrame) : (s.pushContent f).tracks = s.tracks := rfl
@[simp] theorem State.pushContent_sequences (s : State) (f : ContentFrame) :
    (s.pushContent f).sequences = s.sequences := rfl
@[simp] theorem State.pushContent_egress (s : State) (f : ContentFrame) : (s.pushContent f).egress = s.egress := rfl
@[simp] theorem State.pushContent_subscriptions (s : State) (f : ContentFrame) :
    (s.pushContent f).subscriptions = s.subscriptions := rfl
@[simp] theorem State.pushContent_members (s : State) (f : ContentFrame) :
    (s.pushContent f).members = s.members := rfl
@[simp] theorem State.pushContent_controllers (s : State) (f : ContentFrame) :
    (s.pushContent f).controllers = s.controllers := rfl
@[simp] theorem State.pushContent_queue (s : State) (f : ContentFrame) : (s.pushContent f).queue = s.queue := rfl
@[simp] theorem State.pushContent_flags (s : State) (f : ContentFrame) : (s.pushContent f).flags = s.flags := rfl
@[simp] theorem State.pushContent_alertEnables (s : State) (f : ContentFrame) :
    (s.pushContent f).alertEnables = s.alertEnables := rfl
@[simp] theorem State.pushContent_live (s : State) (f : ContentFrame) : (s.pushContent f).live = s.live := rfl
@[simp] theorem State.pushContent_snapshot (s : State) (f : ContentFrame) :
    (s.pushContent f).snapshot = s.snapshot := rfl
@[simp] theorem State.pushContent_snapshotTime (s : State) (f : ContentFrame) :
    (s.pushContent f).snapshotTime = s.snapshotTime := rfl
@[simp] theorem State.pushContent_contentOut (s : State) (f : ContentFrame) :
    (s.pushContent f).contentOut = s.contentOut ++ [f] := rfl
@[simp] theorem State.pushContent_deliveryOut (s : State) (f : ContentFrame) :
    (s.pushContent f).deliveryOut = s.deliveryOut := rfl
@[simp] theorem State.pushContent_choices (s : State) (f : ContentFrame) :
    (s.pushContent f).choices = s.choices := rfl
@[simp] theorem State.pushContent_pending (s : State) (f : ContentFrame) :
    (s.pushContent f).pending = s.pending := rfl

@[simp] theorem State.removeWaiting_engineTime (s : State) (e : Entry) :
    (s.removeWaiting e).engineTime = s.engineTime := rfl
@[simp] theorem State.removeWaiting_resetting (s : State) (e : Entry) :
    (s.removeWaiting e).resetting = s.resetting := rfl
@[simp] theorem State.removeWaiting_contentUp (s : State) (e : Entry) :
    (s.removeWaiting e).contentUp = s.contentUp := rfl
@[simp] theorem State.removeWaiting_deliveryUp (s : State) (e : Entry) :
    (s.removeWaiting e).deliveryUp = s.deliveryUp := rfl
@[simp] theorem State.removeWaiting_auditoriums (s : State) (e : Entry) :
    (s.removeWaiting e).auditoriums = s.auditoriums := rfl
@[simp] theorem State.removeWaiting_clocks (s : State) (e : Entry) : (s.removeWaiting e).clocks = s.clocks := rfl
@[simp] theorem State.removeWaiting_checks (s : State) (e : Entry) : (s.removeWaiting e).checks = s.checks := rfl
@[simp] theorem State.removeWaiting_beacons (s : State) (e : Entry) : (s.removeWaiting e).beacons = s.beacons := rfl
@[simp] theorem State.removeWaiting_filters (s : State) (e : Entry) : (s.removeWaiting e).filters = s.filters := rfl
@[simp] theorem State.removeWaiting_masks (s : State) (e : Entry) : (s.removeWaiting e).masks = s.masks := rfl
@[simp] theorem State.removeWaiting_copies (s : State) (e : Entry) : (s.removeWaiting e).copies = s.copies := rfl
@[simp] theorem State.removeWaiting_tracks (s : State) (e : Entry) : (s.removeWaiting e).tracks = s.tracks := rfl
@[simp] theorem State.removeWaiting_sequences (s : State) (e : Entry) :
    (s.removeWaiting e).sequences = s.sequences := rfl
@[simp] theorem State.removeWaiting_egress (s : State) (e : Entry) :
    (s.removeWaiting e).egress = { s.egress with waiting := s.egress.waiting.erase e } := rfl
@[simp] theorem State.removeWaiting_subscriptions (s : State) (e : Entry) :
    (s.removeWaiting e).subscriptions = s.subscriptions := rfl
@[simp] theorem State.removeWaiting_members (s : State) (e : Entry) : (s.removeWaiting e).members = s.members := rfl
@[simp] theorem State.removeWaiting_controllers (s : State) (e : Entry) :
    (s.removeWaiting e).controllers = s.controllers := rfl
@[simp] theorem State.removeWaiting_queue (s : State) (e : Entry) : (s.removeWaiting e).queue = s.queue := rfl
@[simp] theorem State.removeWaiting_flags (s : State) (e : Entry) : (s.removeWaiting e).flags = s.flags := rfl
@[simp] theorem State.removeWaiting_alertEnables (s : State) (e : Entry) :
    (s.removeWaiting e).alertEnables = s.alertEnables := rfl
@[simp] theorem State.removeWaiting_live (s : State) (e : Entry) : (s.removeWaiting e).live = s.live := rfl
@[simp] theorem State.removeWaiting_snapshot (s : State) (e : Entry) :
    (s.removeWaiting e).snapshot = s.snapshot := rfl
@[simp] theorem State.removeWaiting_snapshotTime (s : State) (e : Entry) :
    (s.removeWaiting e).snapshotTime = s.snapshotTime := rfl
@[simp] theorem State.removeWaiting_contentOut (s : State) (e : Entry) :
    (s.removeWaiting e).contentOut = s.contentOut := rfl
@[simp] theorem State.removeWaiting_deliveryOut (s : State) (e : Entry) :
    (s.removeWaiting e).deliveryOut = s.deliveryOut := rfl
@[simp] theorem State.removeWaiting_choices (s : State) (e : Entry) : (s.removeWaiting e).choices = s.choices := rfl
@[simp] theorem State.removeWaiting_pending (s : State) (e : Entry) : (s.removeWaiting e).pending = s.pending := rfl

@[simp] theorem State.clearFlight_engineTime (s : State) : s.clearFlight.engineTime = s.engineTime := rfl
@[simp] theorem State.clearFlight_resetting (s : State) : s.clearFlight.resetting = s.resetting := rfl
@[simp] theorem State.clearFlight_contentUp (s : State) : s.clearFlight.contentUp = s.contentUp := rfl
@[simp] theorem State.clearFlight_deliveryUp (s : State) : s.clearFlight.deliveryUp = s.deliveryUp := rfl
@[simp] theorem State.clearFlight_auditoriums (s : State) : s.clearFlight.auditoriums = s.auditoriums := rfl
@[simp] theorem State.clearFlight_clocks (s : State) : s.clearFlight.clocks = s.clocks := rfl
@[simp] theorem State.clearFlight_checks (s : State) : s.clearFlight.checks = s.checks := rfl
@[simp] theorem State.clearFlight_beacons (s : State) : s.clearFlight.beacons = s.beacons := rfl
@[simp] theorem State.clearFlight_filters (s : State) : s.clearFlight.filters = s.filters := rfl
@[simp] theorem State.clearFlight_masks (s : State) : s.clearFlight.masks = s.masks := rfl
@[simp] theorem State.clearFlight_copies (s : State) : s.clearFlight.copies = s.copies := rfl
@[simp] theorem State.clearFlight_tracks (s : State) : s.clearFlight.tracks = s.tracks := rfl
@[simp] theorem State.clearFlight_sequences (s : State) : s.clearFlight.sequences = s.sequences := rfl
@[simp] theorem State.clearFlight_egress (s : State) :
    s.clearFlight.egress = { s.egress with inFlight := none } := rfl
@[simp] theorem State.clearFlight_subscriptions (s : State) : s.clearFlight.subscriptions = s.subscriptions := rfl
@[simp] theorem State.clearFlight_members (s : State) : s.clearFlight.members = s.members := rfl
@[simp] theorem State.clearFlight_controllers (s : State) : s.clearFlight.controllers = s.controllers := rfl
@[simp] theorem State.clearFlight_queue (s : State) : s.clearFlight.queue = s.queue := rfl
@[simp] theorem State.clearFlight_flags (s : State) : s.clearFlight.flags = s.flags := rfl
@[simp] theorem State.clearFlight_alertEnables (s : State) : s.clearFlight.alertEnables = s.alertEnables := rfl
@[simp] theorem State.clearFlight_live (s : State) : s.clearFlight.live = s.live := rfl
@[simp] theorem State.clearFlight_snapshot (s : State) : s.clearFlight.snapshot = s.snapshot := rfl
@[simp] theorem State.clearFlight_snapshotTime (s : State) : s.clearFlight.snapshotTime = s.snapshotTime := rfl
@[simp] theorem State.clearFlight_contentOut (s : State) : s.clearFlight.contentOut = s.contentOut := rfl
@[simp] theorem State.clearFlight_deliveryOut (s : State) : s.clearFlight.deliveryOut = s.deliveryOut := rfl
@[simp] theorem State.clearFlight_choices (s : State) : s.clearFlight.choices = s.choices := rfl
@[simp] theorem State.clearFlight_pending (s : State) : s.clearFlight.pending = s.pending := rfl

@[simp] theorem State.clearTail_engineTime (s : State) : s.clearTail.engineTime = s.engineTime := rfl
@[simp] theorem State.clearTail_resetting (s : State) : s.clearTail.resetting = s.resetting := rfl
@[simp] theorem State.clearTail_contentUp (s : State) : s.clearTail.contentUp = s.contentUp := rfl
@[simp] theorem State.clearTail_deliveryUp (s : State) : s.clearTail.deliveryUp = s.deliveryUp := rfl
@[simp] theorem State.clearTail_auditoriums (s : State) : s.clearTail.auditoriums = s.auditoriums := rfl
@[simp] theorem State.clearTail_clocks (s : State) : s.clearTail.clocks = s.clocks := rfl
@[simp] theorem State.clearTail_checks (s : State) : s.clearTail.checks = s.checks := rfl
@[simp] theorem State.clearTail_beacons (s : State) : s.clearTail.beacons = s.beacons := rfl
@[simp] theorem State.clearTail_filters (s : State) : s.clearTail.filters = s.filters := rfl
@[simp] theorem State.clearTail_masks (s : State) : s.clearTail.masks = s.masks := rfl
@[simp] theorem State.clearTail_copies (s : State) : s.clearTail.copies = s.copies := rfl
@[simp] theorem State.clearTail_tracks (s : State) : s.clearTail.tracks = s.tracks := rfl
@[simp] theorem State.clearTail_sequences (s : State) : s.clearTail.sequences = s.sequences := rfl
@[simp] theorem State.clearTail_egress (s : State) : s.clearTail.egress = { s.egress with wireTail := none } := rfl
@[simp] theorem State.clearTail_subscriptions (s : State) : s.clearTail.subscriptions = s.subscriptions := rfl
@[simp] theorem State.clearTail_members (s : State) : s.clearTail.members = s.members := rfl
@[simp] theorem State.clearTail_controllers (s : State) : s.clearTail.controllers = s.controllers := rfl
@[simp] theorem State.clearTail_queue (s : State) : s.clearTail.queue = s.queue := rfl
@[simp] theorem State.clearTail_flags (s : State) : s.clearTail.flags = s.flags := rfl
@[simp] theorem State.clearTail_alertEnables (s : State) : s.clearTail.alertEnables = s.alertEnables := rfl
@[simp] theorem State.clearTail_live (s : State) : s.clearTail.live = s.live := rfl
@[simp] theorem State.clearTail_snapshot (s : State) : s.clearTail.snapshot = s.snapshot := rfl
@[simp] theorem State.clearTail_snapshotTime (s : State) : s.clearTail.snapshotTime = s.snapshotTime := rfl
@[simp] theorem State.clearTail_contentOut (s : State) : s.clearTail.contentOut = s.contentOut := rfl
@[simp] theorem State.clearTail_deliveryOut (s : State) : s.clearTail.deliveryOut = s.deliveryOut := rfl
@[simp] theorem State.clearTail_choices (s : State) : s.clearTail.choices = s.choices := rfl
@[simp] theorem State.clearTail_pending (s : State) : s.clearTail.pending = s.pending := rfl

@[simp] theorem State.pushDelivery_engineTime (s : State) (f : DeliveryFrame) :
    (s.pushDelivery f).engineTime = s.engineTime := rfl
@[simp] theorem State.pushDelivery_resetting (s : State) (f : DeliveryFrame) :
    (s.pushDelivery f).resetting = s.resetting := rfl
@[simp] theorem State.pushDelivery_contentUp (s : State) (f : DeliveryFrame) :
    (s.pushDelivery f).contentUp = s.contentUp := rfl
@[simp] theorem State.pushDelivery_deliveryUp (s : State) (f : DeliveryFrame) :
    (s.pushDelivery f).deliveryUp = s.deliveryUp := rfl
@[simp] theorem State.pushDelivery_auditoriums (s : State) (f : DeliveryFrame) :
    (s.pushDelivery f).auditoriums = s.auditoriums := rfl
@[simp] theorem State.pushDelivery_clocks (s : State) (f : DeliveryFrame) :
    (s.pushDelivery f).clocks = s.clocks := rfl
@[simp] theorem State.pushDelivery_checks (s : State) (f : DeliveryFrame) :
    (s.pushDelivery f).checks = s.checks := rfl
@[simp] theorem State.pushDelivery_beacons (s : State) (f : DeliveryFrame) :
    (s.pushDelivery f).beacons = s.beacons := rfl
@[simp] theorem State.pushDelivery_filters (s : State) (f : DeliveryFrame) :
    (s.pushDelivery f).filters = s.filters := rfl
@[simp] theorem State.pushDelivery_masks (s : State) (f : DeliveryFrame) : (s.pushDelivery f).masks = s.masks := rfl
@[simp] theorem State.pushDelivery_copies (s : State) (f : DeliveryFrame) :
    (s.pushDelivery f).copies = s.copies := rfl
@[simp] theorem State.pushDelivery_tracks (s : State) (f : DeliveryFrame) :
    (s.pushDelivery f).tracks = s.tracks := rfl
@[simp] theorem State.pushDelivery_sequences (s : State) (f : DeliveryFrame) :
    (s.pushDelivery f).sequences = s.sequences := rfl
@[simp] theorem State.pushDelivery_egress (s : State) (f : DeliveryFrame) :
    (s.pushDelivery f).egress = s.egress := rfl
@[simp] theorem State.pushDelivery_subscriptions (s : State) (f : DeliveryFrame) :
    (s.pushDelivery f).subscriptions = s.subscriptions := rfl
@[simp] theorem State.pushDelivery_members (s : State) (f : DeliveryFrame) :
    (s.pushDelivery f).members = s.members := rfl
@[simp] theorem State.pushDelivery_controllers (s : State) (f : DeliveryFrame) :
    (s.pushDelivery f).controllers = s.controllers := rfl
@[simp] theorem State.pushDelivery_queue (s : State) (f : DeliveryFrame) : (s.pushDelivery f).queue = s.queue := rfl
@[simp] theorem State.pushDelivery_flags (s : State) (f : DeliveryFrame) : (s.pushDelivery f).flags = s.flags := rfl
@[simp] theorem State.pushDelivery_alertEnables (s : State) (f : DeliveryFrame) :
    (s.pushDelivery f).alertEnables = s.alertEnables := rfl
@[simp] theorem State.pushDelivery_live (s : State) (f : DeliveryFrame) : (s.pushDelivery f).live = s.live := rfl
@[simp] theorem State.pushDelivery_snapshot (s : State) (f : DeliveryFrame) :
    (s.pushDelivery f).snapshot = s.snapshot := rfl
@[simp] theorem State.pushDelivery_snapshotTime (s : State) (f : DeliveryFrame) :
    (s.pushDelivery f).snapshotTime = s.snapshotTime := rfl
@[simp] theorem State.pushDelivery_contentOut (s : State) (f : DeliveryFrame) :
    (s.pushDelivery f).contentOut = s.contentOut := rfl
@[simp] theorem State.pushDelivery_deliveryOut (s : State) (f : DeliveryFrame) :
    (s.pushDelivery f).deliveryOut = s.deliveryOut ++ [f] := rfl
@[simp] theorem State.pushDelivery_choices (s : State) (f : DeliveryFrame) :
    (s.pushDelivery f).choices = s.choices := rfl
@[simp] theorem State.pushDelivery_pending (s : State) (f : DeliveryFrame) :
    (s.pushDelivery f).pending = s.pending := rfl

@[simp] theorem State.setPause_engineTime (s : State) (e : Option Nat) :
    (s.setPause e).engineTime = s.engineTime := rfl
@[simp] theorem State.setPause_resetting (s : State) (e : Option Nat) : (s.setPause e).resetting = s.resetting := rfl
@[simp] theorem State.setPause_contentUp (s : State) (e : Option Nat) : (s.setPause e).contentUp = s.contentUp := rfl
@[simp] theorem State.setPause_deliveryUp (s : State) (e : Option Nat) :
    (s.setPause e).deliveryUp = s.deliveryUp := rfl
@[simp] theorem State.setPause_auditoriums (s : State) (e : Option Nat) :
    (s.setPause e).auditoriums = s.auditoriums := rfl
@[simp] theorem State.setPause_clocks (s : State) (e : Option Nat) : (s.setPause e).clocks = s.clocks := rfl
@[simp] theorem State.setPause_checks (s : State) (e : Option Nat) : (s.setPause e).checks = s.checks := rfl
@[simp] theorem State.setPause_beacons (s : State) (e : Option Nat) : (s.setPause e).beacons = s.beacons := rfl
@[simp] theorem State.setPause_filters (s : State) (e : Option Nat) : (s.setPause e).filters = s.filters := rfl
@[simp] theorem State.setPause_masks (s : State) (e : Option Nat) : (s.setPause e).masks = s.masks := rfl
@[simp] theorem State.setPause_copies (s : State) (e : Option Nat) : (s.setPause e).copies = s.copies := rfl
@[simp] theorem State.setPause_tracks (s : State) (e : Option Nat) : (s.setPause e).tracks = s.tracks := rfl
@[simp] theorem State.setPause_sequences (s : State) (e : Option Nat) : (s.setPause e).sequences = s.sequences := rfl
@[simp] theorem State.setPause_egress (s : State) (e : Option Nat) :
    (s.setPause e).egress = { s.egress with pauseEnd := e } := rfl
@[simp] theorem State.setPause_subscriptions (s : State) (e : Option Nat) :
    (s.setPause e).subscriptions = s.subscriptions := rfl
@[simp] theorem State.setPause_members (s : State) (e : Option Nat) : (s.setPause e).members = s.members := rfl
@[simp] theorem State.setPause_controllers (s : State) (e : Option Nat) :
    (s.setPause e).controllers = s.controllers := rfl
@[simp] theorem State.setPause_queue (s : State) (e : Option Nat) : (s.setPause e).queue = s.queue := rfl
@[simp] theorem State.setPause_flags (s : State) (e : Option Nat) : (s.setPause e).flags = s.flags := rfl
@[simp] theorem State.setPause_alertEnables (s : State) (e : Option Nat) :
    (s.setPause e).alertEnables = s.alertEnables := rfl
@[simp] theorem State.setPause_live (s : State) (e : Option Nat) : (s.setPause e).live = s.live := rfl
@[simp] theorem State.setPause_snapshot (s : State) (e : Option Nat) : (s.setPause e).snapshot = s.snapshot := rfl
@[simp] theorem State.setPause_snapshotTime (s : State) (e : Option Nat) :
    (s.setPause e).snapshotTime = s.snapshotTime := rfl
@[simp] theorem State.setPause_contentOut (s : State) (e : Option Nat) :
    (s.setPause e).contentOut = s.contentOut := rfl
@[simp] theorem State.setPause_deliveryOut (s : State) (e : Option Nat) :
    (s.setPause e).deliveryOut = s.deliveryOut := rfl
@[simp] theorem State.setPause_choices (s : State) (e : Option Nat) : (s.setPause e).choices = s.choices := rfl
@[simp] theorem State.setPause_pending (s : State) (e : Option Nat) : (s.setPause e).pending = s.pending := rfl

@[simp] theorem State.setRotation_engineTime (s : State) (c : EgressClass) (r : Rotation) :
    (s.setRotation c r).engineTime = s.engineTime := rfl
@[simp] theorem State.setRotation_resetting (s : State) (c : EgressClass) (r : Rotation) :
    (s.setRotation c r).resetting = s.resetting := rfl
@[simp] theorem State.setRotation_contentUp (s : State) (c : EgressClass) (r : Rotation) :
    (s.setRotation c r).contentUp = s.contentUp := rfl
@[simp] theorem State.setRotation_deliveryUp (s : State) (c : EgressClass) (r : Rotation) :
    (s.setRotation c r).deliveryUp = s.deliveryUp := rfl
@[simp] theorem State.setRotation_auditoriums (s : State) (c : EgressClass) (r : Rotation) :
    (s.setRotation c r).auditoriums = s.auditoriums := rfl
@[simp] theorem State.setRotation_clocks (s : State) (c : EgressClass) (r : Rotation) :
    (s.setRotation c r).clocks = s.clocks := rfl
@[simp] theorem State.setRotation_checks (s : State) (c : EgressClass) (r : Rotation) :
    (s.setRotation c r).checks = s.checks := rfl
@[simp] theorem State.setRotation_beacons (s : State) (c : EgressClass) (r : Rotation) :
    (s.setRotation c r).beacons = s.beacons := rfl
@[simp] theorem State.setRotation_filters (s : State) (c : EgressClass) (r : Rotation) :
    (s.setRotation c r).filters = s.filters := rfl
@[simp] theorem State.setRotation_masks (s : State) (c : EgressClass) (r : Rotation) :
    (s.setRotation c r).masks = s.masks := rfl
@[simp] theorem State.setRotation_copies (s : State) (c : EgressClass) (r : Rotation) :
    (s.setRotation c r).copies = s.copies := rfl
@[simp] theorem State.setRotation_tracks (s : State) (c : EgressClass) (r : Rotation) :
    (s.setRotation c r).tracks = s.tracks := rfl
@[simp] theorem State.setRotation_sequences (s : State) (c : EgressClass) (r : Rotation) :
    (s.setRotation c r).sequences = s.sequences := rfl
@[simp] theorem State.setRotation_egress (s : State) (c : EgressClass) (r : Rotation) :
    (s.setRotation c r).egress = { s.egress with rotation := s.egress.rotation.set c r } := rfl
@[simp] theorem State.setRotation_subscriptions (s : State) (c : EgressClass) (r : Rotation) :
    (s.setRotation c r).subscriptions = s.subscriptions := rfl
@[simp] theorem State.setRotation_members (s : State) (c : EgressClass) (r : Rotation) :
    (s.setRotation c r).members = s.members := rfl
@[simp] theorem State.setRotation_controllers (s : State) (c : EgressClass) (r : Rotation) :
    (s.setRotation c r).controllers = s.controllers := rfl
@[simp] theorem State.setRotation_queue (s : State) (c : EgressClass) (r : Rotation) :
    (s.setRotation c r).queue = s.queue := rfl
@[simp] theorem State.setRotation_flags (s : State) (c : EgressClass) (r : Rotation) :
    (s.setRotation c r).flags = s.flags := rfl
@[simp] theorem State.setRotation_alertEnables (s : State) (c : EgressClass) (r : Rotation) :
    (s.setRotation c r).alertEnables = s.alertEnables := rfl
@[simp] theorem State.setRotation_live (s : State) (c : EgressClass) (r : Rotation) :
    (s.setRotation c r).live = s.live := rfl
@[simp] theorem State.setRotation_snapshot (s : State) (c : EgressClass) (r : Rotation) :
    (s.setRotation c r).snapshot = s.snapshot := rfl
@[simp] theorem State.setRotation_snapshotTime (s : State) (c : EgressClass) (r : Rotation) :
    (s.setRotation c r).snapshotTime = s.snapshotTime := rfl
@[simp] theorem State.setRotation_contentOut (s : State) (c : EgressClass) (r : Rotation) :
    (s.setRotation c r).contentOut = s.contentOut := rfl
@[simp] theorem State.setRotation_deliveryOut (s : State) (c : EgressClass) (r : Rotation) :
    (s.setRotation c r).deliveryOut = s.deliveryOut := rfl
@[simp] theorem State.setRotation_choices (s : State) (c : EgressClass) (r : Rotation) :
    (s.setRotation c r).choices = s.choices := rfl
@[simp] theorem State.setRotation_pending (s : State) (c : EgressClass) (r : Rotation) :
    (s.setRotation c r).pending = s.pending := rfl

end Sys2Proof.Machine
end

