-- ==== Sys2Proof/Laws/Table.lean ====
section
/-! SUPPORT. Sparse tables: reading after writing, and that a write keeps the canonical form. -/

namespace Sys2Proof.Machine

section Tables

variable {κ α : Type} [DecidableEq κ] {rank : κ → Nat} {d : α}

@[simp] theorem Tbl.get_nil (k : κ) : Tbl.get d ([] : Tbl κ α) k = d := rfl

theorem Tbl.get_erase_same (t : Tbl κ α) (k : κ) : Tbl.get d (Tbl.erase t k) k = d := by
  induction t with
  | nil => rfl
  | cons e t ih =>
    obtain ⟨j, v⟩ := e
    by_cases h : j = k <;> simp [Tbl.erase, Tbl.get, h, ih]

theorem Tbl.get_erase_other (t : Tbl κ α) {k j : κ} (h : j ≠ k) : Tbl.get d (Tbl.erase t k) j = Tbl.get d t j := by
  induction t with
  | nil => rfl
  | cons e t ih =>
    obtain ⟨i, v⟩ := e
    by_cases hk : i = k
    · have hj : i ≠ j := fun e => h (e.symm.trans hk)
      simp [Tbl.erase, Tbl.get, hk, ih, (hk ▸ hj : k ≠ j)]
    · simp [Tbl.erase, Tbl.get, hk, ih]

theorem Tbl.get_insert_other (t : Tbl κ α) {k j : κ} (v : α) (h : j ≠ k) :
    Tbl.get d (Tbl.insert rank t k v) j = Tbl.get d t j := by
  induction t with
  | nil => simp [Tbl.insert, Tbl.get, h.symm]
  | cons e t ih =>
    obtain ⟨i, w⟩ := e
    by_cases hr : rank k < rank i
    · simp [Tbl.insert, Tbl.get, hr, h.symm]
    · simp [Tbl.insert, Tbl.get, hr, ih]

theorem Tbl.get_insert_erase (t : Tbl κ α) (k : κ) (v : α) :
    Tbl.get d (Tbl.insert rank (Tbl.erase t k) k v) k = v := by
  induction t with
  | nil => simp [Tbl.erase, Tbl.insert, Tbl.get]
  | cons e t ih =>
    obtain ⟨i, w⟩ := e
    by_cases hk : i = k
    · simpa [Tbl.erase, hk] using ih
    · by_cases hr : rank k < rank i
      · simp [Tbl.erase, Tbl.insert, Tbl.get, hk, hr]
      · simpa [Tbl.erase, Tbl.insert, Tbl.get, hk, hr] using ih

theorem Tbl.erase_sublist (t : Tbl κ α) (k : κ) : (Tbl.erase t k).Sublist t := by
  induction t with
  | nil => exact List.Sublist.slnil
  | cons e t ih =>
    obtain ⟨i, w⟩ := e
    by_cases h : i = k
    · simpa [Tbl.erase, h] using ih.cons (k, w)
    · simpa [Tbl.erase, h] using ih.cons_cons (i, w)

theorem Tbl.erase_keeps_wf {t : Tbl κ α} (k : κ) (h : Tbl.Wf rank d t) : Tbl.Wf rank d (Tbl.erase t k) :=
  ⟨h.1.sublist ((Tbl.erase_sublist t k).map _), fun e he => h.2 e ((Tbl.erase_sublist t k).subset he)⟩

theorem Tbl.not_mem_erase (t : Tbl κ α) (k : κ) (e : κ × α) (he : e ∈ Tbl.erase t k) : e.1 ≠ k := by
  induction t with
  | nil => cases he
  | cons x t ih =>
    obtain ⟨i, w⟩ := x
    by_cases h : i = k
    · rw [Tbl.erase, if_pos h] at he
      exact ih he
    · rw [Tbl.erase, if_neg h, List.mem_cons] at he
      rcases he with rfl | he
      · exact h
      · exact ih he

theorem Tbl.mem_insert (t : Tbl κ α) (k : κ) (v : α) (e : κ × α) :
    e ∈ Tbl.insert rank t k v ↔ e = (k, v) ∨ e ∈ t := by
  induction t with
  | nil => simp [Tbl.insert]
  | cons x t ih =>
    obtain ⟨i, w⟩ := x
    by_cases h : rank k < rank i
    · simp [Tbl.insert, h]
    · simp only [Tbl.insert, h, if_false, List.mem_cons, ih]
      tauto

theorem Tbl.insert_keeps_wf {t : Tbl κ α} {k : κ} {v : α} (h : Tbl.Wf rank d t) (hv : v ≠ d)
    (hk : ∀ e ∈ t, rank e.1 ≠ rank k) : Tbl.Wf rank d (Tbl.insert rank t k v) := by
  refine ⟨?_, fun e he => ?_⟩
  · induction t with
    | nil => simp [Tbl.insert]
    | cons x t ih =>
      obtain ⟨i, w⟩ := x
      obtain ⟨h1, h2⟩ := h
      simp only [List.map_cons, List.pairwise_cons] at h1
      by_cases hr : rank k < rank i
      · simp only [Tbl.insert, hr, if_true, List.map_cons, List.pairwise_cons]
        refine ⟨fun b hb => ?_, h1⟩
        rcases List.mem_cons.1 hb with rfl | hb
        · exact hr
        · exact hr.trans (h1.1 b hb)
      · simp only [Tbl.insert, hr, if_false, List.map_cons, List.pairwise_cons]
        have hi : rank i < rank k := by
          have := hk (i, w) (by simp)
          simp only at this
          omega
        refine ⟨fun b hb => ?_, ih ⟨h1.2, fun e he => h2 e (List.mem_cons_of_mem _ he)⟩
          fun e he => hk e (List.mem_cons_of_mem _ he)⟩
        obtain ⟨e, he, rfl⟩ := List.mem_map.1 hb
        rcases (Tbl.mem_insert t k v e).1 he with rfl | he
        · exact hi
        · exact h1.1 _ (List.mem_map_of_mem he)
  · rcases (Tbl.mem_insert t k v e).1 he with rfl | he
    · exact hv
    · exact h.2 e he

variable [DecidableEq α]

/-- Reading the key just written gives the value written. -/
@[simp] theorem Tbl.get_set_same (t : Tbl κ α) (k : κ) (v : α) : Tbl.get d (Tbl.set rank d t k v) k = v := by
  unfold Tbl.set
  split
  · next h => rw [Tbl.get_erase_same, h]
  · exact Tbl.get_insert_erase t k v

/-- Writing one key leaves every other key as it stood. -/
theorem Tbl.get_set_other (t : Tbl κ α) {k j : κ} (v : α) (h : j ≠ k) :
    Tbl.get d (Tbl.set rank d t k v) j = Tbl.get d t j := by
  unfold Tbl.set
  split
  · exact Tbl.get_erase_other t h
  · rw [Tbl.get_insert_other _ _ h, Tbl.get_erase_other t h]

/-- A read after a write, in one lemma. -/
theorem Tbl.get_set (t : Tbl κ α) (k j : κ) (v : α) :
    Tbl.get d (Tbl.set rank d t k v) j = if j = k then v else Tbl.get d t j := by
  split
  · next h => rw [h, Tbl.get_set_same]
  · next h => exact Tbl.get_set_other t v h

/-- A write keeps the canonical form, where no two keys share a rank. -/
theorem Tbl.set_keeps_wf {t : Tbl κ α} (hrank : Function.Injective rank) (k : κ) (v : α) (h : Tbl.Wf rank d t) :
    Tbl.Wf rank d (Tbl.set rank d t k v) := by
  unfold Tbl.set
  split
  · exact Tbl.erase_keeps_wf k h
  · next hv =>
    exact Tbl.insert_keeps_wf (Tbl.erase_keeps_wf k h) hv fun e he hr => Tbl.not_mem_erase t k e he (hrank hr)

/-- A property that the default has and the written value has is kept by a write. -/
theorem Tbl.forall_get_set {t : Tbl κ α} {p : α → Prop} {k : κ} {v : α} (h : ∀ j, p (Tbl.get d t j)) (hv : p v) :
    ∀ j, p (Tbl.get d (Tbl.set rank d t k v) j) := by
  intro j
  rw [Tbl.get_set]
  split
  · exact hv
  · exact h j

end Tables

/-! ### Values per band -/

@[simp] theorem PerBand.get_set_same {α : Type} (p : PerBand α) (b : Band) (v : α) : (p.set b v).get b = v := by
  fin_cases b <;> rfl

theorem PerBand.get_set_other {α : Type} (p : PerBand α) {b c : Band} (v : α) (h : c ≠ b) :
    (p.set b v).get c = p.get c := by
  fin_cases b <;> fin_cases c <;> first | rfl | exact absurd rfl h

/-- A read of a band after a write, in one lemma. -/
theorem PerBand.get_set {α : Type} (p : PerBand α) (b c : Band) (v : α) :
    (p.set b v).get c = if c = b then v else p.get c := by
  split
  · next h => rw [h, PerBand.get_set_same]
  · next h => exact PerBand.get_set_other p v h

@[simp] theorem PerBand.get_all {α : Type} (v : α) (b : Band) : (PerBand.all v).get b = v := by
  fin_cases b <;> rfl

end Sys2Proof.Machine
end

