-- ==== Sys2Proof/Laws/Reads.lean ====
section
/-! SUPPORT. What each read of State gives after each update: the value written at the key written, and everything else as
it stood. -/

namespace Sys2Proof.Machine

/-! ### Reads of what an update does not touch -/

@[simp] theorem State.advance_auditorium (s : State) (t : Nat) (a' : Nat) :
    (s.advance t).auditorium a' = s.auditorium a' := rfl
@[simp] theorem State.advance_lifecycle (s : State) (t : Nat) (a' : Nat) :
    (s.advance t).lifecycle a' = s.lifecycle a' := rfl
@[simp] theorem State.advance_clock (s : State) (t : Nat) (a' : Nat) : (s.advance t).clock a' = s.clock a' := rfl
@[simp] theorem State.advance_check (s : State) (t : Nat) (a' : Nat) : (s.advance t).check a' = s.check a' := rfl
@[simp] theorem State.advance_beacon (s : State) (t : Nat) (a' : Nat) : (s.advance t).beacon a' = s.beacon a' := rfl
@[simp] theorem State.advance_filter (s : State) (t : Nat) (i' : Nat) : (s.advance t).filter i' = s.filter i' := rfl
@[simp] theorem State.advance_mask (s : State) (t : Nat) (i' : Nat) : (s.advance t).mask i' = s.mask i' := rfl
@[simp] theorem State.advance_track (s : State) (t : Nat) (k' : Nat) : (s.advance t).track k' = s.track k' := rfl
@[simp] theorem State.advance_trackSequences (s : State) (t : Nat) (k' : Nat) :
    (s.advance t).trackSequences k' = s.trackSequences k' := rfl
@[simp] theorem State.advance_nextSeq (s : State) (t : Nat) (k' : Nat) (b' : Band) :
    (s.advance t).nextSeq k' b' = s.nextSeq k' b' := rfl
@[simp] theorem State.advance_trackMembers (s : State) (t : Nat) (k' : Nat) :
    (s.advance t).trackMembers k' = s.trackMembers k' := rfl
@[simp] theorem State.advance_memberCount (s : State) (t : Nat) (k' : Nat) (b' : Band) :
    (s.advance t).memberCount k' b' = s.memberCount k' b' := rfl
@[simp] theorem State.advance_subscription (s : State) (t : Nat) (i' : Nat) :
    (s.advance t).subscription i' = s.subscription i' := rfl
@[simp] theorem State.advance_count (s : State) (t : Nat) (c' : Counter) : (s.advance t).count c' = s.count c' := rfl
@[simp] theorem State.advance_flagSet (s : State) (t : Nat) (f' : Flag) :
    (s.advance t).flagSet f' = s.flagSet f' := rfl
@[simp] theorem State.advance_boundTracks (s : State) (t : Nat) (a' : Nat) :
    (s.advance t).boundTracks a' = s.boundTracks a' := rfl
@[simp] theorem State.advance_records (s : State) (t : Nat) : (s.advance t).records = s.records := rfl
@[simp] theorem State.advance_findHandle (s : State) (t : Nat) (h' : Nat) :
    (s.advance t).findHandle h' = s.findHandle h' := rfl
@[simp] theorem State.advance_showTimeAt (s : State) (t : Nat) (a' : Nat) (e' : Nat) :
    (s.advance t).showTimeAt a' e' = s.showTimeAt a' e' := rfl

@[simp] theorem State.setAuditorium_clock (s : State) (a : Nat) (v : Auditorium) (a' : Nat) :
    (s.setAuditorium a v).clock a' = s.clock a' := rfl
@[simp] theorem State.setAuditorium_check (s : State) (a : Nat) (v : Auditorium) (a' : Nat) :
    (s.setAuditorium a v).check a' = s.check a' := rfl
@[simp] theorem State.setAuditorium_beacon (s : State) (a : Nat) (v : Auditorium) (a' : Nat) :
    (s.setAuditorium a v).beacon a' = s.beacon a' := rfl
@[simp] theorem State.setAuditorium_filter (s : State) (a : Nat) (v : Auditorium) (i' : Nat) :
    (s.setAuditorium a v).filter i' = s.filter i' := rfl
@[simp] theorem State.setAuditorium_mask (s : State) (a : Nat) (v : Auditorium) (i' : Nat) :
    (s.setAuditorium a v).mask i' = s.mask i' := rfl
@[simp] theorem State.setAuditorium_track (s : State) (a : Nat) (v : Auditorium) (k' : Nat) :
    (s.setAuditorium a v).track k' = s.track k' := rfl
@[simp] theorem State.setAuditorium_trackSequences (s : State) (a : Nat) (v : Auditorium) (k' : Nat) :
    (s.setAuditorium a v).trackSequences k' = s.trackSequences k' := rfl
@[simp] theorem State.setAuditorium_nextSeq (s : State) (a : Nat) (v : Auditorium) (k' : Nat) (b' : Band) :
    (s.setAuditorium a v).nextSeq k' b' = s.nextSeq k' b' := rfl
@[simp] theorem State.setAuditorium_trackMembers (s : State) (a : Nat) (v : Auditorium) (k' : Nat) :
    (s.setAuditorium a v).trackMembers k' = s.trackMembers k' := rfl
@[simp] theorem State.setAuditorium_memberCount (s : State) (a : Nat) (v : Auditorium) (k' : Nat) (b' : Band) :
    (s.setAuditorium a v).memberCount k' b' = s.memberCount k' b' := rfl
@[simp] theorem State.setAuditorium_subscription (s : State) (a : Nat) (v : Auditorium) (i' : Nat) :
    (s.setAuditorium a v).subscription i' = s.subscription i' := rfl
@[simp] theorem State.setAuditorium_count (s : State) (a : Nat) (v : Auditorium) (c' : Counter) :
    (s.setAuditorium a v).count c' = s.count c' := rfl
@[simp] theorem State.setAuditorium_flagSet (s : State) (a : Nat) (v : Auditorium) (f' : Flag) :
    (s.setAuditorium a v).flagSet f' = s.flagSet f' := rfl
@[simp] theorem State.setAuditorium_boundTracks (s : State) (a : Nat) (v : Auditorium) (a' : Nat) :
    (s.setAuditorium a v).boundTracks a' = s.boundTracks a' := rfl
@[simp] theorem State.setAuditorium_records (s : State) (a : Nat) (v : Auditorium) :
    (s.setAuditorium a v).records = s.records := rfl
@[simp] theorem State.setAuditorium_findHandle (s : State) (a : Nat) (v : Auditorium) (h' : Nat) :
    (s.setAuditorium a v).findHandle h' = s.findHandle h' := rfl

@[simp] theorem State.setLifecycle_clock (s : State) (a : Nat) (l : Lifecycle) (a' : Nat) :
    (s.setLifecycle a l).clock a' = s.clock a' := rfl
@[simp] theorem State.setLifecycle_check (s : State) (a : Nat) (l : Lifecycle) (a' : Nat) :
    (s.setLifecycle a l).check a' = s.check a' := rfl
@[simp] theorem State.setLifecycle_beacon (s : State) (a : Nat) (l : Lifecycle) (a' : Nat) :
    (s.setLifecycle a l).beacon a' = s.beacon a' := rfl
@[simp] theorem State.setLifecycle_filter (s : State) (a : Nat) (l : Lifecycle) (i' : Nat) :
    (s.setLifecycle a l).filter i' = s.filter i' := rfl
@[simp] theorem State.setLifecycle_mask (s : State) (a : Nat) (l : Lifecycle) (i' : Nat) :
    (s.setLifecycle a l).mask i' = s.mask i' := rfl
@[simp] theorem State.setLifecycle_track (s : State) (a : Nat) (l : Lifecycle) (k' : Nat) :
    (s.setLifecycle a l).track k' = s.track k' := rfl
@[simp] theorem State.setLifecycle_trackSequences (s : State) (a : Nat) (l : Lifecycle) (k' : Nat) :
    (s.setLifecycle a l).trackSequences k' = s.trackSequences k' := rfl
@[simp] theorem State.setLifecycle_nextSeq (s : State) (a : Nat) (l : Lifecycle) (k' : Nat) (b' : Band) :
    (s.setLifecycle a l).nextSeq k' b' = s.nextSeq k' b' := rfl
@[simp] theorem State.setLifecycle_trackMembers (s : State) (a : Nat) (l : Lifecycle) (k' : Nat) :
    (s.setLifecycle a l).trackMembers k' = s.trackMembers k' := rfl
@[simp] theorem State.setLifecycle_memberCount (s : State) (a : Nat) (l : Lifecycle) (k' : Nat) (b' : Band) :
    (s.setLifecycle a l).memberCount k' b' = s.memberCount k' b' := rfl
@[simp] theorem State.setLifecycle_subscription (s : State) (a : Nat) (l : Lifecycle) (i' : Nat) :
    (s.setLifecycle a l).subscription i' = s.subscription i' := rfl
@[simp] theorem State.setLifecycle_count (s : State) (a : Nat) (l : Lifecycle) (c' : Counter) :
    (s.setLifecycle a l).count c' = s.count c' := rfl
@[simp] theorem State.setLifecycle_flagSet (s : State) (a : Nat) (l : Lifecycle) (f' : Flag) :
    (s.setLifecycle a l).flagSet f' = s.flagSet f' := rfl
@[simp] theorem State.setLifecycle_boundTracks (s : State) (a : Nat) (l : Lifecycle) (a' : Nat) :
    (s.setLifecycle a l).boundTracks a' = s.boundTracks a' := rfl
@[simp] theorem State.setLifecycle_records (s : State) (a : Nat) (l : Lifecycle) :
    (s.setLifecycle a l).records = s.records := rfl
@[simp] theorem State.setLifecycle_findHandle (s : State) (a : Nat) (l : Lifecycle) (h' : Nat) :
    (s.setLifecycle a l).findHandle h' = s.findHandle h' := rfl

@[simp] theorem State.setClock_auditorium (s : State) (a : Nat) (v : Clock) (a' : Nat) :
    (s.setClock a v).auditorium a' = s.auditorium a' := rfl
@[simp] theorem State.setClock_lifecycle (s : State) (a : Nat) (v : Clock) (a' : Nat) :
    (s.setClock a v).lifecycle a' = s.lifecycle a' := rfl
@[simp] theorem State.setClock_check (s : State) (a : Nat) (v : Clock) (a' : Nat) :
    (s.setClock a v).check a' = s.check a' := rfl
@[simp] theorem State.setClock_beacon (s : State) (a : Nat) (v : Clock) (a' : Nat) :
    (s.setClock a v).beacon a' = s.beacon a' := rfl
@[simp] theorem State.setClock_filter (s : State) (a : Nat) (v : Clock) (i' : Nat) :
    (s.setClock a v).filter i' = s.filter i' := rfl
@[simp] theorem State.setClock_mask (s : State) (a : Nat) (v : Clock) (i' : Nat) :
    (s.setClock a v).mask i' = s.mask i' := rfl
@[simp] theorem State.setClock_track (s : State) (a : Nat) (v : Clock) (k' : Nat) :
    (s.setClock a v).track k' = s.track k' := rfl
@[simp] theorem State.setClock_trackSequences (s : State) (a : Nat) (v : Clock) (k' : Nat) :
    (s.setClock a v).trackSequences k' = s.trackSequences k' := rfl
@[simp] theorem State.setClock_nextSeq (s : State) (a : Nat) (v : Clock) (k' : Nat) (b' : Band) :
    (s.setClock a v).nextSeq k' b' = s.nextSeq k' b' := rfl
@[simp] theorem State.setClock_trackMembers (s : State) (a : Nat) (v : Clock) (k' : Nat) :
    (s.setClock a v).trackMembers k' = s.trackMembers k' := rfl
@[simp] theorem State.setClock_memberCount (s : State) (a : Nat) (v : Clock) (k' : Nat) (b' : Band) :
    (s.setClock a v).memberCount k' b' = s.memberCount k' b' := rfl
@[simp] theorem State.setClock_subscription (s : State) (a : Nat) (v : Clock) (i' : Nat) :
    (s.setClock a v).subscription i' = s.subscription i' := rfl
@[simp] theorem State.setClock_count (s : State) (a : Nat) (v : Clock) (c' : Counter) :
    (s.setClock a v).count c' = s.count c' := rfl
@[simp] theorem State.setClock_flagSet (s : State) (a : Nat) (v : Clock) (f' : Flag) :
    (s.setClock a v).flagSet f' = s.flagSet f' := rfl
@[simp] theorem State.setClock_boundTracks (s : State) (a : Nat) (v : Clock) (a' : Nat) :
    (s.setClock a v).boundTracks a' = s.boundTracks a' := rfl
@[simp] theorem State.setClock_records (s : State) (a : Nat) (v : Clock) : (s.setClock a v).records = s.records := rfl
@[simp] theorem State.setClock_findHandle (s : State) (a : Nat) (v : Clock) (h' : Nat) :
    (s.setClock a v).findHandle h' = s.findHandle h' := rfl

@[simp] theorem State.setCheck_auditorium (s : State) (a : Nat) (v : HouseCheck) (a' : Nat) :
    (s.setCheck a v).auditorium a' = s.auditorium a' := rfl
@[simp] theorem State.setCheck_lifecycle (s : State) (a : Nat) (v : HouseCheck) (a' : Nat) :
    (s.setCheck a v).lifecycle a' = s.lifecycle a' := rfl
@[simp] theorem State.setCheck_clock (s : State) (a : Nat) (v : HouseCheck) (a' : Nat) :
    (s.setCheck a v).clock a' = s.clock a' := rfl
@[simp] theorem State.setCheck_beacon (s : State) (a : Nat) (v : HouseCheck) (a' : Nat) :
    (s.setCheck a v).beacon a' = s.beacon a' := rfl
@[simp] theorem State.setCheck_filter (s : State) (a : Nat) (v : HouseCheck) (i' : Nat) :
    (s.setCheck a v).filter i' = s.filter i' := rfl
@[simp] theorem State.setCheck_mask (s : State) (a : Nat) (v : HouseCheck) (i' : Nat) :
    (s.setCheck a v).mask i' = s.mask i' := rfl
@[simp] theorem State.setCheck_track (s : State) (a : Nat) (v : HouseCheck) (k' : Nat) :
    (s.setCheck a v).track k' = s.track k' := rfl
@[simp] theorem State.setCheck_trackSequences (s : State) (a : Nat) (v : HouseCheck) (k' : Nat) :
    (s.setCheck a v).trackSequences k' = s.trackSequences k' := rfl
@[simp] theorem State.setCheck_nextSeq (s : State) (a : Nat) (v : HouseCheck) (k' : Nat) (b' : Band) :
    (s.setCheck a v).nextSeq k' b' = s.nextSeq k' b' := rfl
@[simp] theorem State.setCheck_trackMembers (s : State) (a : Nat) (v : HouseCheck) (k' : Nat) :
    (s.setCheck a v).trackMembers k' = s.trackMembers k' := rfl
@[simp] theorem State.setCheck_memberCount (s : State) (a : Nat) (v : HouseCheck) (k' : Nat) (b' : Band) :
    (s.setCheck a v).memberCount k' b' = s.memberCount k' b' := rfl
@[simp] theorem State.setCheck_subscription (s : State) (a : Nat) (v : HouseCheck) (i' : Nat) :
    (s.setCheck a v).subscription i' = s.subscription i' := rfl
@[simp] theorem State.setCheck_count (s : State) (a : Nat) (v : HouseCheck) (c' : Counter) :
    (s.setCheck a v).count c' = s.count c' := rfl
@[simp] theorem State.setCheck_flagSet (s : State) (a : Nat) (v : HouseCheck) (f' : Flag) :
    (s.setCheck a v).flagSet f' = s.flagSet f' := rfl
@[simp] theorem State.setCheck_boundTracks (s : State) (a : Nat) (v : HouseCheck) (a' : Nat) :
    (s.setCheck a v).boundTracks a' = s.boundTracks a' := rfl
@[simp] theorem State.setCheck_records (s : State) (a : Nat) (v : HouseCheck) :
    (s.setCheck a v).records = s.records := rfl
@[simp] theorem State.setCheck_findHandle (s : State) (a : Nat) (v : HouseCheck) (h' : Nat) :
    (s.setCheck a v).findHandle h' = s.findHandle h' := rfl
@[simp] theorem State.setCheck_showTimeAt (s : State) (a : Nat) (v : HouseCheck) (a' : Nat) (e' : Nat) :
    (s.setCheck a v).showTimeAt a' e' = s.showTimeAt a' e' := rfl
@[simp] theorem State.setCheck_showTime (s : State) (a : Nat) (v : HouseCheck) (a' : Nat) :
    (s.setCheck a v).showTime a' = s.showTime a' := rfl

@[simp] theorem State.setBeacon_auditorium (s : State) (a : Nat) (v : Option Nat) (a' : Nat) :
    (s.setBeacon a v).auditorium a' = s.auditorium a' := rfl
@[simp] theorem State.setBeacon_lifecycle (s : State) (a : Nat) (v : Option Nat) (a' : Nat) :
    (s.setBeacon a v).lifecycle a' = s.lifecycle a' := rfl
@[simp] theorem State.setBeacon_clock (s : State) (a : Nat) (v : Option Nat) (a' : Nat) :
    (s.setBeacon a v).clock a' = s.clock a' := rfl
@[simp] theorem State.setBeacon_check (s : State) (a : Nat) (v : Option Nat) (a' : Nat) :
    (s.setBeacon a v).check a' = s.check a' := rfl
@[simp] theorem State.setBeacon_filter (s : State) (a : Nat) (v : Option Nat) (i' : Nat) :
    (s.setBeacon a v).filter i' = s.filter i' := rfl
@[simp] theorem State.setBeacon_mask (s : State) (a : Nat) (v : Option Nat) (i' : Nat) :
    (s.setBeacon a v).mask i' = s.mask i' := rfl
@[simp] theorem State.setBeacon_track (s : State) (a : Nat) (v : Option Nat) (k' : Nat) :
    (s.setBeacon a v).track k' = s.track k' := rfl
@[simp] theorem State.setBeacon_trackSequences (s : State) (a : Nat) (v : Option Nat) (k' : Nat) :
    (s.setBeacon a v).trackSequences k' = s.trackSequences k' := rfl
@[simp] theorem State.setBeacon_nextSeq (s : State) (a : Nat) (v : Option Nat) (k' : Nat) (b' : Band) :
    (s.setBeacon a v).nextSeq k' b' = s.nextSeq k' b' := rfl
@[simp] theorem State.setBeacon_trackMembers (s : State) (a : Nat) (v : Option Nat) (k' : Nat) :
    (s.setBeacon a v).trackMembers k' = s.trackMembers k' := rfl
@[simp] theorem State.setBeacon_memberCount (s : State) (a : Nat) (v : Option Nat) (k' : Nat) (b' : Band) :
    (s.setBeacon a v).memberCount k' b' = s.memberCount k' b' := rfl
@[simp] theorem State.setBeacon_subscription (s : State) (a : Nat) (v : Option Nat) (i' : Nat) :
    (s.setBeacon a v).subscription i' = s.subscription i' := rfl
@[simp] theorem State.setBeacon_count (s : State) (a : Nat) (v : Option Nat) (c' : Counter) :
    (s.setBeacon a v).count c' = s.count c' := rfl
@[simp] theorem State.setBeacon_flagSet (s : State) (a : Nat) (v : Option Nat) (f' : Flag) :
    (s.setBeacon a v).flagSet f' = s.flagSet f' := rfl
@[simp] theorem State.setBeacon_boundTracks (s : State) (a : Nat) (v : Option Nat) (a' : Nat) :
    (s.setBeacon a v).boundTracks a' = s.boundTracks a' := rfl
@[simp] theorem State.setBeacon_records (s : State) (a : Nat) (v : Option Nat) :
    (s.setBeacon a v).records = s.records := rfl
@[simp] theorem State.setBeacon_findHandle (s : State) (a : Nat) (v : Option Nat) (h' : Nat) :
    (s.setBeacon a v).findHandle h' = s.findHandle h' := rfl
@[simp] theorem State.setBeacon_showTimeAt (s : State) (a : Nat) (v : Option Nat) (a' : Nat) (e' : Nat) :
    (s.setBeacon a v).showTimeAt a' e' = s.showTimeAt a' e' := rfl
@[simp] theorem State.setBeacon_showTime (s : State) (a : Nat) (v : Option Nat) (a' : Nat) :
    (s.setBeacon a v).showTime a' = s.showTime a' := rfl

@[simp] theorem State.setFilter_auditorium (s : State) (i : Nat) (v : Filter) (a' : Nat) :
    (s.setFilter i v).auditorium a' = s.auditorium a' := rfl
@[simp] theorem State.setFilter_lifecycle (s : State) (i : Nat) (v : Filter) (a' : Nat) :
    (s.setFilter i v).lifecycle a' = s.lifecycle a' := rfl
@[simp] theorem State.setFilter_clock (s : State) (i : Nat) (v : Filter) (a' : Nat) :
    (s.setFilter i v).clock a' = s.clock a' := rfl
@[simp] theorem State.setFilter_check (s : State) (i : Nat) (v : Filter) (a' : Nat) :
    (s.setFilter i v).check a' = s.check a' := rfl
@[simp] theorem State.setFilter_beacon (s : State) (i : Nat) (v : Filter) (a' : Nat) :
    (s.setFilter i v).beacon a' = s.beacon a' := rfl
@[simp] theorem State.setFilter_mask (s : State) (i : Nat) (v : Filter) (i' : Nat) :
    (s.setFilter i v).mask i' = s.mask i' := rfl
@[simp] theorem State.setFilter_track (s : State) (i : Nat) (v : Filter) (k' : Nat) :
    (s.setFilter i v).track k' = s.track k' := rfl
@[simp] theorem State.setFilter_trackSequences (s : State) (i : Nat) (v : Filter) (k' : Nat) :
    (s.setFilter i v).trackSequences k' = s.trackSequences k' := rfl
@[simp] theorem State.setFilter_nextSeq (s : State) (i : Nat) (v : Filter) (k' : Nat) (b' : Band) :
    (s.setFilter i v).nextSeq k' b' = s.nextSeq k' b' := rfl
@[simp] theorem State.setFilter_trackMembers (s : State) (i : Nat) (v : Filter) (k' : Nat) :
    (s.setFilter i v).trackMembers k' = s.trackMembers k' := rfl
@[simp] theorem State.setFilter_memberCount (s : State) (i : Nat) (v : Filter) (k' : Nat) (b' : Band) :
    (s.setFilter i v).memberCount k' b' = s.memberCount k' b' := rfl
@[simp] theorem State.setFilter_subscription (s : State) (i : Nat) (v : Filter) (i' : Nat) :
    (s.setFilter i v).subscription i' = s.subscription i' := rfl
@[simp] theorem State.setFilter_count (s : State) (i : Nat) (v : Filter) (c' : Counter) :
    (s.setFilter i v).count c' = s.count c' := rfl
@[simp] theorem State.setFilter_flagSet (s : State) (i : Nat) (v : Filter) (f' : Flag) :
    (s.setFilter i v).flagSet f' = s.flagSet f' := rfl
@[simp] theorem State.setFilter_boundTracks (s : State) (i : Nat) (v : Filter) (a' : Nat) :
    (s.setFilter i v).boundTracks a' = s.boundTracks a' := rfl
@[simp] theorem State.setFilter_records (s : State) (i : Nat) (v : Filter) :
    (s.setFilter i v).records = s.records := rfl
@[simp] theorem State.setFilter_findHandle (s : State) (i : Nat) (v : Filter) (h' : Nat) :
    (s.setFilter i v).findHandle h' = s.findHandle h' := rfl
@[simp] theorem State.setFilter_showTimeAt (s : State) (i : Nat) (v : Filter) (a' : Nat) (e' : Nat) :
    (s.setFilter i v).showTimeAt a' e' = s.showTimeAt a' e' := rfl
@[simp] theorem State.setFilter_showTime (s : State) (i : Nat) (v : Filter) (a' : Nat) :
    (s.setFilter i v).showTime a' = s.showTime a' := rfl

@[simp] theorem State.setMask_auditorium (s : State) (i : Nat) (v : Label) (a' : Nat) :
    (s.setMask i v).auditorium a' = s.auditorium a' := rfl
@[simp] theorem State.setMask_lifecycle (s : State) (i : Nat) (v : Label) (a' : Nat) :
    (s.setMask i v).lifecycle a' = s.lifecycle a' := rfl
@[simp] theorem State.setMask_clock (s : State) (i : Nat) (v : Label) (a' : Nat) :
    (s.setMask i v).clock a' = s.clock a' := rfl
@[simp] theorem State.setMask_check (s : State) (i : Nat) (v : Label) (a' : Nat) :
    (s.setMask i v).check a' = s.check a' := rfl
@[simp] theorem State.setMask_beacon (s : State) (i : Nat) (v : Label) (a' : Nat) :
    (s.setMask i v).beacon a' = s.beacon a' := rfl
@[simp] theorem State.setMask_filter (s : State) (i : Nat) (v : Label) (i' : Nat) :
    (s.setMask i v).filter i' = s.filter i' := rfl
@[simp] theorem State.setMask_track (s : State) (i : Nat) (v : Label) (k' : Nat) :
    (s.setMask i v).track k' = s.track k' := rfl
@[simp] theorem State.setMask_trackSequences (s : State) (i : Nat) (v : Label) (k' : Nat) :
    (s.setMask i v).trackSequences k' = s.trackSequences k' := rfl
@[simp] theorem State.setMask_nextSeq (s : State) (i : Nat) (v : Label) (k' : Nat) (b' : Band) :
    (s.setMask i v).nextSeq k' b' = s.nextSeq k' b' := rfl
@[simp] theorem State.setMask_trackMembers (s : State) (i : Nat) (v : Label) (k' : Nat) :
    (s.setMask i v).trackMembers k' = s.trackMembers k' := rfl
@[simp] theorem State.setMask_memberCount (s : State) (i : Nat) (v : Label) (k' : Nat) (b' : Band) :
    (s.setMask i v).memberCount k' b' = s.memberCount k' b' := rfl
@[simp] theorem State.setMask_subscription (s : State) (i : Nat) (v : Label) (i' : Nat) :
    (s.setMask i v).subscription i' = s.subscription i' := rfl
@[simp] theorem State.setMask_count (s : State) (i : Nat) (v : Label) (c' : Counter) :
    (s.setMask i v).count c' = s.count c' := rfl
@[simp] theorem State.setMask_flagSet (s : State) (i : Nat) (v : Label) (f' : Flag) :
    (s.setMask i v).flagSet f' = s.flagSet f' := rfl
@[simp] theorem State.setMask_boundTracks (s : State) (i : Nat) (v : Label) (a' : Nat) :
    (s.setMask i v).boundTracks a' = s.boundTracks a' := rfl
@[simp] theorem State.setMask_records (s : State) (i : Nat) (v : Label) : (s.setMask i v).records = s.records := rfl
@[simp] theorem State.setMask_findHandle (s : State) (i : Nat) (v : Label) (h' : Nat) :
    (s.setMask i v).findHandle h' = s.findHandle h' := rfl
@[simp] theorem State.setMask_showTimeAt (s : State) (i : Nat) (v : Label) (a' : Nat) (e' : Nat) :
    (s.setMask i v).showTimeAt a' e' = s.showTimeAt a' e' := rfl
@[simp] theorem State.setMask_showTime (s : State) (i : Nat) (v : Label) (a' : Nat) :
    (s.setMask i v).showTime a' = s.showTime a' := rfl

@[simp] theorem State.setTrack_auditorium (s : State) (k : Nat) (v : Option Track) (a' : Nat) :
    (s.setTrack k v).auditorium a' = s.auditorium a' := rfl
@[simp] theorem State.setTrack_lifecycle (s : State) (k : Nat) (v : Option Track) (a' : Nat) :
    (s.setTrack k v).lifecycle a' = s.lifecycle a' := rfl
@[simp] theorem State.setTrack_clock (s : State) (k : Nat) (v : Option Track) (a' : Nat) :
    (s.setTrack k v).clock a' = s.clock a' := rfl
@[simp] theorem State.setTrack_check (s : State) (k : Nat) (v : Option Track) (a' : Nat) :
    (s.setTrack k v).check a' = s.check a' := rfl
@[simp] theorem State.setTrack_beacon (s : State) (k : Nat) (v : Option Track) (a' : Nat) :
    (s.setTrack k v).beacon a' = s.beacon a' := rfl
@[simp] theorem State.setTrack_filter (s : State) (k : Nat) (v : Option Track) (i' : Nat) :
    (s.setTrack k v).filter i' = s.filter i' := rfl
@[simp] theorem State.setTrack_mask (s : State) (k : Nat) (v : Option Track) (i' : Nat) :
    (s.setTrack k v).mask i' = s.mask i' := rfl
@[simp] theorem State.setTrack_trackSequences (s : State) (k : Nat) (v : Option Track) (k' : Nat) :
    (s.setTrack k v).trackSequences k' = s.trackSequences k' := rfl
@[simp] theorem State.setTrack_nextSeq (s : State) (k : Nat) (v : Option Track) (k' : Nat) (b' : Band) :
    (s.setTrack k v).nextSeq k' b' = s.nextSeq k' b' := rfl
@[simp] theorem State.setTrack_trackMembers (s : State) (k : Nat) (v : Option Track) (k' : Nat) :
    (s.setTrack k v).trackMembers k' = s.trackMembers k' := rfl
@[simp] theorem State.setTrack_memberCount (s : State) (k : Nat) (v : Option Track) (k' : Nat) (b' : Band) :
    (s.setTrack k v).memberCount k' b' = s.memberCount k' b' := rfl
@[simp] theorem State.setTrack_subscription (s : State) (k : Nat) (v : Option Track) (i' : Nat) :
    (s.setTrack k v).subscription i' = s.subscription i' := rfl
@[simp] theorem State.setTrack_count (s : State) (k : Nat) (v : Option Track) (c' : Counter) :
    (s.setTrack k v).count c' = s.count c' := rfl
@[simp] theorem State.setTrack_flagSet (s : State) (k : Nat) (v : Option Track) (f' : Flag) :
    (s.setTrack k v).flagSet f' = s.flagSet f' := rfl
@[simp] theorem State.setTrack_records (s : State) (k : Nat) (v : Option Track) :
    (s.setTrack k v).records = s.records := rfl
@[simp] theorem State.setTrack_findHandle (s : State) (k : Nat) (v : Option Track) (h' : Nat) :
    (s.setTrack k v).findHandle h' = s.findHandle h' := rfl
@[simp] theorem State.setTrack_showTimeAt (s : State) (k : Nat) (v : Option Track) (a' : Nat) (e' : Nat) :
    (s.setTrack k v).showTimeAt a' e' = s.showTimeAt a' e' := rfl
@[simp] theorem State.setTrack_showTime (s : State) (k : Nat) (v : Option Track) (a' : Nat) :
    (s.setTrack k v).showTime a' = s.showTime a' := rfl

@[simp] theorem State.setTrackSequences_auditorium (s : State) (k : Nat) (v : PerBand SeqNo) (a' : Nat) :
    (s.setTrackSequences k v).auditorium a' = s.auditorium a' := rfl
@[simp] theorem State.setTrackSequences_lifecycle (s : State) (k : Nat) (v : PerBand SeqNo) (a' : Nat) :
    (s.setTrackSequences k v).lifecycle a' = s.lifecycle a' := rfl
@[simp] theorem State.setTrackSequences_clock (s : State) (k : Nat) (v : PerBand SeqNo) (a' : Nat) :
    (s.setTrackSequences k v).clock a' = s.clock a' := rfl
@[simp] theorem State.setTrackSequences_check (s : State) (k : Nat) (v : PerBand SeqNo) (a' : Nat) :
    (s.setTrackSequences k v).check a' = s.check a' := rfl
@[simp] theorem State.setTrackSequences_beacon (s : State) (k : Nat) (v : PerBand SeqNo) (a' : Nat) :
    (s.setTrackSequences k v).beacon a' = s.beacon a' := rfl
@[simp] theorem State.setTrackSequences_filter (s : State) (k : Nat) (v : PerBand SeqNo) (i' : Nat) :
    (s.setTrackSequences k v).filter i' = s.filter i' := rfl
@[simp] theorem State.setTrackSequences_mask (s : State) (k : Nat) (v : PerBand SeqNo) (i' : Nat) :
    (s.setTrackSequences k v).mask i' = s.mask i' := rfl
@[simp] theorem State.setTrackSequences_track (s : State) (k : Nat) (v : PerBand SeqNo) (k' : Nat) :
    (s.setTrackSequences k v).track k' = s.track k' := rfl
@[simp] theorem State.setTrackSequences_trackMembers (s : State) (k : Nat) (v : PerBand SeqNo) (k' : Nat) :
    (s.setTrackSequences k v).trackMembers k' = s.trackMembers k' := rfl
@[simp] theorem State.setTrackSequences_memberCount (s : State) (k : Nat) (v : PerBand SeqNo) (k' : Nat) (b' : Band) :
    (s.setTrackSequences k v).memberCount k' b' = s.memberCount k' b' := rfl
@[simp] theorem State.setTrackSequences_subscription (s : State) (k : Nat) (v : PerBand SeqNo) (i' : Nat) :
    (s.setTrackSequences k v).subscription i' = s.subscription i' := rfl
@[simp] theorem State.setTrackSequences_count (s : State) (k : Nat) (v : PerBand SeqNo) (c' : Counter) :
    (s.setTrackSequences k v).count c' = s.count c' := rfl
@[simp] theorem State.setTrackSequences_flagSet (s : State) (k : Nat) (v : PerBand SeqNo) (f' : Flag) :
    (s.setTrackSequences k v).flagSet f' = s.flagSet f' := rfl
@[simp] theorem State.setTrackSequences_boundTracks (s : State) (k : Nat) (v : PerBand SeqNo) (a' : Nat) :
    (s.setTrackSequences k v).boundTracks a' = s.boundTracks a' := rfl
@[simp] theorem State.setTrackSequences_records (s : State) (k : Nat) (v : PerBand SeqNo) :
    (s.setTrackSequences k v).records = s.records := rfl
@[simp] theorem State.setTrackSequences_findHandle (s : State) (k : Nat) (v : PerBand SeqNo) (h' : Nat) :
    (s.setTrackSequences k v).findHandle h' = s.findHandle h' := rfl
@[simp] theorem State.setTrackSequences_showTimeAt (s : State) (k : Nat) (v : PerBand SeqNo) (a' : Nat) (e' : Nat) :
    (s.setTrackSequences k v).showTimeAt a' e' = s.showTimeAt a' e' := rfl
@[simp] theorem State.setTrackSequences_showTime (s : State) (k : Nat) (v : PerBand SeqNo) (a' : Nat) :
    (s.setTrackSequences k v).showTime a' = s.showTime a' := rfl

@[simp] theorem State.setTrackMembers_auditorium (s : State) (k : Nat) (v : PerBand Nat) (a' : Nat) :
    (s.setTrackMembers k v).auditorium a' = s.auditorium a' := rfl
@[simp] theorem State.setTrackMembers_lifecycle (s : State) (k : Nat) (v : PerBand Nat) (a' : Nat) :
    (s.setTrackMembers k v).lifecycle a' = s.lifecycle a' := rfl
@[simp] theorem State.setTrackMembers_clock (s : State) (k : Nat) (v : PerBand Nat) (a' : Nat) :
    (s.setTrackMembers k v).clock a' = s.clock a' := rfl
@[simp] theorem State.setTrackMembers_check (s : State) (k : Nat) (v : PerBand Nat) (a' : Nat) :
    (s.setTrackMembers k v).check a' = s.check a' := rfl
@[simp] theorem State.setTrackMembers_beacon (s : State) (k : Nat) (v : PerBand Nat) (a' : Nat) :
    (s.setTrackMembers k v).beacon a' = s.beacon a' := rfl
@[simp] theorem State.setTrackMembers_filter (s : State) (k : Nat) (v : PerBand Nat) (i' : Nat) :
    (s.setTrackMembers k v).filter i' = s.filter i' := rfl
@[simp] theorem State.setTrackMembers_mask (s : State) (k : Nat) (v : PerBand Nat) (i' : Nat) :
    (s.setTrackMembers k v).mask i' = s.mask i' := rfl
@[simp] theorem State.setTrackMembers_track (s : State) (k : Nat) (v : PerBand Nat) (k' : Nat) :
    (s.setTrackMembers k v).track k' = s.track k' := rfl
@[simp] theorem State.setTrackMembers_trackSequences (s : State) (k : Nat) (v : PerBand Nat) (k' : Nat) :
    (s.setTrackMembers k v).trackSequences k' = s.trackSequences k' := rfl
@[simp] theorem State.setTrackMembers_nextSeq (s : State) (k : Nat) (v : PerBand Nat) (k' : Nat) (b' : Band) :
    (s.setTrackMembers k v).nextSeq k' b' = s.nextSeq k' b' := rfl
@[simp] theorem State.setTrackMembers_subscription (s : State) (k : Nat) (v : PerBand Nat) (i' : Nat) :
    (s.setTrackMembers k v).subscription i' = s.subscription i' := rfl
@[simp] theorem State.setTrackMembers_count (s : State) (k : Nat) (v : PerBand Nat) (c' : Counter) :
    (s.setTrackMembers k v).count c' = s.count c' := rfl
@[simp] theorem State.setTrackMembers_flagSet (s : State) (k : Nat) (v : PerBand Nat) (f' : Flag) :
    (s.setTrackMembers k v).flagSet f' = s.flagSet f' := rfl
@[simp] theorem State.setTrackMembers_boundTracks (s : State) (k : Nat) (v : PerBand Nat) (a' : Nat) :
    (s.setTrackMembers k v).boundTracks a' = s.boundTracks a' := rfl
@[simp] theorem State.setTrackMembers_records (s : State) (k : Nat) (v : PerBand Nat) :
    (s.setTrackMembers k v).records = s.records := rfl
@[simp] theorem State.setTrackMembers_findHandle (s : State) (k : Nat) (v : PerBand Nat) (h' : Nat) :
    (s.setTrackMembers k v).findHandle h' = s.findHandle h' := rfl
@[simp] theorem State.setTrackMembers_showTimeAt (s : State) (k : Nat) (v : PerBand Nat) (a' : Nat) (e' : Nat) :
    (s.setTrackMembers k v).showTimeAt a' e' = s.showTimeAt a' e' := rfl
@[simp] theorem State.setTrackMembers_showTime (s : State) (k : Nat) (v : PerBand Nat) (a' : Nat) :
    (s.setTrackMembers k v).showTime a' = s.showTime a' := rfl

@[simp] theorem State.setMemberCount_auditorium (s : State) (k : Nat) (b : Band) (n : Nat) (a' : Nat) :
    (s.setMemberCount k b n).auditorium a' = s.auditorium a' := rfl
@[simp] theorem State.setMemberCount_lifecycle (s : State) (k : Nat) (b : Band) (n : Nat) (a' : Nat) :
    (s.setMemberCount k b n).lifecycle a' = s.lifecycle a' := rfl
@[simp] theorem State.setMemberCount_clock (s : State) (k : Nat) (b : Band) (n : Nat) (a' : Nat) :
    (s.setMemberCount k b n).clock a' = s.clock a' := rfl
@[simp] theorem State.setMemberCount_check (s : State) (k : Nat) (b : Band) (n : Nat) (a' : Nat) :
    (s.setMemberCount k b n).check a' = s.check a' := rfl
@[simp] theorem State.setMemberCount_beacon (s : State) (k : Nat) (b : Band) (n : Nat) (a' : Nat) :
    (s.setMemberCount k b n).beacon a' = s.beacon a' := rfl
@[simp] theorem State.setMemberCount_filter (s : State) (k : Nat) (b : Band) (n : Nat) (i' : Nat) :
    (s.setMemberCount k b n).filter i' = s.filter i' := rfl
@[simp] theorem State.setMemberCount_mask (s : State) (k : Nat) (b : Band) (n : Nat) (i' : Nat) :
    (s.setMemberCount k b n).mask i' = s.mask i' := rfl
@[simp] theorem State.setMemberCount_track (s : State) (k : Nat) (b : Band) (n : Nat) (k' : Nat) :
    (s.setMemberCount k b n).track k' = s.track k' := rfl
@[simp] theorem State.setMemberCount_trackSequences (s : State) (k : Nat) (b : Band) (n : Nat) (k' : Nat) :
    (s.setMemberCount k b n).trackSequences k' = s.trackSequences k' := rfl
@[simp] theorem State.setMemberCount_nextSeq (s : State) (k : Nat) (b : Band) (n : Nat) (k' : Nat) (b' : Band) :
    (s.setMemberCount k b n).nextSeq k' b' = s.nextSeq k' b' := rfl
@[simp] theorem State.setMemberCount_subscription (s : State) (k : Nat) (b : Band) (n : Nat) (i' : Nat) :
    (s.setMemberCount k b n).subscription i' = s.subscription i' := rfl
@[simp] theorem State.setMemberCount_count (s : State) (k : Nat) (b : Band) (n : Nat) (c' : Counter) :
    (s.setMemberCount k b n).count c' = s.count c' := rfl
@[simp] theorem State.setMemberCount_flagSet (s : State) (k : Nat) (b : Band) (n : Nat) (f' : Flag) :
    (s.setMemberCount k b n).flagSet f' = s.flagSet f' := rfl
@[simp] theorem State.setMemberCount_boundTracks (s : State) (k : Nat) (b : Band) (n : Nat) (a' : Nat) :
    (s.setMemberCount k b n).boundTracks a' = s.boundTracks a' := rfl
@[simp] theorem State.setMemberCount_records (s : State) (k : Nat) (b : Band) (n : Nat) :
    (s.setMemberCount k b n).records = s.records := rfl
@[simp] theorem State.setMemberCount_findHandle (s : State) (k : Nat) (b : Band) (n : Nat) (h' : Nat) :
    (s.setMemberCount k b n).findHandle h' = s.findHandle h' := rfl
@[simp] theorem State.setMemberCount_showTimeAt (s : State) (k : Nat) (b : Band) (n : Nat) (a' : Nat) (e' : Nat) :
    (s.setMemberCount k b n).showTimeAt a' e' = s.showTimeAt a' e' := rfl
@[simp] theorem State.setMemberCount_showTime (s : State) (k : Nat) (b : Band) (n : Nat) (a' : Nat) :
    (s.setMemberCount k b n).showTime a' = s.showTime a' := rfl

@[simp] theorem State.setSubscription_auditorium (s : State) (i : Nat) (v : Option Subscription) (a' : Nat) :
    (s.setSubscription i v).auditorium a' = s.auditorium a' := rfl
@[simp] theorem State.setSubscription_lifecycle (s : State) (i : Nat) (v : Option Subscription) (a' : Nat) :
    (s.setSubscription i v).lifecycle a' = s.lifecycle a' := rfl
@[simp] theorem State.setSubscription_clock (s : State) (i : Nat) (v : Option Subscription) (a' : Nat) :
    (s.setSubscription i v).clock a' = s.clock a' := rfl
@[simp] theorem State.setSubscription_check (s : State) (i : Nat) (v : Option Subscription) (a' : Nat) :
    (s.setSubscription i v).check a' = s.check a' := rfl
@[simp] theorem State.setSubscription_beacon (s : State) (i : Nat) (v : Option Subscription) (a' : Nat) :
    (s.setSubscription i v).beacon a' = s.beacon a' := rfl
@[simp] theorem State.setSubscription_filter (s : State) (i : Nat) (v : Option Subscription) (i' : Nat) :
    (s.setSubscription i v).filter i' = s.filter i' := rfl
@[simp] theorem State.setSubscription_mask (s : State) (i : Nat) (v : Option Subscription) (i' : Nat) :
    (s.setSubscription i v).mask i' = s.mask i' := rfl
@[simp] theorem State.setSubscription_track (s : State) (i : Nat) (v : Option Subscription) (k' : Nat) :
    (s.setSubscription i v).track k' = s.track k' := rfl
@[simp] theorem State.setSubscription_trackSequences (s : State) (i : Nat) (v : Option Subscription) (k' : Nat) :
    (s.setSubscription i v).trackSequences k' = s.trackSequences k' := rfl
@[simp] theorem State.setSubscription_nextSeq (s : State) (i : Nat) (v : Option Subscription) (k' : Nat) (b' : Band) :
    (s.setSubscription i v).nextSeq k' b' = s.nextSeq k' b' := rfl
@[simp] theorem State.setSubscription_trackMembers (s : State) (i : Nat) (v : Option Subscription) (k' : Nat) :
    (s.setSubscription i v).trackMembers k' = s.trackMembers k' := rfl
@[simp] theorem State.setSubscription_memberCount (s : State) (i : Nat) (v : Option Subscription) (k' : Nat) (b' : Band) :
    (s.setSubscription i v).memberCount k' b' = s.memberCount k' b' := rfl
@[simp] theorem State.setSubscription_count (s : State) (i : Nat) (v : Option Subscription) (c' : Counter) :
    (s.setSubscription i v).count c' = s.count c' := rfl
@[simp] theorem State.setSubscription_flagSet (s : State) (i : Nat) (v : Option Subscription) (f' : Flag) :
    (s.setSubscription i v).flagSet f' = s.flagSet f' := rfl
@[simp] theorem State.setSubscription_boundTracks (s : State) (i : Nat) (v : Option Subscription) (a' : Nat) :
    (s.setSubscription i v).boundTracks a' = s.boundTracks a' := rfl
@[simp] theorem State.setSubscription_showTimeAt (s : State) (i : Nat) (v : Option Subscription) (a' : Nat) (e' : Nat) :
    (s.setSubscription i v).showTimeAt a' e' = s.showTimeAt a' e' := rfl
@[simp] theorem State.setSubscription_showTime (s : State) (i : Nat) (v : Option Subscription) (a' : Nat) :
    (s.setSubscription i v).showTime a' = s.showTime a' := rfl

@[simp] theorem State.bumpBy_auditorium (s : State) (c : Counter) (n : Nat) (a' : Nat) :
    (s.bumpBy c n).auditorium a' = s.auditorium a' := rfl
@[simp] theorem State.bumpBy_lifecycle (s : State) (c : Counter) (n : Nat) (a' : Nat) :
    (s.bumpBy c n).lifecycle a' = s.lifecycle a' := rfl
@[simp] theorem State.bumpBy_clock (s : State) (c : Counter) (n : Nat) (a' : Nat) :
    (s.bumpBy c n).clock a' = s.clock a' := rfl
@[simp] theorem State.bumpBy_check (s : State) (c : Counter) (n : Nat) (a' : Nat) :
    (s.bumpBy c n).check a' = s.check a' := rfl
@[simp] theorem State.bumpBy_beacon (s : State) (c : Counter) (n : Nat) (a' : Nat) :
    (s.bumpBy c n).beacon a' = s.beacon a' := rfl
@[simp] theorem State.bumpBy_filter (s : State) (c : Counter) (n : Nat) (i' : Nat) :
    (s.bumpBy c n).filter i' = s.filter i' := rfl
@[simp] theorem State.bumpBy_mask (s : State) (c : Counter) (n : Nat) (i' : Nat) :
    (s.bumpBy c n).mask i' = s.mask i' := rfl
@[simp] theorem State.bumpBy_track (s : State) (c : Counter) (n : Nat) (k' : Nat) :
    (s.bumpBy c n).track k' = s.track k' := rfl
@[simp] theorem State.bumpBy_trackSequences (s : State) (c : Counter) (n : Nat) (k' : Nat) :
    (s.bumpBy c n).trackSequences k' = s.trackSequences k' := rfl
@[simp] theorem State.bumpBy_nextSeq (s : State) (c : Counter) (n : Nat) (k' : Nat) (b' : Band) :
    (s.bumpBy c n).nextSeq k' b' = s.nextSeq k' b' := rfl
@[simp] theorem State.bumpBy_trackMembers (s : State) (c : Counter) (n : Nat) (k' : Nat) :
    (s.bumpBy c n).trackMembers k' = s.trackMembers k' := rfl
@[simp] theorem State.bumpBy_memberCount (s : State) (c : Counter) (n : Nat) (k' : Nat) (b' : Band) :
    (s.bumpBy c n).memberCount k' b' = s.memberCount k' b' := rfl
@[simp] theorem State.bumpBy_subscription (s : State) (c : Counter) (n : Nat) (i' : Nat) :
    (s.bumpBy c n).subscription i' = s.subscription i' := rfl
@[simp] theorem State.bumpBy_flagSet (s : State) (c : Counter) (n : Nat) (f' : Flag) :
    (s.bumpBy c n).flagSet f' = s.flagSet f' := rfl
@[simp] theorem State.bumpBy_boundTracks (s : State) (c : Counter) (n : Nat) (a' : Nat) :
    (s.bumpBy c n).boundTracks a' = s.boundTracks a' := rfl
@[simp] theorem State.bumpBy_records (s : State) (c : Counter) (n : Nat) : (s.bumpBy c n).records = s.records := rfl
@[simp] theorem State.bumpBy_findHandle (s : State) (c : Counter) (n : Nat) (h' : Nat) :
    (s.bumpBy c n).findHandle h' = s.findHandle h' := rfl
@[simp] theorem State.bumpBy_showTimeAt (s : State) (c : Counter) (n : Nat) (a' : Nat) (e' : Nat) :
    (s.bumpBy c n).showTimeAt a' e' = s.showTimeAt a' e' := rfl
@[simp] theorem State.bumpBy_showTime (s : State) (c : Counter) (n : Nat) (a' : Nat) :
    (s.bumpBy c n).showTime a' = s.showTime a' := rfl

@[simp] theorem State.bump_auditorium (s : State) (c : Counter) (a' : Nat) :
    (s.bump c).auditorium a' = s.auditorium a' := rfl
@[simp] theorem State.bump_lifecycle (s : State) (c : Counter) (a' : Nat) :
    (s.bump c).lifecycle a' = s.lifecycle a' := rfl
@[simp] theorem State.bump_clock (s : State) (c : Counter) (a' : Nat) : (s.bump c).clock a' = s.clock a' := rfl
@[simp] theorem State.bump_check (s : State) (c : Counter) (a' : Nat) : (s.bump c).check a' = s.check a' := rfl
@[simp] theorem State.bump_beacon (s : State) (c : Counter) (a' : Nat) : (s.bump c).beacon a' = s.beacon a' := rfl
@[simp] theorem State.bump_filter (s : State) (c : Counter) (i' : Nat) : (s.bump c).filter i' = s.filter i' := rfl
@[simp] theorem State.bump_mask (s : State) (c : Counter) (i' : Nat) : (s.bump c).mask i' = s.mask i' := rfl
@[simp] theorem State.bump_track (s : State) (c : Counter) (k' : Nat) : (s.bump c).track k' = s.track k' := rfl
@[simp] theorem State.bump_trackSequences (s : State) (c : Counter) (k' : Nat) :
    (s.bump c).trackSequences k' = s.trackSequences k' := rfl
@[simp] theorem State.bump_nextSeq (s : State) (c : Counter) (k' : Nat) (b' : Band) :
    (s.bump c).nextSeq k' b' = s.nextSeq k' b' := rfl
@[simp] theorem State.bump_trackMembers (s : State) (c : Counter) (k' : Nat) :
    (s.bump c).trackMembers k' = s.trackMembers k' := rfl
@[simp] theorem State.bump_memberCount (s : State) (c : Counter) (k' : Nat) (b' : Band) :
    (s.bump c).memberCount k' b' = s.memberCount k' b' := rfl
@[simp] theorem State.bump_subscription (s : State) (c : Counter) (i' : Nat) :
    (s.bump c).subscription i' = s.subscription i' := rfl
@[simp] theorem State.bump_flagSet (s : State) (c : Counter) (f' : Flag) : (s.bump c).flagSet f' = s.flagSet f' := rfl
@[simp] theorem State.bump_boundTracks (s : State) (c : Counter) (a' : Nat) :
    (s.bump c).boundTracks a' = s.boundTracks a' := rfl
@[simp] theorem State.bump_records (s : State) (c : Counter) : (s.bump c).records = s.records := rfl
@[simp] theorem State.bump_findHandle (s : State) (c : Counter) (h' : Nat) :
    (s.bump c).findHandle h' = s.findHandle h' := rfl
@[simp] theorem State.bump_showTimeAt (s : State) (c : Counter) (a' : Nat) (e' : Nat) :
    (s.bump c).showTimeAt a' e' = s.showTimeAt a' e' := rfl
@[simp] theorem State.bump_showTime (s : State) (c : Counter) (a' : Nat) :
    (s.bump c).showTime a' = s.showTime a' := rfl

@[simp] theorem State.bumpDevice_auditorium (s : State) (c : DeviceCounter) (a' : Nat) :
    (s.bumpDevice c).auditorium a' = s.auditorium a' := rfl
@[simp] theorem State.bumpDevice_lifecycle (s : State) (c : DeviceCounter) (a' : Nat) :
    (s.bumpDevice c).lifecycle a' = s.lifecycle a' := rfl
@[simp] theorem State.bumpDevice_clock (s : State) (c : DeviceCounter) (a' : Nat) :
    (s.bumpDevice c).clock a' = s.clock a' := rfl
@[simp] theorem State.bumpDevice_check (s : State) (c : DeviceCounter) (a' : Nat) :
    (s.bumpDevice c).check a' = s.check a' := rfl
@[simp] theorem State.bumpDevice_beacon (s : State) (c : DeviceCounter) (a' : Nat) :
    (s.bumpDevice c).beacon a' = s.beacon a' := rfl
@[simp] theorem State.bumpDevice_filter (s : State) (c : DeviceCounter) (i' : Nat) :
    (s.bumpDevice c).filter i' = s.filter i' := rfl
@[simp] theorem State.bumpDevice_mask (s : State) (c : DeviceCounter) (i' : Nat) :
    (s.bumpDevice c).mask i' = s.mask i' := rfl
@[simp] theorem State.bumpDevice_track (s : State) (c : DeviceCounter) (k' : Nat) :
    (s.bumpDevice c).track k' = s.track k' := rfl
@[simp] theorem State.bumpDevice_trackSequences (s : State) (c : DeviceCounter) (k' : Nat) :
    (s.bumpDevice c).trackSequences k' = s.trackSequences k' := rfl
@[simp] theorem State.bumpDevice_nextSeq (s : State) (c : DeviceCounter) (k' : Nat) (b' : Band) :
    (s.bumpDevice c).nextSeq k' b' = s.nextSeq k' b' := rfl
@[simp] theorem State.bumpDevice_trackMembers (s : State) (c : DeviceCounter) (k' : Nat) :
    (s.bumpDevice c).trackMembers k' = s.trackMembers k' := rfl
@[simp] theorem State.bumpDevice_memberCount (s : State) (c : DeviceCounter) (k' : Nat) (b' : Band) :
    (s.bumpDevice c).memberCount k' b' = s.memberCount k' b' := rfl
@[simp] theorem State.bumpDevice_subscription (s : State) (c : DeviceCounter) (i' : Nat) :
    (s.bumpDevice c).subscription i' = s.subscription i' := rfl
@[simp] theorem State.bumpDevice_flagSet (s : State) (c : DeviceCounter) (f' : Flag) :
    (s.bumpDevice c).flagSet f' = s.flagSet f' := rfl
@[simp] theorem State.bumpDevice_boundTracks (s : State) (c : DeviceCounter) (a' : Nat) :
    (s.bumpDevice c).boundTracks a' = s.boundTracks a' := rfl
@[simp] theorem State.bumpDevice_records (s : State) (c : DeviceCounter) : (s.bumpDevice c).records = s.records := rfl
@[simp] theorem State.bumpDevice_findHandle (s : State) (c : DeviceCounter) (h' : Nat) :
    (s.bumpDevice c).findHandle h' = s.findHandle h' := rfl
@[simp] theorem State.bumpDevice_showTimeAt (s : State) (c : DeviceCounter) (a' : Nat) (e' : Nat) :
    (s.bumpDevice c).showTimeAt a' e' = s.showTimeAt a' e' := rfl
@[simp] theorem State.bumpDevice_showTime (s : State) (c : DeviceCounter) (a' : Nat) :
    (s.bumpDevice c).showTime a' = s.showTime a' := rfl

@[simp] theorem State.bumpAuditorium_auditorium (s : State) (a : Nat) (c : AuditoriumCounter) (a' : Nat) :
    (s.bumpAuditorium a c).auditorium a' = s.auditorium a' := rfl
@[simp] theorem State.bumpAuditorium_lifecycle (s : State) (a : Nat) (c : AuditoriumCounter) (a' : Nat) :
    (s.bumpAuditorium a c).lifecycle a' = s.lifecycle a' := rfl
@[simp] theorem State.bumpAuditorium_clock (s : State) (a : Nat) (c : AuditoriumCounter) (a' : Nat) :
    (s.bumpAuditorium a c).clock a' = s.clock a' := rfl
@[simp] theorem State.bumpAuditorium_check (s : State) (a : Nat) (c : AuditoriumCounter) (a' : Nat) :
    (s.bumpAuditorium a c).check a' = s.check a' := rfl
@[simp] theorem State.bumpAuditorium_beacon (s : State) (a : Nat) (c : AuditoriumCounter) (a' : Nat) :
    (s.bumpAuditorium a c).beacon a' = s.beacon a' := rfl
@[simp] theorem State.bumpAuditorium_filter (s : State) (a : Nat) (c : AuditoriumCounter) (i' : Nat) :
    (s.bumpAuditorium a c).filter i' = s.filter i' := rfl
@[simp] theorem State.bumpAuditorium_mask (s : State) (a : Nat) (c : AuditoriumCounter) (i' : Nat) :
    (s.bumpAuditorium a c).mask i' = s.mask i' := rfl
@[simp] theorem State.bumpAuditorium_track (s : State) (a : Nat) (c : AuditoriumCounter) (k' : Nat) :
    (s.bumpAuditorium a c).track k' = s.track k' := rfl
@[simp] theorem State.bumpAuditorium_trackSequences (s : State) (a : Nat) (c : AuditoriumCounter) (k' : Nat) :
    (s.bumpAuditorium a c).trackSequences k' = s.trackSequences k' := rfl
@[simp] theorem State.bumpAuditorium_nextSeq (s : State) (a : Nat) (c : AuditoriumCounter) (k' : Nat) (b' : Band) :
    (s.bumpAuditorium a c).nextSeq k' b' = s.nextSeq k' b' := rfl
@[simp] theorem State.bumpAuditorium_trackMembers (s : State) (a : Nat) (c : AuditoriumCounter) (k' : Nat) :
    (s.bumpAuditorium a c).trackMembers k' = s.trackMembers k' := rfl
@[simp] theorem State.bumpAuditorium_memberCount (s : State) (a : Nat) (c : AuditoriumCounter) (k' : Nat) (b' : Band) :
    (s.bumpAuditorium a c).memberCount k' b' = s.memberCount k' b' := rfl
@[simp] theorem State.bumpAuditorium_subscription (s : State) (a : Nat) (c : AuditoriumCounter) (i' : Nat) :
    (s.bumpAuditorium a c).subscription i' = s.subscription i' := rfl
@[simp] theorem State.bumpAuditorium_flagSet (s : State) (a : Nat) (c : AuditoriumCounter) (f' : Flag) :
    (s.bumpAuditorium a c).flagSet f' = s.flagSet f' := rfl
@[simp] theorem State.bumpAuditorium_boundTracks (s : State) (a : Nat) (c : AuditoriumCounter) (a' : Nat) :
    (s.bumpAuditorium a c).boundTracks a' = s.boundTracks a' := rfl
@[simp] theorem State.bumpAuditorium_records (s : State) (a : Nat) (c : AuditoriumCounter) :
    (s.bumpAuditorium a c).records = s.records := rfl
@[simp] theorem State.bumpAuditorium_findHandle (s : State) (a : Nat) (c : AuditoriumCounter) (h' : Nat) :
    (s.bumpAuditorium a c).findHandle h' = s.findHandle h' := rfl
@[simp] theorem State.bumpAuditorium_showTimeAt (s : State) (a : Nat) (c : AuditoriumCounter) (a' : Nat) (e' : Nat) :
    (s.bumpAuditorium a c).showTimeAt a' e' = s.showTimeAt a' e' := rfl
@[simp] theorem State.bumpAuditorium_showTime (s : State) (a : Nat) (c : AuditoriumCounter) (a' : Nat) :
    (s.bumpAuditorium a c).showTime a' = s.showTime a' := rfl

@[simp] theorem State.bumpTrack_auditorium (s : State) (k : Nat) (c : TrackCounter) (a' : Nat) :
    (s.bumpTrack k c).auditorium a' = s.auditorium a' := rfl
@[simp] theorem State.bumpTrack_lifecycle (s : State) (k : Nat) (c : TrackCounter) (a' : Nat) :
    (s.bumpTrack k c).lifecycle a' = s.lifecycle a' := rfl
@[simp] theorem State.bumpTrack_clock (s : State) (k : Nat) (c : TrackCounter) (a' : Nat) :
    (s.bumpTrack k c).clock a' = s.clock a' := rfl
@[simp] theorem State.bumpTrack_check (s : State) (k : Nat) (c : TrackCounter) (a' : Nat) :
    (s.bumpTrack k c).check a' = s.check a' := rfl
@[simp] theorem State.bumpTrack_beacon (s : State) (k : Nat) (c : TrackCounter) (a' : Nat) :
    (s.bumpTrack k c).beacon a' = s.beacon a' := rfl
@[simp] theorem State.bumpTrack_filter (s : State) (k : Nat) (c : TrackCounter) (i' : Nat) :
    (s.bumpTrack k c).filter i' = s.filter i' := rfl
@[simp] theorem State.bumpTrack_mask (s : State) (k : Nat) (c : TrackCounter) (i' : Nat) :
    (s.bumpTrack k c).mask i' = s.mask i' := rfl
@[simp] theorem State.bumpTrack_track (s : State) (k : Nat) (c : TrackCounter) (k' : Nat) :
    (s.bumpTrack k c).track k' = s.track k' := rfl
@[simp] theorem State.bumpTrack_trackSequences (s : State) (k : Nat) (c : TrackCounter) (k' : Nat) :
    (s.bumpTrack k c).trackSequences k' = s.trackSequences k' := rfl
@[simp] theorem State.bumpTrack_nextSeq (s : State) (k : Nat) (c : TrackCounter) (k' : Nat) (b' : Band) :
    (s.bumpTrack k c).nextSeq k' b' = s.nextSeq k' b' := rfl
@[simp] theorem State.bumpTrack_trackMembers (s : State) (k : Nat) (c : TrackCounter) (k' : Nat) :
    (s.bumpTrack k c).trackMembers k' = s.trackMembers k' := rfl
@[simp] theorem State.bumpTrack_memberCount (s : State) (k : Nat) (c : TrackCounter) (k' : Nat) (b' : Band) :
    (s.bumpTrack k c).memberCount k' b' = s.memberCount k' b' := rfl
@[simp] theorem State.bumpTrack_subscription (s : State) (k : Nat) (c : TrackCounter) (i' : Nat) :
    (s.bumpTrack k c).subscription i' = s.subscription i' := rfl
@[simp] theorem State.bumpTrack_flagSet (s : State) (k : Nat) (c : TrackCounter) (f' : Flag) :
    (s.bumpTrack k c).flagSet f' = s.flagSet f' := rfl
@[simp] theorem State.bumpTrack_boundTracks (s : State) (k : Nat) (c : TrackCounter) (a' : Nat) :
    (s.bumpTrack k c).boundTracks a' = s.boundTracks a' := rfl
@[simp] theorem State.bumpTrack_records (s : State) (k : Nat) (c : TrackCounter) :
    (s.bumpTrack k c).records = s.records := rfl
@[simp] theorem State.bumpTrack_findHandle (s : State) (k : Nat) (c : TrackCounter) (h' : Nat) :
    (s.bumpTrack k c).findHandle h' = s.findHandle h' := rfl
@[simp] theorem State.bumpTrack_showTimeAt (s : State) (k : Nat) (c : TrackCounter) (a' : Nat) (e' : Nat) :
    (s.bumpTrack k c).showTimeAt a' e' = s.showTimeAt a' e' := rfl
@[simp] theorem State.bumpTrack_showTime (s : State) (k : Nat) (c : TrackCounter) (a' : Nat) :
    (s.bumpTrack k c).showTime a' = s.showTime a' := rfl

@[simp] theorem State.writeFlag_auditorium (s : State) (f : Flag) (v : Bool) (a' : Nat) :
    (s.writeFlag f v).auditorium a' = s.auditorium a' := rfl
@[simp] theorem State.writeFlag_lifecycle (s : State) (f : Flag) (v : Bool) (a' : Nat) :
    (s.writeFlag f v).lifecycle a' = s.lifecycle a' := rfl
@[simp] theorem State.writeFlag_clock (s : State) (f : Flag) (v : Bool) (a' : Nat) :
    (s.writeFlag f v).clock a' = s.clock a' := rfl
@[simp] theorem State.writeFlag_check (s : State) (f : Flag) (v : Bool) (a' : Nat) :
    (s.writeFlag f v).check a' = s.check a' := rfl
@[simp] theorem State.writeFlag_beacon (s : State) (f : Flag) (v : Bool) (a' : Nat) :
    (s.writeFlag f v).beacon a' = s.beacon a' := rfl
@[simp] theorem State.writeFlag_filter (s : State) (f : Flag) (v : Bool) (i' : Nat) :
    (s.writeFlag f v).filter i' = s.filter i' := rfl
@[simp] theorem State.writeFlag_mask (s : State) (f : Flag) (v : Bool) (i' : Nat) :
    (s.writeFlag f v).mask i' = s.mask i' := rfl
@[simp] theorem State.writeFlag_track (s : State) (f : Flag) (v : Bool) (k' : Nat) :
    (s.writeFlag f v).track k' = s.track k' := rfl
@[simp] theorem State.writeFlag_trackSequences (s : State) (f : Flag) (v : Bool) (k' : Nat) :
    (s.writeFlag f v).trackSequences k' = s.trackSequences k' := rfl
@[simp] theorem State.writeFlag_nextSeq (s : State) (f : Flag) (v : Bool) (k' : Nat) (b' : Band) :
    (s.writeFlag f v).nextSeq k' b' = s.nextSeq k' b' := rfl
@[simp] theorem State.writeFlag_trackMembers (s : State) (f : Flag) (v : Bool) (k' : Nat) :
    (s.writeFlag f v).trackMembers k' = s.trackMembers k' := rfl
@[simp] theorem State.writeFlag_memberCount (s : State) (f : Flag) (v : Bool) (k' : Nat) (b' : Band) :
    (s.writeFlag f v).memberCount k' b' = s.memberCount k' b' := rfl
@[simp] theorem State.writeFlag_subscription (s : State) (f : Flag) (v : Bool) (i' : Nat) :
    (s.writeFlag f v).subscription i' = s.subscription i' := rfl
@[simp] theorem State.writeFlag_count (s : State) (f : Flag) (v : Bool) (c' : Counter) :
    (s.writeFlag f v).count c' = s.count c' := rfl
@[simp] theorem State.writeFlag_boundTracks (s : State) (f : Flag) (v : Bool) (a' : Nat) :
    (s.writeFlag f v).boundTracks a' = s.boundTracks a' := rfl
@[simp] theorem State.writeFlag_records (s : State) (f : Flag) (v : Bool) :
    (s.writeFlag f v).records = s.records := rfl
@[simp] theorem State.writeFlag_findHandle (s : State) (f : Flag) (v : Bool) (h' : Nat) :
    (s.writeFlag f v).findHandle h' = s.findHandle h' := rfl
@[simp] theorem State.writeFlag_showTimeAt (s : State) (f : Flag) (v : Bool) (a' : Nat) (e' : Nat) :
    (s.writeFlag f v).showTimeAt a' e' = s.showTimeAt a' e' := rfl
@[simp] theorem State.writeFlag_showTime (s : State) (f : Flag) (v : Bool) (a' : Nat) :
    (s.writeFlag f v).showTime a' = s.showTime a' := rfl

@[simp] theorem State.pushContent_auditorium (s : State) (f : ContentFrame) (a' : Nat) :
    (s.pushContent f).auditorium a' = s.auditorium a' := rfl
@[simp] theorem State.pushContent_lifecycle (s : State) (f : ContentFrame) (a' : Nat) :
    (s.pushContent f).lifecycle a' = s.lifecycle a' := rfl
@[simp] theorem State.pushContent_clock (s : State) (f : ContentFrame) (a' : Nat) :
    (s.pushContent f).clock a' = s.clock a' := rfl
@[simp] theorem State.pushContent_check (s : State) (f : ContentFrame) (a' : Nat) :
    (s.pushContent f).check a' = s.check a' := rfl
@[simp] theorem State.pushContent_beacon (s : State) (f : ContentFrame) (a' : Nat) :
    (s.pushContent f).beacon a' = s.beacon a' := rfl
@[simp] theorem State.pushContent_filter (s : State) (f : ContentFrame) (i' : Nat) :
    (s.pushContent f).filter i' = s.filter i' := rfl
@[simp] theorem State.pushContent_mask (s : State) (f : ContentFrame) (i' : Nat) :
    (s.pushContent f).mask i' = s.mask i' := rfl
@[simp] theorem State.pushContent_track (s : State) (f : ContentFrame) (k' : Nat) :
    (s.pushContent f).track k' = s.track k' := rfl
@[simp] theorem State.pushContent_trackSequences (s : State) (f : ContentFrame) (k' : Nat) :
    (s.pushContent f).trackSequences k' = s.trackSequences k' := rfl
@[simp] theorem State.pushContent_nextSeq (s : State) (f : ContentFrame) (k' : Nat) (b' : Band) :
    (s.pushContent f).nextSeq k' b' = s.nextSeq k' b' := rfl
@[simp] theorem State.pushContent_trackMembers (s : State) (f : ContentFrame) (k' : Nat) :
    (s.pushContent f).trackMembers k' = s.trackMembers k' := rfl
@[simp] theorem State.pushContent_memberCount (s : State) (f : ContentFrame) (k' : Nat) (b' : Band) :
    (s.pushContent f).memberCount k' b' = s.memberCount k' b' := rfl
@[simp] theorem State.pushContent_subscription (s : State) (f : ContentFrame) (i' : Nat) :
    (s.pushContent f).subscription i' = s.subscription i' := rfl
@[simp] theorem State.pushContent_count (s : State) (f : ContentFrame) (c' : Counter) :
    (s.pushContent f).count c' = s.count c' := rfl
@[simp] theorem State.pushContent_flagSet (s : State) (f : ContentFrame) (f' : Flag) :
    (s.pushContent f).flagSet f' = s.flagSet f' := rfl
@[simp] theorem State.pushContent_boundTracks (s : State) (f : ContentFrame) (a' : Nat) :
    (s.pushContent f).boundTracks a' = s.boundTracks a' := rfl
@[simp] theorem State.pushContent_records (s : State) (f : ContentFrame) :
    (s.pushContent f).records = s.records := rfl
@[simp] theorem State.pushContent_findHandle (s : State) (f : ContentFrame) (h' : Nat) :
    (s.pushContent f).findHandle h' = s.findHandle h' := rfl
@[simp] theorem State.pushContent_showTimeAt (s : State) (f : ContentFrame) (a' : Nat) (e' : Nat) :
    (s.pushContent f).showTimeAt a' e' = s.showTimeAt a' e' := rfl
@[simp] theorem State.pushContent_showTime (s : State) (f : ContentFrame) (a' : Nat) :
    (s.pushContent f).showTime a' = s.showTime a' := rfl

@[simp] theorem State.removeWaiting_auditorium (s : State) (e : Entry) (a' : Nat) :
    (s.removeWaiting e).auditorium a' = s.auditorium a' := rfl
@[simp] theorem State.removeWaiting_lifecycle (s : State) (e : Entry) (a' : Nat) :
    (s.removeWaiting e).lifecycle a' = s.lifecycle a' := rfl
@[simp] theorem State.removeWaiting_clock (s : State) (e : Entry) (a' : Nat) :
    (s.removeWaiting e).clock a' = s.clock a' := rfl
@[simp] theorem State.removeWaiting_check (s : State) (e : Entry) (a' : Nat) :
    (s.removeWaiting e).check a' = s.check a' := rfl
@[simp] theorem State.removeWaiting_beacon (s : State) (e : Entry) (a' : Nat) :
    (s.removeWaiting e).beacon a' = s.beacon a' := rfl
@[simp] theorem State.removeWaiting_filter (s : State) (e : Entry) (i' : Nat) :
    (s.removeWaiting e).filter i' = s.filter i' := rfl
@[simp] theorem State.removeWaiting_mask (s : State) (e : Entry) (i' : Nat) :
    (s.removeWaiting e).mask i' = s.mask i' := rfl
@[simp] theorem State.removeWaiting_track (s : State) (e : Entry) (k' : Nat) :
    (s.removeWaiting e).track k' = s.track k' := rfl
@[simp] theorem State.removeWaiting_trackSequences (s : State) (e : Entry) (k' : Nat) :
    (s.removeWaiting e).trackSequences k' = s.trackSequences k' := rfl
@[simp] theorem State.removeWaiting_nextSeq (s : State) (e : Entry) (k' : Nat) (b' : Band) :
    (s.removeWaiting e).nextSeq k' b' = s.nextSeq k' b' := rfl
@[simp] theorem State.removeWaiting_trackMembers (s : State) (e : Entry) (k' : Nat) :
    (s.removeWaiting e).trackMembers k' = s.trackMembers k' := rfl
@[simp] theorem State.removeWaiting_memberCount (s : State) (e : Entry) (k' : Nat) (b' : Band) :
    (s.removeWaiting e).memberCount k' b' = s.memberCount k' b' := rfl
@[simp] theorem State.removeWaiting_subscription (s : State) (e : Entry) (i' : Nat) :
    (s.removeWaiting e).subscription i' = s.subscription i' := rfl
@[simp] theorem State.removeWaiting_count (s : State) (e : Entry) (c' : Counter) :
    (s.removeWaiting e).count c' = s.count c' := rfl
@[simp] theorem State.removeWaiting_flagSet (s : State) (e : Entry) (f' : Flag) :
    (s.removeWaiting e).flagSet f' = s.flagSet f' := rfl
@[simp] theorem State.removeWaiting_boundTracks (s : State) (e : Entry) (a' : Nat) :
    (s.removeWaiting e).boundTracks a' = s.boundTracks a' := rfl
@[simp] theorem State.removeWaiting_records (s : State) (e : Entry) : (s.removeWaiting e).records = s.records := rfl
@[simp] theorem State.removeWaiting_findHandle (s : State) (e : Entry) (h' : Nat) :
    (s.removeWaiting e).findHandle h' = s.findHandle h' := rfl
@[simp] theorem State.removeWaiting_showTimeAt (s : State) (e : Entry) (a' : Nat) (e' : Nat) :
    (s.removeWaiting e).showTimeAt a' e' = s.showTimeAt a' e' := rfl
@[simp] theorem State.removeWaiting_showTime (s : State) (e : Entry) (a' : Nat) :
    (s.removeWaiting e).showTime a' = s.showTime a' := rfl

@[simp] theorem State.clearFlight_auditorium (s : State) (a' : Nat) :
    s.clearFlight.auditorium a' = s.auditorium a' := rfl
@[simp] theorem State.clearFlight_lifecycle (s : State) (a' : Nat) :
    s.clearFlight.lifecycle a' = s.lifecycle a' := rfl
@[simp] theorem State.clearFlight_clock (s : State) (a' : Nat) : s.clearFlight.clock a' = s.clock a' := rfl
@[simp] theorem State.clearFlight_check (s : State) (a' : Nat) : s.clearFlight.check a' = s.check a' := rfl
@[simp] theorem State.clearFlight_beacon (s : State) (a' : Nat) : s.clearFlight.beacon a' = s.beacon a' := rfl
@[simp] theorem State.clearFlight_filter (s : State) (i' : Nat) : s.clearFlight.filter i' = s.filter i' := rfl
@[simp] theorem State.clearFlight_mask (s : State) (i' : Nat) : s.clearFlight.mask i' = s.mask i' := rfl
@[simp] theorem State.clearFlight_track (s : State) (k' : Nat) : s.clearFlight.track k' = s.track k' := rfl
@[simp] theorem State.clearFlight_trackSequences (s : State) (k' : Nat) :
    s.clearFlight.trackSequences k' = s.trackSequences k' := rfl
@[simp] theorem State.clearFlight_nextSeq (s : State) (k' : Nat) (b' : Band) :
    s.clearFlight.nextSeq k' b' = s.nextSeq k' b' := rfl
@[simp] theorem State.clearFlight_trackMembers (s : State) (k' : Nat) :
    s.clearFlight.trackMembers k' = s.trackMembers k' := rfl
@[simp] theorem State.clearFlight_memberCount (s : State) (k' : Nat) (b' : Band) :
    s.clearFlight.memberCount k' b' = s.memberCount k' b' := rfl
@[simp] theorem State.clearFlight_subscription (s : State) (i' : Nat) :
    s.clearFlight.subscription i' = s.subscription i' := rfl
@[simp] theorem State.clearFlight_count (s : State) (c' : Counter) : s.clearFlight.count c' = s.count c' := rfl
@[simp] theorem State.clearFlight_flagSet (s : State) (f' : Flag) : s.clearFlight.flagSet f' = s.flagSet f' := rfl
@[simp] theorem State.clearFlight_boundTracks (s : State) (a' : Nat) :
    s.clearFlight.boundTracks a' = s.boundTracks a' := rfl
@[simp] theorem State.clearFlight_records (s : State) : s.clearFlight.records = s.records := rfl
@[simp] theorem State.clearFlight_findHandle (s : State) (h' : Nat) :
    s.clearFlight.findHandle h' = s.findHandle h' := rfl
@[simp] theorem State.clearFlight_showTimeAt (s : State) (a' : Nat) (e' : Nat) :
    s.clearFlight.showTimeAt a' e' = s.showTimeAt a' e' := rfl
@[simp] theorem State.clearFlight_showTime (s : State) (a' : Nat) : s.clearFlight.showTime a' = s.showTime a' := rfl

@[simp] theorem State.clearTail_auditorium (s : State) (a' : Nat) : s.clearTail.auditorium a' = s.auditorium a' := rfl
@[simp] theorem State.clearTail_lifecycle (s : State) (a' : Nat) : s.clearTail.lifecycle a' = s.lifecycle a' := rfl
@[simp] theorem State.clearTail_clock (s : State) (a' : Nat) : s.clearTail.clock a' = s.clock a' := rfl
@[simp] theorem State.clearTail_check (s : State) (a' : Nat) : s.clearTail.check a' = s.check a' := rfl
@[simp] theorem State.clearTail_beacon (s : State) (a' : Nat) : s.clearTail.beacon a' = s.beacon a' := rfl
@[simp] theorem State.clearTail_filter (s : State) (i' : Nat) : s.clearTail.filter i' = s.filter i' := rfl
@[simp] theorem State.clearTail_mask (s : State) (i' : Nat) : s.clearTail.mask i' = s.mask i' := rfl
@[simp] theorem State.clearTail_track (s : State) (k' : Nat) : s.clearTail.track k' = s.track k' := rfl
@[simp] theorem State.clearTail_trackSequences (s : State) (k' : Nat) :
    s.clearTail.trackSequences k' = s.trackSequences k' := rfl
@[simp] theorem State.clearTail_nextSeq (s : State) (k' : Nat) (b' : Band) :
    s.clearTail.nextSeq k' b' = s.nextSeq k' b' := rfl
@[simp] theorem State.clearTail_trackMembers (s : State) (k' : Nat) :
    s.clearTail.trackMembers k' = s.trackMembers k' := rfl
@[simp] theorem State.clearTail_memberCount (s : State) (k' : Nat) (b' : Band) :
    s.clearTail.memberCount k' b' = s.memberCount k' b' := rfl
@[simp] theorem State.clearTail_subscription (s : State) (i' : Nat) :
    s.clearTail.subscription i' = s.subscription i' := rfl
@[simp] theorem State.clearTail_count (s : State) (c' : Counter) : s.clearTail.count c' = s.count c' := rfl
@[simp] theorem State.clearTail_flagSet (s : State) (f' : Flag) : s.clearTail.flagSet f' = s.flagSet f' := rfl
@[simp] theorem State.clearTail_boundTracks (s : State) (a' : Nat) :
    s.clearTail.boundTracks a' = s.boundTracks a' := rfl
@[simp] theorem State.clearTail_records (s : State) : s.clearTail.records = s.records := rfl
@[simp] theorem State.clearTail_findHandle (s : State) (h' : Nat) : s.clearTail.findHandle h' = s.findHandle h' := rfl
@[simp] theorem State.clearTail_showTimeAt (s : State) (a' : Nat) (e' : Nat) :
    s.clearTail.showTimeAt a' e' = s.showTimeAt a' e' := rfl
@[simp] theorem State.clearTail_showTime (s : State) (a' : Nat) : s.clearTail.showTime a' = s.showTime a' := rfl

@[simp] theorem State.pushDelivery_auditorium (s : State) (f : DeliveryFrame) (a' : Nat) :
    (s.pushDelivery f).auditorium a' = s.auditorium a' := rfl
@[simp] theorem State.pushDelivery_lifecycle (s : State) (f : DeliveryFrame) (a' : Nat) :
    (s.pushDelivery f).lifecycle a' = s.lifecycle a' := rfl
@[simp] theorem State.pushDelivery_clock (s : State) (f : DeliveryFrame) (a' : Nat) :
    (s.pushDelivery f).clock a' = s.clock a' := rfl
@[simp] theorem State.pushDelivery_check (s : State) (f : DeliveryFrame) (a' : Nat) :
    (s.pushDelivery f).check a' = s.check a' := rfl
@[simp] theorem State.pushDelivery_beacon (s : State) (f : DeliveryFrame) (a' : Nat) :
    (s.pushDelivery f).beacon a' = s.beacon a' := rfl
@[simp] theorem State.pushDelivery_filter (s : State) (f : DeliveryFrame) (i' : Nat) :
    (s.pushDelivery f).filter i' = s.filter i' := rfl
@[simp] theorem State.pushDelivery_mask (s : State) (f : DeliveryFrame) (i' : Nat) :
    (s.pushDelivery f).mask i' = s.mask i' := rfl
@[simp] theorem State.pushDelivery_track (s : State) (f : DeliveryFrame) (k' : Nat) :
    (s.pushDelivery f).track k' = s.track k' := rfl
@[simp] theorem State.pushDelivery_trackSequences (s : State) (f : DeliveryFrame) (k' : Nat) :
    (s.pushDelivery f).trackSequences k' = s.trackSequences k' := rfl
@[simp] theorem State.pushDelivery_nextSeq (s : State) (f : DeliveryFrame) (k' : Nat) (b' : Band) :
    (s.pushDelivery f).nextSeq k' b' = s.nextSeq k' b' := rfl
@[simp] theorem State.pushDelivery_trackMembers (s : State) (f : DeliveryFrame) (k' : Nat) :
    (s.pushDelivery f).trackMembers k' = s.trackMembers k' := rfl
@[simp] theorem State.pushDelivery_memberCount (s : State) (f : DeliveryFrame) (k' : Nat) (b' : Band) :
    (s.pushDelivery f).memberCount k' b' = s.memberCount k' b' := rfl
@[simp] theorem State.pushDelivery_subscription (s : State) (f : DeliveryFrame) (i' : Nat) :
    (s.pushDelivery f).subscription i' = s.subscription i' := rfl
@[simp] theorem State.pushDelivery_count (s : State) (f : DeliveryFrame) (c' : Counter) :
    (s.pushDelivery f).count c' = s.count c' := rfl
@[simp] theorem State.pushDelivery_flagSet (s : State) (f : DeliveryFrame) (f' : Flag) :
    (s.pushDelivery f).flagSet f' = s.flagSet f' := rfl
@[simp] theorem State.pushDelivery_boundTracks (s : State) (f : DeliveryFrame) (a' : Nat) :
    (s.pushDelivery f).boundTracks a' = s.boundTracks a' := rfl
@[simp] theorem State.pushDelivery_records (s : State) (f : DeliveryFrame) :
    (s.pushDelivery f).records = s.records := rfl
@[simp] theorem State.pushDelivery_findHandle (s : State) (f : DeliveryFrame) (h' : Nat) :
    (s.pushDelivery f).findHandle h' = s.findHandle h' := rfl
@[simp] theorem State.pushDelivery_showTimeAt (s : State) (f : DeliveryFrame) (a' : Nat) (e' : Nat) :
    (s.pushDelivery f).showTimeAt a' e' = s.showTimeAt a' e' := rfl
@[simp] theorem State.pushDelivery_showTime (s : State) (f : DeliveryFrame) (a' : Nat) :
    (s.pushDelivery f).showTime a' = s.showTime a' := rfl

@[simp] theorem State.setPause_auditorium (s : State) (e : Option Nat) (a' : Nat) :
    (s.setPause e).auditorium a' = s.auditorium a' := rfl
@[simp] theorem State.setPause_lifecycle (s : State) (e : Option Nat) (a' : Nat) :
    (s.setPause e).lifecycle a' = s.lifecycle a' := rfl
@[simp] theorem State.setPause_clock (s : State) (e : Option Nat) (a' : Nat) :
    (s.setPause e).clock a' = s.clock a' := rfl
@[simp] theorem State.setPause_check (s : State) (e : Option Nat) (a' : Nat) :
    (s.setPause e).check a' = s.check a' := rfl
@[simp] theorem State.setPause_beacon (s : State) (e : Option Nat) (a' : Nat) :
    (s.setPause e).beacon a' = s.beacon a' := rfl
@[simp] theorem State.setPause_filter (s : State) (e : Option Nat) (i' : Nat) :
    (s.setPause e).filter i' = s.filter i' := rfl
@[simp] theorem State.setPause_mask (s : State) (e : Option Nat) (i' : Nat) :
    (s.setPause e).mask i' = s.mask i' := rfl
@[simp] theorem State.setPause_track (s : State) (e : Option Nat) (k' : Nat) :
    (s.setPause e).track k' = s.track k' := rfl
@[simp] theorem State.setPause_trackSequences (s : State) (e : Option Nat) (k' : Nat) :
    (s.setPause e).trackSequences k' = s.trackSequences k' := rfl
@[simp] theorem State.setPause_nextSeq (s : State) (e : Option Nat) (k' : Nat) (b' : Band) :
    (s.setPause e).nextSeq k' b' = s.nextSeq k' b' := rfl
@[simp] theorem State.setPause_trackMembers (s : State) (e : Option Nat) (k' : Nat) :
    (s.setPause e).trackMembers k' = s.trackMembers k' := rfl
@[simp] theorem State.setPause_memberCount (s : State) (e : Option Nat) (k' : Nat) (b' : Band) :
    (s.setPause e).memberCount k' b' = s.memberCount k' b' := rfl
@[simp] theorem State.setPause_subscription (s : State) (e : Option Nat) (i' : Nat) :
    (s.setPause e).subscription i' = s.subscription i' := rfl
@[simp] theorem State.setPause_count (s : State) (e : Option Nat) (c' : Counter) :
    (s.setPause e).count c' = s.count c' := rfl
@[simp] theorem State.setPause_flagSet (s : State) (e : Option Nat) (f' : Flag) :
    (s.setPause e).flagSet f' = s.flagSet f' := rfl
@[simp] theorem State.setPause_boundTracks (s : State) (e : Option Nat) (a' : Nat) :
    (s.setPause e).boundTracks a' = s.boundTracks a' := rfl
@[simp] theorem State.setPause_records (s : State) (e : Option Nat) : (s.setPause e).records = s.records := rfl
@[simp] theorem State.setPause_findHandle (s : State) (e : Option Nat) (h' : Nat) :
    (s.setPause e).findHandle h' = s.findHandle h' := rfl
@[simp] theorem State.setPause_showTimeAt (s : State) (e : Option Nat) (a' : Nat) (e' : Nat) :
    (s.setPause e).showTimeAt a' e' = s.showTimeAt a' e' := rfl
@[simp] theorem State.setPause_showTime (s : State) (e : Option Nat) (a' : Nat) :
    (s.setPause e).showTime a' = s.showTime a' := rfl

@[simp] theorem State.setRotation_auditorium (s : State) (c : EgressClass) (r : Rotation) (a' : Nat) :
    (s.setRotation c r).auditorium a' = s.auditorium a' := rfl
@[simp] theorem State.setRotation_lifecycle (s : State) (c : EgressClass) (r : Rotation) (a' : Nat) :
    (s.setRotation c r).lifecycle a' = s.lifecycle a' := rfl
@[simp] theorem State.setRotation_clock (s : State) (c : EgressClass) (r : Rotation) (a' : Nat) :
    (s.setRotation c r).clock a' = s.clock a' := rfl
@[simp] theorem State.setRotation_check (s : State) (c : EgressClass) (r : Rotation) (a' : Nat) :
    (s.setRotation c r).check a' = s.check a' := rfl
@[simp] theorem State.setRotation_beacon (s : State) (c : EgressClass) (r : Rotation) (a' : Nat) :
    (s.setRotation c r).beacon a' = s.beacon a' := rfl
@[simp] theorem State.setRotation_filter (s : State) (c : EgressClass) (r : Rotation) (i' : Nat) :
    (s.setRotation c r).filter i' = s.filter i' := rfl
@[simp] theorem State.setRotation_mask (s : State) (c : EgressClass) (r : Rotation) (i' : Nat) :
    (s.setRotation c r).mask i' = s.mask i' := rfl
@[simp] theorem State.setRotation_track (s : State) (c : EgressClass) (r : Rotation) (k' : Nat) :
    (s.setRotation c r).track k' = s.track k' := rfl
@[simp] theorem State.setRotation_trackSequences (s : State) (c : EgressClass) (r : Rotation) (k' : Nat) :
    (s.setRotation c r).trackSequences k' = s.trackSequences k' := rfl
@[simp] theorem State.setRotation_nextSeq (s : State) (c : EgressClass) (r : Rotation) (k' : Nat) (b' : Band) :
    (s.setRotation c r).nextSeq k' b' = s.nextSeq k' b' := rfl
@[simp] theorem State.setRotation_trackMembers (s : State) (c : EgressClass) (r : Rotation) (k' : Nat) :
    (s.setRotation c r).trackMembers k' = s.trackMembers k' := rfl
@[simp] theorem State.setRotation_memberCount (s : State) (c : EgressClass) (r : Rotation) (k' : Nat) (b' : Band) :
    (s.setRotation c r).memberCount k' b' = s.memberCount k' b' := rfl
@[simp] theorem State.setRotation_subscription (s : State) (c : EgressClass) (r : Rotation) (i' : Nat) :
    (s.setRotation c r).subscription i' = s.subscription i' := rfl
@[simp] theorem State.setRotation_count (s : State) (c : EgressClass) (r : Rotation) (c' : Counter) :
    (s.setRotation c r).count c' = s.count c' := rfl
@[simp] theorem State.setRotation_flagSet (s : State) (c : EgressClass) (r : Rotation) (f' : Flag) :
    (s.setRotation c r).flagSet f' = s.flagSet f' := rfl
@[simp] theorem State.setRotation_boundTracks (s : State) (c : EgressClass) (r : Rotation) (a' : Nat) :
    (s.setRotation c r).boundTracks a' = s.boundTracks a' := rfl
@[simp] theorem State.setRotation_records (s : State) (c : EgressClass) (r : Rotation) :
    (s.setRotation c r).records = s.records := rfl
@[simp] theorem State.setRotation_findHandle (s : State) (c : EgressClass) (r : Rotation) (h' : Nat) :
    (s.setRotation c r).findHandle h' = s.findHandle h' := rfl
@[simp] theorem State.setRotation_showTimeAt (s : State) (c : EgressClass) (r : Rotation) (a' : Nat) (e' : Nat) :
    (s.setRotation c r).showTimeAt a' e' = s.showTimeAt a' e' := rfl
@[simp] theorem State.setRotation_showTime (s : State) (c : EgressClass) (r : Rotation) (a' : Nat) :
    (s.setRotation c r).showTime a' = s.showTime a' := rfl
/-! ### Reads of what an update writes -/

theorem State.auditorium_setAuditorium (s : State) (a : Nat) (v : Auditorium) (j : Nat) :
    (s.setAuditorium a v).auditorium j = if j = a then v else s.auditorium j := Tbl.get_set ..

@[simp] theorem State.auditorium_setAuditorium_same (s : State) (a : Nat) (v : Auditorium) :
    (s.setAuditorium a v).auditorium a = v := Tbl.get_set_same ..

theorem State.lifecycle_setLifecycle (s : State) (a : Nat) (l : Lifecycle) (j : Nat) :
    (s.setLifecycle a l).lifecycle j = if j = a then l else s.lifecycle j := by
  unfold State.lifecycle State.setLifecycle
  rw [State.auditorium_setAuditorium]
  split <;> rfl

@[simp] theorem State.lifecycle_setLifecycle_same (s : State) (a : Nat) (l : Lifecycle) :
    (s.setLifecycle a l).lifecycle a = l := by rw [State.lifecycle_setLifecycle, if_pos rfl]

theorem State.auditorium_setLifecycle (s : State) (a : Nat) (l : Lifecycle) (j : Nat) :
    (s.setLifecycle a l).auditorium j = if j = a then { s.auditorium a with lifecycle := l } else s.auditorium j :=
  State.auditorium_setAuditorium ..

theorem State.clock_setClock (s : State) (a : Nat) (v : Clock) (j : Nat) :
    (s.setClock a v).clock j = if j = a then v else s.clock j := Tbl.get_set ..

@[simp] theorem State.clock_setClock_same (s : State) (a : Nat) (v : Clock) : (s.setClock a v).clock a = v :=
  Tbl.get_set_same ..

theorem State.check_setCheck (s : State) (a : Nat) (v : HouseCheck) (j : Nat) :
    (s.setCheck a v).check j = if j = a then v else s.check j := Tbl.get_set ..

@[simp] theorem State.check_setCheck_same (s : State) (a : Nat) (v : HouseCheck) : (s.setCheck a v).check a = v :=
  Tbl.get_set_same ..

theorem State.beacon_setBeacon (s : State) (a : Nat) (v : Option Nat) (j : Nat) :
    (s.setBeacon a v).beacon j = if j = a then v else s.beacon j := Tbl.get_set ..

@[simp] theorem State.beacon_setBeacon_same (s : State) (a : Nat) (v : Option Nat) : (s.setBeacon a v).beacon a = v :=
  Tbl.get_set_same ..

theorem State.filter_setFilter (s : State) (i : Nat) (v : Filter) (j : Nat) :
    (s.setFilter i v).filter j = if j = i then v else s.filter j := Tbl.get_set ..

theorem State.mask_setMask (s : State) (i : Nat) (v : Label) (j : Nat) :
    (s.setMask i v).mask j = if j = i then v else s.mask j := Tbl.get_set ..

theorem State.track_setTrack (s : State) (k : Nat) (v : Option Track) (j : Nat) :
    (s.setTrack k v).track j = if j = k then v else s.track j := Tbl.get_set ..

@[simp] theorem State.track_setTrack_same (s : State) (k : Nat) (v : Option Track) : (s.setTrack k v).track k = v :=
  Tbl.get_set_same ..

theorem State.trackSequences_setTrackSequences (s : State) (k : Nat) (v : PerBand SeqNo) (j : Nat) :
    (s.setTrackSequences k v).trackSequences j = if j = k then v else s.trackSequences j := Tbl.get_set ..

theorem State.trackMembers_setTrackMembers (s : State) (k : Nat) (v : PerBand Nat) (j : Nat) :
    (s.setTrackMembers k v).trackMembers j = if j = k then v else s.trackMembers j := Tbl.get_set ..

theorem State.memberCount_setMemberCount (s : State) (k : Nat) (b : Band) (n : Nat) (j : Nat) (c : Band) :
    (s.setMemberCount k b n).memberCount j c = if j = k ∧ c = b then n else s.memberCount j c := by
  unfold State.memberCount State.setMemberCount
  rw [State.trackMembers_setTrackMembers]
  by_cases h : j = k
  · subst h
    simp [PerBand.get_set]
  · simp [h]

theorem State.subscription_setSubscription (s : State) (i : Nat) (v : Option Subscription) (j : Nat) :
    (s.setSubscription i v).subscription j = if j = i then v else s.subscription j := Tbl.get_set ..

@[simp] theorem State.subscription_setSubscription_same (s : State) (i : Nat) (v : Option Subscription) :
    (s.setSubscription i v).subscription i = v := Tbl.get_set_same ..

theorem State.count_bumpBy (s : State) (c : Counter) (n : Nat) (d : Counter) :
    (s.bumpBy c n).count d = if d = c then min counterMax (s.count c + n) else s.count d := Tbl.get_set ..

theorem State.count_bump (s : State) (c d : Counter) :
    (s.bump c).count d = if d = c then min counterMax (s.count c + 1) else s.count d := State.count_bumpBy ..

theorem State.count_bumpDevice (s : State) (c : DeviceCounter) (d : Counter) :
    (s.bumpDevice c).count d = if d = .device c then min counterMax (s.count (.device c) + 1) else s.count d :=
  State.count_bumpBy ..

theorem State.count_bumpAuditorium (s : State) (a : Nat) (c : AuditoriumCounter) (d : Counter) :
    (s.bumpAuditorium a c).count d =
      if d = .auditorium a c then min counterMax (s.count (.auditorium a c) + 1) else s.count d := State.count_bumpBy ..

theorem State.count_bumpTrack (s : State) (k : Nat) (c : TrackCounter) (d : Counter) :
    (s.bumpTrack k c).count d = if d = .track k c then min counterMax (s.count (.track k c) + 1) else s.count d :=
  State.count_bumpBy ..

theorem State.flagSet_writeFlag (s : State) (f : Flag) (v : Bool) (g : Flag) :
    (s.writeFlag f v).flagSet g = if g = f then v else s.flagSet g := Tbl.get_set ..

end Sys2Proof.Machine
end

