-- ==== Sys2Proof/Laws/Keeps.lean ====
section
/-! SUPPORT. What the work inside a step keeps, as relations between the state before and after: `Quiet` (what every shared
operation keeps), `Calm` (also the auditoria, clocks, checks, beacons and subscriptions), `Plays` (also the bindings and
room of the tracks) and `Sends` (also the tracks themselves). Each shared operation has one lemma that says which of
them it keeps; the proofs about whole steps cite those. -/

namespace Sys2Proof.Machine

/-- What every shared operation keeps: engine time, ports, tables of the classifier, the command queue, what management
holds, the snapshot, the model's own fields; the bounds of the pool, the rotations and the counters; flags that are set
stay set; what the content port has sent stays sent. -/
structure Quiet (s s' : State) : Prop where
  engineTime : s'.engineTime = s.engineTime
  ports : SamePorts s s'
  classifier : SameClassifier s s'
  controllers : s'.controllers = s.controllers
  queue : s'.queue = s.queue
  alertEnables : s'.alertEnables = s.alertEnables
  snapshot : s'.snapshot = s.snapshot
  snapshotTime : s'.snapshotTime = s.snapshotTime
  deliveryOut : s'.deliveryOut = s.deliveryOut
  pauseEnd : s'.egress.pauseEnd = s.egress.pauseEnd
  wireTail : s'.egress.wireTail = s.egress.wireTail
  pool : s.PoolBounded → s'.PoolBounded
  rotation : s.egress.rotation.Ranked → s'.egress.rotation.Ranked
  counters : s.CountersBounded → s'.CountersBounded
  flags : ∀ f, s.flagSet f = true → s'.flagSet f = true
  sent : s.contentOut <+: s'.contentOut

/-- What the work of one auditorium's content keeps besides: the contexts, clocks, checks, beacon deadlines and
subscriptions. -/
structure Calm (s s' : State) : Prop extends Quiet s s' where
  shows : SameShows s s'
  patrons : SamePatrons s s'

/-- What content work keeps of a bound track: its binding, lead and marks, and that its list and ring fit its depth. -/
structure SameBinding (x y : Track) : Prop where
  kind : y.kind = x.kind
  auditorium : y.auditorium = x.auditorium
  slot : y.slot = x.slot
  language : y.language = x.language
  variant : y.variant = x.variant
  depth : y.depth = x.depth
  lead : y.lead = x.lead
  high : y.high = x.high
  low : y.low = x.low
  fits : x.Fits → y.Fits

/-- A track stays FREE, or stays bound as it was. -/
def BindingKept : Option Track → Option Track → Prop
  | none, none => True
  | some x, some y => SameBinding x y
  | none, some _ => False
  | some _, none => False

/-- Every track stays FREE, or stays bound as it was. -/
def BindingsKept (s s' : State) : Prop := ∀ k, BindingKept (s.track k) (s'.track k)

/-- What content work keeps: all that `Calm` says, and the bindings of the tracks. -/
structure Plays (s s' : State) : Prop extends Calm s s' where
  bindings : BindingsKept s s'

/-- What the making of frames keeps: all that `Calm` says, and the tracks. -/
structure Sends (s s' : State) : Prop extends Calm s s' where
  tracks : s'.tracks = s.tracks

/-! ### Reflexivity and transitivity -/

theorem SamePorts.refl (s : State) : SamePorts s s := ⟨rfl, rfl, rfl, rfl, rfl⟩
theorem SameShows.refl (s : State) : SameShows s s := ⟨rfl, rfl, rfl, rfl⟩
theorem SameClassifier.refl (s : State) : SameClassifier s s := ⟨rfl, rfl, rfl⟩
theorem SamePatrons.refl (s : State) : SamePatrons s s := ⟨rfl, rfl⟩

theorem SamePorts.trans {a b c : State} (h : SamePorts a b) (g : SamePorts b c) : SamePorts a c :=
  ⟨g.1.trans h.1, g.2.trans h.2, g.3.trans h.3, g.4.trans h.4, g.5.trans h.5⟩

theorem SameShows.trans {a b c : State} (h : SameShows a b) (g : SameShows b c) : SameShows a c :=
  ⟨g.1.trans h.1, g.2.trans h.2, g.3.trans h.3, g.4.trans h.4⟩

theorem SameClassifier.trans {a b c : State} (h : SameClassifier a b) (g : SameClassifier b c) : SameClassifier a c :=
  ⟨g.1.trans h.1, g.2.trans h.2, g.3.trans h.3⟩

theorem SamePatrons.trans {a b c : State} (h : SamePatrons a b) (g : SamePatrons b c) : SamePatrons a c :=
  ⟨g.1.trans h.1, g.2.trans h.2⟩

theorem Quiet.refl (s : State) : Quiet s s where
  engineTime := rfl
  ports := SamePorts.refl s
  classifier := SameClassifier.refl s
  controllers := rfl
  queue := rfl
  alertEnables := rfl
  snapshot := rfl
  snapshotTime := rfl
  deliveryOut := rfl
  pauseEnd := rfl
  wireTail := rfl
  pool := id
  rotation := id
  counters := id
  flags := fun _ => id
  sent := List.prefix_rfl

theorem Quiet.trans {a b c : State} (h : Quiet a b) (g : Quiet b c) : Quiet a c where
  engineTime := g.engineTime.trans h.engineTime
  ports := h.ports.trans g.ports
  classifier := h.classifier.trans g.classifier
  controllers := g.controllers.trans h.controllers
  queue := g.queue.trans h.queue
  alertEnables := g.alertEnables.trans h.alertEnables
  snapshot := g.snapshot.trans h.snapshot
  snapshotTime := g.snapshotTime.trans h.snapshotTime
  deliveryOut := g.deliveryOut.trans h.deliveryOut
  pauseEnd := g.pauseEnd.trans h.pauseEnd
  wireTail := g.wireTail.trans h.wireTail
  pool := fun p => g.pool (h.pool p)
  rotation := fun p => g.rotation (h.rotation p)
  counters := fun p => g.counters (h.counters p)
  flags := fun f p => g.flags f (h.flags f p)
  sent := h.sent.trans g.sent

theorem Calm.refl (s : State) : Calm s s := ⟨Quiet.refl s, SameShows.refl s, SamePatrons.refl s⟩

theorem Calm.trans {a b c : State} (h : Calm a b) (g : Calm b c) : Calm a c :=
  ⟨h.toQuiet.trans g.toQuiet, h.shows.trans g.shows, h.patrons.trans g.patrons⟩

theorem SameBinding.refl (x : Track) : SameBinding x x := ⟨rfl, rfl, rfl, rfl, rfl, rfl, rfl, rfl, rfl, id⟩

theorem SameBinding.trans {x y z : Track} (h : SameBinding x y) (g : SameBinding y z) : SameBinding x z where
  kind := g.kind.trans h.kind
  auditorium := g.auditorium.trans h.auditorium
  slot := g.slot.trans h.slot
  language := g.language.trans h.language
  variant := g.variant.trans h.variant
  depth := g.depth.trans h.depth
  lead := g.lead.trans h.lead
  high := g.high.trans h.high
  low := g.low.trans h.low
  fits := fun p => g.fits (h.fits p)

theorem BindingKept.refl (x : Option Track) : BindingKept x x := by
  cases x with
  | none => exact trivial
  | some x => exact SameBinding.refl x

theorem BindingKept.trans {x y z : Option Track} (h : BindingKept x y) (g : BindingKept y z) : BindingKept x z := by
  cases x <;> cases y <;> cases z <;> first | trivial | exact h.elim | exact g.elim | exact SameBinding.trans h g

theorem BindingsKept.of_tracks {s s' : State} (h : s'.tracks = s.tracks) : BindingsKept s s' := by
  intro k
  have : s'.track k = s.track k := by simp [State.track, h]
  rw [this]
  exact BindingKept.refl _

theorem BindingsKept.trans {a b c : State} (h : BindingsKept a b) (g : BindingsKept b c) : BindingsKept a c :=
  fun k => (h k).trans (g k)

theorem Plays.refl (s : State) : Plays s s := ⟨Calm.refl s, BindingsKept.of_tracks rfl⟩

theorem Plays.trans {a b c : State} (h : Plays a b) (g : Plays b c) : Plays a c :=
  ⟨h.toCalm.trans g.toCalm, h.bindings.trans g.bindings⟩

theorem Sends.refl (s : State) : Sends s s := ⟨Calm.refl s, rfl⟩

theorem Sends.trans {a b c : State} (h : Sends a b) (g : Sends b c) : Sends a c :=
  ⟨h.toCalm.trans g.toCalm, g.tracks.trans h.tracks⟩

theorem Sends.plays {s s' : State} (h : Sends s s') : Plays s s' := ⟨h.toCalm, BindingsKept.of_tracks h.tracks⟩

theorem Sends.track {s s' : State} (h : Sends s s') (k : Nat) : s'.track k = s.track k := by
  simp [State.track, h.tracks]

/-- Work done over a list, item by item, keeps what each item's work keeps. -/
theorem Sends.foldl {β : Type} {f : State → β → State} (h : ∀ s x, Sends s (f s x)) (l : List β) (s : State) :
    Sends s (l.foldl f s) := by
  induction l generalizing s with
  | nil => exact Sends.refl s
  | cons x l ih => exact (h s x).trans (ih _)

theorem Plays.foldl {β : Type} {f : State → β → State} (h : ∀ s x, Plays s (f s x)) (l : List β) (s : State) :
    Plays s (l.foldl f s) := by
  induction l generalizing s with
  | nil => exact Plays.refl s
  | cons x l ih => exact (h s x).trans (ih _)

theorem Quiet.foldl {β : Type} {f : State → β → State} (h : ∀ s x, Quiet s (f s x)) (l : List β) (s : State) :
    Quiet s (l.foldl f s) := by
  induction l generalizing s with
  | nil => exact Quiet.refl s
  | cons x l ih => exact (h s x).trans (ih _)

/-- A track that was bound is bound after content work, with its binding kept. -/
theorem BindingsKept.of_bound {s s' : State} (h : BindingsKept s s') {k : Nat} {x : Track} (hx : s.track k = some x) :
    ∃ y, s'.track k = some y ∧ SameBinding x y := by
  have hk := h k
  rw [hx] at hk
  cases hy : s'.track k with
  | none => rw [hy] at hk; exact hk.elim
  | some y => rw [hy] at hk; exact ⟨y, rfl, hk⟩

/-- A track that was FREE is FREE after content work. -/
theorem BindingsKept.of_free {s s' : State} (h : BindingsKept s s') {k : Nat} (hx : s.track k = none) :
    s'.track k = none := by
  have hk := h k
  rw [hx] at hk
  cases hy : s'.track k with
  | none => rfl
  | some y => rw [hy] at hk; exact hk.elim

/-- Content work keeps that every list and ring fits. -/
theorem BindingsKept.fit {s s' : State} (h : BindingsKept s s') (hf : s.TracksFit) : s'.TracksFit := by
  intro k y hy
  cases hx : s.track k with
  | none => rw [h.of_free hx] at hy; cases hy
  | some x =>
    obtain ⟨z, hz, hb⟩ := h.of_bound hx
    rw [hz] at hy
    cases hy
    exact hb.fits (hf k x hx)

end Sys2Proof.Machine
end

