-- ==== Sys2Proof/Laws/Egress.lean ====
section
/-! SUPPORT. What counting, flags, frames and the Egress Arbiter keep: one lemma per operation. -/

namespace Sys2Proof.Machine

/-! ### Counting, flags and content-port frames -/

theorem State.countersBounded_bumpBy {s : State} (h : s.CountersBounded) (c : Counter) (n : Nat) :
    (s.bumpBy c n).CountersBounded := by
  intro d
  rw [State.count_bumpBy]
  split
  · exact Nat.min_le_left _ _
  · exact h d

theorem sends_bumpBy (s : State) (c : Counter) (n : Nat) : Sends s (s.bumpBy c n) where
  engineTime := rfl
  ports := ⟨rfl, rfl, rfl, rfl, rfl⟩
  classifier := ⟨rfl, rfl, rfl⟩
  controllers := rfl
  queue := rfl
  alertEnables := rfl
  snapshot := rfl
  snapshotTime := rfl
  deliveryOut := rfl
  pauseEnd := rfl
  wireTail := rfl
  pool := id
  rotation := id
  counters := fun h => State.countersBounded_bumpBy h c n
  flags := fun _ h => h
  sent := List.prefix_rfl
  shows := ⟨rfl, rfl, rfl, rfl⟩
  patrons := ⟨rfl, rfl⟩
  tracks := rfl

theorem sends_bump (s : State) (c : Counter) : Sends s (s.bump c) := sends_bumpBy s c 1
theorem sends_bumpDevice (s : State) (c : DeviceCounter) : Sends s (s.bumpDevice c) := sends_bumpBy s _ 1
theorem sends_bumpAuditorium (s : State) (a : Nat) (c : AuditoriumCounter) : Sends s (s.bumpAuditorium a c) :=
  sends_bumpBy s _ 1
theorem sends_bumpTrack (s : State) (k : Nat) (c : TrackCounter) : Sends s (s.bumpTrack k c) := sends_bumpBy s _ 1

theorem sends_setTrue (s : State) (f : Flag) : Sends s (s.writeFlag f true) where
  engineTime := rfl
  ports := ⟨rfl, rfl, rfl, rfl, rfl⟩
  classifier := ⟨rfl, rfl, rfl⟩
  controllers := rfl
  queue := rfl
  alertEnables := rfl
  snapshot := rfl
  snapshotTime := rfl
  deliveryOut := rfl
  pauseEnd := rfl
  wireTail := rfl
  pool := id
  rotation := id
  counters := id
  flags := fun g h => by
    rw [State.flagSet_writeFlag]
    split
    · rfl
    · exact h
  sent := List.prefix_rfl
  shows := ⟨rfl, rfl, rfl, rfl⟩
  patrons := ⟨rfl, rfl⟩
  tracks := rfl

theorem sends_pushContent (s : State) (f : ContentFrame) : Sends s (s.pushContent f) where
  engineTime := rfl
  ports := ⟨rfl, rfl, rfl, rfl, rfl⟩
  classifier := ⟨rfl, rfl, rfl⟩
  controllers := rfl
  queue := rfl
  alertEnables := rfl
  snapshot := rfl
  snapshotTime := rfl
  deliveryOut := rfl
  pauseEnd := rfl
  wireTail := rfl
  pool := id
  rotation := id
  counters := id
  flags := fun _ h => h
  sent := List.prefix_append _ _
  shows := ⟨rfl, rfl, rfl, rfl⟩
  patrons := ⟨rfl, rfl⟩
  tracks := rfl

theorem sends_alert (s : State) (f : Flag) : Sends s (s.alert f) := by
  unfold State.alert
  split
  · split
    · exact Sends.refl s
    · exact (sends_pushContent s _).trans (sends_bumpDevice _ _)
  · exact Sends.refl s

theorem sends_setFlag (s : State) (n : FlagName) (i : Nat) : Sends s (s.setFlag n i) := by
  unfold State.setFlag
  split
  · exact Sends.refl s
  · exact (sends_setTrue s _).trans (sends_alert _ _)

theorem sends_sendResult (s : State) (dest tag code : Nat) (status : Status) (items : List Item) :
    Sends s (s.sendResult dest tag code status items) := by
  unfold State.sendResult
  split
  · exact (sends_pushContent s _).trans (sends_bumpDevice _ _)
  · exact Sends.refl s

theorem sends_setTrackSequences (s : State) (k : Nat) (v : PerBand SeqNo) : Sends s (s.setTrackSequences k v) where
  engineTime := rfl
  ports := ⟨rfl, rfl, rfl, rfl, rfl⟩
  classifier := ⟨rfl, rfl, rfl⟩
  controllers := rfl
  queue := rfl
  alertEnables := rfl
  snapshot := rfl
  snapshotTime := rfl
  deliveryOut := rfl
  pauseEnd := rfl
  wireTail := rfl
  pool := id
  rotation := id
  counters := id
  flags := fun _ h => h
  sent := List.prefix_rfl
  shows := ⟨rfl, rfl, rfl, rfl⟩
  patrons := ⟨rfl, rfl⟩
  tracks := rfl

/-! ### The pool -/

/-- A change of the arbiter alone, which keeps the pause window and the bounds. -/
theorem sends_egress (s : State) (g : Egress) (hp : g.pauseEnd = s.egress.pauseEnd)
    (hw : g.wireTail = s.egress.wireTail) (hb : s.PoolBounded → g.occupancy ≤ poolSize)
    (hr : s.egress.rotation.Ranked → g.rotation.Ranked) : Sends s { s with egress := g } where
  engineTime := rfl
  ports := ⟨rfl, rfl, rfl, rfl, rfl⟩
  classifier := ⟨rfl, rfl, rfl⟩
  controllers := rfl
  queue := rfl
  alertEnables := rfl
  snapshot := rfl
  snapshotTime := rfl
  deliveryOut := rfl
  pauseEnd := hp
  wireTail := hw
  pool := hb
  rotation := hr
  counters := id
  flags := fun _ h => h
  sent := List.prefix_rfl
  shows := ⟨rfl, rfl, rfl, rfl⟩
  patrons := ⟨rfl, rfl⟩
  tracks := rfl

theorem sends_removeWaiting (s : State) (e : Entry) : Sends s (s.removeWaiting e) := by
  refine sends_egress s _ rfl rfl (fun h => le_trans ?_ h) id
  exact Nat.add_le_add_right (List.length_erase_le ..) _

/-- An entry taken from the pool leaves a place. -/
theorem occupancy_removeWaiting {s : State} {e : Entry} (he : e ∈ s.egress.waiting) :
    (s.removeWaiting e).egress.occupancy + 1 = s.egress.occupancy := by
  have hp := List.length_pos_of_mem he
  show (s.egress.waiting.erase e).length + _ + 1 = s.egress.waiting.length + _
  rw [List.length_erase_of_mem he, Nat.add_right_comm, Nat.sub_add_cancel hp]
  rfl

/-- What a grant chooses: a waiting entry, of an auditorium that its class's order ranks. -/
theorem choose_spec {g : Egress} {e : Entry} (h : g.choose = some e) :
    e ∈ g.waiting ∧ e.auditorium ∈ (g.rotation.get e.cls).order := by
  unfold Egress.choose at h
  split at h
  · cases h
  · next c _ =>
    split at h
    · cases h
    · next a ha =>
      have hm := List.mem_of_find?_eq_some h
      have hf := List.find?_some h
      simp only [Entry.inFifo, Bool.and_eq_true, beq_iff_eq] at hf
      refine ⟨hm, ?_⟩
      rw [hf.1, hf.2]
      exact List.mem_of_find?_eq_some ha

theorem Rotations.get_set (r : Rotations) (c d : EgressClass) (v : Rotation) :
    (r.set c v).get d = if d = c then v else r.get d := by
  cases c <;> cases d <;> rfl

/-- After a grant the order still ranks every auditorium once (R123). -/
theorem afterGrant_perm {r : Rotation} {a : Nat} (ha : a ∈ r.order) : (r.afterGrant a).order.Perm r.order := by
  unfold Rotation.afterGrant
  split
  · exact (List.perm_append_singleton a _).trans (List.perm_cons_erase ha).symm
  · exact List.Perm.refl _

theorem ranked_set {r : Rotations} (h : r.Ranked) (c : EgressClass) {v : Rotation} (hv : v.order.Perm auditoria) :
    (r.set c v).Ranked := by
  intro d
  rw [Rotations.get_set]
  split
  · exact hv
  · exact h d

theorem sends_startTransmission {s : State} {e : Entry} (he : s.egress.choose = some e) :
    Sends s (s.startTransmission e) := by
  obtain ⟨hm, ho⟩ := choose_spec he
  refine sends_egress s _ rfl rfl (fun h => le_trans ?_ h) fun h => ranked_set h _ ?_
  · have hp := List.length_pos_of_mem hm
    show (s.egress.waiting.erase e).length + 1 ≤ s.egress.waiting.length + _
    rw [List.length_erase_of_mem hm, Nat.sub_add_cancel hp]
    exact Nat.le_add_right _ _
  · exact (afterGrant_perm ho).trans (h _)

theorem sends_grantLoop (n : Nat) (s : State) : Sends s (State.grantLoop n s) := by
  induction n generalizing s with
  | zero => exact Sends.refl s
  | succ n ih =>
    unfold State.grantLoop
    split
    · exact Sends.refl s
    · next e he =>
      split
      · exact ((sends_removeWaiting s e).trans (sends_bumpAuditorium _ _ _)).trans (ih _)
      · exact sends_startTransmission he

theorem sends_grant (s : State) : Sends s s.grant := by
  unfold State.grant
  split
  · exact sends_grantLoop _ s
  · exact Sends.refl s

/-- An entry placed in a pool with room (R121). -/
theorem sends_place {s : State} (e : Entry) (h : s.PoolBounded → s.egress.occupancy < poolSize) :
    Sends s (s.place e) := by
  unfold State.place
  refine Sends.trans (Sends.trans (b := { s with egress := { s.egress with
    waiting := s.egress.waiting ++ [{ e with order := s.egress.nextOrder }]
    nextOrder := s.egress.nextOrder + 1 } }) ?_ (sends_bumpAuditorium _ _ _)) (sends_grant _)
  refine sends_egress s _ rfl rfl (fun hb => ?_) id
  have := h hb
  simp only [Egress.occupancy, List.length_append, List.length_singleton] at this ⊢
  omega

theorem victim_mem {g : Egress} {v : Entry} (h : g.victim = some v) : v ∈ g.waiting := by
  unfold Egress.victim at h
  split at h
  · next e he =>
    cases h
    exact List.mem_of_find?_eq_some he
  · exact List.mem_of_find?_eq_some h

/-- An entry placed in the room a victim leaves (R122). -/
theorem sends_evict {s : State} {v : Entry} (e : Entry) (hv : v ∈ s.egress.waiting) :
    Sends s (((s.removeWaiting v).bumpAuditorium v.auditorium .evicted).place e) := by
  refine Sends.trans (Sends.trans (Sends.trans (b := { s with egress := { s.egress with
    waiting := s.egress.waiting.erase v ++ [{ e with order := s.egress.nextOrder }]
    nextOrder := s.egress.nextOrder + 1 } }) (sends_egress s _ rfl rfl (fun hb => ?_) id)
      (sends_bumpAuditorium _ v.auditorium .evicted)) (sends_bumpAuditorium _ e.auditorium .entriesMade)) (sends_grant _)
  have hp := List.length_pos_of_mem hv
  simp only [State.PoolBounded, Egress.occupancy, List.length_append, List.length_singleton,
    List.length_erase_of_mem hv] at hb ⊢
  omega

/-- An entry offered (R121, R122). -/
theorem sends_offer (s : State) (e : Entry) : Sends s (s.offer e) := by
  unfold State.offer
  split
  · next h => exact sends_place e fun _ => h
  · split
    · next v hv =>
      have hm : v ∈ s.egress.waiting := by
        split at hv
        · exact victim_mem hv
        · cases hv
      exact sends_evict e hm
    · exact (sends_bumpAuditorium s _ _).trans (sends_setFlag _ _ _)

/-- A withdrawal (R130). -/
theorem sends_withdraw (s : State) (covers : Entry → Bool) : Sends s (s.withdraw covers) := by
  unfold State.withdraw
  refine Sends.trans (sends_egress s { s.egress with waiting := s.egress.waiting.filter fun e => !covers e } rfl rfl
    (fun h => le_trans ?_ h) id) (Sends.foldl (fun s e => sends_bumpAuditorium s _ _) _ _)
  exact Nat.add_le_add_right (List.length_filter_le ..) _

/-- The entry in flight leaves the pool. -/
theorem sends_clearFlight (s : State) : Sends s s.clearFlight := by
  refine sends_egress s _ rfl rfl (fun h => le_trans ?_ h) id
  exact Nat.le_add_right _ _

/-! ### Auditoria -/

theorem quiet_setAuditorium (s : State) (a : Nat) (v : Auditorium) : Quiet s (s.setAuditorium a v) :=
  ⟨rfl, ⟨rfl, rfl, rfl, rfl, rfl⟩, ⟨rfl, rfl, rfl⟩, rfl, rfl, rfl, rfl, rfl, rfl, rfl, rfl, id, id, id, fun _ h => h,
    List.prefix_rfl⟩

theorem quiet_setClock (s : State) (a : Nat) (v : Clock) : Quiet s (s.setClock a v) :=
  ⟨rfl, ⟨rfl, rfl, rfl, rfl, rfl⟩, ⟨rfl, rfl, rfl⟩, rfl, rfl, rfl, rfl, rfl, rfl, rfl, rfl, id, id, id, fun _ h => h,
    List.prefix_rfl⟩

theorem quiet_setCheck (s : State) (a : Nat) (v : HouseCheck) : Quiet s (s.setCheck a v) :=
  ⟨rfl, ⟨rfl, rfl, rfl, rfl, rfl⟩, ⟨rfl, rfl, rfl⟩, rfl, rfl, rfl, rfl, rfl, rfl, rfl, rfl, id, id, id, fun _ h => h,
    List.prefix_rfl⟩

theorem quiet_setBeacon (s : State) (a : Nat) (v : Option Nat) : Quiet s (s.setBeacon a v) :=
  ⟨rfl, ⟨rfl, rfl, rfl, rfl, rfl⟩, ⟨rfl, rfl, rfl⟩, rfl, rfl, rfl, rfl, rfl, rfl, rfl, rfl, id, id, id, fun _ h => h,
    List.prefix_rfl⟩

theorem quiet_setSubscription (s : State) (i : Nat) (v : Option Subscription) : Quiet s (s.setSubscription i v) :=
  ⟨rfl, ⟨rfl, rfl, rfl, rfl, rfl⟩, ⟨rfl, rfl, rfl⟩, rfl, rfl, rfl, rfl, rfl, rfl, rfl, rfl, id, id, id, fun _ h => h,
    List.prefix_rfl⟩

theorem quiet_setTrackMembers (s : State) (k : Nat) (v : PerBand Nat) : Quiet s (s.setTrackMembers k v) :=
  ⟨rfl, ⟨rfl, rfl, rfl, rfl, rfl⟩, ⟨rfl, rfl, rfl⟩, rfl, rfl, rfl, rfl, rfl, rfl, rfl, rfl, id, id, id, fun _ h => h,
    List.prefix_rfl⟩

end Sys2Proof.Machine
end

