-- ==== Sys2Proof/Laws/Tracks.lean ====
section
/-! SUPPORT. What the work on tracks keeps: pacing, frames to a band group, the records of a list or ring. -/

namespace Sys2Proof.Machine

/-! ### A track's record -/

/-- A change of a track's content that makes neither list longer. -/
theorem SameBinding.shorter (x : Track) {p : List Cue} {r : List Block} (c : Option Cue) (l : Option LastBlock)
    (g : Pace) (src : Option Source) (hp : p.length ≤ x.pending.length) (hr : r.length ≤ x.ring.length) :
    SameBinding x { x with pending := p, ring := r, current := c, lastBlock := l, pace := g, source := src } :=
  ⟨rfl, rfl, rfl, rfl, rfl, rfl, rfl, rfl, rfl, fun h => ⟨hp.trans h.1, hr.trans h.2⟩⟩

theorem calm_setTrack (s : State) (k : Nat) (v : Option Track) : Calm s (s.setTrack k v) :=
  ⟨⟨rfl, ⟨rfl, rfl, rfl, rfl, rfl⟩, ⟨rfl, rfl, rfl⟩, rfl, rfl, rfl, rfl, rfl, rfl, rfl, rfl, id, id, id, fun _ h => h,
    List.prefix_rfl⟩, ⟨rfl, rfl, rfl, rfl⟩, ⟨rfl, rfl⟩⟩

theorem calm_updateTrack (s : State) (k : Nat) (f : Track → Track) : Calm s (s.updateTrack k f) := by
  unfold State.updateTrack
  split
  · exact Calm.refl s
  · exact calm_setTrack s k _

/-- One track's record changed within its binding. -/
theorem plays_setTrack {s : State} {k : Nat} {x y : Track} (hx : s.track k = some x) (hb : SameBinding x y) :
    Plays s (s.setTrack k (some y)) where
  toCalm := calm_setTrack s k _
  bindings := fun j => by
    rw [State.track_setTrack]
    split
    · next h => rw [h, hx]; exact hb
    · exact BindingKept.refl _

theorem plays_updateTrack (s : State) (k : Nat) {f : Track → Track} (hf : ∀ x, SameBinding x (f x)) :
    Plays s (s.updateTrack k f) := by
  unfold State.updateTrack
  split
  · exact Plays.refl s
  · next x hx => exact plays_setTrack hx (hf x)

/-! ### Pacing (R80, R81) -/

theorem sends_paceNotice (s : State) (k : Nat) (tr : Track) (hold : Bool) : Sends s (s.paceNotice k tr hold) := by
  unfold State.paceNotice
  split
  · exact Sends.refl s
  · split
    · exact (sends_pushContent s _).trans (sends_bumpTrack _ _ _)
    · exact Sends.refl s

theorem plays_paceUp (s : State) (k : Nat) : Plays s (s.paceUp k) := by
  unfold State.paceUp
  split
  · exact Plays.refl s
  · next tr h =>
    split
    · exact (plays_setTrack h (SameBinding.shorter tr _ _ .holding _ le_rfl le_rfl)).trans
        ((sends_paceNotice _ _ _ _).trans (sends_setFlag _ _ _)).plays
    · exact Plays.refl s

theorem plays_paceDown (s : State) (k : Nat) : Plays s (s.paceDown k) := by
  unfold State.paceDown
  split
  · exact Plays.refl s
  · next tr h =>
    split
    · exact (plays_setTrack h (SameBinding.shorter tr _ _ .opened _ le_rfl le_rfl)).trans
        (sends_paceNotice _ _ _ _).plays
    · exact Plays.refl s

/-! ### Frames to a band group (R102, R115) -/

theorem sends_sendToBand (s : State) (k : Nat) (tr : Track) (b : Band) (cls : EgressClass) (body : DeliveryBody)
    (deadline : Option Nat) : Sends s (s.sendToBand k tr b cls body deadline) :=
  (sends_setTrackSequences s k _).trans (sends_offer _ _)

theorem sends_degradedCopies (s : State) (k : Nat) (tr : Track) (b : Band) (q : SeqNo) (body : DeliveryBody)
    (deadline : Option Nat) : Sends s (s.degradedCopies k tr b q body deadline) :=
  (Sends.foldl (fun s _ => (sends_bumpTrack s _ _).trans (sends_offer _ _)) _ s).trans (sends_bumpBy _ _ _)

theorem sends_sendCaption (s : State) (k : Nat) (tr : Track) (b : Band) (body : DeliveryBody) (deadline : Option Nat) :
    Sends s (s.sendCaption k tr b body deadline) :=
  (sends_sendToBand s k tr b _ _ _).trans (sends_degradedCopies _ _ _ _ _ _ _)

/-! ### The pending list and the current cue -/

theorem sends_releaseCaption (s : State) (k : Nat) (tr : Track) (c : Caption) (b : Band) :
    Sends s (s.releaseCaption k tr c b) := by
  have h := sends_bumpTrack s k .releases
  unfold State.releaseCaption
  simp only
  split
  · exact h
  · exact h.trans (sends_sendCaption _ _ _ _ _ _)

theorem plays_becomeCurrent (s : State) (k : Nat) (c : Cue) : Plays s (s.becomeCurrent k c) := by
  unfold State.becomeCurrent
  split
  · exact Plays.refl s
  · next tr h =>
    have p := plays_setTrack h (SameBinding.shorter tr (some c) tr.lastBlock tr.pace tr.source le_rfl le_rfl)
    simp only
    split
    · exact p.trans (sends_bumpTrack _ _ _).plays
    · exact p

theorem plays_removePending (s : State) (k n : Nat) : Plays s (s.removePending k n) :=
  plays_updateTrack s k fun x => SameBinding.shorter x _ _ _ _ (List.length_filter_le _ _) le_rfl

theorem plays_editPending (s : State) (k n : Nat) (f : Cue → Cue) : Plays s (s.editPending k n f) :=
  plays_updateTrack s k fun x => SameBinding.shorter x _ _ _ _ (List.length_map _).le le_rfl

theorem plays_releasePending (s : State) (k n : Nat) (b : Band) : Plays s (s.releasePending k n b) := by
  unfold State.releasePending
  split
  · exact Plays.refl s
  · split
    · exact Plays.refl s
    · simp only
      have p : ∀ f tr c, Plays s ((s.editPending k n f).releaseCaption k tr c b) := fun f tr c =>
        (plays_editPending s k n f).trans (sends_releaseCaption _ _ _ _ _).plays
      split
      · exact (((p _ _ _).trans (plays_removePending _ _ _)).trans (plays_becomeCurrent _ _ _)).trans (plays_paceDown _ _)
      · exact p _ _ _

theorem plays_releasePendingTo (s : State) (k n : Nat) (bs : List Band) : Plays s (s.releasePendingTo k n bs) :=
  Plays.foldl (fun s b => plays_releasePending s k n b) bs s

theorem plays_evaluateCue (s : State) (k sh n : Nat) : Plays s (s.evaluateCue k sh n) := by
  unfold State.evaluateCue
  split
  · exact Plays.refl s
  · split
    · exact Plays.refl s
    · simp only
      split
      · split
        · exact ((plays_editPending _ _ _ _).trans (plays_releasePendingTo _ _ _ _)).trans (sends_bumpTrack _ _ _).plays
        · exact ((plays_removePending _ _ _).trans (sends_bumpTrack _ _ _).plays).trans (plays_paceDown _ _)
      · exact Plays.refl s

theorem plays_takePassedCue (s : State) (k sh : Nat) (withZero : Bool) (n : Nat) :
    Plays s (s.takePassedCue k sh withZero n) := by
  unfold State.takePassedCue
  split
  · exact Plays.refl s
  · split
    · exact Plays.refl s
    · exact plays_releasePendingTo _ _ _ _

theorem sends_withdrawCue (s : State) (k : Nat) (tr : Track) (n : Nat) (bs : List Band) :
    Sends s (s.withdrawCue k tr n bs) :=
  Sends.foldl (fun s b => sends_sendToBand s k tr b _ _ _) bs s

theorem sends_replaceCue (s : State) (k : Nat) (tr : Track) (c : Caption) (bs : List Band) :
    Sends s (s.replaceCue k tr c bs) :=
  Sends.foldl (fun s b => sends_sendCaption s k tr b _ _) bs s

theorem plays_takePassedOnArrival (s : State) (k a sh n : Nat) : Plays s (s.takePassedOnArrival k a sh n) := by
  unfold State.takePassedOnArrival
  split
  · exact plays_takePassedCue _ _ _ _ _
  · exact Plays.refl s

theorem length_insertCue (c : Cue) (l : List Cue) : (insertCue c l).length = l.length + 1 := by
  induction l with
  | nil => rfl
  | cons d l ih =>
    unfold insertCue
    split
    · rfl
    · exact congrArg (· + 1) ih

/-- A cue placed in a list with room. -/
theorem plays_placeCue {s : State} {k : Nat} {x : Track} (hx : s.track k = some x) (hr : x.pending.length < x.depth)
    (c : Cue) : Plays s (s.placeCue k c) := by
  unfold State.placeCue State.updateTrack
  rw [hx]
  refine plays_setTrack hx ⟨rfl, rfl, rfl, rfl, rfl, rfl, rfl, rfl, rfl, fun h => ⟨?_, h.2⟩⟩
  show (insertCue c x.pending).length ≤ x.depth
  rw [length_insertCue]
  exact hr

/-- A pending cue number that leaves a list makes it shorter. -/
theorem length_removed_lt {l : List Cue} {n : Nat} {v : Cue} (hv : v ∈ l) (hn : v.caption.number = n) :
    (l.filter fun c => c.caption.number != n).length < l.length := by
  apply List.length_filter_lt_length_iff_exists.mpr
  exact ⟨v, hv, by simp [hn]⟩

/-- A cue taken out and one put in its place, with frames made between: the list stays within the depth. -/
theorem plays_exchange {s t : State} {k n : Nat} {x : Track} {v : Cue} (hx : s.track k = some x) (hv : v ∈ x.pending)
    (hn : v.caption.number = n) (hs : Sends (s.removePending k n) t) (c : Cue) : Plays s (t.placeCue k c) := by
  have hr : (s.removePending k n).track k =
      some { x with pending := x.pending.filter fun c => c.caption.number != n } := by
    unfold State.removePending State.updateTrack
    rw [hx]
    exact State.track_setTrack_same _ _ _
  have ht := (hs.track k).trans hr
  have hp : t.placeCue k c = t.setTrack k
      (some { x with pending := insertCue c (x.pending.filter fun c => c.caption.number != n) }) := by
    unfold State.placeCue State.updateTrack
    rw [ht]
  rw [hp]
  refine ⟨((plays_removePending s k n).toCalm.trans hs.toCalm).trans (calm_setTrack _ _ _), fun j => ?_⟩
  rw [State.track_setTrack]
  split
  · next h =>
    rw [h, hx]
    refine ⟨rfl, rfl, rfl, rfl, rfl, rfl, rfl, rfl, rfl, fun hf => ⟨?_, hf.2⟩⟩
    show (insertCue c _).length ≤ x.depth
    rw [length_insertCue]
    exact le_trans (length_removed_lt hv hn) hf.1
  · exact ((plays_removePending s k n).trans hs.plays).bindings j

theorem plays_placeNewCue {s : State} {k : Nat} {tr : Track} (h : s.track k = some tr) (c : Cue) (sh : Nat) :
    Plays s (s.placeNewCue k tr c sh) := by
  unfold State.placeNewCue
  split
  · next hr =>
    exact (((plays_placeCue h hr c).trans (sends_bumpTrack _ _ _).plays).trans (plays_paceUp _ _)).trans
      (plays_takePassedOnArrival _ _ _ _ _)
  · have p : Sends s ((s.setFlag .overflow k).bumpTrack k .overflowDrops) :=
      (sends_setFlag s _ _).trans (sends_bumpTrack _ _ _)
    simp only
    split
    · exact p.plays
    · next v hv =>
      split
      · exact p.plays
      · have hm : v ∈ tr.pending := List.mem_of_getLast? hv
        exact p.plays.trans (((plays_exchange ((p.track k).trans h) hm rfl (sends_withdrawCue _ _ _ _ _) c).trans
          (sends_bumpTrack _ _ _).plays).trans (plays_takePassedOnArrival _ _ _ _ _))

theorem plays_arriveNewCue {s : State} {k : Nat} {tr : Track} (h : s.track k = some tr) (b : CueBody) (test : Bool) :
    Plays s (s.arriveNewCue k tr b test) := by
  unfold State.arriveNewCue
  simp only
  split
  · split
    · exact ((Sends.foldl (fun s b => sends_releaseCaption s k tr _ b) _ s).plays.trans
        (plays_becomeCurrent _ _ _)).trans (sends_bumpTrack _ _ _).plays
    · exact (sends_bumpTrack _ _ _).plays
  · exact plays_placeNewCue h _ _

theorem pendingCue_spec {tr : Track} {n : Nat} {c : Cue} (h : tr.pendingCue n = some c) :
    c ∈ tr.pending ∧ c.caption.number = n :=
  ⟨List.mem_of_find?_eq_some h, by simpa using List.find?_some h⟩

theorem plays_amendPending {s : State} {k : Nat} {tr : Track} {old : Cue} {b : CueBody} (h : s.track k = some tr)
    (ho : tr.pendingCue b.number = some old) : Plays s (s.amendPending k tr old b) := by
  have p := sends_bumpTrack s k .amendments
  obtain ⟨hm, hn⟩ := pendingCue_spec ho
  unfold State.amendPending
  simp only
  split
  · split
    · exact ((p.plays.trans (plays_editPending _ _ _ _)).trans (sends_replaceCue _ _ _ _ _).plays).trans
        (plays_evaluateCue _ _ _ _)
    · exact (((p.plays.trans (plays_removePending _ _ _)).trans (sends_bumpTrack _ _ _).plays).trans
        (sends_withdrawCue _ _ _ _ _).plays).trans (plays_paceDown _ _)
  · exact ((p.plays.trans (plays_exchange ((p.track k).trans h) hm hn (Sends.refl _) _)).trans
      (sends_replaceCue _ _ _ _ _).plays).trans (plays_takePassedOnArrival _ _ _ _ _)

theorem plays_setCurrent (s : State) (k : Nat) (c : Option Cue) :
    Plays s (s.updateTrack k fun tr => { tr with current := c }) :=
  plays_updateTrack s k fun x => SameBinding.shorter x c _ _ _ le_rfl le_rfl

theorem plays_amendCurrent (s : State) (k : Nat) (tr : Track) (old : Cue) (b : CueBody) :
    Plays s (s.amendCurrent k tr old b) := by
  have p := (sends_bumpTrack s k .amendments).plays
  unfold State.amendCurrent
  simp only
  split
  · exact (p.trans (plays_setCurrent _ _ _)).trans (sends_replaceCue _ _ _ _ _).plays
  · exact (p.trans (plays_setCurrent _ _ _)).trans (sends_withdrawCue _ _ _ _ _).plays

theorem plays_deleteCue (s : State) (k : Nat) (tr : Track) (n : Nat) : Plays s (s.deleteCue k tr n) := by
  unfold State.deleteCue
  split
  · exact (((plays_removePending _ _ _).trans (sends_bumpTrack _ _ _).plays).trans
      (sends_withdrawCue _ _ _ _ _).plays).trans (plays_paceDown _ _)
  · split
    · exact ((plays_setCurrent _ _ _).trans (sends_bumpTrack _ _ _).plays).trans (sends_withdrawCue _ _ _ _ _).plays
    · exact (sends_bumpTrack _ _ _).plays

theorem plays_setSource (s : State) (k : Nat) (src : Option Source) :
    Plays s (if src.isSome then s.updateTrack k fun tr => { tr with source := src } else s) := by
  split
  · exact plays_updateTrack s k fun x => SameBinding.shorter x _ _ _ src le_rfl le_rfl
  · exact Plays.refl s

theorem plays_arriveCue (s : State) (k : Nat) (b : CueBody) (src : Option Source) (test : Bool) :
    Plays s (s.arriveCue k b src test) := by
  unfold State.arriveCue
  split
  · exact (sends_bumpTrack _ _ _).plays
  · have p := plays_setSource s k src
    simp only
    generalize (if src.isSome then s.updateTrack k fun tr => { tr with source := src } else s) = s' at p ⊢
    refine p.trans ?_
    split
    · exact Plays.refl _
    · next tr h =>
      split
      · exact plays_deleteCue _ _ _ _
      · split
        · next hc => exact plays_amendPending h hc
        · split
          · exact plays_amendCurrent _ _ _ _ _
          · exact plays_arriveNewCue h _ _

/-! ### The ring -/

theorem sends_releaseAudio (s : State) (k : Nat) (tr : Track) (x : Block) (b : Band) :
    Sends s (s.releaseAudio k tr x b) := by
  have h := sends_bumpTrack s k .releases
  unfold State.releaseAudio
  simp only
  split
  · exact h
  · split
    · exact h.trans (sends_sendToBand _ _ _ _ _ _ _)
    · exact (h.trans (sends_sendToBand _ _ _ _ _ _ _)).trans (sends_sendToBand _ _ _ _ _ _ _)

theorem plays_removeBlock (s : State) (k q : Nat) : Plays s (s.removeBlock k q) :=
  plays_updateTrack s k fun x => SameBinding.shorter x _ _ _ _ le_rfl (List.length_filter_le _ _)

theorem plays_editBlock (s : State) (k q : Nat) (f : Block → Block) : Plays s (s.editBlock k q f) :=
  plays_updateTrack s k fun x => SameBinding.shorter x _ _ _ _ le_rfl (List.length_map _).le

theorem plays_releaseBlock (s : State) (k q : Nat) (b : Band) : Plays s (s.releaseBlock k q b) := by
  unfold State.releaseBlock
  split
  · exact Plays.refl s
  · split
    · exact Plays.refl s
    · simp only
      have p : ∀ f tr x, Plays s ((s.editBlock k q f).releaseAudio k tr x b) := fun f tr x =>
        (plays_editBlock s k q f).trans (sends_releaseAudio _ _ _ _ _).plays
      split
      · exact ((p _ _ _).trans (plays_removeBlock _ _ _)).trans (plays_paceDown _ _)
      · exact p _ _ _

theorem plays_releaseBlockTo (s : State) (k q : Nat) (bs : List Band) : Plays s (s.releaseBlockTo k q bs) :=
  Plays.foldl (fun s b => plays_releaseBlock s k q b) bs s

theorem plays_evaluateBlock (s : State) (k sh q : Nat) : Plays s (s.evaluateBlock k sh q) := by
  unfold State.evaluateBlock
  split
  · exact Plays.refl s
  · split
    · exact Plays.refl s
    · simp only
      split
      · split
        · exact ((plays_editBlock _ _ _ _).trans (plays_releaseBlockTo _ _ _ _)).trans (sends_bumpTrack _ _ _).plays
        · exact ((plays_removeBlock _ _ _).trans (sends_bumpTrack _ _ _).plays).trans (plays_paceDown _ _)
      · exact Plays.refl s

theorem plays_takePassedBlock (s : State) (k sh : Nat) (withZero : Bool) (q : Nat) :
    Plays s (s.takePassedBlock k sh withZero q) := by
  unfold State.takePassedBlock
  split
  · exact Plays.refl s
  · split
    · exact Plays.refl s
    · exact plays_releaseBlockTo _ _ _ _

theorem plays_supersede (s : State) (k : Nat) (tr : Track) (b : BlockBody) : Plays s (s.supersede k tr b) := by
  unfold State.supersede
  simp only
  split
  · exact Plays.refl s
  · exact ((plays_updateTrack s k fun x => SameBinding.shorter x _ _ _ _ le_rfl (List.length_filter_le _ _)).trans
      (sends_bumpBy _ _ _).plays).trans (plays_paceDown _ _)

theorem plays_setLastBlock (s : State) (k : Nat) (v : Option LastBlock) : Plays s (s.setLastBlock k v) :=
  plays_updateTrack s k fun x => SameBinding.shorter x _ v _ _ le_rfl le_rfl

theorem plays_acceptBlock (s : State) (k : Nat) (b : BlockBody) (gap : Option Gap) (test : Bool) :
    Plays s (s.acceptBlock k b gap test) := by
  unfold State.acceptBlock
  split
  · exact Plays.refl s
  · next tr h =>
    simp only
    split
    · split
      · exact ((plays_setLastBlock _ _ _).trans (Sends.foldl (fun s c => sends_releaseAudio s k tr _ c) _ _).plays).trans
          (sends_bumpTrack _ _ _).plays
      · exact (plays_setLastBlock _ _ _).trans (sends_bumpTrack _ _ _).plays
    · split
      · exact ((sends_setFlag _ _ _).trans (sends_bumpTrack _ _ _)).plays
      · next hr =>
        have p : ∀ x l, Plays s (s.updateTrack k fun tr => { tr with ring := tr.ring ++ [x], lastBlock := l }) := by
          intro x l
          unfold State.updateTrack
          rw [h]
          refine plays_setTrack h ⟨rfl, rfl, rfl, rfl, rfl, rfl, rfl, rfl, rfl, fun hf => ⟨hf.1, ?_⟩⟩
          show (tr.ring ++ [x]).length ≤ tr.depth
          rw [List.length_append, List.length_singleton]
          omega
        have g := fun x l => ((p x l).trans (sends_bumpTrack _ k .blocksAccepted).plays).trans (plays_paceUp _ k)
        split
        · exact (g _ _).trans (plays_takePassedBlock _ _ _ _ _)
        · exact g _ _

theorem plays_arriveBlock (s : State) (k : Nat) (b : BlockBody) (src : Option Source) (test : Bool) :
    Plays s (s.arriveBlock k b src test) := by
  unfold State.arriveBlock
  split
  · exact (sends_bumpTrack _ _ _).plays
  · have p := plays_setSource s k src
    simp only
    generalize (if src.isSome then s.updateTrack k fun tr => { tr with source := src } else s) = s' at p ⊢
    refine p.trans ?_
    split
    · exact Plays.refl _
    · split
      · exact (plays_supersede _ _ _ _).trans (plays_acceptBlock _ _ _ _ _)
      · split
        · exact (sends_bumpTrack _ _ _).plays
        · split
          · exact (sends_bumpTrack _ _ _).plays
          · split
            · exact plays_acceptBlock _ _ _ _ _
            · exact (sends_bumpTrack _ _ _).plays.trans (plays_acceptBlock _ _ _ _ _)

end Sys2Proof.Machine
end

