-- ==== Sys2Proof/Laws/Stepping.lean ====
section
/-! SUPPORT. What the evaluation of pending content, the step handling and a release instant keep. -/

namespace Sys2Proof.Machine

theorem plays_lateTrack (s : State) (k sh : Nat) : Plays s (s.lateTrack k sh) := by
  unfold State.lateTrack
  split
  · exact Plays.refl s
  · split
    · exact Plays.foldl (fun s n => plays_evaluateCue s k sh n) _ s
    · exact Plays.foldl (fun s q => plays_evaluateBlock s k sh q) _ s

theorem plays_takePassedTrack (s : State) (k sh : Nat) (withZero : Bool) : Plays s (s.takePassedTrack k sh withZero) := by
  unfold State.takePassedTrack
  split
  · exact Plays.refl s
  · split
    · exact Plays.foldl (fun s n => plays_takePassedCue s k sh withZero n) _ s
    · exact Plays.foldl (fun s q => plays_takePassedBlock s k sh withZero q) _ s

theorem plays_evaluateTrack (s : State) (k sh : Nat) : Plays s (s.evaluateTrack k sh) :=
  (plays_lateTrack s k sh).trans (plays_takePassedTrack _ k sh false)

theorem plays_evaluateAll (s : State) (a sh : Nat) : Plays s (s.evaluateAll a sh) :=
  Plays.foldl (fun s k => plays_evaluateTrack s k sh) _ s

theorem plays_judgeCurrent (s : State) (k sh : Nat) : Plays s (s.judgeCurrent k sh) := by
  unfold State.judgeCurrent
  split
  · exact Plays.refl s
  · next tr h =>
    have p := fun c => plays_setTrack h (SameBinding.shorter tr c tr.lastBlock tr.pace tr.source le_rfl le_rfl)
    split
    · exact Plays.refl s
    · simp only
      split
      · exact ((p _).trans (Sends.foldl (fun s b => sends_sendCaption s k tr b _ _) _ _).plays).trans
          (sends_bumpTrack _ _ _).plays
      · exact (p _).trans (sends_bumpTrack _ _ _).plays

theorem plays_purgeCurrent (s : State) (k : Nat) : Plays s (s.purgeCurrent k) := by
  unfold State.purgeCurrent
  split
  · exact Plays.refl s
  · next tr h =>
    split
    · exact (plays_setTrack h (SameBinding.shorter tr none tr.lastBlock tr.pace tr.source le_rfl le_rfl)).trans
        (sends_bumpTrack _ _ _).plays
    · exact Plays.refl s

theorem plays_judgeAll (s : State) (a sh : Nat) : Plays s (s.judgeAll a sh) :=
  Plays.foldl (fun s k => plays_judgeCurrent s k sh) _ s

/-! ### The step handling (R108 to R114) -/

theorem sends_clearDevices (s : State) (k : Nat) : Sends s (s.clearDevices k) := by
  unfold State.clearDevices
  split
  · exact Sends.refl s
  · refine Sends.foldl (fun s b => ?_) _ s
    split
    · exact sends_sendToBand _ _ _ _ _ _ _
    · exact sends_sendToBand _ _ _ _ _ _ _

theorem plays_purgeTrack (s : State) (k sh : Nat) (f : StepForm) : Plays s (s.purgeTrack k sh f) := by
  unfold State.purgeTrack
  split
  · exact Plays.refl s
  · next tr h =>
    have p := plays_setTrack h (SameBinding.shorter tr tr.current (f.lastBlock tr.lastBlock) tr.pace tr.source
      (List.length_filter_le (fun c => !f.purgesCue sh c) _) (List.length_filter_le (fun x => !f.purgesBlock sh x) _))
    have q := fun n => p.trans (sends_bumpBy _ (.track k .purged) n).plays
    simp only
    split
    · exact q _
    · exact (q _).trans (plays_paceDown _ _)

theorem plays_clearMarks (s : State) (k : Nat) : Plays s (s.clearMarks k) :=
  plays_updateTrack s k fun x => SameBinding.shorter x _ _ _ _ (List.length_map _).le (List.length_map _).le

theorem plays_stepCurrent (s : State) (k sh : Nat) (f : StepForm) : Plays s (s.stepCurrent k sh f) := by
  unfold State.stepCurrent
  split
  · exact plays_purgeCurrent _ _
  · exact plays_judgeCurrent _ _ _
  · exact plays_purgeCurrent _ _
  · exact Plays.refl s

theorem plays_stepLate (s : State) (a k sh : Nat) (f : StepForm) : Plays s (s.stepLate a k sh f) := by
  unfold State.stepLate
  split
  · split
    · exact Plays.refl s
    · exact plays_evaluateTrack _ _ _
  · exact Plays.refl s
  · exact Plays.refl s

theorem plays_stepTrack (s : State) (a sh : Nat) (f : StepForm) (k : Nat) : Plays s (s.stepTrack a sh f k) :=
  ((((sends_clearDevices s k).plays.trans (plays_purgeTrack _ k sh f)).trans (plays_clearMarks _ k)).trans
    (plays_stepCurrent _ k sh f)).trans (plays_stepLate _ a k sh f)

theorem plays_stepHandling (s : State) (a sh : Nat) (f : StepForm) : Plays s (s.stepHandling a sh f) :=
  ((sends_bumpAuditorium s a .stepHandlings).trans (sends_withdraw _ _)).plays.trans
    (Plays.foldl (fun s k => plays_stepTrack s a sh f k) _ _)

theorem plays_houseCheckClearing (s : State) (a : Nat) : Plays s (s.houseCheckClearing a) :=
  Plays.foldl (fun s k => plays_stepTrack s a _ _ k) _ s

theorem plays_takeInstant (s : State) (k : Nat) (b : Band) : Plays s (s.takeInstant k b) := by
  unfold State.takeInstant
  split
  · exact Plays.refl s
  · simp only
    split
    · split
      · split
        · exact Plays.refl s
        · split
          · exact plays_releasePendingTo _ _ _ _
          · exact Plays.refl s
      · split
        · exact Plays.refl s
        · split
          · exact plays_releaseBlockTo _ _ _ _
          · exact Plays.refl s
    · exact Plays.refl s

theorem plays_retireCurrent (s : State) (k : Nat) : Plays s (s.retireCurrent k) := by
  unfold State.retireCurrent
  split
  · exact (plays_setCurrent s k none).trans (sends_bumpTrack _ _ _).plays
  · exact Plays.refl s

end Sys2Proof.Machine
end

