-- ==== Sys2Proof/Laws/Patrons.lean ====
section
/-! SUPPORT. The Subscription Table: the records of a table after a write, and that the member counts go on agreeing with
them. -/

namespace Sys2Proof.Machine

/-! ### The used records of a table -/

/-- The used records of a table of subscriptions. -/
def usedRecords (t : Tbl Nat (Option Subscription)) : List (Nat × Subscription) :=
  t.filterMap fun e => e.2.map fun r => (e.1, r)

theorem records_eq (s : State) : s.records = usedRecords s.subscriptions := rfl

theorem usedRecords_erase (t : Tbl Nat (Option Subscription)) (i : Nat) :
    usedRecords (Tbl.erase t i) = (usedRecords t).filter fun e => e.1 != i := by
  induction t with
  | nil => rfl
  | cons e t ih =>
    obtain ⟨j, v⟩ := e
    unfold Tbl.erase
    by_cases h : j = i
    · subst h
      cases v <;> simpa [usedRecords] using ih
    · cases v <;> simp [usedRecords, h] <;> simpa [usedRecords] using ih

theorem usedRecords_insert (t : Tbl Nat (Option Subscription)) (i : Nat) (r : Subscription) :
    (usedRecords (Tbl.insert id t i (some r))).Perm ((i, r) :: usedRecords t) := by
  induction t with
  | nil => exact List.Perm.refl _
  | cons e t ih =>
    obtain ⟨j, v⟩ := e
    unfold Tbl.insert
    split
    · exact List.Perm.refl _
    · cases v with
      | none => simpa [usedRecords] using ih
      | some x =>
        have : (usedRecords ((j, some x) :: Tbl.insert id t i (some r))) =
            (j, x) :: usedRecords (Tbl.insert id t i (some r)) := rfl
        rw [this]
        exact (ih.cons (j, x)).trans (List.Perm.swap _ _ _)

/-- The records after a write: the written one, and every other as it stood. -/
theorem records_setSubscription (s : State) (i : Nat) (v : Option Subscription) :
    (s.setSubscription i v).records.Perm
      ((v.map fun r => (i, r)).toList ++ s.records.filter fun e => e.1 != i) := by
  rw [records_eq, records_eq]
  unfold State.setSubscription Tbl.set
  cases v with
  | none =>
    simp only [if_true]
    rw [usedRecords_erase]
    exact List.Perm.refl _
  | some r =>
    simp only [reduceCtorEq, if_false]
    refine (usedRecords_insert _ i r).trans ?_
    rw [usedRecords_erase]
    exact List.Perm.refl _

theorem usedRecords_keys {t : Tbl Nat (Option Subscription)} (h : Tbl.Wf id none t) :
    ((usedRecords t).map Prod.fst).Nodup := by
  have hs : ((usedRecords t).map Prod.fst).Sublist (t.map Prod.fst) := by
    clear h
    induction t with
    | nil => exact List.Sublist.slnil
    | cons e t ih =>
      obtain ⟨j, v⟩ := e
      cases v with
      | none => exact ih.cons _
      | some r => exact ih.cons_cons _
  refine List.Nodup.sublist hs ?_
  exact h.1.imp fun h => Nat.ne_of_lt h

/-- In a canonical table a record is listed exactly at its index. -/
theorem mem_records {s : State} (h : Tbl.Wf id none s.subscriptions) {i : Nat} {r : Subscription} :
    (i, r) ∈ s.records ↔ s.subscription i = some r := by
  rw [records_eq]
  unfold State.subscription
  have hk := h.1
  clear h
  revert hk
  generalize s.subscriptions = t
  intro hk
  induction t with
  | nil => simp [usedRecords, Tbl.get]
  | cons e t ih =>
    obtain ⟨j, v⟩ := e
    rw [List.map_cons, List.pairwise_cons] at hk
    have hne : ∀ x, (i, x) ∈ usedRecords t → j < i := by
      intro x hx
      have : (i, some x) ∈ t := by
        simp only [usedRecords, List.mem_filterMap, Option.map_eq_some_iff, Prod.mk.injEq] at hx
        obtain ⟨a, ha, y, hy, h1, h2⟩ := hx
        obtain ⟨a1, a2⟩ := a
        simp only at hy h1
        subst hy h1 h2
        exact ha
      exact hk.1 _ (List.mem_map_of_mem (f := fun e : Nat × Option Subscription => id e.1) this)
    have ih := ih hk.2
    unfold Tbl.get
    by_cases hj : j = i
    · subst hj
      simp only [if_true]
      cases v with
      | none =>
        simp only [usedRecords, List.filterMap_cons, Option.map_none, reduceCtorEq, iff_false]
        intro hx
        exact absurd (hne r hx) (lt_irrefl _)
      | some x =>
        simp only [usedRecords, List.filterMap_cons, Option.map_some, List.mem_cons, Prod.mk.injEq, true_and,
          Option.some.injEq]
        constructor
        · rintro (h | h)
          · exact h.symm
          · exact absurd (hne r h) (lt_irrefl _)
        · exact fun h => .inl h.symm
    · simp only [hj, if_false]
      refine Iff.trans ?_ ih
      cases v with
      | none => exact Iff.rfl
      | some x =>
        simp only [usedRecords, List.filterMap_cons, Option.map_some, List.mem_cons, Prod.mk.injEq]
        constructor
        · rintro (h | h)
          · exact absurd h.1.symm hj
          · exact h
        · exact .inr

/-- In a canonical table the records are the one at an index, if it is used, and those at the others. -/
theorem records_split {s : State} (h : Tbl.Wf id none s.subscriptions) (i : Nat) :
    s.records.Perm (((s.subscription i).map fun r => (i, r)).toList ++ s.records.filter fun e => e.1 != i) := by
  have hk := usedRecords_keys h
  rw [← records_eq] at hk
  cases hr : s.subscription i with
  | none =>
    have : s.records.filter (fun e => e.1 != i) = s.records := by
      rw [List.filter_eq_self]
      rintro ⟨j, r⟩ hm
      simp only [bne_iff_ne, ne_eq]
      rintro rfl
      rw [(mem_records h).mp hm] at hr
      cases hr
    rw [this]
    exact List.Perm.refl _
  | some r =>
    have hm := (mem_records h).mpr hr
    have hf : s.records.filter (fun e => e.1 != i) = s.records.erase (i, r) := by
      rw [(hk.of_map _).erase_eq_filter]
      refine List.filter_congr ?_
      rintro ⟨j, x⟩ hx
      by_cases hj : j = i
      · subst hj
        have := (mem_records h).mp hx
        rw [hr] at this
        cases this
        simp
      · have : (j, x) ≠ (i, r) := fun h => hj (congrArg Prod.fst h)
        rw [bne_iff_ne.mpr hj, bne_iff_ne.mpr this]
    rw [hf]
    exact List.perm_cons_erase hm

/-! ### One record changed (R134, R135) -/

/-- Whether an index's contents count on a band: 1 for a member, 0 otherwise. -/
def memberUnit (v : Option Subscription) (k : Nat) (b : Band) : Nat := if v.any (Subscription.memberOf k b) then 1 else 0

theorem memberUnit_length (i : Nat) (v : Option Subscription) (k : Nat) (b : Band) :
    (((v.map fun r => (i, r)).toList).filter fun e => e.2.memberOf k b).length = memberUnit v k b := by
  unfold memberUnit
  cases v with
  | none => rfl
  | some r => by_cases h : r.memberOf k b = true <;> simp [h]

/-- What must hold of the new contents `v` of index `i` for the table and the counts to go on agreeing. -/
structure Fitting (s s' : State) (i : Nat) (v : Option Subscription) : Prop where
  table : s'.subscriptions = (s.setSubscription i v).subscriptions
  tracks : BindingsKept s s'
  timed : ∀ r, v = some r → r.Timed
  handle : ∀ r, v = some r → ∀ e ∈ s.records, e.1 ≠ i → e.2.handle ≠ r.handle
  bound : ∀ r, v = some r → ∃ tr, s.track r.track = some tr ∧ tr.auditorium = r.auditorium
  counts : ∀ k b, s'.memberCount k b + memberUnit (s.subscription i) k b = s.memberCount k b + memberUnit v k b

theorem BindingsKept.bound {s s' : State} (h : BindingsKept s s') {k a : Nat}
    (hb : ∃ tr, s.track k = some tr ∧ tr.auditorium = a) : ∃ tr, s'.track k = some tr ∧ tr.auditorium = a := by
  obtain ⟨tr, ht, ha⟩ := hb
  obtain ⟨y, hy, hs⟩ := h.of_bound ht
  exact ⟨y, hy, hs.auditorium.trans ha⟩

theorem BindingsKept.numbers {s s' : State} (h : BindingsKept s s') (hn : ∀ k tr, s.track k = some tr → k ≤ 95) :
    ∀ k tr, s'.track k = some tr → k ≤ 95 := by
  intro k y hy
  cases hx : s.track k with
  | none => rw [h.of_free hx] at hy; cases hy
  | some x => exact hn k x hx

theorem setSubscription_canonical {s : State} (h : Tbl.Wf id none s.subscriptions) (i : Nat) (v : Option Subscription) :
    Tbl.Wf id none (s.setSubscription i v).subscriptions :=
  Tbl.set_keeps_wf Function.injective_id i v h

/-- One record made, changed or freed, with its counts. -/
theorem counted_change {s s' : State} {i : Nat} {v : Option Subscription} (h : s.PatronsCounted)
    (hv : Fitting s s' i v) : s'.PatronsCounted := by
  have hr : s'.records = (s.setSubscription i v).records := by rw [records_eq, records_eq, hv.table]
  have hp := records_setSubscription s i v
  rw [← hr] at hp
  have hmem : ∀ e ∈ s'.records, v = some e.2 ∨ (e ∈ s.records ∧ e.1 ≠ i) := by
    intro e he
    rcases List.mem_append.mp (hp.mem_iff.mp he) with h1 | h1
    · left
      rw [Option.mem_toList, Option.map_eq_some_iff] at h1
      obtain ⟨r, h2, h3⟩ := h1
      rw [h2, ← h3]
    · right
      simpa using h1
  refine ⟨?_, ?_, ?_, hv.tracks.numbers h.tracks, ?_, ?_⟩
  · rw [hv.table]
    exact setSubscription_canonical h.canonical i v
  · rw [(hp.map _).nodup_iff, List.map_append, List.nodup_append]
    refine ⟨?_, ?_, ?_⟩
    · cases v <;> simp
    · exact h.handles.sublist (List.Sublist.map _ List.filter_sublist)
    · intro x hx y hy
      cases v with
      | none => simp at hx
      | some r =>
        simp only [Option.map_some, Option.toList_some, List.map_cons, List.map_nil, List.mem_singleton] at hx
        obtain ⟨e, he, rfl⟩ := List.mem_map.mp hy
        rw [List.mem_filter, bne_iff_ne] at he
        rw [hx]
        exact (hv.handle r rfl e he.1 he.2).symm
  · intro e he
    rcases hmem e he with h1 | h1
    · exact hv.timed _ h1
    · exact h.timed e h1.1
  · intro e he
    rcases hmem e he with h1 | h1
    · exact hv.tracks.bound (hv.bound _ h1)
    · exact hv.tracks.bound (h.bound e h1.1)
  · intro k b
    have h1 := ((hp.filter fun e => e.2.memberOf k b).length_eq)
    have h2 := (((records_split h.canonical i).filter fun e => e.2.memberOf k b).length_eq)
    rw [List.filter_append, List.length_append, memberUnit_length] at h1 h2
    have h3 := hv.counts k b
    rw [h.counts k b] at h3
    omega

/-- Content work keeps the agreement: it touches neither records nor counts nor bindings. -/
theorem Plays.counted {s s' : State} (h : Plays s s') (hc : s.PatronsCounted) : s'.PatronsCounted := by
  have hr : s'.records = s.records := by rw [records_eq, records_eq, h.patrons.subscriptions]
  have hm : ∀ k b, s'.memberCount k b = s.memberCount k b := fun k b => by
    simp only [State.memberCount, State.trackMembers, h.patrons.members]
  refine ⟨?_, ?_, ?_, h.bindings.numbers hc.tracks, ?_, ?_⟩
  · rw [h.patrons.subscriptions]
    exact hc.canonical
  · rw [hr]
    exact hc.handles
  · rw [hr]
    exact hc.timed
  · rw [hr]
    exact fun e he => h.bindings.bound (hc.bound e he)
  · intro k b
    rw [hr, hm]
    exact hc.counts k b

end Sys2Proof.Machine
end

