-- ==== Sys2Proof/Laws/Subscribers.lean ====
section
/-! SUPPORT. `Works`, what the work of one event keeps whatever it touches; and that making, moving, detaching, freeing and
releasing records keep it (Chapter 8). -/

namespace Sys2Proof.Machine

/-- What the work of an event keeps: all that `Quiet` says, the bindings, and that records and counts agree. -/
structure Works (s s' : State) : Prop extends Quiet s s' where
  bindings : BindingsKept s s'
  counted : s.PatronsCounted → s'.PatronsCounted

theorem Works.refl (s : State) : Works s s := ⟨Quiet.refl s, BindingsKept.of_tracks rfl, id⟩

theorem Works.trans {a b c : State} (h : Works a b) (g : Works b c) : Works a c :=
  ⟨h.toQuiet.trans g.toQuiet, h.bindings.trans g.bindings, fun p => g.counted (h.counted p)⟩

theorem Plays.works {s s' : State} (h : Plays s s') : Works s s' := ⟨h.toQuiet, h.bindings, h.counted⟩
theorem Sends.works {s s' : State} (h : Sends s s') : Works s s' := h.plays.works

/-- A change that touches neither tracks nor patrons keeps the agreement. -/
theorem counted_of_same {s s' : State} (ht : s'.tracks = s.tracks) (hp : SamePatrons s s') (h : s.PatronsCounted) :
    s'.PatronsCounted := by
  have hb := BindingsKept.of_tracks ht
  have hr : s'.records = s.records := by rw [records_eq, records_eq, hp.subscriptions]
  refine ⟨?_, ?_, ?_, hb.numbers h.tracks, ?_, ?_⟩
  · rw [hp.subscriptions]
    exact h.canonical
  · rw [hr]
    exact h.handles
  · rw [hr]
    exact h.timed
  · rw [hr]
    exact fun e he => hb.bound (h.bound e he)
  · intro k b
    rw [hr, ← h.counts k b]
    simp only [State.memberCount, State.trackMembers, hp.members]

theorem Quiet.works {s s' : State} (h : Quiet s s') (ht : s'.tracks = s.tracks) (hp : SamePatrons s s') : Works s s' :=
  ⟨h, BindingsKept.of_tracks ht, counted_of_same ht hp⟩

theorem works_setAuditorium (s : State) (a : Nat) (v : Auditorium) : Works s (s.setAuditorium a v) :=
  (quiet_setAuditorium s a v).works rfl ⟨rfl, rfl⟩
theorem works_setLifecycle (s : State) (a : Nat) (l : Lifecycle) : Works s (s.setLifecycle a l) :=
  works_setAuditorium s a _
theorem works_setClock (s : State) (a : Nat) (v : Clock) : Works s (s.setClock a v) :=
  (quiet_setClock s a v).works rfl ⟨rfl, rfl⟩
theorem works_freezeClock (s : State) (a e : Nat) : Works s (s.freezeClock a e) := works_setClock s a _
theorem works_setCheck (s : State) (a : Nat) (v : HouseCheck) : Works s (s.setCheck a v) :=
  (quiet_setCheck s a v).works rfl ⟨rfl, rfl⟩
theorem works_setBeacon (s : State) (a : Nat) (v : Option Nat) : Works s (s.setBeacon a v) :=
  (quiet_setBeacon s a v).works rfl ⟨rfl, rfl⟩

theorem works_updateBeacon (s : State) (a : Nat) : Works s (s.updateBeacon a) := by
  unfold State.updateBeacon
  split
  · split
    · exact Works.refl s
    · exact works_setBeacon s a _
  · exact works_setBeacon s a _

theorem works_closeComplete (s : State) (a : Nat) : Works s (s.closeComplete a) := by
  unfold State.closeComplete
  simp only
  split
  · exact works_setAuditorium s a _
  · exact (works_setAuditorium s a _).trans (sends_sendResult _ _ _ _ _ _).works

theorem works_endOfFrame (s : State) (e : Entry) : Works s (s.endOfFrame e) := by
  unfold State.endOfFrame
  split
  · split
    · exact works_closeComplete s _
    · exact Works.refl s
  all_goals exact Works.refl s

/-- Work done over a list, item by item, keeps what each item's work keeps. -/
theorem Works.foldl {β : Type} {f : State → β → State} (h : ∀ s x, Works s (f s x)) (l : List β) (s : State) :
    Works s (l.foldl f s) := by
  induction l generalizing s with
  | nil => exact Works.refl s
  | cons x l ih => exact (h s x).trans (ih _)

/-! ### One record (R134 to R149) -/

theorem quiet_setMemberCount (s : State) (k : Nat) (b : Band) (n : Nat) : Quiet s (s.setMemberCount k b n) :=
  quiet_setTrackMembers s k _

theorem quiet_updateBeacon (s : State) (a : Nat) : Quiet s (s.updateBeacon a) := (works_updateBeacon s a).toQuiet

theorem quiet_detach (s : State) (i : Nat) (r : Subscription) (e : Nat) : Quiet s (s.detach i r e) :=
  ((((quiet_setSubscription s i _).trans (quiet_setMemberCount _ r.track r.band _)).trans
    (sends_bumpAuditorium _ r.auditorium .detachments).toQuiet).trans (sends_setFlag _ _ _).toQuiet).trans
      (quiet_updateBeacon _ _)

theorem updateBeacon_tracks (s : State) (a : Nat) : (s.updateBeacon a).tracks = s.tracks := by
  unfold State.updateBeacon
  split
  · split <;> rfl
  · rfl

theorem samePatrons_updateBeacon (s : State) (a : Nat) : SamePatrons s (s.updateBeacon a) := by
  unfold State.updateBeacon
  split
  · split
    · exact ⟨rfl, rfl⟩
    · exact ⟨rfl, rfl⟩
  · exact ⟨rfl, rfl⟩

theorem SamePatrons.memberCount {s s' : State} (h : SamePatrons s s') (k : Nat) (b : Band) :
    s'.memberCount k b = s.memberCount k b := by
  simp only [State.memberCount, State.trackMembers, h.members]

theorem memberCount_dropMember (s : State) (k j : Nat) (b c : Band) :
    (s.dropMember k b).memberCount j c = s.memberCount j c - if j = k ∧ c = b then 1 else 0 := by
  unfold State.dropMember
  rw [State.memberCount_setMemberCount]
  split
  · next h => rw [h.1, h.2]
  · rfl

theorem memberCount_addMember (s : State) (k j : Nat) (b c : Band) :
    (s.addMember k b).memberCount j c = s.memberCount j c + if j = k ∧ c = b then 1 else 0 := by
  unfold State.addMember
  rw [State.memberCount_setMemberCount]
  split
  · next h => rw [h.1, h.2]
  · rfl

/-- A member counts on its own track and band alone. -/
theorem memberUnit_member {r : Subscription} (h : r.detached = false) (k : Nat) (b : Band) :
    memberUnit (some r) k b = if k = r.track ∧ b = r.band then 1 else 0 := by
  unfold memberUnit Subscription.memberOf
  simp only [Option.any_some, h, Bool.not_false, Bool.and_true, Bool.and_eq_true, beq_iff_eq]
  exact if_congr (and_congr eq_comm eq_comm) rfl rfl

theorem memberUnit_detached {r : Subscription} (h : r.detached = true) (k : Nat) (b : Band) :
    memberUnit (some r) k b = 0 := by
  simp [memberUnit, Subscription.memberOf, h]

theorem memberUnit_none (k : Nat) (b : Band) : memberUnit none k b = 0 := rfl

theorem detached_iff {r : Subscription} : r.detached = true ↔ 256 ≤ r.score := by
  unfold Subscription.detached Subscription.state subscriptionState
  split
  · simp; omega
  · split
    · simp; omega
    · split
      · simp; omega
      · simp; omega

theorem not_detached_iff {r : Subscription} : r.detached = false ↔ r.score < 256 := by
  rw [← Bool.not_eq_true, detached_iff]
  omega

/-- A member of a band is counted on it. -/
theorem memberCount_pos {s : State} (h : s.PatronsCounted) {i : Nat} {r : Subscription} (hr : s.subscription i = some r)
    (hd : r.detached = false) : 1 ≤ s.memberCount r.track r.band := by
  rw [h.counts]
  refine List.length_pos_of_mem (a := (i, r)) (List.mem_filter.mpr ⟨(mem_records h.canonical).mpr hr, ?_⟩)
  simp [Subscription.memberOf, hd]

/-- Two records that hold one handle are one record. -/
theorem handle_unique {s : State} (h : s.PatronsCounted) {i : Nat} {r : Subscription} (hr : s.subscription i = some r)
    {e : Nat × Subscription} (he : e ∈ s.records) (hne : e.1 ≠ i) : e.2.handle ≠ r.handle := by
  intro heq
  have hm := (mem_records h.canonical).mpr hr
  have := List.inj_on_of_nodup_map h.handles he hm heq
  exact hne (congrArg Prod.fst this)

/-- A record enters DETACHED (R148). -/
theorem counted_detach {s : State} {i e : Nat} {old r : Subscription} (h : s.PatronsCounted)
    (ho : s.subscription i = some old) (hd : old.detached = false) (hh : r.handle = old.handle)
    (ht : r.track = old.track) (hb : r.band = old.band) (ha : r.auditorium = old.auditorium) :
    (s.detach i r e).PatronsCounted := by
  have hm := (mem_records h.canonical).mpr ho
  refine counted_change (i := i)
    (v := some { r with score := 256, window := none, hold := some (e + holdTime) }) h ?_
  have hs : SamePatrons ((s.setSubscription i (some { r with
      score := 256, window := none, hold := some (e + holdTime) })).dropMember r.track r.band) (s.detach i r e) :=
    (((sends_bumpAuditorium _ _ _).trans (sends_setFlag _ _ _)).patrons).trans (samePatrons_updateBeacon _ _)
  refine ⟨hs.subscriptions, ?_, ?_, ?_, ?_, ?_⟩
  · refine BindingsKept.of_tracks ?_
    unfold State.detach
    rw [updateBeacon_tracks, (sends_setFlag _ _ _).tracks]
    rfl
  · rintro x ⟨⟩
    exact ⟨le_rfl, ⟨fun _ => rfl, fun _ => rfl⟩, ⟨fun _ => rfl, fun _ => rfl⟩⟩
  · rintro x ⟨⟩ f hf hne
    show f.2.handle ≠ r.handle
    rw [hh]
    exact handle_unique h ho hf hne
  · rintro x ⟨⟩
    show ∃ tr, s.track r.track = some tr ∧ tr.auditorium = r.auditorium
    rw [ht, ha]
    exact h.bound _ hm
  · intro k b
    have h1 := memberCount_pos h ho hd
    rw [hs.memberCount, memberCount_dropMember, ho, memberUnit_member hd, memberUnit_detached (by rfl), ht, hb]
    show s.memberCount k b - _ + _ = _
    split
    · next hk => rw [hk.1, hk.2]; omega
    · omega

/-- A score changed and the window restarted (R146, R147). -/
theorem counted_rescore {s : State} {i score e : Nat} {old r : Subscription} (h : s.PatronsCounted)
    (ho : s.subscription i = some old) (hd : old.detached = false) (hh : r.handle = old.handle)
    (ht : r.track = old.track) (hb : r.band = old.band) (ha : r.auditorium = old.auditorium) (hq : r.hold = old.hold) :
    (s.rescore i r score e).PatronsCounted := by
  unfold State.rescore
  split
  · exact counted_detach h ho hd hh ht hb ha
  · next hsc =>
    have hm := (mem_records h.canonical).mpr ho
    have hold : old.hold = none := by
      have := (h.timed _ hm).2.2
      have hlt := not_detached_iff.mp hd
      rw [Option.eq_none_iff_forall_ne_some]
      intro x hx
      have : old.score = 256 := this.mpr (by show old.hold.isSome = true; rw [hx]; rfl)
      omega
    refine counted_change (i := i) (v := some { r with
      score := score, window := some (s.windowFrom r.auditorium e) }) h ?_
    refine ⟨rfl, BindingsKept.of_tracks rfl, ?_, ?_, ?_, ?_⟩
    · rintro x ⟨⟩
      have hlt : score ≠ 256 := by omega
      exact ⟨by show score ≤ 256; omega, ⟨fun h => absurd h hlt, fun h => (nomatch h)⟩,
        ⟨fun h => absurd h hlt, fun h => by
          have h' : r.hold.isSome = true := h
          rw [hq, hold] at h'
          cases h'⟩⟩
    · rintro x ⟨⟩ f hf hne
      show f.2.handle ≠ r.handle
      rw [hh]
      exact handle_unique h ho hf hne
    · rintro x ⟨⟩
      show ∃ tr, s.track r.track = some tr ∧ tr.auditorium = r.auditorium
      rw [ht, ha]
      exact h.bound _ hm
    · intro k b
      rw [ho, memberUnit_member hd, memberUnit_member (not_detached_iff.mpr (by show score < 256; omega))]
      show s.memberCount k b + _ = s.memberCount k b + if k = r.track ∧ b = r.band then 1 else 0
      rw [ht, hb]

theorem quiet_rescore (s : State) (i : Nat) (r : Subscription) (score e : Nat) : Quiet s (s.rescore i r score e) := by
  unfold State.rescore
  split
  · exact quiet_detach s i r e
  · exact quiet_setSubscription s i _

theorem detach_tracks (s : State) (i : Nat) (r : Subscription) (e : Nat) : (s.detach i r e).tracks = s.tracks := by
  unfold State.detach
  rw [updateBeacon_tracks, (sends_setFlag _ _ _).tracks]
  rfl

theorem rescore_tracks (s : State) (i : Nat) (r : Subscription) (score e : Nat) :
    (s.rescore i r score e).tracks = s.tracks := by
  unfold State.rescore
  split
  · exact detach_tracks s i r e
  · rfl

/-- A record freed with no change of a count (R149), or with the count it held (R144). -/
theorem counted_free {s s' : State} {i : Nat} (h : s.PatronsCounted)
    (htab : s'.subscriptions = (s.setSubscription i none).subscriptions) (htr : s'.tracks = s.tracks)
    (hc : ∀ k b, s'.memberCount k b + memberUnit (s.subscription i) k b = s.memberCount k b) : s'.PatronsCounted :=
  counted_change (i := i) (v := none) h
    ⟨htab, BindingsKept.of_tracks htr, fun _ h => (nomatch h), fun _ h => (nomatch h), fun _ h => (nomatch h), hc⟩

theorem quiet_freeRecord (s : State) (i : Nat) (r : Subscription) : Quiet s (s.freeRecord i r) := by
  unfold State.freeRecord
  simp only
  split
  · exact quiet_setSubscription s i none
  · exact ((quiet_setSubscription s i none).trans (quiet_setMemberCount _ _ _ _)).trans (quiet_updateBeacon _ _)

theorem freeRecord_tracks (s : State) (i : Nat) (r : Subscription) : (s.freeRecord i r).tracks = s.tracks := by
  unfold State.freeRecord
  simp only
  split
  · rfl
  · rw [updateBeacon_tracks]
    rfl

theorem counted_freeRecord {s : State} {i : Nat} {r : Subscription} (h : s.PatronsCounted)
    (hr : s.subscription i = some r) : (s.freeRecord i r).PatronsCounted := by
  unfold State.freeRecord
  simp only
  split
  · next hd =>
    refine counted_free h rfl rfl fun k b => ?_
    rw [hr, memberUnit_detached hd]
    rfl
  · next hd =>
    have hd : r.detached = false := by simpa using hd
    have hs := samePatrons_updateBeacon ((s.setSubscription i none).dropMember r.track r.band) r.auditorium
    refine counted_free h hs.subscriptions (updateBeacon_tracks _ _) fun k b => ?_
    have h1 := memberCount_pos h hr hd
    rw [hs.memberCount, memberCount_dropMember, hr, memberUnit_member hd]
    show s.memberCount k b - _ + _ = _
    split
    · next hk => rw [hk.1, hk.2]; omega
    · omega

/-- The record that holds a handle. -/
theorem findHandle_spec {s : State} {handle : Nat} {e : Nat × Subscription} (h : s.findHandle handle = some e) :
    e ∈ s.records ∧ e.2.handle = handle :=
  ⟨List.mem_of_find?_eq_some h, by simpa using List.find?_some h⟩

theorem findHandle_none {s : State} {handle : Nat} (h : s.findHandle handle = none) :
    ∀ e ∈ s.records, e.2.handle ≠ handle := by
  intro e he
  have := List.find?_eq_none.mp h e he
  simpa using this

theorem firstFree_spec {s : State} {fuel i j : Nat} (h : s.firstFree fuel i = some j) : s.subscription j = none := by
  induction fuel generalizing i with
  | zero => cases h
  | succ n ih =>
    unfold State.firstFree at h
    split at h
    · next hn =>
      cases h
      exact Option.isNone_iff_eq_none.mp hn
    · exact ih h

/-! ### Joining (R139 to R141) -/

theorem quiet_subscribe (s : State) (ea : Nat) (f : JoinFrame) (k : Nat) (b : Band) : Quiet s (s.subscribe ea f k b) := by
  have made : ∀ i v c, Quiet s ((((s.setSubscription i v).addMember k b).bumpAuditorium f.auditorium c).updateBeacon
      f.auditorium) := fun i v c =>
    (((quiet_setSubscription s i v).trans (quiet_setMemberCount _ _ _ _)).trans
      (sends_bumpAuditorium _ _ _).toQuiet).trans (quiet_updateBeacon _ _)
  unfold State.subscribe
  simp only
  split
  · split
    · exact Quiet.refl s
    · exact made _ _ _
  · split
    · exact made _ _ _
    · exact (((((quiet_setSubscription s _ _).trans (quiet_setMemberCount _ _ _ _)).trans
        (quiet_setMemberCount _ _ _ _)).trans (sends_bumpAuditorium _ _ _).toQuiet).trans
          (quiet_updateBeacon _ _)).trans (quiet_updateBeacon _ _)

theorem subscribe_tracks (s : State) (ea : Nat) (f : JoinFrame) (k : Nat) (b : Band) :
    (s.subscribe ea f k b).tracks = s.tracks := by
  unfold State.subscribe
  simp only
  split
  · split
    · rfl
    · rw [updateBeacon_tracks]
      rfl
  · split
    · rw [updateBeacon_tracks]
      rfl
    · rw [updateBeacon_tracks, updateBeacon_tracks]
      rfl

theorem counted_subscribe {s : State} {ea : Nat} {f : JoinFrame} {k : Nat} {b : Band} (h : s.PatronsCounted)
    (hk : ∃ tr, s.track k = some tr ∧ tr.auditorium = f.auditorium) : (s.subscribe ea f k b).PatronsCounted := by
  have fresh : ∀ w, (⟨f.handle, f.auditorium, k, b, 0, ea, none, none, some w, none⟩ : Subscription).detached = false :=
    fun _ => rfl
  have timed : ∀ w, (⟨f.handle, f.auditorium, k, b, 0, ea, none, none, some w, none⟩ : Subscription).Timed :=
    fun _ => ⟨Nat.zero_le 256, ⟨fun h => (nomatch h), fun h => (nomatch h)⟩, ⟨fun h => (nomatch h), fun h => (nomatch h)⟩⟩
  unfold State.subscribe
  simp only
  split
  · next hn =>
    split
    · exact h
    · next i hi =>
      have hfree : s.subscription i = none := firstFree_spec hi
      have hs := fun x => samePatrons_updateBeacon (((s.setSubscription i (some x)).addMember k b).bumpAuditorium
        f.auditorium .joinsNew) f.auditorium
      refine counted_change (i := i)
        (v := some ⟨f.handle, f.auditorium, k, b, 0, ea, none, none, some (s.windowFrom f.auditorium ea), none⟩) h
        ⟨(hs _).subscriptions, BindingsKept.of_tracks (updateBeacon_tracks _ _), ?_, ?_, ?_, ?_⟩
      · rintro x ⟨⟩
        exact timed _
      · rintro x ⟨⟩ e he _
        exact findHandle_none hn e he
      · rintro x ⟨⟩
        exact hk
      · intro j c
        rw [(hs _).memberCount, hfree, memberUnit_member (fresh _)]
        show ((s.setSubscription i _).addMember k b).memberCount j c + 0 = _
        rw [memberCount_addMember]
        rfl
  · next i r hf =>
    obtain ⟨hm, hh⟩ := findHandle_spec hf
    have hr := (mem_records h.canonical).mp hm
    have unique : ∀ e ∈ s.records, e.1 ≠ i → e.2.handle ≠ f.handle := fun e he hne =>
      hh ▸ handle_unique h hr he hne
    split
    · next hd =>
      have hs := fun x => samePatrons_updateBeacon (((s.setSubscription i (some x)).addMember k b).bumpAuditorium
        f.auditorium .joinsRestored) f.auditorium
      refine counted_change (i := i)
        (v := some ⟨f.handle, f.auditorium, k, b, 0, ea, none, none, some (s.windowFrom f.auditorium ea), none⟩) h
        ⟨(hs _).subscriptions, BindingsKept.of_tracks (updateBeacon_tracks _ _), ?_, ?_, ?_, ?_⟩
      · rintro x ⟨⟩
        exact timed _
      · rintro x ⟨⟩
        exact unique
      · rintro x ⟨⟩
        exact hk
      · intro j c
        rw [(hs _).memberCount, hr, memberUnit_detached hd, memberUnit_member (fresh _)]
        show ((s.setSubscription i _).addMember k b).memberCount j c + 0 = _
        rw [memberCount_addMember]
        rfl
    · next hd =>
      have hd : r.detached = false := by simpa using hd
      have hs := fun x => (samePatrons_updateBeacon ((((s.setSubscription i (some x)).dropMember r.track
        r.band).addMember k b).bumpAuditorium f.auditorium .joinsSwitched) r.auditorium).trans
          (samePatrons_updateBeacon _ f.auditorium)
      have ht := h.timed _ hm
      refine counted_change (i := i) (v := some { r with
        auditorium := f.auditorium, track := k, band := b, joinTime := ea, lastSeq := none
        window := some (s.windowFrom f.auditorium ea) }) h ⟨(hs _).subscriptions, BindingsKept.of_tracks
        ((updateBeacon_tracks _ _).trans (updateBeacon_tracks _ _)), ?_, ?_, ?_, ?_⟩
      · rintro x ⟨⟩
        have hlt := not_detached_iff.mp hd
        have hne : r.score ≠ 256 := by omega
        exact ⟨ht.1, ⟨fun h => absurd h hne, fun h => (nomatch h)⟩, ht.2.2⟩
      · rintro x ⟨⟩ e he hne
        exact handle_unique h hr he hne
      · rintro x ⟨⟩
        exact hk
      · intro j c
        have h1 := memberCount_pos h hr hd
        rw [(hs _).memberCount, hr, memberUnit_member hd]
        show (((s.setSubscription i _).dropMember r.track r.band).addMember k b).memberCount j c + _ = _
        rw [memberCount_addMember, memberCount_dropMember, memberUnit_member (by exact hd)]
        show s.memberCount j c - _ + (if j = k ∧ c = b then 1 else 0) + _ =
          s.memberCount j c + if j = k ∧ c = b then 1 else 0
        by_cases h2 : j = r.track ∧ c = r.band
        · rw [if_pos h2, h2.1, h2.2]
          omega
        · rw [if_neg h2]
          omega

end Sys2Proof.Machine
end

