-- ==== Sys2Proof/Laws/Events.lean ====
section
/-! SUPPORT. What frames, timed events and house checks keep: one lemma per operation, `Works` wherever the event leaves the
ports, the command queue and the copies as they stood. -/

namespace Sys2Proof.Machine

/-! ### House checks (Chapter 9) -/

theorem works_endCheck (s : State) (a : Nat) (o : CheckOutcome) : Works s (s.endCheck a o) := works_setCheck s a _

theorem works_clearCheckedBlock (s : State) (a : Nat) : Works s (s.clearCheckedBlock a) := by
  unfold State.clearCheckedBlock
  split
  · exact Works.refl s
  · exact (plays_setLastBlock s _ none).works

theorem works_completeCheck (s : State) (a : Nat) : Works s (s.completeCheck a) := by
  unfold State.completeCheck
  split
  · exact (((((works_endCheck s a _).trans (works_freezeClock _ a _)).trans (works_clearCheckedBlock _ a)).trans
      (works_setLifecycle _ a _)).trans (sends_setFlag _ _ _).works).trans (works_updateBeacon _ a)
  · exact Works.refl s

theorem works_completeTrackCheck (s : State) (k : Nat) : Works s (s.completeTrackCheck k) := by
  unfold State.completeTrackCheck
  split
  · exact Works.refl s
  · exact works_completeCheck s _

theorem works_checkReport (s : State) (a k missed : Nat) : Works s (s.checkReport a k missed) := by
  unfold State.checkReport
  simp only
  split
  · exact works_setCheck s a _
  · exact Works.refl s

theorem works_abortCheck (s : State) (a : Nat) : Works s (s.abortCheck a) :=
  ((works_endCheck s a _).trans (plays_houseCheckClearing _ a).works).trans (sends_setFlag _ _ _).works

theorem works_generateCue (s : State) (a : Nat) : Works s (s.generateCue a) := by
  unfold State.generateCue
  simp only
  split
  · split
    · exact ((works_setCheck s a _).trans (plays_arriveCue _ _ _ _ _).works).trans (works_completeCheck _ a)
    · exact Works.refl s
  · exact Works.refl s
  · exact Works.refl s

theorem works_generateBlock (s : State) (a : Nat) : Works s (s.generateBlock a) := by
  unfold State.generateBlock
  simp only
  split
  · split
    · exact ((works_setCheck s a _).trans (plays_arriveBlock _ _ _ _ _).works).trans (works_completeCheck _ a)
    · exact Works.refl s
  · exact Works.refl s
  · exact Works.refl s

/-! ### SHOWTIME (Chapter 2) -/

theorem works_runStep (s : State) (a sh : Nat) (full : Bool) : Works s (s.runStep a sh full) :=
  ((works_setClock s a _).trans (sends_setFlag _ _ _).works).trans (plays_stepHandling _ a sh _).works

theorem works_freshStart (s : State) (a ea target comp : Nat) : Works s (s.freshStart a ea target comp) :=
  (((works_setClock s a _).trans (works_setLifecycle _ a _)).trans (plays_evaluateAll _ a _).works).trans
    (works_updateBeacon _ a)

theorem works_freshPause (s : State) (a ea target comp : Nat) : Works s (s.freshPause a ea target comp) :=
  ((works_setClock s a _).trans (works_setLifecycle _ a _)).trans (works_updateBeacon _ a)

theorem works_servo (s : State) (a ea target comp : Nat) : Works s (s.servo a ea target comp) := by
  have start : ∀ c, Works s ((s.setClock a c).setLifecycle a .running) := fun c =>
    (works_setClock s a c).trans (works_setLifecycle _ a _)
  unfold State.servo
  simp only
  split
  · exact ((start _).trans (works_runStep _ a _ _)).trans (works_updateBeacon _ a)
  · split
    · exact ((start _).trans (works_runStep _ a _ _)).trans (works_updateBeacon _ a)
    · exact (start _).trans (works_updateBeacon _ a)

theorem works_pauseOrMove (s : State) (a ea target comp : Nat) : Works s (s.pauseOrMove a ea target comp) := by
  have start : ∀ c, Works s ((s.setClock a c).setLifecycle a .paused) := fun c =>
    (works_setClock s a c).trans (works_setLifecycle _ a _)
  unfold State.pauseOrMove
  simp only
  refine Works.trans ?_ (works_updateBeacon _ a)
  split
  · exact (start _).trans (works_runStep _ a _ _)
  · split
    · exact (start _).trans (works_runStep _ a _ _)
    · split
      · exact (start _).trans (plays_judgeAll _ a _).works
      · exact start _

theorem works_resume (s : State) (a ea target comp : Nat) : Works s (s.resume a ea target comp) := by
  have start : ∀ c, Works s ((s.setClock a c).setLifecycle a .running) := fun c =>
    (works_setClock s a c).trans (works_setLifecycle _ a _)
  unfold State.resume
  simp only
  refine Works.trans ?_ (works_updateBeacon _ a)
  split
  · exact (start _).trans (works_runStep _ a _ _)
  · split
    · exact (start _).trans (works_runStep _ a _ _)
    · refine Works.trans ?_ (plays_evaluateAll _ a _).works
      split
      · exact (start _).trans (plays_judgeAll _ a _).works
      · exact start _

theorem works_showEnd (s : State) (a ea : Nat) : Works s (s.showEnd a ea) :=
  (((works_setClock s a _).trans (works_setLifecycle _ a _)).trans (plays_stepHandling _ a _ _).works).trans
    (works_updateBeacon _ a)

theorem works_actOnShowtime (s : State) (a ea target comp : Nat) (st : ShowStatus) :
    Works s (s.actOnShowtime a ea target comp st) := by
  unfold State.actOnShowtime
  split
  · split
    · exact works_freshStart s _ _ _ _
    · exact works_servo s _ _ _ _
    · exact works_servo s _ _ _ _
    · exact works_resume s _ _ _ _
    · exact works_resume s _ _ _ _
    · exact (works_abortCheck s _).trans (works_freshStart _ _ _ _ _)
    all_goals exact Works.refl s
  · split
    · exact works_freshPause s _ _ _ _
    · exact works_pauseOrMove s _ _ _ _
    · exact works_pauseOrMove s _ _ _ _
    · exact works_pauseOrMove s _ _ _ _
    · exact works_pauseOrMove s _ _ _ _
    all_goals exact Works.refl s
  · split
    · exact works_showEnd s _ _
    · exact works_showEnd s _ _
    · exact works_showEnd s _ _
    · exact works_showEnd s _ _
    all_goals exact Works.refl s

theorem works_showtimeFrame (s : State) (ea : Nat) (f : ShowtimeFrame) : Works s (s.showtimeFrame ea f) := by
  unfold State.showtimeFrame
  split
  · split
    · exact (sends_bump s _).works
    · exact ((sends_bumpAuditorium s _ _).works.trans (works_setClock _ _ _)).trans (works_actOnShowtime _ _ _ _ _ _)
  · exact Works.refl s

/-! ### Content copies and return frames -/

theorem plays_offerCopy (s : State) (c : Copy) : Plays s (s.offerCopy c) := by
  unfold State.offerCopy
  simp only
  split
  · exact (sends_bumpTrack s _ _).plays
  · split
    · split
      · exact (sends_bumpTrack s _ _).plays.trans (plays_arriveCue _ _ _ _ _)
      · exact (sends_bumpTrack s _ _).plays.trans (plays_arriveBlock _ _ _ _ _)
      · exact (sends_bumpTrack s _ _).plays
      · exact (sends_bumpTrack s _ _).plays
    · exact (sends_bumpTrack s _ _).plays

theorem sends_catchUp (s : State) (f : JoinFrame) (k : Nat) (tr : Track) (b : Band) : Sends s (s.catchUp f k tr b) := by
  unfold State.catchUp
  split
  · exact Sends.foldl (fun s _ => (sends_bumpTrack s _ _).trans (sends_offer _ _)) _ s
  · exact Sends.refl s

/-- The track a JOIN names is bound to its auditorium. -/
theorem joinTrack_spec {s : State} {f : JoinFrame} {k : Nat} (h : s.joinTrack f = some k) :
    ∃ tr, s.track k = some tr ∧ tr.auditorium = f.auditorium := by
  have hf := List.find?_some h
  split at hf
  · cases hf
  · next tr ht =>
    simp only [Bool.and_eq_true, beq_iff_eq] at hf
    exact ⟨tr, ht, hf.1.1⟩

theorem judgeJoin_track {s : State} {f : JoinFrame} {k : Nat} {b : Band} (h : s.judgeJoin f = .ok (k, b)) :
    s.joinTrack f = some k := by
  unfold State.judgeJoin at h
  split at h
  · cases h
  · split at h
    · cases h
    · next j hj =>
      split at h
      · cases h
      · simp only at h
        split at h
        · cases h
        · split at h
          · cases h
          · split at h
            · cases h
            · cases h
              exact hj

/-- Taking a return frame keeps what judging it keeps (R136). -/
theorem works_takeReturn {s v : State} (h a : Nat) (w : Works s v) : Works s (s.takeReturn h a v) := by
  unfold State.takeReturn
  split
  · split
    · exact (sends_bumpDevice s _).works
    · exact w
  · exact Works.refl s

theorem works_answerJoin (s : State) (ea : Nat) (f : JoinFrame) : Works s (s.answerJoin ea f) := by
  unfold State.answerJoin
  simp only
  split
  · exact ((sends_bumpAuditorium s _ _).trans (sends_offer _ _)).works
  · next k b hj =>
    split
    · exact Works.refl s
    · next tr ht =>
      have hk := joinTrack_spec (judgeJoin_track hj)
      have w : Works s (s.subscribe ea f k b) :=
        ⟨quiet_subscribe s ea f k b, BindingsKept.of_tracks (subscribe_tracks s ea f k b),
          fun h => counted_subscribe h hk⟩
      exact w.trans ((sends_offer _ _).trans (sends_catchUp _ _ _ _ _)).works

theorem works_joinFrame (s : State) (ea : Nat) (f : JoinFrame) : Works s (s.joinFrame ea f) :=
  works_takeReturn _ _ (works_answerJoin s ea f)

theorem works_freeRecord {s : State} {i : Nat} {r : Subscription} (h : (i, r) ∈ s.records) : Works s (s.freeRecord i r) :=
  ⟨quiet_freeRecord s i r, BindingsKept.of_tracks (freeRecord_tracks s i r),
    fun hc => counted_freeRecord hc ((mem_records hc.canonical).mp h)⟩

theorem works_judgeLeave (s : State) (f : LeaveFrame) : Works s (s.judgeLeave f) := by
  unfold State.judgeLeave
  split
  · exact (sends_bumpDevice s _).works
  · next h =>
    split
    · exact (works_freeRecord (findHandle_spec h).1).trans (sends_bumpAuditorium _ _ _).works
    · exact (sends_bumpDevice s _).works

theorem works_leaveFrame (s : State) (f : LeaveFrame) : Works s (s.leaveFrame f) :=
  works_takeReturn _ _ (works_judgeLeave s f)

theorem works_detach {s : State} {i : Nat} {r : Subscription} (e : Nat) (h : (i, r) ∈ s.records)
    (hd : r.detached = false) : Works s (s.detach i r e) :=
  ⟨quiet_detach s i r e, BindingsKept.of_tracks (detach_tracks s i r e),
    fun hc => counted_detach hc ((mem_records hc.canonical).mp h) hd rfl rfl rfl rfl⟩

theorem works_acceptReport {s : State} {ea i : Nat} {r : Subscription} {f : ReportFrame} (h : (i, r) ∈ s.records)
    (hd : r.detached = false) : Works s (s.acceptReport ea i r f) := by
  have w : Works (s.bumpAuditorium r.auditorium .reportsAccepted)
      ((s.bumpAuditorium r.auditorium .reportsAccepted).rescore i { r with lastReport := some ea, lastSeq := some f.highest }
        (scoreAfterReport r.score f.missed) ea) :=
    ⟨quiet_rescore _ _ _ _ _, BindingsKept.of_tracks (rescore_tracks _ _ _ _ _),
      fun hc => counted_rescore hc (old := r) ((mem_records hc.canonical).mp h) hd rfl rfl rfl rfl rfl⟩
  exact ((sends_bumpAuditorium s _ _).works.trans w).trans (works_checkReport _ _ _ _)

theorem works_judgeReport (s : State) (ea : Nat) (f : ReportFrame) : Works s (s.judgeReport ea f) := by
  unfold State.judgeReport
  split
  · exact (sends_bumpDevice s _).works
  · next h =>
    split
    · exact (sends_bumpDevice s _).works
    · split
      · exact (sends_bumpAuditorium s _ _).works
      · next hd => exact works_acceptReport (findHandle_spec h).1 (by simpa using hd)

theorem works_reportFrame (s : State) (ea : Nat) (f : ReportFrame) : Works s (s.reportFrame ea f) :=
  works_takeReturn _ _ (works_judgeReport s ea f)

/-! ### Timed events -/

theorem works_enterHoldover (s : State) (a : Nat) : Works s (s.enterHoldover a) :=
  ((works_setClock s a _).trans (works_setLifecycle _ a _)).trans (sends_setFlag _ _ _).works

theorem works_takeHoldover (s : State) (a : Nat) : Works s (s.takeHoldover a) := by
  unfold State.takeHoldover
  split
  · exact works_enterHoldover s a
  · exact Works.refl s

theorem works_enterLost (s : State) (a x : Nat) : Works s (s.enterLost a x) :=
  ((((works_setClock s a _).trans (works_setLifecycle _ a _)).trans (sends_setFlag _ _ _).works).trans
    (plays_stepHandling _ a _ _).works).trans (works_updateBeacon _ a)

theorem works_takeLost (s : State) (a : Nat) : Works s (s.takeLost a) := by
  unfold State.takeLost
  split
  · exact Works.refl s
  · split
    · split
      · exact (works_enterHoldover s a).trans (works_enterLost _ a _)
      · exact works_enterLost s a _
      all_goals exact Works.refl s
    · exact Works.refl s

theorem sends_beaconOutcome (s : State) (a : Nat) : Sends s (s.beaconOutcome a) := by
  unfold State.beaconOutcome
  split
  · exact sends_bumpAuditorium s _ _
  · split
    · exact sends_bumpAuditorium s _ _
    · exact (sends_bumpAuditorium s _ _).trans (sends_offer _ _)

theorem works_takeBeacon (s : State) (a : Nat) : Works s (s.takeBeacon a) := by
  unfold State.takeBeacon
  split
  · exact Works.refl s
  · split
    · exact (works_setBeacon s a _).trans (sends_beaconOutcome _ a).works
    · exact Works.refl s

theorem works_takeWindow (s : State) (i : Nat) : Works s (s.takeWindow i) := by
  unfold State.takeWindow
  split
  · exact Works.refl s
  · next r hr =>
    split
    · exact Works.refl s
    · next d hd =>
      split
      · refine (sends_bumpAuditorium s _ _).works.trans
          ⟨quiet_rescore _ _ _ _ _, BindingsKept.of_tracks (rescore_tracks _ _ _ _ _), fun hc => ?_⟩
        have ht := hc.timed _ ((mem_records hc.canonical).mpr hr)
        have : r.score ≠ 256 := fun h => by
          have := ht.2.1.mp h
          rw [show r.window = some d from hd] at this
          cases this
        have hlt : r.score ≤ 256 := ht.1
        exact counted_rescore hc (old := r) hr (not_detached_iff.mpr (by omega)) rfl rfl rfl rfl rfl
      · exact Works.refl s

theorem works_takeHold (s : State) (i : Nat) : Works s (s.takeHold i) := by
  unfold State.takeHold
  split
  · exact Works.refl s
  · next r hr =>
    split
    · next hh =>
      refine Works.trans (b := s.setSubscription i none)
        ⟨quiet_setSubscription s i none, BindingsKept.of_tracks rfl, fun hc => ?_⟩ (sends_bumpAuditorium _ _ _).works
      have ht := hc.timed _ ((mem_records hc.canonical).mpr hr)
      have hs : r.hold.isSome = true := by
        unfold State.reached at hh
        split at hh
        · cases hh
        · next d hd => rw [hd]; rfl
      have : r.score = 256 := ht.2.2.mpr hs
      refine counted_free hc rfl rfl fun k b => ?_
      rw [hr, memberUnit_detached (detached_iff.mpr (by omega))]
      rfl
    · exact Works.refl s

/-! ### Grants -/

theorem works_grant (s : State) : Works s s.grant := (sends_grant s).works

end Sys2Proof.Machine
end

