-- ==== Sys2Proof/Laws/Commands.lean ====
section
/-! SUPPORT. What the end of a run leaves (R164, R165), and what the bodies of the commands keep; the records freed by an
unbind and by a close. -/

namespace Sys2Proof.Machine

/-! ### The end of a run (R164, R165) -/

theorem sendResult_contentOut (s : State) (dest tag code : Nat) (status : Status) (items : List Item) :
    (s.sendResult dest tag code status items).contentOut = s.contentOut ++
      if s.contentUp then [.result dest tag code status s.engineTime (cutItems items)] else [] := by
  unfold State.sendResult
  split
  · rfl
  · simp

theorem sendResult_count (s : State) (dest tag code : Nat) (status : Status) (items : List Item) (c : Counter) :
    (s.sendResult dest tag code status items).count c =
      if c = .device .resultsSent ∧ s.contentUp = true then min counterMax (s.count c + 1) else s.count c := by
  unfold State.sendResult
  by_cases hu : s.contentUp = true
  · rw [if_pos hu, State.count_bumpDevice]
    by_cases hc : c = .device .resultsSent
    · subst hc
      rw [if_pos rfl, if_pos ⟨rfl, hu⟩]
      rfl
    · rw [if_neg hc, if_neg fun h => hc h.1]
      rfl
  · rw [if_neg hu, if_neg fun h => hu h.2]

theorem OnlyEnds.trans {a b c : State} (h : OnlyEnds a b) (g : OnlyEnds b c) : OnlyEnds a c where
  engineTime := g.engineTime.trans h.engineTime
  ports := h.ports.trans g.ports
  shows := h.shows.trans g.shows
  classifier := h.classifier.trans g.classifier
  tracks := ⟨g.tracks.1.trans h.tracks.1, g.tracks.2.trans h.tracks.2⟩
  egress := ⟨g.egress.1.trans h.egress.1, g.egress.2.trans h.egress.2⟩
  patrons := h.patrons.trans g.patrons
  reports := ⟨g.reports.1.trans h.reports.1, g.reports.2.trans h.reports.2, g.reports.3.trans h.reports.3,
    g.reports.4.trans h.reports.4, g.reports.5.trans h.reports.5⟩
  counts := fun c hc => (g.counts c hc).trans (h.counts c hc)

theorem onlyEnds_sent (s : State) (l : List Queued) (o : List ContentFrame) :
    OnlyEnds s { s with queue := l, contentOut := o } :=
  ⟨rfl, ⟨rfl, rfl, rfl, rfl, rfl⟩, ⟨rfl, rfl, rfl, rfl⟩, ⟨rfl, rfl, rfl⟩, ⟨rfl, rfl⟩, ⟨rfl, rfl⟩, ⟨rfl, rfl⟩,
    ⟨rfl, rfl, rfl, rfl, rfl⟩, fun _ _ => rfl⟩

theorem onlyEnds_bump (s : State) (c : DeviceCounter) (hc : Counter.device c ∈ runCounters) :
    OnlyEnds s (s.bumpDevice c) := by
  refine ⟨rfl, ⟨rfl, rfl, rfl, rfl, rfl⟩, ⟨rfl, rfl, rfl, rfl⟩, ⟨rfl, rfl, rfl⟩, ⟨rfl, rfl⟩, ⟨rfl, rfl⟩, ⟨rfl, rfl⟩,
    ⟨rfl, rfl, rfl, rfl, rfl⟩, fun d hd => ?_⟩
  rw [State.count_bumpDevice, if_neg]
  rintro rfl
  exact hd hc

theorem onlyEnds_sendResult (s : State) (dest tag code : Nat) (status : Status) (items : List Item) :
    OnlyEnds s (s.sendResult dest tag code status items) := by
  unfold State.sendResult
  split
  · exact (onlyEnds_sent s s.queue _).trans (onlyEnds_bump _ _ (by decide))
  · exact onlyEnds_sent s s.queue s.contentOut

theorem onlyEnds_endRun (s : State) (q : Queued) (reply : Reply) : OnlyEnds s (s.endRun q reply) := by
  unfold State.endRun
  cases reply with
  | done c is =>
    exact ((onlyEnds_sendResult s _ _ _ _ _).trans (onlyEnds_bump _ _ (by decide))).trans (onlyEnds_sent _ _ _)
  | refused r is =>
    exact (((onlyEnds_sendResult s _ _ _ _ _).trans (onlyEnds_bump _ _ (by decide))).trans
      (onlyEnds_bump _ _ (by decide))).trans (onlyEnds_sent _ _ _)
  | owed => exact (onlyEnds_bump s _ (by decide)).trans (onlyEnds_sent _ _ _)

theorem endRun_done_count (s : State) (q : Queued) (c : Bool) (items : List Item) (d : Counter) :
    (s.endRun q (.done c items)).count d =
      if d = .device .commandsRun ∨ (d = .device .resultsSent ∧ s.contentUp = true) then min counterMax (s.count d + 1)
      else s.count d := by
  have h : (s.endRun q (.done c items)).count d =
      ((s.sendResult q.station q.tag q.code (.done c) items).bumpDevice .commandsRun).count d := rfl
  rw [h, State.count_bumpDevice, sendResult_count, sendResult_count]
  by_cases h1 : d = .device .commandsRun
  · subst h1
    simp
  · simp [h1]

theorem endRun_refused_count (s : State) (q : Queued) (r : Reason) (items : List Item) (d : Counter) :
    (s.endRun q (.refused r items)).count d =
      if d = .device .commandsRun ∨ d = .device .commandsRefused ∨ (d = .device .resultsSent ∧ s.contentUp = true) then
        min counterMax (s.count d + 1)
      else s.count d := by
  have h : (s.endRun q (.refused r items)).count d =
      (((s.sendResult q.station q.tag q.code (.refused r) items).bumpDevice .commandsRefused).bumpDevice
        .commandsRun).count d := rfl
  rw [h, State.count_bumpDevice, State.count_bumpDevice, State.count_bumpDevice, sendResult_count, sendResult_count,
    sendResult_count]
  by_cases h1 : d = .device .commandsRun
  · subst h1
    simp
  · by_cases h2 : d = .device .commandsRefused
    · subst h2
      simp
    · simp [h1, h2]

theorem endRun_queue (s : State) (q : Queued) (reply : Reply) : (s.endRun q reply).queue = s.queue.drop 1 := by
  unfold State.endRun
  cases reply with
  | done c is => exact congrArg (List.drop 1) (sends_sendResult s _ _ _ _ _).queue
  | refused r is => exact congrArg (List.drop 1) (sends_sendResult s _ _ _ _ _).queue
  | owed => rfl

/-- A run that ends DONE sends its RESULT, leaves the queue and is counted (R164, R165). -/
theorem runEnded_done {s : State} {q : Queued} {rest : List Queued} (hq : s.queue = q :: rest) (c : Bool)
    (items : List Item) : RunEnded s (s.endRun q (.done c items)) q rest s.engineTime (.done c) items := by
  refine ⟨?_, sendResult_contentOut .., ?_, ?_, ?_⟩
  · rw [endRun_queue, hq]
    rfl
  all_goals
    refine (endRun_done_count s q c items _).trans ?_
    simp

/-- A run that ends REFUSED sends its RESULT, leaves the queue and is counted, also as refused (R164, R165). -/
theorem runEnded_refused {s : State} {q : Queued} {rest : List Queued} (hq : s.queue = q :: rest) (r : Reason)
    (items : List Item) : RunEnded s (s.endRun q (.refused r items)) q rest s.engineTime (.refused r) items := by
  refine ⟨?_, ?_, ?_, ?_, ?_⟩
  · rw [endRun_queue, hq]
    rfl
  · exact sendResult_contentOut s q.station q.tag q.code (.refused r) items
  all_goals
    refine (endRun_refused_count s q r items _).trans ?_
    simp

/-- The run of a command whose code heads the queue and whose items are the ones it takes. -/
theorem runHead_eq {s : State} {q : Queued} {rest : List Queued} {code : Nat} (h : Heads s q rest code)
    (body : Queued → State → State × Reply) : s.runHead code body = (body q s).1.endRun q (body q s).2 := by
  unfold State.runHead
  rw [h.queue]
  simp only [h.codeIs, h.items, if_true]

/-- Everything a run can do: nothing, a refusal of its items, or its body's effect and its end. -/
theorem runHead_cases (s : State) (code : Nat) (body : Queued → State → State × Reply) :
    s.runHead code body = s ∨ ∃ q rest, s.queue = q :: rest ∧ q.code = code ∧
      (s.runHead code body = s.endRun q (.refused .badParameter []) ∨
        s.runHead code body = (body q s).1.endRun q (body q s).2) := by
  unfold State.runHead
  cases hq : s.queue with
  | nil => exact .inl rfl
  | cons q rest =>
    simp only
    by_cases hc : q.code = code
    · rw [if_pos hc]
      right
      refine ⟨q, rest, rfl, hc, ?_⟩
      split
      · exact .inr rfl
      · exact .inl rfl
    · rw [if_neg hc]
      exact .inl rfl

/-! ### Bodies that keep bindings and counts -/

theorem works_refuse (s : State) (r : Reason) : Works s (s.refuse r).1 := Works.refl s

theorem works_runAuditoriumOpen (q : Queued) (s : State) : Works s (runAuditoriumOpen q s).1 := by
  unfold runAuditoriumOpen
  simp only
  split
  · exact Works.refl s
  · split
    · exact Works.refl s
    · exact ((works_setAuditorium s _ _).trans (works_setClock _ _ _)).trans (works_setCheck _ _ _)

theorem works_runAuditoriumSet (q : Queued) (s : State) : Works s (runAuditoriumSet q s).1 := by
  unfold runAuditoriumSet
  simp only
  split
  · exact Works.refl s
  · split
    · exact Works.refl s
    · exact (((works_setAuditorium s _ _).trans (works_setClock _ _ _)).trans (works_takeHoldover _ _)).trans
        (works_takeLost _ _)

theorem plays_takePassedAll (s : State) (a : Nat) : Plays s (s.takePassedAll a) := by
  unfold State.takePassedAll
  split
  · exact Plays.foldl (fun s k => plays_takePassedTrack s k _ true) _ s
  · exact Plays.refl s

theorem works_runBandSet (q : Queued) (s : State) : Works s (runBandSet q s).1 := by
  unfold runBandSet
  simp only
  split
  · split
    · exact Works.refl s
    · split
      · exact Works.refl s
      · split
        · exact Works.refl s
        · refine Works.trans ?_ (works_completeCheck _ _)
          split
          · exact (works_setAuditorium s _ _).trans (plays_takePassedAll _ _).works
          · exact works_setAuditorium s _ _
  · exact Works.refl s
  · exact Works.refl s

theorem works_runHouseCheckStart (q : Queued) (s : State) : Works s (runHouseCheckStart q s).1 := by
  unfold runHouseCheckStart
  simp only
  split
  · exact Works.refl s
  · split
    · exact Works.refl s
    · split
      · exact Works.refl s
      · split
        · exact Works.refl s
        · split
          · exact Works.refl s
          · exact ((((works_setCheck s _ _).trans (works_setClock _ _ _)).trans (works_setLifecycle _ _ _)).trans
              (plays_houseCheckClearing _ _).works).trans (works_updateBeacon _ _)

theorem works_runHouseCheckStop (q : Queued) (s : State) : Works s (runHouseCheckStop q s).1 := by
  unfold runHouseCheckStop
  simp only
  split
  · exact Works.refl s
  · split
    · exact Works.refl s
    · exact ((((works_endCheck s _ _).trans (plays_houseCheckClearing _ _).works).trans (works_freezeClock _ _ _)).trans
        (works_setLifecycle _ _ _)).trans (works_updateBeacon _ _)

theorem works_runDeviceDetach (q : Queued) (s : State) : Works s (runDeviceDetach q s).1 := by
  unfold runDeviceDetach
  simp only
  split
  · exact Works.refl s
  · split
    · exact Works.refl s
    · split
      · exact Works.refl s
      · next h =>
        split
        · exact Works.refl s
        · split
          · exact Works.refl s
          · next hd => exact works_detach _ (findHandle_spec h).1 (by simpa using hd)

/-! ### Records freed by an unbind or a close (R151) -/

theorem releaseRecords_tracks (s : State) (names : Subscription → Bool) : (s.releaseRecords names).tracks = s.tracks := by
  unfold State.releaseRecords
  simp only
  generalize s.records.filter (fun e => names e.2) = l
  induction l generalizing s with
  | nil => rfl
  | cons e l ih => exact ih _

theorem quiet_releaseRecords (s : State) (names : Subscription → Bool) : Quiet s (s.releaseRecords names) :=
  Quiet.foldl (fun s (e : Nat × Subscription) =>
    (quiet_setSubscription s e.1 none).trans (sends_bumpAuditorium _ e.2.auditorium .recordsReleased).toQuiet) _ s

theorem releaseRecords_members (s : State) (names : Subscription → Bool) :
    (s.releaseRecords names).members = s.members := by
  unfold State.releaseRecords
  simp only
  generalize s.records.filter (fun e => names e.2) = l
  induction l generalizing s with
  | nil => rfl
  | cons e l ih => exact ih _

theorem releaseRecords_canonical {s : State} (h : Tbl.Wf id none s.subscriptions) (names : Subscription → Bool) :
    Tbl.Wf id none (s.releaseRecords names).subscriptions := by
  unfold State.releaseRecords
  simp only
  generalize s.records.filter (fun e => names e.2) = l
  induction l generalizing s with
  | nil => exact h
  | cons e l ih => exact ih (setSubscription_canonical h e.1 none)

/-- The records after a release are those the predicate does not name. -/
theorem records_releaseRecords {s : State} (h : Tbl.Wf id none s.subscriptions) (names : Subscription → Bool) :
    (s.releaseRecords names).records = s.records.filter fun e => !names e.2 := by
  have freed : ∀ (l : List (Nat × Subscription)) (u : State),
      (l.foldl (fun u e => (u.setSubscription e.1 none).bumpAuditorium e.2.auditorium .recordsReleased) u).records =
        u.records.filter fun e => l.all fun g => e.1 != g.1 := by
    intro l
    induction l with
    | nil =>
      intro u
      simp
    | cons e l ih =>
      intro u
      rw [List.foldl_cons, ih]
      have : ((u.setSubscription e.1 none).bumpAuditorium e.2.auditorium .recordsReleased).records =
          u.records.filter fun g => g.1 != e.1 := by
        rw [records_eq, records_eq]
        show usedRecords (Tbl.set id none u.subscriptions e.1 none) = _
        unfold Tbl.set
        rw [if_pos rfl, usedRecords_erase]
      rw [this, List.filter_filter]
      refine List.filter_congr fun x _ => ?_
      rw [List.all_cons, Bool.and_comm]
  have hk := usedRecords_keys h
  rw [← records_eq] at hk
  unfold State.releaseRecords
  simp only
  rw [freed]
  refine List.filter_congr fun e he => ?_
  rw [Bool.eq_iff_iff, List.all_eq_true, Bool.not_eq_true']
  constructor
  · intro hall
    by_contra hn
    have hn : names e.2 = true := by simpa using hn
    have := hall e (List.mem_filter.mpr ⟨he, hn⟩)
    simp at this
  · intro hn g hg
    obtain ⟨hg1, hg2⟩ := List.mem_filter.mp hg
    rw [bne_iff_ne]
    intro heq
    have := List.inj_on_of_nodup_map hk he hg1 heq
    rw [this] at hn
    rw [hn] at hg2
    cases hg2

/-- The records that a predicate names freed, with their tracks FREE and their counts 0. -/
theorem counted_release {s s' : State} {names : Subscription → Bool} (h : s.PatronsCounted)
    (hcan : Tbl.Wf id none s'.subscriptions) (hr : s'.records = s.records.filter fun e => !names e.2)
    (ht : ∀ k tr, s'.track k = some tr → s.track k = some tr)
    (hb : ∀ e ∈ s.records, names e.2 = false → s'.track e.2.track = s.track e.2.track)
    (hc : ∀ k b, s'.memberCount k b = if (∃ e ∈ s.records, e.2.track = k ∧ names e.2 = false) then s.memberCount k b else 0)
    (hsame : ∀ e ∈ s.records, ∀ f ∈ s.records, e.2.track = f.2.track → names e.2 = names f.2) : s'.PatronsCounted := by
  refine ⟨hcan, ?_, ?_, ?_, ?_, ?_⟩
  · rw [hr]
    exact h.handles.sublist (List.Sublist.map _ List.filter_sublist)
  · rw [hr]
    exact fun e he => h.timed e (List.mem_filter.mp he).1
  · exact fun k tr hk => h.tracks k tr (ht k tr hk)
  · rw [hr]
    intro e he
    obtain ⟨he, hn⟩ := List.mem_filter.mp he
    rw [hb e he (by simpa using hn)]
    exact h.bound e he
  · intro k b
    rw [hc, hr, List.filter_filter]
    split
    · next hex =>
      obtain ⟨e, he, hk, hn⟩ := hex
      rw [h.counts k b]
      congr 1
      refine List.filter_congr fun f hf => ?_
      by_cases hm : f.2.memberOf k b = true
      · have hfk : f.2.track = k := by
          simp only [Subscription.memberOf, Bool.and_eq_true, beq_iff_eq] at hm
          exact hm.1.1
        rw [hm, ← hsame e he f hf (hk.trans hfk.symm), hn]
        rfl
      · rw [Bool.not_eq_true] at hm
        rw [hm, Bool.false_and]
    · next hex =>
      symm
      rw [List.length_eq_zero_iff, List.filter_eq_nil_iff]
      intro f hf hm
      simp only [Subscription.memberOf, Bool.and_eq_true, beq_iff_eq, Bool.not_eq_true'] at hm
      exact hex ⟨f, hf, hm.1.1.1, hm.2⟩

end Sys2Proof.Machine
end

