-- ==== Sys2Proof/Laws/Bindings.lean ====
section
/-! SUPPORT. Binding, unbinding and closing: what they keep of the table of tracks and of the agreement of records and
counts (R65, R68, R18). -/

namespace Sys2Proof.Machine

/-- The tracks bound to an auditorium (R62). -/
theorem mem_boundTracks {s : State} {a k : Nat} :
    k ∈ s.boundTracks a ↔ k ≤ 95 ∧ ∃ tr, s.track k = some tr ∧ tr.auditorium = a := by
  unfold State.boundTracks trackNumbers
  rw [List.mem_filter, List.mem_range]
  cases h : s.track k with
  | none => simp
  | some tr => simp [Nat.lt_succ_iff]

/-! ### Tracks made FREE -/

/-- Some tracks made FREE, the others as they stood. -/
def Freed (s s' : State) (ks : List Nat) : Prop := ∀ j, s'.track j = if j ∈ ks then none else s.track j

theorem track_discardTrack (s : State) (k j : Nat) : (s.discardTrack k).track j = if j = k then none else s.track j := by
  unfold State.discardTrack
  split
  · next h =>
    split
    · next hj => rw [hj, h]
    · rfl
  · rw [State.track_setTrack]
    rfl

theorem freed_discards (ks : List Nat) (s : State) : Freed s (ks.foldl (fun s k => s.discardTrack k) s) ks := by
  induction ks generalizing s with
  | nil => exact fun j => by simp
  | cons k ks ih =>
    intro j
    rw [List.foldl_cons, ih, track_discardTrack]
    by_cases h1 : j = k
    · simp [h1]
    · simp [h1]

theorem Freed.sub {s s' : State} {ks : List Nat} (h : Freed s s' ks) (k : Nat) (tr : Track) (ht : s'.track k = some tr) :
    s.track k = some tr := by
  rw [h] at ht
  split at ht
  · cases ht
  · exact ht

theorem Freed.fit {s s' : State} {ks : List Nat} (h : Freed s s' ks) (hf : s.TracksFit) : s'.TracksFit :=
  fun k tr ht => hf k tr (h.sub k tr ht)

theorem calm_discardTrack (s : State) (k : Nat) : Calm s (s.discardTrack k) := by
  unfold State.discardTrack
  split
  · exact Calm.refl s
  · exact (sends_bumpBy s _ _).toCalm.trans (calm_setTrack _ _ _)

theorem calm_discards (ks : List Nat) (s : State) : Calm s (ks.foldl (fun s k => s.discardTrack k) s) := by
  induction ks generalizing s with
  | nil => exact Calm.refl s
  | cons k ks ih => exact (calm_discardTrack s k).trans (ih _)

/-! ### Counts made 0 -/

theorem memberCount_zeroed (ks : List Nat) (s : State) (j : Nat) (b : Band) :
    (ks.foldl (fun s k => s.setTrackMembers k (PerBand.all 0)) s).memberCount j b =
      if j ∈ ks then 0 else s.memberCount j b := by
  induction ks generalizing s with
  | nil => simp
  | cons k ks ih =>
    rw [List.foldl_cons, ih]
    have : (s.setTrackMembers k (PerBand.all 0)).memberCount j b = if j = k then 0 else s.memberCount j b := by
      unfold State.memberCount
      rw [State.trackMembers_setTrackMembers]
      split
      · exact PerBand.get_all 0 b
      · rfl
    rw [this]
    by_cases h1 : j = k
    · simp [h1]
    · simp [h1]

theorem zeroed_tables (ks : List Nat) (s : State) :
    Quiet s (ks.foldl (fun s k => s.setTrackMembers k (PerBand.all 0)) s) ∧
      (ks.foldl (fun s k => s.setTrackMembers k (PerBand.all 0)) s).tracks = s.tracks ∧
        (ks.foldl (fun s k => s.setTrackMembers k (PerBand.all 0)) s).subscriptions = s.subscriptions := by
  induction ks generalizing s with
  | nil => exact ⟨Quiet.refl s, rfl, rfl⟩
  | cons k ks ih =>
    obtain ⟨h1, h2, h3⟩ := ih (s.setTrackMembers k (PerBand.all 0))
    exact ⟨(quiet_setTrackMembers s k _).trans h1, h2, h3⟩

/-! ### What an unbind and a close leave -/

/-- Some tracks go FREE: their records are released, their counts 0, and all else `Quiet`. -/
structure Frees (s s' : State) (ks : List Nat) : Prop extends Quiet s s' where
  freed : Freed s s' ks
  counted : s.PatronsCounted → s'.PatronsCounted

/-- Content work before or behind tracks that go FREE. -/
theorem Frees.then {s t u : State} {ks : List Nat} (h : Frees s t ks) (hw : Works t u) (ht : u.tracks = t.tracks) :
    Frees s u ks :=
  ⟨h.toQuiet.trans hw.toQuiet, fun j => by
    have : u.track j = t.track j := by simp [State.track, ht]
    rw [this]
    exact h.freed j, fun p => hw.counted (h.counted p)⟩

/-- The records and counts of freed tracks released together. -/
theorem counted_frees {s s' : State} {ks : List Nat} {names : Subscription → Bool} (h : s.PatronsCounted)
    (hn : ∀ e ∈ s.records, (names e.2 = true ↔ e.2.track ∈ ks)) (hf : Freed s s' ks)
    (hcan : Tbl.Wf id none s'.subscriptions) (hr : s'.records = s.records.filter fun e => !names e.2)
    (hc : ∀ k b, s'.memberCount k b = if k ∈ ks then 0 else s.memberCount k b) : s'.PatronsCounted := by
  refine counted_release (names := names) h hcan hr hf.sub ?_ ?_ ?_
  · intro e he hne
    rw [hf, if_neg]
    intro hk
    rw [(hn e he).mpr hk] at hne
    cases hne
  · intro k b
    rw [hc]
    by_cases hk : k ∈ ks
    · rw [if_pos hk, if_neg]
      rintro ⟨e, he, hek, hne⟩
      rw [(hn e he).mpr (hek ▸ hk)] at hne
      cases hne
    · rw [if_neg hk]
      split
      · rfl
      · next hex =>
        rw [h.counts, List.length_eq_zero_iff, List.filter_eq_nil_iff]
        intro e he hm
        simp only [Subscription.memberOf, Bool.and_eq_true, beq_iff_eq] at hm
        refine hex ⟨e, he, hm.1.1, ?_⟩
        rw [← Bool.not_eq_true, hn e he, hm.1.1]
        exact hk
  · intro e he f hfm hef
    rw [Bool.eq_iff_iff, hn e he, hn f hfm, hef]

theorem sends_endTrack (s : State) (k : Nat) (tr : Track) : Sends s (s.endTrack k tr) :=
  Sends.foldl (fun s b => sends_sendToBand s k tr b _ _ _) _ s

/-- The unbind of a track (R68). -/
theorem frees_unbindTrack (s : State) (k : Nat) (tr : Track) : Frees s (s.unbindTrack k tr) [k] := by
  have p : Sends s ((s.withdraw fun e => e.track == some k).endTrack k tr) :=
    (sends_withdraw s _).trans (sends_endTrack _ k tr)
  have core : Frees s (((((s.withdraw fun e => e.track == some k).endTrack k tr).discardTrack k).releaseRecords
      fun r => r.track == k).setTrackMembers k (PerBand.all 0)) [k] := by
    generalize (s.withdraw fun e => e.track == some k).endTrack k tr = u at p
    have c := calm_discardTrack u k
    have hs : ((u.discardTrack k).releaseRecords fun r => r.track == k).tracks = (u.discardTrack k).tracks :=
      releaseRecords_tracks _ _
    have freed : Freed s (((u.discardTrack k).releaseRecords fun r => r.track == k).setTrackMembers k (PerBand.all 0))
        [k] := by
      intro j
      have : (((u.discardTrack k).releaseRecords fun r => r.track == k).setTrackMembers k (PerBand.all 0)).track j =
          (u.discardTrack k).track j := by
        show Tbl.get none ((u.discardTrack k).releaseRecords fun r => r.track == k).tracks j = _
        rw [hs]
        rfl
      rw [this, track_discardTrack, p.track]
      simp
    refine ⟨((p.toQuiet.trans c.toQuiet).trans (quiet_releaseRecords _ _)).trans (quiet_setTrackMembers _ _ _), freed,
      fun hc => ?_⟩
    have hsub : (u.discardTrack k).subscriptions = s.subscriptions := c.patrons.subscriptions.trans p.patrons.subscriptions
    have hcan : Tbl.Wf id none (u.discardTrack k).subscriptions := hsub ▸ hc.canonical
    refine counted_frees (names := fun r => r.track == k) hc ?_ freed ?_ ?_ ?_
    · intro e _
      simp
    · exact releaseRecords_canonical hcan _
    · show ((u.discardTrack k).releaseRecords fun r => r.track == k).records = _
      rw [records_releaseRecords hcan]
      have : (u.discardTrack k).records = s.records := by rw [records_eq, records_eq, hsub]
      rw [this]
    · intro j b
      have hm : ∀ j b, ((u.discardTrack k).releaseRecords fun r => r.track == k).memberCount j b = s.memberCount j b := by
        intro j b
        simp only [State.memberCount, State.trackMembers, releaseRecords_members, c.patrons.members, p.patrons.members]
      have : (((u.discardTrack k).releaseRecords fun r => r.track == k).setTrackMembers k (PerBand.all 0)).memberCount j
          b = if j = k then 0 else s.memberCount j b := by
        rw [← hm]
        unfold State.memberCount
        rw [State.trackMembers_setTrackMembers]
        split
        · exact PerBand.get_all 0 b
        · rfl
      rw [this]
      simp
  unfold State.unbindTrack
  simp only
  split
  · exact (core.then (works_setLifecycle _ _ _) rfl).then (works_updateBeacon _ _) (updateBeacon_tracks _ _)
  · exact core.then (works_updateBeacon _ _) (updateBeacon_tracks _ _)

theorem works_endShow (s : State) (a : Nat) : Works s (s.endShow a) := by
  unfold State.endShow
  split
  · exact (sends_offer s _).works.trans (works_closeComplete _ _)
  · exact (sends_offer s _).works

theorem closeComplete_tracks (s : State) (a : Nat) : (s.closeComplete a).tracks = s.tracks := by
  unfold State.closeComplete
  simp only
  split
  · rfl
  · exact (sends_sendResult _ _ _ _ _ _).tracks

theorem endShow_tracks (s : State) (a : Nat) : (s.endShow a).tracks = s.tracks := by
  unfold State.endShow
  split
  · rw [closeComplete_tracks]
    exact (sends_offer s _).tracks
  · exact (sends_offer s _).tracks

/-- The teardown of a closing auditorium (R18). -/
theorem frees_teardown (s : State) (a : Nat) : Frees s (s.teardown a) (s.boundTracks a) := by
  have w : Works s (((((s.setClock a (s.clock a).cancelWatches).setBeacon a none).withdraw
      fun e => e.auditorium == a)).dropCheck a) := by
    have d : ∀ u : State, Works u (u.dropCheck a) := by
      intro u
      unfold State.dropCheck
      split
      · exact works_endCheck _ _ _
      · exact Works.refl _
    exact (((works_setClock s a _).trans (works_setBeacon _ a none)).trans (sends_withdraw _ _).works).trans (d _)
  have ht : (((((s.setClock a (s.clock a).cancelWatches).setBeacon a none).withdraw
      fun e => e.auditorium == a)).dropCheck a).tracks = s.tracks := by
    have : ∀ u : State, (u.dropCheck a).tracks = u.tracks := by
      intro u
      unfold State.dropCheck
      split <;> rfl
    rw [this, (sends_withdraw _ _).tracks]
    rfl
  have hp : SamePatrons s (((((s.setClock a (s.clock a).cancelWatches).setBeacon a none).withdraw
      fun e => e.auditorium == a)).dropCheck a) := by
    have : ∀ u : State, SamePatrons u (u.dropCheck a) := by
      intro u
      unfold State.dropCheck
      split <;> exact ⟨rfl, rfl⟩
    refine SamePatrons.trans ?_ (this _)
    have := (sends_withdraw ((s.setClock a (s.clock a).cancelWatches).setBeacon a none)
      fun e => e.auditorium == a).patrons
    exact ⟨this.1, this.2⟩
  unfold State.teardown
  simp only
  generalize (((((s.setClock a (s.clock a).cancelWatches).setBeacon a none).withdraw
      fun e => e.auditorium == a)).dropCheck a) = u at w ht hp
  refine Frees.then ?_ (works_endShow _ a) (endShow_tracks _ a)
  have c := calm_discards (s.boundTracks a) u
  have hd := freed_discards (s.boundTracks a) u
  generalize (s.boundTracks a).foldl (fun s k => s.discardTrack k) u = v at c hd
  obtain ⟨z1, z2, z3⟩ := zeroed_tables (s.boundTracks a) (v.releaseRecords fun r => r.auditorium == a)
  have freed : Freed s ((s.boundTracks a).foldl (fun s k => s.setTrackMembers k (PerBand.all 0))
      (v.releaseRecords fun r => r.auditorium == a)) (s.boundTracks a) := by
    intro j
    have h1 : ((s.boundTracks a).foldl (fun s k => s.setTrackMembers k (PerBand.all 0))
        (v.releaseRecords fun r => r.auditorium == a)).track j = v.track j := by
      simp only [State.track, z2, releaseRecords_tracks]
    have h2 : u.track j = s.track j := by simp only [State.track, ht]
    rw [h1, hd, h2]
  refine ⟨((w.toQuiet.trans c.toQuiet).trans (quiet_releaseRecords _ _)).trans z1, freed, fun hc => ?_⟩
  have hsub : v.subscriptions = s.subscriptions := c.patrons.subscriptions.trans hp.subscriptions
  have hcan : Tbl.Wf id none v.subscriptions := hsub ▸ hc.canonical
  refine counted_frees (names := fun r => r.auditorium == a) hc ?_ freed ?_ ?_ ?_
  · intro e he
    obtain ⟨tr, h1, h2⟩ := hc.bound e he
    rw [mem_boundTracks, beq_iff_eq]
    constructor
    · exact fun h => ⟨hc.tracks _ tr h1, tr, h1, h2.trans h⟩
    · rintro ⟨-, tr', h3, h4⟩
      rw [h1] at h3
      cases h3
      exact h2.symm.trans h4
  · rw [z3]
    exact releaseRecords_canonical hcan _
  · rw [records_eq, z3, ← records_eq, records_releaseRecords hcan]
    have : v.records = s.records := by rw [records_eq, records_eq, hsub]
    rw [this]
  · intro j b
    rw [memberCount_zeroed]
    have : (v.releaseRecords fun r => r.auditorium == a).memberCount j b = s.memberCount j b := by
      simp only [State.memberCount, State.trackMembers, releaseRecords_members, c.patrons.members, hp.members]
    rw [this]

/-! ### Binding (R65) and TRACK SET (R66) -/

theorem quiet_bindTrack (s : State) (k : Nat) (tr : Track) : Quiet s (s.bindTrack k tr) := by
  have h : Quiet s ((s.setTrack k (some tr)).setTrackSequences k (PerBand.all 0)) :=
    (calm_setTrack s k _).toQuiet.trans (sends_setTrackSequences _ k _).toQuiet
  unfold State.bindTrack
  simp only
  split
  · exact h.trans (works_setLifecycle _ _ _).toQuiet
  · exact h

theorem track_bindTrack (s : State) (k : Nat) (tr : Track) (j : Nat) :
    (s.bindTrack k tr).track j = if j = k then some tr else s.track j := by
  unfold State.bindTrack
  simp only
  split
  · exact State.track_setTrack s k (some tr) j
  · exact State.track_setTrack s k (some tr) j

theorem counted_bindTrack {s : State} {k : Nat} {tr : Track} (h : s.PatronsCounted) (hk : k ≤ 95)
    (hf : s.track k = none) : (s.bindTrack k tr).PatronsCounted := by
  have hp : SamePatrons s (s.bindTrack k tr) := by
    unfold State.bindTrack
    simp only
    split <;> exact ⟨rfl, rfl⟩
  have hr : (s.bindTrack k tr).records = s.records := by rw [records_eq, records_eq, hp.subscriptions]
  refine ⟨?_, ?_, ?_, ?_, ?_, ?_⟩
  · rw [hp.subscriptions]
    exact h.canonical
  · rw [hr]
    exact h.handles
  · rw [hr]
    exact h.timed
  · intro j x hx
    rw [track_bindTrack] at hx
    split at hx
    · next hj => exact hj ▸ hk
    · exact h.tracks j x hx
  · rw [hr]
    intro e he
    obtain ⟨x, h1, h2⟩ := h.bound e he
    refine ⟨x, ?_, h2⟩
    rw [track_bindTrack, if_neg, h1]
    intro he
    rw [he, hf] at h1
    cases h1
  · intro j b
    rw [hp.memberCount, hr]
    exact h.counts j b

/-- A free track is one of the 96. -/
theorem freeTrack_spec {s : State} {k : Nat} (h : s.freeTrack = some k) : k ≤ 95 ∧ s.track k = none := by
  have h1 := List.mem_of_find?_eq_some h
  have h2 := List.find?_some h
  rw [trackNumbers, List.mem_range] at h1
  exact ⟨by omega, by simpa using h2⟩

end Sys2Proof.Machine
end

