-- ==== Sys2Proof/Laws/Elsewhere.lean ====
section
/-! SUPPORT. Which tracks, counters and flags content work can touch: the work on one track leaves every other as it stood,
with its sequence numbers, counters and flags; the work on an auditorium leaves every track that is not bound to it; and no
content work moves a counter or sets a flag but those of tracks and of the egress pool, or brings back an entry that has
left the pool. -/

namespace Sys2Proof.Machine

/-- Content work on the tracks that `p` names: every other track stands, every counter and flag but those of content work
stands, and a waiting entry waited before or has been made since. -/
structure Elsewhere (p : Nat → Prop) (s t : State) : Prop extends OtherTracks p s t where
  otherCounts : ∀ c, c.ofContent = false → t.count c = s.count c
  otherFlags : ∀ f, f.ofContent = false → t.flagSet f = s.flagSet f
  made : ∀ e ∈ t.egress.waiting, e ∈ s.egress.waiting ∨ s.egress.nextOrder ≤ e.order
  later : s.egress.nextOrder ≤ t.egress.nextOrder

/-- Content work on track `k`. -/
abbrev Stays (k : Nat) (s t : State) : Prop := Elsewhere (· = k) s t

theorem OtherTracks.refl (p : Nat → Prop) (s : State) : OtherTracks p s s :=
  ⟨fun _ _ => rfl, fun _ _ => rfl, fun _ _ _ => rfl, fun _ _ => rfl, fun _ _ => rfl⟩

theorem OtherTracks.trans {p : Nat → Prop} {a b c : State} (h : OtherTracks p a b) (g : OtherTracks p b c) :
    OtherTracks p a c :=
  ⟨fun k hk => (g.track k hk).trans (h.track k hk), fun k hk => (g.sequences k hk).trans (h.sequences k hk),
    fun k d hk => (g.counts k d hk).trans (h.counts k d hk), fun k hk => (g.overflow k hk).trans (h.overflow k hk),
    fun k hk => (g.paceHold k hk).trans (h.paceHold k hk)⟩

theorem OtherTracks.mono {p q : Nat → Prop} {s t : State} (h : OtherTracks p s t) (hpq : ∀ k, p k → q k) :
    OtherTracks q s t :=
  ⟨fun k hk => h.track k fun x => hk (hpq k x), fun k hk => h.sequences k fun x => hk (hpq k x),
    fun k d hk => h.counts k d fun x => hk (hpq k x), fun k hk => h.overflow k fun x => hk (hpq k x),
    fun k hk => h.paceHold k fun x => hk (hpq k x)⟩

theorem Elsewhere.refl (p : Nat → Prop) (s : State) : Elsewhere p s s :=
  ⟨OtherTracks.refl p s, fun _ _ => rfl, fun _ _ => rfl, fun _ he => .inl he, le_rfl⟩

theorem Elsewhere.trans {p : Nat → Prop} {a b c : State} (h : Elsewhere p a b) (g : Elsewhere p b c) :
    Elsewhere p a c :=
  ⟨h.toOtherTracks.trans g.toOtherTracks, fun d hd => (g.otherCounts d hd).trans (h.otherCounts d hd),
    fun f hf => (g.otherFlags f hf).trans (h.otherFlags f hf),
    fun e he => (g.made e he).elim (h.made e) fun x => .inr (h.later.trans x), h.later.trans g.later⟩

theorem Elsewhere.mono {p q : Nat → Prop} {s t : State} (h : Elsewhere p s t) (hpq : ∀ k, p k → q k) :
    Elsewhere q s t := ⟨h.toOtherTracks.mono hpq, h.otherCounts, h.otherFlags, h.made, h.later⟩

theorem Elsewhere.foldl {p : Nat → Prop} {β : Type} {f : State → β → State} (l : List β)
    (h : ∀ s, ∀ x ∈ l, Elsewhere p s (f s x)) (s : State) : Elsewhere p s (l.foldl f s) := by
  induction l generalizing s with
  | nil => exact Elsewhere.refl p s
  | cons x l ih =>
    exact (h s x (List.mem_cons_self ..)).trans (ih (fun s y hy => h s y (List.mem_cons_of_mem _ hy)) _)

theorem Stays.refl (k : Nat) (s : State) : Stays k s s := Elsewhere.refl _ s

theorem Stays.foldl {k : Nat} {β : Type} {f : State → β → State} (h : ∀ s x, Stays k s (f s x)) (l : List β)
    (s : State) : Stays k s (l.foldl f s) := Elsewhere.foldl l (fun s x _ => h s x) s

/-! ### What touches no track -/

/-- A change of neither tracks nor counters nor flags nor the pool touches no track. -/
theorem elsewhere_of_eq {p : Nat → Prop} {s t : State} (h1 : t.tracks = s.tracks) (h2 : t.sequences = s.sequences)
    (h3 : t.live = s.live) (h4 : t.flags = s.flags) (h5 : t.egress = s.egress) : Elsewhere p s t :=
  ⟨⟨fun k _ => by simp only [State.track, h1], fun k _ => by simp only [State.trackSequences, h2],
    fun k c _ => by simp only [State.count, h3], fun k _ => by simp only [State.flagSet, h4],
    fun k _ => by simp only [State.flagSet, h4]⟩, fun c _ => by simp only [State.count, h3],
    fun f _ => by simp only [State.flagSet, h4], fun e he => .inl (h5 ▸ he), h5 ▸ le_rfl⟩

/-- A change of the pool alone that adds no waiting entry touches no track. -/
theorem elsewhere_egress {p : Nat → Prop} (s : State) (g : Egress) (hw : ∀ e ∈ g.waiting, e ∈ s.egress.waiting)
    (hn : g.nextOrder = s.egress.nextOrder) : Elsewhere p s { s with egress := g } :=
  ⟨⟨fun _ _ => rfl, fun _ _ => rfl, fun _ _ _ => rfl, fun _ _ => rfl, fun _ _ => rfl⟩, fun _ _ => rfl, fun _ _ => rfl,
    fun e he => .inl (hw e he), hn ▸ le_rfl⟩

theorem elsewhere_removeWaiting {p : Nat → Prop} (s : State) (e : Entry) : Elsewhere p s (s.removeWaiting e) :=
  elsewhere_egress s _ (fun _ h => List.mem_of_mem_erase h) rfl

/-- A counter that is no track's, or one of a track that `p` names. -/
def Counter.ofTrack (p : Nat → Prop) (c : Counter) : Prop := ∀ k d, c = .track k d → p k

theorem elsewhere_bumpBy {p : Nat → Prop} (s : State) {c : Counter} (hc : c.ofTrack p) (ho : c.ofContent = true)
    (n : Nat) : Elsewhere p s (s.bumpBy c n) := by
  refine ⟨⟨fun _ _ => rfl, fun _ _ => rfl, fun k d hk => ?_, fun _ _ => rfl, fun _ _ => rfl⟩, fun d hd => ?_,
    fun _ _ => rfl, fun _ he => .inl he, le_rfl⟩
  · rw [State.count_bumpBy, if_neg]
    rintro rfl
    exact hk (hc k d rfl)
  · rw [State.count_bumpBy, if_neg]
    rintro rfl
    rw [ho] at hd
    cases hd

theorem elsewhere_bump {p : Nat → Prop} (s : State) {c : Counter} (hc : c.ofTrack p) (ho : c.ofContent = true) :
    Elsewhere p s (s.bump c) := elsewhere_bumpBy s hc ho 1

theorem elsewhere_bumpAuditorium {p : Nat → Prop} (s : State) (a : Nat) {c : AuditoriumCounter}
    (ho : (Counter.auditorium a c).ofContent = true) : Elsewhere p s (s.bumpAuditorium a c) :=
  elsewhere_bumpBy s (fun _ _ h => nomatch h) ho 1

theorem stays_bumpTrack (s : State) (k : Nat) (c : TrackCounter) : Stays k s (s.bumpTrack k c) :=
  elsewhere_bumpBy s (fun _ _ h => by cases h; rfl) rfl 1

/-- A flag that is no track's, or one of a track that `p` names. -/
def Flag.ofTrack (p : Nat → Prop) (f : Flag) : Prop := (f.name = .overflow ∨ f.name = .paceHold) → p f.inst

theorem elsewhere_writeFlag {p : Nat → Prop} (s : State) {f : Flag} (hf : f.ofTrack p) (ho : f.ofContent = true)
    (v : Bool) : Elsewhere p s (s.writeFlag f v) := by
  refine ⟨⟨fun _ _ => rfl, fun _ _ => rfl, fun _ _ _ => rfl, fun k hk => ?_, fun k hk => ?_⟩, fun _ _ => rfl,
    fun g hg => ?_, fun _ he => .inl he, le_rfl⟩
  · rw [State.flagSet_writeFlag, if_neg]
    rintro rfl
    exact hk (hf (.inl rfl))
  · rw [State.flagSet_writeFlag, if_neg]
    rintro rfl
    exact hk (hf (.inr rfl))
  · rw [State.flagSet_writeFlag, if_neg]
    rintro rfl
    rw [ho] at hg
    cases hg

theorem elsewhere_pushContent {p : Nat → Prop} (s : State) (f : ContentFrame) : Elsewhere p s (s.pushContent f) :=
  elsewhere_of_eq rfl rfl rfl rfl rfl

theorem elsewhere_alert {p : Nat → Prop} (s : State) (f : Flag) : Elsewhere p s (s.alert f) := by
  unfold State.alert
  split
  · split
    · exact Elsewhere.refl p _
    · exact (elsewhere_pushContent _ _).trans (elsewhere_bumpBy _ (fun _ _ h => nomatch h) rfl 1)
  · exact Elsewhere.refl p _

theorem elsewhere_setFlag {p : Nat → Prop} (s : State) {n : FlagName} {i : Nat} (hf : (⟨n, i⟩ : Flag).ofTrack p)
    (ho : (⟨n, i⟩ : Flag).ofContent = true) : Elsewhere p s (s.setFlag n i) := by
  unfold State.setFlag
  split
  · exact Elsewhere.refl p s
  · exact (elsewhere_writeFlag s hf ho true).trans (elsewhere_alert _ _)

/-! ### The pool -/

theorem elsewhere_grantLoop {p : Nat → Prop} (n : Nat) (s : State) : Elsewhere p s (State.grantLoop n s) := by
  induction n generalizing s with
  | zero => exact Elsewhere.refl p s
  | succ n ih =>
    unfold State.grantLoop
    split
    · exact Elsewhere.refl p s
    · split
      · exact Elsewhere.trans ((elsewhere_removeWaiting s _).trans (elsewhere_bumpAuditorium _ _ rfl)) (ih _)
      · exact elsewhere_egress s _ (fun _ h => List.mem_of_mem_erase h) rfl

theorem elsewhere_grant {p : Nat → Prop} (s : State) : Elsewhere p s s.grant := by
  unfold State.grant
  split
  · exact elsewhere_grantLoop _ s
  · exact Elsewhere.refl p s

theorem elsewhere_place {p : Nat → Prop} (s : State) (e : Entry) : Elsewhere p s (s.place e) := by
  unfold State.place
  refine Elsewhere.trans (Elsewhere.trans (b := { s with egress := { s.egress with
    waiting := s.egress.waiting ++ [{ e with order := s.egress.nextOrder }]
    nextOrder := s.egress.nextOrder + 1 } }) ?_ (elsewhere_bumpAuditorium _ _ rfl)) (elsewhere_grant _)
  refine ⟨⟨fun _ _ => rfl, fun _ _ => rfl, fun _ _ _ => rfl, fun _ _ => rfl, fun _ _ => rfl⟩, fun _ _ => rfl,
    fun _ _ => rfl, fun x hx => ?_, Nat.le_succ _⟩
  rcases List.mem_append.mp hx with h | h
  · exact .inl h
  · rw [List.mem_singleton.mp h]
    exact .inr le_rfl

theorem elsewhere_offer {p : Nat → Prop} (s : State) (e : Entry) : Elsewhere p s (s.offer e) := by
  unfold State.offer
  split
  · exact elsewhere_place s e
  · split
    · exact ((elsewhere_removeWaiting s _).trans (elsewhere_bumpAuditorium _ _ rfl)).trans (elsewhere_place _ e)
    · refine (elsewhere_bumpAuditorium s _ rfl).trans (elsewhere_setFlag _ ?_ rfl)
      rintro (h | h) <;> cases h

theorem elsewhere_withdraw {p : Nat → Prop} (s : State) (covers : Entry → Bool) : Elsewhere p s (s.withdraw covers) := by
  unfold State.withdraw
  exact (elsewhere_egress s { s.egress with waiting := s.egress.waiting.filter fun e => !covers e }
    (fun _ h => (List.mem_filter.mp h).1) rfl).trans
      (Elsewhere.foldl _ (fun s e _ => elsewhere_bumpAuditorium s _ rfl) _)

/-! ### Auditoria, clocks, records: no track -/

theorem elsewhere_setAuditorium {p : Nat → Prop} (s : State) (a : Nat) (v : Auditorium) :
    Elsewhere p s (s.setAuditorium a v) := elsewhere_of_eq rfl rfl rfl rfl rfl
theorem elsewhere_setLifecycle {p : Nat → Prop} (s : State) (a : Nat) (l : Lifecycle) :
    Elsewhere p s (s.setLifecycle a l) := elsewhere_of_eq rfl rfl rfl rfl rfl
theorem elsewhere_setClock {p : Nat → Prop} (s : State) (a : Nat) (v : Clock) : Elsewhere p s (s.setClock a v) :=
  elsewhere_of_eq rfl rfl rfl rfl rfl
theorem elsewhere_setCheck {p : Nat → Prop} (s : State) (a : Nat) (v : HouseCheck) : Elsewhere p s (s.setCheck a v) :=
  elsewhere_of_eq rfl rfl rfl rfl rfl
theorem elsewhere_updateBeacon {p : Nat → Prop} (s : State) (a : Nat) : Elsewhere p s (s.updateBeacon a) := by
  unfold State.updateBeacon
  split
  · split
    · exact Elsewhere.refl p s
    · exact elsewhere_of_eq rfl rfl rfl rfl rfl
  · exact elsewhere_of_eq rfl rfl rfl rfl rfl

/-! ### One track's record -/

theorem stays_setTrack (s : State) (k : Nat) (v : Option Track) : Stays k s (s.setTrack k v) := by
  refine ⟨⟨fun j hj => ?_, fun _ _ => rfl, fun _ _ _ => rfl, fun _ _ => rfl, fun _ _ => rfl⟩, fun _ _ => rfl, fun _ _ => rfl, fun _ he => .inl he, le_rfl⟩
  rw [State.track_setTrack, if_neg hj]

theorem stays_updateTrack (s : State) (k : Nat) (f : Track → Track) : Stays k s (s.updateTrack k f) := by
  unfold State.updateTrack
  split
  · exact Stays.refl k s
  · exact stays_setTrack s k _

theorem stays_setTrackSequences (s : State) (k : Nat) (v : PerBand SeqNo) : Stays k s (s.setTrackSequences k v) := by
  refine ⟨⟨fun _ _ => rfl, fun j hj => ?_, fun _ _ _ => rfl, fun _ _ => rfl, fun _ _ => rfl⟩, fun _ _ => rfl, fun _ _ => rfl, fun _ he => .inl he, le_rfl⟩
  rw [State.trackSequences_setTrackSequences, if_neg hj]

theorem stays_setFlag (s : State) (k : Nat) {n : FlagName} (hn : (⟨n, k⟩ : Flag).ofContent = true) :
    Stays k s (s.setFlag n k) :=
  elsewhere_setFlag s (fun _ => rfl) hn

/-! ### Content work on one track -/

theorem stays_paceNotice (s : State) (k : Nat) (tr : Track) (hold : Bool) : Stays k s (s.paceNotice k tr hold) := by
  unfold State.paceNotice
  split
  · exact Stays.refl k s
  · split
    · exact (elsewhere_pushContent s _).trans (stays_bumpTrack _ _ _)
    · exact Stays.refl k s

theorem stays_paceUp (s : State) (k : Nat) : Stays k s (s.paceUp k) := by
  unfold State.paceUp
  split
  · exact Stays.refl k s
  · split
    · exact ((stays_setTrack s k _).trans (stays_paceNotice _ _ _ _)).trans (stays_setFlag _ _ rfl)
    · exact Stays.refl k s

theorem stays_paceDown (s : State) (k : Nat) : Stays k s (s.paceDown k) := by
  unfold State.paceDown
  split
  · exact Stays.refl k s
  · split
    · exact (stays_setTrack s k _).trans (stays_paceNotice _ _ _ _)
    · exact Stays.refl k s

theorem stays_sendToBand (s : State) (k : Nat) (tr : Track) (b : Band) (cls : EgressClass) (body : DeliveryBody)
    (deadline : Option Nat) : Stays k s (s.sendToBand k tr b cls body deadline) :=
  (stays_setTrackSequences s k _).trans (elsewhere_offer _ _)

theorem stays_degradedCopies (s : State) (k : Nat) (tr : Track) (b : Band) (q : SeqNo) (body : DeliveryBody)
    (deadline : Option Nat) : Stays k s (s.degradedCopies k tr b q body deadline) :=
  (Stays.foldl (fun s _ => (stays_bumpTrack s _ _).trans (elsewhere_offer _ _)) _ s).trans
    (elsewhere_bumpBy _ (fun _ _ h => by cases h; rfl) rfl _)

theorem stays_sendCaption (s : State) (k : Nat) (tr : Track) (b : Band) (body : DeliveryBody) (deadline : Option Nat) :
    Stays k s (s.sendCaption k tr b body deadline) :=
  (stays_sendToBand s k tr b _ _ _).trans (stays_degradedCopies _ _ _ _ _ _ _)

theorem stays_releaseCaption (s : State) (k : Nat) (tr : Track) (c : Caption) (b : Band) :
    Stays k s (s.releaseCaption k tr c b) := by
  have h := stays_bumpTrack s k .releases
  unfold State.releaseCaption
  simp only
  split
  · exact h
  · exact h.trans (stays_sendCaption _ _ _ _ _ _)

theorem stays_becomeCurrent (s : State) (k : Nat) (c : Cue) : Stays k s (s.becomeCurrent k c) := by
  unfold State.becomeCurrent
  split
  · exact Stays.refl k s
  · simp only
    split
    · exact (stays_setTrack s k _).trans (stays_bumpTrack _ _ _)
    · exact stays_setTrack s k _

theorem stays_releasePending (s : State) (k n : Nat) (b : Band) : Stays k s (s.releasePending k n b) := by
  unfold State.releasePending
  split
  · exact Stays.refl k s
  · split
    · exact Stays.refl k s
    · simp only
      split
      · exact ((((stays_updateTrack s k _).trans (stays_releaseCaption _ _ _ _ _)).trans (stays_updateTrack _ k _)).trans
          (stays_becomeCurrent _ _ _)).trans (stays_paceDown _ _)
      · exact (stays_updateTrack s k _).trans (stays_releaseCaption _ _ _ _ _)

theorem stays_releasePendingTo (s : State) (k n : Nat) (bs : List Band) : Stays k s (s.releasePendingTo k n bs) :=
  Stays.foldl (fun s b => stays_releasePending s k n b) bs s

theorem stays_evaluateCue (s : State) (k sh n : Nat) : Stays k s (s.evaluateCue k sh n) := by
  unfold State.evaluateCue
  split
  · exact Stays.refl k s
  · split
    · exact Stays.refl k s
    · simp only
      split
      · split
        · exact ((stays_updateTrack s k _).trans (stays_releasePendingTo _ _ _ _)).trans (stays_bumpTrack _ _ _)
        · exact ((stays_updateTrack s k _).trans (stays_bumpTrack _ _ _)).trans (stays_paceDown _ _)
      · exact Stays.refl k s

theorem stays_takePassedCue (s : State) (k sh : Nat) (withZero : Bool) (n : Nat) :
    Stays k s (s.takePassedCue k sh withZero n) := by
  unfold State.takePassedCue
  split
  · exact Stays.refl k s
  · split
    · exact Stays.refl k s
    · exact stays_releasePendingTo _ _ _ _

theorem stays_withdrawCue (s : State) (k : Nat) (tr : Track) (n : Nat) (bs : List Band) :
    Stays k s (s.withdrawCue k tr n bs) :=
  Stays.foldl (fun s b => stays_sendToBand s k tr b _ _ _) bs s

theorem stays_replaceCue (s : State) (k : Nat) (tr : Track) (c : Caption) (bs : List Band) :
    Stays k s (s.replaceCue k tr c bs) :=
  Stays.foldl (fun s b => stays_sendCaption s k tr b _ _) bs s

theorem stays_takePassedOnArrival (s : State) (k a sh n : Nat) : Stays k s (s.takePassedOnArrival k a sh n) := by
  unfold State.takePassedOnArrival
  split
  · exact stays_takePassedCue _ _ _ _ _
  · exact Stays.refl k s

theorem stays_placeNewCue (s : State) (k : Nat) (tr : Track) (c : Cue) (sh : Nat) :
    Stays k s (s.placeNewCue k tr c sh) := by
  unfold State.placeNewCue
  split
  · exact (((stays_updateTrack s k _).trans (stays_bumpTrack _ _ _)).trans (stays_paceUp _ _)).trans
      (stays_takePassedOnArrival _ _ _ _ _)
  · have p : Stays k s ((s.setFlag .overflow k).bumpTrack k .overflowDrops) :=
      (stays_setFlag s _ rfl).trans (stays_bumpTrack _ _ _)
    simp only
    split
    · exact p
    · split
      · exact p
      · exact ((((p.trans (stays_updateTrack _ k _)).trans (stays_withdrawCue _ _ _ _ _)).trans
          (stays_updateTrack _ k _)).trans (stays_bumpTrack _ _ _)).trans (stays_takePassedOnArrival _ _ _ _ _)

theorem stays_arriveNewCue (s : State) (k : Nat) (tr : Track) (b : CueBody) (test : Bool) :
    Stays k s (s.arriveNewCue k tr b test) := by
  unfold State.arriveNewCue
  simp only
  split
  · split
    · exact ((Stays.foldl (fun s b => stays_releaseCaption s k tr _ b) _ s).trans
        (stays_becomeCurrent _ _ _)).trans (stays_bumpTrack _ _ _)
    · exact stays_bumpTrack _ _ _
  · exact stays_placeNewCue _ _ _ _ _

theorem stays_amendPending (s : State) (k : Nat) (tr : Track) (old : Cue) (b : CueBody) :
    Stays k s (s.amendPending k tr old b) := by
  have p := stays_bumpTrack s k .amendments
  unfold State.amendPending
  simp only
  split
  · split
    · exact ((p.trans (stays_updateTrack _ k _)).trans (stays_replaceCue _ _ _ _ _)).trans (stays_evaluateCue _ _ _ _)
    · exact (((p.trans (stays_updateTrack _ k _)).trans (stays_bumpTrack _ _ _)).trans
        (stays_withdrawCue _ _ _ _ _)).trans (stays_paceDown _ _)
  · exact (((p.trans (stays_updateTrack _ k _)).trans (stays_updateTrack _ k _)).trans
      (stays_replaceCue _ _ _ _ _)).trans (stays_takePassedOnArrival _ _ _ _ _)

theorem stays_amendCurrent (s : State) (k : Nat) (tr : Track) (old : Cue) (b : CueBody) :
    Stays k s (s.amendCurrent k tr old b) := by
  have p := stays_bumpTrack s k .amendments
  unfold State.amendCurrent
  simp only
  split
  · exact (p.trans (stays_updateTrack _ k _)).trans (stays_replaceCue _ _ _ _ _)
  · exact (p.trans (stays_updateTrack _ k _)).trans (stays_withdrawCue _ _ _ _ _)

theorem stays_deleteCue (s : State) (k : Nat) (tr : Track) (n : Nat) : Stays k s (s.deleteCue k tr n) := by
  unfold State.deleteCue
  split
  · exact (((stays_updateTrack s k _).trans (stays_bumpTrack _ _ _)).trans (stays_withdrawCue _ _ _ _ _)).trans
      (stays_paceDown _ _)
  · split
    · exact ((stays_updateTrack s k _).trans (stays_bumpTrack _ _ _)).trans (stays_withdrawCue _ _ _ _ _)
    · exact stays_bumpTrack _ _ _

theorem stays_setSource (s : State) (k : Nat) (src : Option Source) :
    Stays k s (if src.isSome then s.updateTrack k fun tr => { tr with source := src } else s) := by
  split
  · exact stays_updateTrack s k _
  · exact Stays.refl k s

theorem stays_arriveCue (s : State) (k : Nat) (b : CueBody) (src : Option Source) (test : Bool) :
    Stays k s (s.arriveCue k b src test) := by
  unfold State.arriveCue
  split
  · exact stays_bumpTrack _ _ _
  · have p := stays_setSource s k src
    simp only
    generalize (if src.isSome then s.updateTrack k fun tr => { tr with source := src } else s) = s' at p ⊢
    refine p.trans ?_
    split
    · exact Stays.refl k _
    · split
      · exact stays_deleteCue _ _ _ _
      · split
        · exact stays_amendPending _ _ _ _ _
        · split
          · exact stays_amendCurrent _ _ _ _ _
          · exact stays_arriveNewCue _ _ _ _ _

theorem stays_releaseAudio (s : State) (k : Nat) (tr : Track) (x : Block) (b : Band) :
    Stays k s (s.releaseAudio k tr x b) := by
  have h := stays_bumpTrack s k .releases
  unfold State.releaseAudio
  simp only
  split
  · exact h
  · split
    · exact h.trans (stays_sendToBand _ _ _ _ _ _ _)
    · exact (h.trans (stays_sendToBand _ _ _ _ _ _ _)).trans (stays_sendToBand _ _ _ _ _ _ _)

theorem stays_releaseBlock (s : State) (k q : Nat) (b : Band) : Stays k s (s.releaseBlock k q b) := by
  unfold State.releaseBlock
  split
  · exact Stays.refl k s
  · split
    · exact Stays.refl k s
    · simp only
      split
      · exact (((stays_updateTrack s k _).trans (stays_releaseAudio _ _ _ _ _)).trans (stays_updateTrack _ k _)).trans
          (stays_paceDown _ _)
      · exact (stays_updateTrack s k _).trans (stays_releaseAudio _ _ _ _ _)

theorem stays_releaseBlockTo (s : State) (k q : Nat) (bs : List Band) : Stays k s (s.releaseBlockTo k q bs) :=
  Stays.foldl (fun s b => stays_releaseBlock s k q b) bs s

theorem stays_evaluateBlock (s : State) (k sh q : Nat) : Stays k s (s.evaluateBlock k sh q) := by
  unfold State.evaluateBlock
  split
  · exact Stays.refl k s
  · split
    · exact Stays.refl k s
    · simp only
      split
      · split
        · exact ((stays_updateTrack s k _).trans (stays_releaseBlockTo _ _ _ _)).trans (stays_bumpTrack _ _ _)
        · exact ((stays_updateTrack s k _).trans (stays_bumpTrack _ _ _)).trans (stays_paceDown _ _)
      · exact Stays.refl k s

theorem stays_takePassedBlock (s : State) (k sh : Nat) (withZero : Bool) (q : Nat) :
    Stays k s (s.takePassedBlock k sh withZero q) := by
  unfold State.takePassedBlock
  split
  · exact Stays.refl k s
  · split
    · exact Stays.refl k s
    · exact stays_releaseBlockTo _ _ _ _

theorem stays_supersede (s : State) (k : Nat) (tr : Track) (b : BlockBody) : Stays k s (s.supersede k tr b) := by
  unfold State.supersede
  simp only
  split
  · exact Stays.refl k s
  · exact ((stays_updateTrack s k _).trans (elsewhere_bumpBy _ (fun _ _ h => by cases h; rfl) rfl _)).trans
      (stays_paceDown _ _)

theorem stays_acceptBlock (s : State) (k : Nat) (b : BlockBody) (gap : Option Gap) (test : Bool) :
    Stays k s (s.acceptBlock k b gap test) := by
  unfold State.acceptBlock
  split
  · exact Stays.refl k s
  · next tr h =>
    simp only
    split
    · split
      · exact ((stays_updateTrack s k _).trans (Stays.foldl (fun s c => stays_releaseAudio s k tr _ c) _ _)).trans
          (stays_bumpTrack _ _ _)
      · exact (stays_updateTrack s k _).trans (stays_bumpTrack _ _ _)
    · split
      · exact (stays_setFlag _ _ rfl).trans (stays_bumpTrack _ _ _)
      · split
        · exact (((stays_updateTrack s k _).trans (stays_bumpTrack _ _ _)).trans (stays_paceUp _ _)).trans
            (stays_takePassedBlock _ _ _ _ _)
        · exact ((stays_updateTrack s k _).trans (stays_bumpTrack _ _ _)).trans (stays_paceUp _ _)

theorem stays_arriveBlock (s : State) (k : Nat) (b : BlockBody) (src : Option Source) (test : Bool) :
    Stays k s (s.arriveBlock k b src test) := by
  unfold State.arriveBlock
  split
  · exact stays_bumpTrack _ _ _
  · have p := stays_setSource s k src
    simp only
    generalize (if src.isSome then s.updateTrack k fun tr => { tr with source := src } else s) = s' at p ⊢
    refine p.trans ?_
    split
    · exact Stays.refl k _
    · split
      · exact (stays_supersede _ _ _ _).trans (stays_acceptBlock _ _ _ _ _)
      · split
        · exact stays_bumpTrack _ _ _
        · split
          · exact stays_bumpTrack _ _ _
          · split
            · exact stays_acceptBlock _ _ _ _ _
            · exact (stays_bumpTrack _ _ _).trans (stays_acceptBlock _ _ _ _ _)

/-! ### Evaluation and step handling of one track -/

theorem stays_lateTrack (s : State) (k sh : Nat) : Stays k s (s.lateTrack k sh) := by
  unfold State.lateTrack
  split
  · exact Stays.refl k s
  · split
    · exact Stays.foldl (fun s n => stays_evaluateCue s k sh n) _ s
    · exact Stays.foldl (fun s q => stays_evaluateBlock s k sh q) _ s

theorem stays_takePassedTrack (s : State) (k sh : Nat) (withZero : Bool) :
    Stays k s (s.takePassedTrack k sh withZero) := by
  unfold State.takePassedTrack
  split
  · exact Stays.refl k s
  · split
    · exact Stays.foldl (fun s n => stays_takePassedCue s k sh withZero n) _ s
    · exact Stays.foldl (fun s q => stays_takePassedBlock s k sh withZero q) _ s

theorem stays_evaluateTrack (s : State) (k sh : Nat) : Stays k s (s.evaluateTrack k sh) :=
  (stays_lateTrack s k sh).trans (stays_takePassedTrack _ k sh false)

theorem stays_judgeCurrent (s : State) (k sh : Nat) : Stays k s (s.judgeCurrent k sh) := by
  unfold State.judgeCurrent
  split
  · exact Stays.refl k s
  · next tr h =>
    split
    · exact Stays.refl k s
    · simp only
      split
      · exact ((stays_setTrack s k _).trans (Stays.foldl (fun s b => stays_sendCaption s k tr b _ _) _ _)).trans
          (stays_bumpTrack _ _ _)
      · exact (stays_setTrack s k _).trans (stays_bumpTrack _ _ _)

theorem stays_purgeCurrent (s : State) (k : Nat) : Stays k s (s.purgeCurrent k) := by
  unfold State.purgeCurrent
  split
  · exact Stays.refl k s
  · split
    · exact (stays_setTrack s k _).trans (stays_bumpTrack _ _ _)
    · exact Stays.refl k s

theorem stays_clearDevices (s : State) (k : Nat) : Stays k s (s.clearDevices k) := by
  unfold State.clearDevices
  split
  · exact Stays.refl k s
  · refine Stays.foldl (fun s b => ?_) _ s
    split
    · exact stays_sendToBand _ _ _ _ _ _ _
    · exact stays_sendToBand _ _ _ _ _ _ _

theorem stays_purgeTrack (s : State) (k sh : Nat) (f : StepForm) : Stays k s (s.purgeTrack k sh f) := by
  unfold State.purgeTrack
  split
  · exact Stays.refl k s
  · have q := fun v n => (stays_setTrack s k v).trans
      (elsewhere_bumpBy (p := (· = k)) _ (c := .track k .purged) (fun _ _ h => by cases h; rfl) rfl n)
    simp only
    split
    · exact q _ _
    · exact (q _ _).trans (stays_paceDown _ _)

theorem stays_stepCurrent (s : State) (k sh : Nat) (f : StepForm) : Stays k s (s.stepCurrent k sh f) := by
  unfold State.stepCurrent
  split
  · exact stays_purgeCurrent _ _
  · exact stays_judgeCurrent _ _ _
  · exact stays_purgeCurrent _ _
  · exact Stays.refl k s

theorem stays_stepLate (s : State) (a k sh : Nat) (f : StepForm) : Stays k s (s.stepLate a k sh f) := by
  unfold State.stepLate
  split
  · split
    · exact Stays.refl k s
    · exact stays_evaluateTrack _ _ _
  · exact Stays.refl k s
  · exact Stays.refl k s

theorem stays_stepTrack (s : State) (a sh : Nat) (f : StepForm) (k : Nat) : Stays k s (s.stepTrack a sh f k) :=
  ((((stays_clearDevices s k).trans (stays_purgeTrack _ k sh f)).trans (stays_updateTrack _ k _)).trans
    (stays_stepCurrent _ k sh f)).trans (stays_stepLate _ a k sh f)

theorem stays_takeInstant (s : State) (k : Nat) (b : Band) : Stays k s (s.takeInstant k b) := by
  unfold State.takeInstant
  split
  · exact Stays.refl k s
  · simp only
    split
    · split
      · split
        · exact Stays.refl k s
        · split
          · exact stays_releasePendingTo _ _ _ _
          · exact Stays.refl k s
      · split
        · exact Stays.refl k s
        · split
          · exact stays_releaseBlockTo _ _ _ _
          · exact Stays.refl k s
    · exact Stays.refl k s

theorem stays_retireCurrent (s : State) (k : Nat) : Stays k s (s.retireCurrent k) := by
  unfold State.retireCurrent
  split
  · exact (stays_updateTrack s k _).trans (stays_bumpTrack _ _ _)
  · exact Stays.refl k s

theorem stays_offerCopy (s : State) (c : Copy) : Stays c.target s (s.offerCopy c) := by
  unfold State.offerCopy
  simp only
  split
  · exact stays_bumpTrack s _ _
  · split
    · split
      · exact (stays_bumpTrack s _ _).trans (stays_arriveCue _ _ _ _ _)
      · exact (stays_bumpTrack s _ _).trans (stays_arriveBlock _ _ _ _ _)
      · exact stays_bumpTrack s _ _
      · exact stays_bumpTrack s _ _
    · exact stays_bumpTrack s _ _

/-! ### The tracks of one auditorium -/

theorem owned_of_mem {s : State} {a k : Nat} (h : k ∈ s.boundTracks a) : s.owns a k := (mem_boundTracks.mp h).2

/-- Work over the bound tracks of an auditorium touches no other track. -/
theorem elsewhere_overTracks {f : State → Nat → State} (h : ∀ s k, Stays k s (f s k)) (s : State) (a : Nat) (u : State) :
    Elsewhere (s.owns a) u ((s.boundTracks a).foldl f u) :=
  Elsewhere.foldl _ (fun v k hk => (h v k).mono fun _ hj => hj ▸ owned_of_mem hk) u

theorem elsewhere_evaluateAll (s : State) (a sh : Nat) : Elsewhere (s.owns a) s (s.evaluateAll a sh) :=
  elsewhere_overTracks (fun s k => stays_evaluateTrack s k sh) s a s

theorem elsewhere_judgeAll (s : State) (a sh : Nat) : Elsewhere (s.owns a) s (s.judgeAll a sh) :=
  elsewhere_overTracks (fun s k => stays_judgeCurrent s k sh) s a s

theorem boundTracks_of_tracks {s t : State} (h : t.tracks = s.tracks) (a : Nat) : t.boundTracks a = s.boundTracks a := by
  simp only [State.boundTracks, State.track, h]

theorem owns_of_tracks {s t : State} (h : t.tracks = s.tracks) (a : Nat) : t.owns a = s.owns a := by
  funext k
  simp only [State.owns, State.track, h]

theorem elsewhere_stepHandling (s : State) (a sh : Nat) (f : StepForm) :
    Elsewhere (s.owns a) (s.bumpAuditorium a .stepHandlings) (s.stepHandling a sh f) := by
  unfold State.stepHandling
  simp only
  have h := ((sends_bumpAuditorium s a .stepHandlings).trans (sends_withdraw _ fun e =>
    e.auditorium == a && e.cls.withdrawnAtStep)).tracks
  rw [← owns_of_tracks h]
  exact (elsewhere_withdraw _ _).trans (elsewhere_overTracks (fun s k => stays_stepTrack s a sh f k) _ a _)

theorem elsewhere_houseCheckClearing (s : State) (a : Nat) : Elsewhere (s.owns a) s (s.houseCheckClearing a) :=
  elsewhere_overTracks (fun s k => stays_stepTrack s a _ _ k) s a s

end Sys2Proof.Machine
end

