-- ==== Sys2Proof/Laws/Shows.lean ====
section
/-! SUPPORT. What an event of one auditorium leaves as it stood (`WithinShow`), and what the step handling leaves of the
auditorium's tracks: empty tracks in its full and SHOW END forms, cleared marks in its LOST form. -/

namespace Sys2Proof.Machine

/-! ### Bindings -/

theorem BindingsKept.stand {s t : State} (h : BindingsKept s t) : BindingsStand s t := by
  intro k
  cases hx : s.track k with
  | none => rw [h.of_free hx]
  | some x =>
    obtain ⟨y, hy, b⟩ := h.of_bound hx
    rw [hy]
    simp only [Option.map_some, Track.binding, b.kind, b.auditorium, b.slot, b.language, b.variant, b.depth, b.lead,
      b.high, b.low]

theorem BindingsStand.refl (s : State) : BindingsStand s s := fun _ => rfl

theorem BindingsStand.trans {a b c : State} (h : BindingsStand a b) (g : BindingsStand b c) : BindingsStand a c :=
  fun k => (g k).trans (h k)

theorem BindingsStand.of_tracks {s t : State} (h : t.tracks = s.tracks) : BindingsStand s t := fun k => by
  simp only [State.track, h]

/-- A bound track is bound to the same auditorium where bindings stand. -/
theorem BindingsStand.bound {s t : State} (h : BindingsStand s t) {k : Nat} {x : Track} (hx : s.track k = some x) :
    ∃ y, t.track k = some y ∧ y.binding = x.binding := by
  have hk := h k
  rw [hx] at hk
  cases hy : t.track k with
  | none => rw [hy] at hk; cases hk
  | some y => rw [hy] at hk; exact ⟨y, rfl, Option.some.inj hk⟩

theorem BindingsStand.symm {s t : State} (h : BindingsStand s t) : BindingsStand t s := fun k => (h k).symm

theorem auditorium_of_binding {x y : Track} (h : y.binding = x.binding) : y.auditorium = x.auditorium := by
  simp only [Track.binding, Prod.mk.injEq] at h
  exact h.2.1

theorem BindingsStand.owns {s t : State} (h : BindingsStand s t) (a : Nat) : t.owns a = s.owns a := by
  funext k
  refine propext ⟨?_, ?_⟩
  · rintro ⟨y, hy, ha⟩
    obtain ⟨x, hx, hb⟩ := h.symm.bound hy
    exact ⟨x, hx, (auditorium_of_binding hb).trans ha⟩
  · rintro ⟨x, hx, ha⟩
    obtain ⟨y, hy, hb⟩ := h.bound hx
    exact ⟨y, hy, (auditorium_of_binding hb).trans ha⟩

theorem BindingsStand.boundTracks {s t : State} (h : BindingsStand s t) (a : Nat) :
    t.boundTracks a = s.boundTracks a := by
  unfold State.boundTracks
  congr 1
  funext k
  cases hx : s.track k with
  | none =>
    cases hy : t.track k with
    | none => rfl
    | some y =>
      obtain ⟨x, hx', _⟩ := h.symm.bound hy
      rw [hx] at hx'
      cases hx'
  | some x =>
    obtain ⟨y, hy, hb⟩ := h.bound hx
    rw [hy]
    simp only [auditorium_of_binding hb]

theorem BindingsStand.memberSum {s t : State} (h : BindingsStand s t) (hp : SamePatrons s t) (a : Nat) :
    t.memberSum a = s.memberSum a := by
  unfold State.memberSum
  rw [h.boundTracks a]
  have : t.memberCount = s.memberCount := by funext k b; exact hp.memberCount k b
  rw [this]

theorem BindingsStand.readyState {s t : State} (h : BindingsStand s t) (a : Nat) :
    t.readyState a = s.readyState a := by
  unfold State.readyState
  rw [h.boundTracks a]

/-! ### Other auditoria -/

theorem OtherShows.refl (a : Nat) (s : State) : OtherShows a s s :=
  ⟨fun _ _ => rfl, fun _ _ => rfl, fun _ _ => rfl, fun _ _ => rfl⟩

theorem OtherShows.trans {a : Nat} {s t u : State} (h : OtherShows a s t) (g : OtherShows a t u) : OtherShows a s u :=
  ⟨fun j hj => (g.auditorium j hj).trans (h.auditorium j hj), fun j hj => (g.clock j hj).trans (h.clock j hj),
    fun j hj => (g.check j hj).trans (h.check j hj), fun j hj => (g.beacon j hj).trans (h.beacon j hj)⟩

theorem SameShows.others {s t : State} (h : SameShows s t) (a : Nat) : OtherShows a s t :=
  ⟨fun j _ => by simp only [State.auditorium, h.auditoriums], fun j _ => by simp only [State.clock, h.clocks],
    fun j _ => by simp only [State.check, h.checks], fun j _ => by simp only [State.beacon, h.beacons]⟩

theorem SameShows.auditorium {s t : State} (h : SameShows s t) (a : Nat) : t.auditorium a = s.auditorium a := by
  simp only [State.auditorium, h.auditoriums]

theorem SameShows.clock {s t : State} (h : SameShows s t) (a : Nat) : t.clock a = s.clock a := by
  simp only [State.clock, h.clocks]

theorem SameShows.check {s t : State} (h : SameShows s t) (a : Nat) : t.check a = s.check a := by
  simp only [State.check, h.checks]

theorem SameShows.beacon {s t : State} (h : SameShows s t) (a : Nat) : t.beacon a = s.beacon a := by
  simp only [State.beacon, h.beacons]

/-! ### Events of one auditorium -/

theorem otherTracks_of_eq {p : Nat → Prop} {s t : State} (h1 : t.tracks = s.tracks) (h2 : t.sequences = s.sequences)
    (h3 : t.live = s.live) (h4 : t.flags = s.flags) : OtherTracks p s t :=
  ⟨fun k _ => by simp only [State.track, h1], fun k _ => by simp only [State.trackSequences, h2],
    fun k c _ => by simp only [State.count, h3], fun k _ => by simp only [State.flagSet, h4],
    fun k _ => by simp only [State.flagSet, h4]⟩

namespace WithinShow

variable {a : Nat} {p : Nat → Prop} {cs : List Counter} {fs : List Flag} {s t u : State}

theorem refl : WithinShow a p cs fs s s where
  engineTime := rfl
  ports := SamePorts.refl s
  classifier := SameClassifier.refl s
  shows := OtherShows.refl a s
  tracks := OtherTracks.refl p s
  bindings := BindingsStand.refl s
  patrons := SamePatrons.refl s
  controllers := rfl
  alertEnables := rfl
  snapshot := ⟨rfl, rfl⟩
  queue := rfl
  wire := ⟨rfl, rfl, rfl⟩
  counts := fun _ _ _ => rfl
  flags := fun _ _ _ => rfl

theorem trans (h : WithinShow a p cs fs s t) (g : WithinShow a p cs fs t u) : WithinShow a p cs fs s u where
  engineTime := g.engineTime.trans h.engineTime
  ports := h.ports.trans g.ports
  classifier := h.classifier.trans g.classifier
  shows := h.shows.trans g.shows
  tracks := h.tracks.trans g.tracks
  bindings := h.bindings.trans g.bindings
  patrons := h.patrons.trans g.patrons
  controllers := g.controllers.trans h.controllers
  alertEnables := g.alertEnables.trans h.alertEnables
  snapshot := ⟨g.snapshot.1.trans h.snapshot.1, g.snapshot.2.trans h.snapshot.2⟩
  queue := g.queue.trans h.queue
  wire := ⟨g.wire.1.trans h.wire.1, g.wire.2.1.trans h.wire.2.1, g.wire.2.2.trans h.wire.2.2⟩
  counts := fun c hc hn => (g.counts c hc hn).trans (h.counts c hc hn)
  flags := fun f hf hn => (g.flags f hf hn).trans (h.flags f hf hn)

/-- What a shared operation keeps, with what it is asked to keep besides. -/
theorem of_quiet (h : Quiet s t) (hs : OtherShows a s t) (ht : OtherTracks p s t) (hb : BindingsStand s t)
    (hp : SamePatrons s t) (hc : ∀ c, c.ofContent = false → c ∉ cs → t.count c = s.count c)
    (hf : ∀ f, f.ofContent = false → f ∉ fs → t.flagSet f = s.flagSet f) : WithinShow a p cs fs s t where
  engineTime := h.engineTime
  ports := h.ports
  classifier := h.classifier
  shows := hs
  tracks := ht
  bindings := hb
  patrons := hp
  controllers := h.controllers
  alertEnables := h.alertEnables
  snapshot := ⟨h.snapshot, h.snapshotTime⟩
  queue := h.queue
  wire := ⟨h.deliveryOut, h.pauseEnd, h.wireTail⟩
  counts := hc
  flags := hf

/-- Content work on the auditorium's tracks. -/
theorem work (h : Plays s t) (e : Elsewhere p s t) : WithinShow a p cs fs s t :=
  of_quiet h.toQuiet (h.shows.others a) e.toOtherTracks h.bindings.stand h.patrons (fun c hc _ => e.otherCounts c hc)
    fun f hf _ => e.otherFlags f hf

theorem setClock (c : Clock) : WithinShow a p cs fs s (s.setClock a c) :=
  of_quiet (quiet_setClock s a c)
    ⟨fun _ _ => rfl, fun j hj => by rw [State.clock_setClock, if_neg hj], fun _ _ => rfl, fun _ _ => rfl⟩
    (otherTracks_of_eq rfl rfl rfl rfl) (fun _ => rfl) ⟨rfl, rfl⟩ (fun _ _ _ => rfl) fun _ _ _ => rfl

theorem setAuditorium (v : Auditorium) : WithinShow a p cs fs s (s.setAuditorium a v) :=
  of_quiet (quiet_setAuditorium s a v)
    ⟨fun j hj => by rw [State.auditorium_setAuditorium, if_neg hj], fun _ _ => rfl, fun _ _ => rfl, fun _ _ => rfl⟩
    (otherTracks_of_eq rfl rfl rfl rfl) (fun _ => rfl) ⟨rfl, rfl⟩ (fun _ _ _ => rfl) fun _ _ _ => rfl

theorem setLifecycle (l : Lifecycle) : WithinShow a p cs fs s (s.setLifecycle a l) := setAuditorium _

theorem setCheck (c : HouseCheck) : WithinShow a p cs fs s (s.setCheck a c) :=
  of_quiet (quiet_setCheck s a c)
    ⟨fun _ _ => rfl, fun _ _ => rfl, fun j hj => by rw [State.check_setCheck, if_neg hj], fun _ _ => rfl⟩
    (otherTracks_of_eq rfl rfl rfl rfl) (fun _ => rfl) ⟨rfl, rfl⟩ (fun _ _ _ => rfl) fun _ _ _ => rfl

theorem setBeacon (v : Option Nat) : WithinShow a p cs fs s (s.setBeacon a v) :=
  of_quiet (quiet_setBeacon s a v)
    ⟨fun _ _ => rfl, fun _ _ => rfl, fun _ _ => rfl, fun j hj => by rw [State.beacon_setBeacon, if_neg hj]⟩
    (otherTracks_of_eq rfl rfl rfl rfl) (fun _ => rfl) ⟨rfl, rfl⟩ (fun _ _ _ => rfl) fun _ _ _ => rfl

theorem updateBeacon : WithinShow a p cs fs s (s.updateBeacon a) := by
  unfold State.updateBeacon
  split
  · split
    · exact refl
    · exact setBeacon _
  · exact setBeacon _

theorem freezeClock (e : Nat) : WithinShow a p cs fs s (s.freezeClock a e) := setClock _

theorem bumpAuditorium {c : AuditoriumCounter} (hc : Counter.auditorium a c ∈ cs) :
    WithinShow a p cs fs s (s.bumpAuditorium a c) := by
  refine of_quiet (sends_bumpAuditorium s a c).toQuiet ⟨fun _ _ => rfl, fun _ _ => rfl, fun _ _ => rfl, fun _ _ => rfl⟩
      ⟨fun _ _ => rfl, fun _ _ => rfl,
    fun k d _ => ?_, fun _ _ => rfl, fun _ _ => rfl⟩ (fun _ => rfl) ⟨rfl, rfl⟩ (fun d _ hd => ?_)
    fun _ _ _ => rfl
  · rw [State.bumpAuditorium, State.bump, State.count_bumpBy, if_neg (by simp)]
  · rw [State.bumpAuditorium, State.bump, State.count_bumpBy, if_neg]
    rintro rfl
    exact hd hc

theorem setFlag {n : FlagName} {i : Nat} (hf : (⟨n, i⟩ : Flag) ∈ fs) (h1 : n ≠ .overflow) (h2 : n ≠ .paceHold) :
    WithinShow a p cs fs s (s.setFlag n i) := by
  unfold State.setFlag
  split
  · exact refl
  · refine trans (t := s.writeFlag ⟨n, i⟩ true) ?_ (work (sends_alert _ _).plays (elsewhere_alert _ _))
    refine of_quiet (sends_setTrue s _).toQuiet ⟨fun _ _ => rfl, fun _ _ => rfl, fun _ _ => rfl, fun _ _ => rfl⟩
      ⟨fun _ _ => rfl, fun _ _ => rfl,
      fun _ _ _ => rfl, fun k _ => ?_, fun k _ => ?_⟩ (fun _ => rfl) ⟨rfl, rfl⟩ (fun _ _ _ => rfl)
      fun g _ hg => ?_
    · rw [State.flagSet_writeFlag, if_neg]
      rintro ⟨⟩
      exact h1 rfl
    · rw [State.flagSet_writeFlag, if_neg]
      rintro ⟨⟩
      exact h2 rfl
    · rw [State.flagSet_writeFlag, if_neg]
      rintro rfl
      exact hg hf

end WithinShow

/-- A flag's setting event leaves it set. -/
theorem flagSet_setFlag (s : State) (n : FlagName) (i : Nat) : (s.setFlag n i).flagSet ⟨n, i⟩ = true := by
  unfold State.setFlag
  split
  · assumption
  · exact (sends_alert _ _).flags _ (by rw [State.flagSet_writeFlag, if_pos rfl])

/-- The beacon deadline after an event. -/
theorem beacon_updateBeacon (s : State) (a : Nat) :
    (s.updateBeacon a).beacon a =
      if s.beaconEligible a then
        some ((s.beacon a).getD (s.engineTime + (s.auditorium a).params.beaconInterval * 1000))
      else none := by
  unfold State.updateBeacon
  split
  · split
    · rename_i h
      rw [h]; rfl
    · rename_i h
      rw [h, State.beacon_setBeacon, if_pos rfl]; rfl
  · rw [State.beacon_setBeacon, if_pos rfl]

/-- What an event of beacons leaves of everything else. -/
theorem updateBeacon_eq (s : State) (a : Nat) : s.updateBeacon a = { s with beacons := (s.updateBeacon a).beacons } := by
  unfold State.updateBeacon
  split
  · split <;> rfl
  · rfl

/-! ### The tracks after a step handling -/

/-- A relation that work on each track brings about between that track before and after holds after the work over a list
of different tracks. -/
theorem overTracks_at {R : Option Track → Option Track → Prop} {F : State → Nat → State}
    (hs : ∀ s k, Stays k s (F s k)) (hR : ∀ s k, R (s.track k) ((F s k).track k)) {l : List Nat} (hl : l.Nodup)
    {k : Nat} (hk : k ∈ l) (s : State) : R (s.track k) ((l.foldl F s).track k) := by
  induction l generalizing s with
  | nil => cases hk
  | cons x l ih =>
    have hx := List.nodup_cons.mp hl
    rw [List.foldl_cons]
    rcases List.mem_cons.mp hk with rfl | hk'
    · have hst : ((l.foldl F (F s k)).track k) = (F s k).track k :=
        (Elsewhere.foldl (p := (· ≠ k)) l (fun v j hj => (hs v j).mono fun i hi => by
          rintro rfl; exact hx.1 (hi ▸ hj)) (F s k)).track k (by simp)
      rw [hst]
      exact hR s k
    · have hne : k ≠ x := fun h => hx.1 (h ▸ hk')
      have := ih hx.2 hk' (F s x)
      rwa [(hs s x).track k hne] at this

theorem nodup_boundTracks (s : State) (a : Nat) : (s.boundTracks a).Nodup :=
  List.Nodup.filter _ List.nodup_range

theorem paceDown_track (s : State) (k : Nat) :
    ∃ g : Track → Pace, (s.paceDown k).track k = (s.track k).map fun x => { x with pace := g x } := by
  unfold State.paceDown
  split
  · rename_i h
    exact ⟨Track.pace, by rw [h]; rfl⟩
  · rename_i x h
    split
    · refine ⟨fun _ => .opened, ?_⟩
      rw [(sends_paceNotice _ k x false).track k, State.track_setTrack, if_pos rfl, h]
      rfl
    · exact ⟨Track.pace, by rw [h]; rfl⟩

/-- The track after steps 3 and 4. -/
theorem purgeTrack_track (s : State) (k sh : Nat) (f : StepForm) :
    ∃ g : Track → Pace, (s.purgeTrack k sh f).track k = (s.track k).map fun x =>
      { x with
        pending := x.pending.filter fun c => !f.purgesCue sh c
        ring := x.ring.filter fun b => !f.purgesBlock sh b
        lastBlock := f.lastBlock x.lastBlock
        pace := g x } := by
  unfold State.purgeTrack
  split
  · rename_i h
    exact ⟨Track.pace, by rw [h]; rfl⟩
  · rename_i x h
    simp only
    split
    · refine ⟨Track.pace, ?_⟩
      rw [State.bumpBy_track, State.track_setTrack, if_pos rfl, h]
      rfl
    · obtain ⟨g, hg⟩ := paceDown_track ((s.setTrack k (some { x with
        pending := x.pending.filter fun c => !f.purgesCue sh c
        ring := x.ring.filter fun b => !f.purgesBlock sh b
        lastBlock := f.lastBlock x.lastBlock })).bumpBy (.track k .purged)
          ((x.pending.length - (x.pending.filter fun c => !f.purgesCue sh c).length) +
            (x.ring.length - (x.ring.filter fun b => !f.purgesBlock sh b).length))) k
      refine ⟨fun x => g { x with
        pending := x.pending.filter fun c => !f.purgesCue sh c
        ring := x.ring.filter fun b => !f.purgesBlock sh b
        lastBlock := f.lastBlock x.lastBlock }, ?_⟩
      rw [hg, State.bumpBy_track, State.track_setTrack, if_pos rfl, h]
      rfl

theorem clearMarks_track (s : State) (k : Nat) :
    (s.clearMarks k).track k = (s.track k).map fun x =>
      { x with
        pending := x.pending.map fun c => { c with marks := PerBand.all false }
        ring := x.ring.map fun b => { b with marks := PerBand.all false } } := by
  unfold State.clearMarks State.updateTrack
  split
  · rename_i h
    rw [h]; rfl
  · rename_i x h
    rw [State.track_setTrack, if_pos rfl, h]; rfl

theorem purgeCurrent_track (s : State) (k : Nat) :
    (s.purgeCurrent k).track k = (s.track k).map fun x => { x with current := none } := by
  unfold State.purgeCurrent
  split
  · rename_i h
    rw [h]; rfl
  · rename_i x h
    split
    · rw [State.bumpTrack, State.bump, State.bumpBy_track, State.track_setTrack, if_pos rfl, h]; rfl
    · rename_i hc
      rw [h, Option.map_some]
      have : x.current = none := by
        cases hx : x.current with
        | none => rfl
        | some c => rw [hx] at hc; exact (hc rfl).elim
      rw [← this]

/-- The late rule finds nothing to do on a track that holds no content. -/
theorem evaluateTrack_empty {s : State} {k : Nat} {x : Track} (h : s.track k = some x) (hp : x.pending = [])
    (hr : x.ring = []) (sh : Nat) : s.evaluateTrack k sh = s := by
  have h1 : s.lateTrack k sh = s := by
    unfold State.lateTrack
    simp only [h]
    split <;> simp [State.pendingNumbers, State.ringNumbers, h, hp, hr]
  unfold State.evaluateTrack
  rw [h1]
  unfold State.takePassedTrack
  simp only [h]
  split <;> simp [State.pendingNumbers, State.ringNumbers, h, hp, hr]

theorem evaluateTrack_free {s : State} {k : Nat} (h : s.track k = none) (sh : Nat) : s.evaluateTrack k sh = s := by
  unfold State.evaluateTrack State.lateTrack State.takePassedTrack
  simp only [h]

/-- The forms that empty a track: full purge and SHOW END (Table 6-2). -/
def StepForm.empties (f : StepForm) : Prop := f = .step true ∨ f = .showEnd

/-- After the full and the SHOW END forms a track is empty (R110, R113). -/
theorem stepTrack_empties {f : StepForm} (hf : f.empties) (s : State) (a sh k : Nat) :
    ∀ y, (s.stepTrack a sh f k).track k = some y → y.isEmptied := by
  have h1 : ((s.clearDevices k).purgeTrack k sh f).clearMarks k =
      ((s.clearDevices k).purgeTrack k sh f).clearMarks k := rfl
  generalize hv : ((s.clearDevices k).purgeTrack k sh f).clearMarks k = v at h1
  obtain ⟨g, hg⟩ := purgeTrack_track (s.clearDevices k) k sh f
  have ht : ∀ y, v.track k = some y → y.pending = [] ∧ y.ring = [] ∧ y.lastBlock = none := by
    intro y hy
    rw [← hv, clearMarks_track, hg] at hy
    cases hx : (s.clearDevices k).track k with
    | none => rw [hx] at hy; cases hy
    | some x =>
      rw [hx] at hy
      simp only [Option.map_some, Option.some.injEq] at hy
      subst hy
      rcases hf with rfl | rfl <;> simp [StepForm.purgesCue, StepForm.purgesBlock, StepForm.lastBlock]
  have hcur : v.stepCurrent k sh f = v.purgeCurrent k := by rcases hf with rfl | rfl <;> rfl
  have hw : ∀ y, (v.purgeCurrent k).track k = some y → y.isEmptied := by
    intro y hy
    rw [purgeCurrent_track] at hy
    cases hx : v.track k with
    | none => rw [hx] at hy; cases hy
    | some x =>
      rw [hx] at hy
      simp only [Option.map_some, Option.some.injEq] at hy
      subst hy
      obtain ⟨h2, h3, h4⟩ := ht x hx
      exact ⟨h2, h3, rfl, h4⟩
  have hl : (v.purgeCurrent k).stepLate a k sh f = v.purgeCurrent k := by
    cases hx : (v.purgeCurrent k).track k with
    | none =>
      rcases hf with rfl | rfl
      · simp only [State.stepLate, evaluateTrack_free hx]; split <;> rfl
      · rfl
    | some x =>
      obtain ⟨h2, h3, _, _⟩ := hw x hx
      rcases hf with rfl | rfl
      · simp only [State.stepLate, evaluateTrack_empty hx h2 h3]; split <;> rfl
      · rfl
  intro y hy
  unfold State.stepTrack at hy
  rw [hv, hcur, hl] at hy
  exact hw y hy

/-- After the work of such a form over its tracks, an auditorium holds no content. -/
theorem emptied_overTracks {f : StepForm} (hf : f.empties) (s : State) (a sh : Nat) :
    State.emptiedShow ((s.boundTracks a).foldl (fun s k => s.stepTrack a sh f k) s) a := by
  intro k hk y hy
  have hb : BindingsStand s ((s.boundTracks a).foldl (fun s k => s.stepTrack a sh f k) s) :=
    (Plays.foldl (fun s k => plays_stepTrack s a sh f k) _ s).bindings.stand
  rw [hb.boundTracks] at hk
  exact overTracks_at (R := fun _ o => ∀ y, o = some y → y.isEmptied) (fun s k => stays_stepTrack s a sh f k)
    (fun s k => stepTrack_empties hf s a sh k) (nodup_boundTracks s a) hk s y hy

theorem emptied_stepHandling {f : StepForm} (hf : f.empties) (s : State) (a sh : Nat) :
    (s.stepHandling a sh f).emptiedShow a := by
  unfold State.stepHandling
  simp only
  intro k hk y hy
  exact emptied_overTracks hf _ a sh k hk y hy

theorem emptied_houseCheckClearing (s : State) (a : Nat) : (s.houseCheckClearing a).emptiedShow a :=
  emptied_overTracks (.inr rfl) s a (s.showTime a)

/-- Emptiness is of the tracks alone. -/
theorem emptied_of_tracks {s t : State} (h : t.tracks = s.tracks) {a : Nat} (he : s.emptiedShow a) :
    t.emptiedShow a := by
  intro k hk x hx
  rw [boundTracks_of_tracks h] at hk
  exact he k hk x (by rw [← hx]; simp only [State.track, h])

/-- The late rule finds nothing to do in an auditorium that holds no content. -/
theorem evaluateAll_empty {s : State} {a : Nat} (he : s.emptiedShow a) (sh : Nat) : s.evaluateAll a sh = s := by
  unfold State.evaluateAll
  have : ∀ l : List Nat, (∀ k ∈ l, k ∈ s.boundTracks a) → l.foldl (fun s k => s.evaluateTrack k sh) s = s := by
    intro l
    induction l with
    | nil => intro _; rfl
    | cons k l ih =>
      intro hl
      obtain ⟨x, hx, _⟩ := (mem_boundTracks.mp (hl k (List.mem_cons_self ..))).2
      obtain ⟨h1, h2, _, _⟩ := he k (hl k (List.mem_cons_self ..)) x hx
      rw [List.foldl_cons, evaluateTrack_empty hx h1 h2]
      exact ih fun j hj => hl j (List.mem_cons_of_mem _ hj)
  exact this _ fun _ h => h

/-- The LOST form keeps a track's content with its marks cleared, its current cue and its last accepted block (R114). -/
theorem stepTrack_lost (s : State) (a sh k : Nat) :
    (s.stepTrack a sh .lost k).track k = (s.track k).map fun x =>
      { x with
        pending := x.pending.map fun c => { c with marks := PerBand.all false }
        ring := x.ring.map fun b => { b with marks := PerBand.all false } } := by
  have h1 : (s.clearDevices k).purgeTrack k sh .lost = s.clearDevices k ∨
      ((s.clearDevices k).purgeTrack k sh .lost).track k = (s.clearDevices k).track k := by
    right
    unfold State.purgeTrack
    split
    · rfl
    · rename_i x h
      simp only [StepForm.purgesCue, StepForm.purgesBlock, StepForm.lastBlock, Bool.not_false, List.filter_true,
        Nat.sub_self, Nat.add_zero, if_true]
      rw [State.bumpBy_track, State.track_setTrack, if_pos rfl, h]
  have h2 : ((s.clearDevices k).purgeTrack k sh .lost).track k = (s.clearDevices k).track k :=
    h1.elim (fun h => by rw [h]) id
  show (((s.clearDevices k).purgeTrack k sh .lost).clearMarks k).track k = _
  rw [clearMarks_track, h2, (sends_clearDevices s k).track k]

theorem track_lost (s : State) (a sh : Nat) {k : Nat} (hk : k ∈ s.boundTracks a) :
    (s.stepHandling a sh .lost).track k = (s.track k).map fun x =>
      { x with
        pending := x.pending.map fun c => { c with marks := PerBand.all false }
        ring := x.ring.map fun b => { b with marks := PerBand.all false } } := by
  unfold State.stepHandling
  simp only
  have h := ((sends_bumpAuditorium s a .stepHandlings).trans (sends_withdraw _ fun e =>
    e.auditorium == a && e.cls.withdrawnAtStep))
  have ht : ∀ j, ((s.bumpAuditorium a .stepHandlings).withdraw fun e =>
    e.auditorium == a && e.cls.withdrawnAtStep).track j = s.track j := h.track
  rw [← ht k]
  exact overTracks_at (R := fun o o' => o' = o.map fun x =>
    { x with
      pending := x.pending.map fun c => { c with marks := PerBand.all false }
      ring := x.ring.map fun b => { b with marks := PerBand.all false } })
    (fun s k => stays_stepTrack s a sh .lost k) (fun s k => stepTrack_lost s a sh k) (nodup_boundTracks _ a)
    (by rwa [boundTracks_of_tracks h.tracks]) _

/-- Of the auditorium's old AUDIO, CAPTION and CATCHUP entries none waits after a step handling (R109). -/
theorem withdrawn_stepHandling (s : State) (a sh : Nat) (f : StepForm) :
    OldContentWithdrawn a s (s.stepHandling a sh f) := by
  intro e he ha hc
  unfold State.stepHandling at he
  simp only at he
  have hm := (elsewhere_overTracks (fun s k => stays_stepTrack s a sh f k) _ a _).made e he
  rcases hm with h | h
  · exfalso
    have : ∀ (l : List Entry) (v : State),
        (l.foldl (fun s e => s.bumpAuditorium e.auditorium .withdrawn) v).egress = v.egress := by
      intro l
      induction l with
      | nil => intro v; rfl
      | cons x l ih => intro v; rw [List.foldl_cons, ih]; rfl
    unfold State.withdraw at h
    simp only [this] at h
    have hf := (List.mem_filter.mp h).2
    cases hcl : e.cls <;> simp [ha, hcl, EgressClass.withdrawnAtStep] at hf hc
  · exact h.trans' (elsewhere_withdraw (p := fun _ => True) (s.bumpAuditorium a .stepHandlings) _).later

/-! ### Beacons after an event -/

/-- In a state in which beacons run the deadline is kept or set while the auditorium has a member (R116). -/
theorem beacon_running {s : State} {a : Nat} (h : s.lifecycle a ∈ [.running, .paused, .holdover, .test]) :
    (s.updateBeacon a).beacon a = s.beaconRunning a := by
  rw [beacon_updateBeacon]
  unfold State.beaconEligible State.beaconRunning
  simp only [List.mem_cons, List.not_mem_nil, or_false] at h
  rcases h with h | h | h | h <;> by_cases hm : s.memberSum a = 0 <;> simp [h, hm]

/-- In any other state the deadline becomes absent (R116). -/
theorem beacon_stopped {s : State} {a : Nat} (h : s.lifecycle a ∉ [.running, .paused, .holdover, .test]) :
    (s.updateBeacon a).beacon a = none := by
  rw [beacon_updateBeacon]
  unfold State.beaconEligible
  cases hl : s.lifecycle a <;> simp [hl] at h ⊢

/-- Content work and then the beacon leave the auditorium's own records but the beacon deadline as they stood. -/
structure Settled (a : Nat) (v u : State) : Prop where
  clock : u.clock a = v.clock a
  auditorium : u.auditorium a = v.auditorium a
  check : u.check a = v.check a
  running : v.lifecycle a ∈ [.running, .paused, .holdover, .test] → u.beacon a = v.beaconRunning a
  stopped : v.lifecycle a ∉ [.running, .paused, .holdover, .test] → u.beacon a = none

theorem settled {v w : State} {a : Nat} (h : Plays v w) : Settled a v (w.updateBeacon a) := by
  have he := updateBeacon_eq w a
  refine ⟨?_, ?_, ?_, fun hl => ?_, fun hl => ?_⟩
  · rw [he]; exact h.shows.clock a
  · rw [he]; exact h.shows.auditorium a
  · rw [he]; exact h.shows.check a
  · have hw : w.lifecycle a = v.lifecycle a := by simp only [State.lifecycle, h.shows.auditorium]
    rw [beacon_running (by rwa [hw])]
    simp only [State.beaconRunning, h.bindings.stand.memberSum h.patrons, h.shows.beacon, h.shows.auditorium,
      h.engineTime]
  · have hw : w.lifecycle a = v.lifecycle a := by simp only [State.lifecycle, h.shows.auditorium]
    exact beacon_stopped (by rwa [hw])

/-! ### Accepted SHOWTIME frames -/

/-- The state in which an accepted frame is acted on (R29, R31). -/
def State.accepting (s : State) (a ea : Nat) : State :=
  ((s.advance ea).bumpAuditorium a .showtimeAccepted).setClock a { s.clock a with lastAccepted := some ea }

theorem accepting_clock (s : State) (a ea : Nat) : (s.accepting a ea).clock a = { s.clock a with lastAccepted := some ea } := by
  unfold State.accepting
  rw [State.clock_setClock, if_pos rfl]

theorem accepting_auditorium (s : State) (a ea j : Nat) : (s.accepting a ea).auditorium j = s.auditorium j := rfl
theorem accepting_lifecycle (s : State) (a ea j : Nat) : (s.accepting a ea).lifecycle j = s.lifecycle j := rfl
theorem accepting_check (s : State) (a ea j : Nat) : (s.accepting a ea).check j = s.check j := rfl

theorem accepting_showTimeAt (s : State) (a ea e : Nat) : (s.accepting a ea).showTimeAt a e = s.showTimeAt a e := by
  unfold State.showTimeAt
  rw [accepting_clock, accepting_lifecycle]
  rfl

theorem accepting_count (s : State) (a ea : Nat) :
    (s.accepting a ea).count (.auditorium a .showtimeAccepted) =
      min counterMax (s.count (.auditorium a .showtimeAccepted) + 1) := by
  show ((s.advance ea).bumpAuditorium a .showtimeAccepted).count _ = _
  rw [State.bumpAuditorium, State.bump, State.count_bumpBy, if_pos rfl]
  rfl

theorem within_accepting (s : State) (a ea : Nat) {p : Nat → Prop} {cs : List Counter} {fs : List Flag}
    (hc : Counter.auditorium a .showtimeAccepted ∈ cs) :
    WithinShow a p cs fs (s.advance ea) (s.accepting a ea) :=
  (WithinShow.bumpAuditorium hc).trans (WithinShow.setClock _)

/-- An accepted frame is acted on by the auditorium's state and its status (R29 to R31). -/
theorem showtime_accepted {s : State} {ea a : Nat} {f : ShowtimeFrame} {st : ShowStatus} (h : Reports s f)
    (ha : f.auditorium = a) (hst : showStatus f.status = some st)
    (hl : (s.lifecycle a).ignoresShowtime = false) (hi : statusIgnored (s.lifecycle a) st = false) :
    exec (.showtime ea f) s = .next ((s.accepting a ea).actOnShowtime a ea (s.target f) f.composition st) := by
  subst ha
  show execShowtime ea f s = _
  unfold execShowtime State.showtimeFrame
  have ho : (s.advance ea).contentOpen = true := by
    simp [State.contentOpen, State.advance, h.port.1, h.port.2]
  have hj : (s.advance ea).judgeShowtime f = .ok st := by
    unfold State.judgeShowtime
    have hn : auditoriumNumber f.auditorium = true := by simp [auditoriumNumber, h.range.1, h.range.2]
    rw [State.lifecycle] at hl hi
    simp [hn, State.advance_auditorium, hl, hst, hi]
    exact fun h1 => h.source.resolve_left h1
  rw [if_pos ho, hj]
  rfl

end Sys2Proof.Machine
end

