-- ==== Sys2Proof/WellFormed.lean ====
section
/-! DEFINITION. Which steps can be spelled on the wire: every field fits the width Chapter 11 gives it, no body is longer
than 1,496 bytes, and an engine time is a 64-bit count (R24). The meanings are total and ask for none of this. -/

namespace Sys2Proof

/-- `n` fits in `w` bytes. -/
def fitsBytes (w n : Nat) : Bool := n < 256 ^ w

/-- The body length of a cue (Table 11-4) is at most the 1,496 of Table 11-1. -/
def CueBody.wf (c : CueBody) : Bool :=
  fitsBytes 1 c.region && fitsBytes 4 c.number && fitsBytes 8 c.ts && fitsBytes 8 c.te && fitsBytes 1 c.textLen &&
    fitsBytes 1 c.speakerLen && decide (28 + c.tail.length ≤ 1496)

/-- The body length of a block (Table 11-5) is at most the 1,496 of Table 11-1. -/
def BlockBody.wf (b : BlockBody) : Bool :=
  fitsBytes 4 b.seq && fitsBytes 8 b.tp && fitsBytes 4 b.duration && fitsBytes 2 b.payloadLen &&
    decide (22 + b.tail.length ≤ 1496)

/-- An item's id and length are one byte each (Table 11-6). -/
def Item.wf (i : Item) : Bool := fitsBytes 1 i.id && fitsBytes 1 i.value.length

/-- The items of a CONTROL body end within it (R176). -/
def ControlFrame.wf (f : ControlFrame) : Bool :=
  fitsBytes 2 f.tag && fitsBytes 1 f.code && f.items.all Item.wf &&
    decide (3 + (f.items.map fun i => 2 + i.value.length).sum ≤ 1496)

def ShowtimeFrame.wf (f : ShowtimeFrame) : Bool :=
  fitsBytes 1 f.auditorium && fitsBytes 1 f.server && fitsBytes 1 f.status && fitsBytes 8 f.serverTime &&
    fitsBytes 4 f.composition

def JoinFrame.wf (f : JoinFrame) : Bool :=
  fitsBytes 6 f.handle && fitsBytes 1 f.auditorium && fitsBytes 1 f.kind && fitsBytes 2 f.language && fitsBytes 1 f.band

def LeaveFrame.wf (f : LeaveFrame) : Bool := fitsBytes 6 f.handle && fitsBytes 1 f.auditorium

def ReportFrame.wf (f : ReportFrame) : Bool :=
  fitsBytes 6 f.handle && fitsBytes 1 f.auditorium && fitsBytes 1 f.track && fitsBytes 2 f.highest && fitsBytes 1 f.missed

/-- The engine time of a step (0 for POWER_ON, which sets it). -/
def Instr.time : Instr → Nat
  | .powerOn => 0
  | .engineReset t => t
  | .resetCompletion t => t
  | .contentLinkDown t => t
  | .contentLinkUp t => t
  | .deliveryLinkDown t => t
  | .deliveryLinkUp t => t
  | .frameDiscarded t _ _ => t
  | .showtime ea _ => ea
  | .cue ea _ _ => ea
  | .block ea _ _ => ea
  | .copyOffer t => t
  | .control ea _ _ => ea
  | .join ea _ => ea
  | .leave ea _ => ea
  | .report ea _ => ea
  | .flowControlPause ea _ => ea
  | .pauseWindowClose t => t
  | .holdoverExpiry t _ => t
  | .lostExpiry t _ => t
  | .releaseInstant t _ _ => t
  | .currentCueRetirement t _ => t
  | .beaconExpiry t _ => t
  | .reportWindowExpiry t _ => t
  | .holdExpiry t _ => t
  | .generationDeadlineCue t _ => t
  | .generationDeadlineBlock t _ => t
  | .transmissionCompletion t => t
  | .controllerSet t => t
  | .filterWrite t => t
  | .filterRead t => t
  | .maskWrite t => t
  | .auditoriumOpen t => t
  | .auditoriumSet t => t
  | .auditoriumClose t => t
  | .bandSet t => t
  | .trackBind t => t
  | .trackSet t => t
  | .trackUnbind t => t
  | .clockRead t => t
  | .rotationSet t => t
  | .houseCheckStart t => t
  | .houseCheckStop t => t
  | .houseCheckRead t => t
  | .statusRead t => t
  | .statusClear t => t
  | .alertEnable t => t
  | .statisticsSnapshot t => t
  | .statisticsRead t => t
  | .subscriptionRead t => t
  | .deviceDetach t => t
  | .unknownCommand t => t

/-- The operands of a step fit their widths; an event that names an auditorium, a track or a table index names one in
the range of Table 0-2. -/
def Instr.operandsWf : Instr → Bool
  | .frameDiscarded _ _ f => fitsBytes 2 f.etherType && decide (f.data.length ≤ 1500)
  | .showtime _ f => f.wf
  | .cue _ src b => fitsBytes 6 src && b.wf
  | .block _ src b => fitsBytes 6 src && b.wf
  | .control _ src f => fitsBytes 6 src && f.wf
  | .join _ f => f.wf
  | .leave _ f => f.wf
  | .report _ f => f.wf
  | .flowControlPause _ q => fitsBytes 2 q
  | .holdoverExpiry _ a => decide (1 ≤ a ∧ a ≤ 24)
  | .lostExpiry _ a => decide (1 ≤ a ∧ a ≤ 24)
  | .releaseInstant _ k _ => decide (k ≤ 95)
  | .currentCueRetirement _ k => decide (k ≤ 95)
  | .beaconExpiry _ a => decide (1 ≤ a ∧ a ≤ 24)
  | .reportWindowExpiry _ i => decide (i ≤ 4095)
  | .holdExpiry _ i => decide (i ≤ 4095)
  | .generationDeadlineCue _ a => decide (1 ≤ a ∧ a ≤ 24)
  | .generationDeadlineBlock _ a => decide (1 ≤ a ∧ a ≤ 24)
  | .powerOn => true
  | .engineReset _ => true
  | .resetCompletion _ => true
  | .contentLinkDown _ => true
  | .contentLinkUp _ => true
  | .deliveryLinkDown _ => true
  | .deliveryLinkUp _ => true
  | .copyOffer _ => true
  | .pauseWindowClose _ => true
  | .transmissionCompletion _ => true
  | .controllerSet _ => true
  | .filterWrite _ => true
  | .filterRead _ => true
  | .maskWrite _ => true
  | .auditoriumOpen _ => true
  | .auditoriumSet _ => true
  | .auditoriumClose _ => true
  | .bandSet _ => true
  | .trackBind _ => true
  | .trackSet _ => true
  | .trackUnbind _ => true
  | .clockRead _ => true
  | .rotationSet _ => true
  | .houseCheckStart _ => true
  | .houseCheckStop _ => true
  | .houseCheckRead _ => true
  | .statusRead _ => true
  | .statusClear _ => true
  | .alertEnable _ => true
  | .statisticsSnapshot _ => true
  | .statisticsRead _ => true
  | .subscriptionRead _ => true
  | .deviceDetach _ => true
  | .unknownCommand _ => true

/-- A step that can be spelled: its engine time is 64 bits wide and its operands fit. -/
def Instr.wf (i : Instr) : Bool := fitsBytes 8 i.time && i.operandsWf

end Sys2Proof
end

