-- ==== Sys2Proof/Tests/Slice0.lean ====
section
/-! SUPPORT. Tests of the model: ill-formed steps that the well-formedness checks refuse, the worked examples of the manual,
one step of each kind on small states, and for every statement that has hypotheses a state that meets them. -/

namespace Sys2Proof.Tests

set_option Elab.async false

open Sys2Proof Sys2Proof.Machine

/-! ### Ill-formed steps (WellFormed) -/

def cueBody : CueBody := ⟨0, 0, 0, 5, 1000, 2000, 2, 0, [72, 105]⟩
def blockBody : BlockBody := ⟨0, 7, 1000, 20000, 16, List.replicate 16 0⟩

theorem test_wf_accepts :
    Instr.wf (.cue 5 9 cueBody) = true ∧ Instr.wf (.block 5 9 blockBody) = true ∧
      Instr.wf (.control 5 9 ⟨1, 3, [⟨1, [0]⟩]⟩) = true ∧ Instr.wf (.releaseInstant 5 95 3) = true := by decide

theorem test_wf_time : Instr.wf (.copyOffer (2 ^ 64)) = false ∧ Instr.wf (.copyOffer (2 ^ 64 - 1)) = true := by decide

theorem test_wf_cue :
    [{ cueBody with region := 256 }, { cueBody with number := 2 ^ 32 }, { cueBody with ts := 2 ^ 64 },
      { cueBody with te := 2 ^ 64 }, { cueBody with textLen := 256 }, { cueBody with speakerLen := 256 },
      { cueBody with tail := List.replicate 1469 0 }].all (fun b => !Instr.wf (.cue 5 9 b)) = true := by decide +kernel

theorem test_wf_block :
    [{ blockBody with seq := 2 ^ 32 }, { blockBody with tp := 2 ^ 64 }, { blockBody with duration := 2 ^ 32 },
      { blockBody with payloadLen := 65536 }, { blockBody with tail := List.replicate 1475 0 }].all
        (fun b => !Instr.wf (.block 5 9 b)) = true := by decide +kernel

theorem test_wf_control :
    [(⟨65536, 3, []⟩ : ControlFrame), ⟨1, 256, []⟩, ⟨1, 3, [⟨256, []⟩]⟩, ⟨1, 3, [⟨1, List.replicate 256 0⟩]⟩,
      ⟨1, 3, List.replicate 6 ⟨1, List.replicate 255 0⟩⟩].all (fun f => !Instr.wf (.control 5 9 f)) = true := by
  decide +kernel

theorem test_wf_stations :
    Instr.wf (.cue 5 (2 ^ 48) cueBody) = false ∧ Instr.wf (.block 5 (2 ^ 48) blockBody) = false ∧
      Instr.wf (.control 5 (2 ^ 48) ⟨1, 3, []⟩) = false := by decide

theorem test_wf_frames :
    [(⟨256, 0, 1, 0, 0⟩ : ShowtimeFrame), ⟨1, 256, 1, 0, 0⟩, ⟨1, 0, 256, 0, 0⟩, ⟨1, 0, 1, 2 ^ 64, 0⟩,
      ⟨1, 0, 1, 0, 2 ^ 32⟩].all (fun f => !Instr.wf (.showtime 5 f)) = true ∧
    [(⟨2 ^ 48, 3, 1, 0, 0⟩ : JoinFrame), ⟨1, 256, 1, 0, 0⟩, ⟨1, 3, 256, 0, 0⟩, ⟨1, 3, 1, 65536, 0⟩,
      ⟨1, 3, 1, 0, 256⟩].all (fun f => !Instr.wf (.join 5 f)) = true ∧
    [(⟨2 ^ 48, 3⟩ : LeaveFrame), ⟨1, 256⟩].all (fun f => !Instr.wf (.leave 5 f)) = true ∧
    [(⟨2 ^ 48, 3, 0, 0, 0⟩ : ReportFrame), ⟨1, 256, 0, 0, 0⟩, ⟨1, 3, 256, 0, 0⟩, ⟨1, 3, 0, 65536, 0⟩,
      ⟨1, 3, 0, 0, 256⟩].all (fun f => !Instr.wf (.report 5 f)) = true := by decide

theorem test_wf_ranges :
    [Instr.holdoverExpiry 5 0, .holdoverExpiry 5 25, .lostExpiry 5 0, .releaseInstant 5 96 0, .currentCueRetirement 5 96,
      .beaconExpiry 5 25, .reportWindowExpiry 5 4096, .holdExpiry 5 4096, .generationDeadlineCue 5 0,
      .generationDeadlineBlock 5 25, .flowControlPause 5 65536, .frameDiscarded 5 .content ⟨true, 65536, []⟩,
      .frameDiscarded 5 .content ⟨true, 0, List.replicate 1501 0⟩].all (fun i => !Instr.wf i) = true := by decide +kernel

/-! ### The worked examples of the manual -/

/-- R33's arithmetic: e = 2,030 with D = 20 gives C = 253, D = 35, R = 288 (section 2.4). -/
theorem test_slew_example :
    (Clock.slew { Clock.initial with drift := 20 } 9 8 2030).correction = 253 ∧
      (Clock.slew { Clock.initial with drift := 20 } 9 8 2030).drift = 35 ∧
        (Clock.slew { Clock.initial with drift := 20 } 9 8 2030).rate = 288 := by decide

/-- Truncation toward zero: -13 / 8 gives -1 and -1 / 16 gives 0 (R33). -/
theorem test_slew_truncates :
    (Clock.slew Clock.initial 9 8 (-13)).correction = -1 ∧ (Clock.slew Clock.initial 9 8 (-13)).drift = 0 := by decide

/-- From D = 20 an error of -2,030 gives C = -253, D = 5 and R = -248 (section 2.4). -/
theorem test_slew_negative :
    (Clock.slew { Clock.initial with drift := 20 } 9 8 (-2030)).correction = -253 ∧
      (Clock.slew { Clock.initial with drift := 20 } 9 8 (-2030)).drift = 5 ∧
        (Clock.slew { Clock.initial with drift := 20 } 9 8 (-2030)).rate = -248 := by decide

/-- One second after the slew of section 2.4 show time is 601,000,020 + 1,000,288, by the formula of R27 (log entry 21), and
while paused it stands at S0. -/
theorem test_show_time_example :
    Clock.showAt { Clock.initial with e0 := 5000000, s0 := 601000020, rate := 288 } .running 6000000 =
        601000020 + 1000288 ∧
      Clock.showAt { Clock.initial with e0 := 5000000, s0 := 601000020, rate := 288 } .paused 6000000 = 601000020 := by
  decide

/-- Naming auditorium 7 gives 8 to 24, then 1 to 7; naming 24 gives 1 to 24 (R124). -/
theorem test_rotation_example :
    orderAfter 7 = [8, 9, 10, 11, 12, 13, 14, 15, 16, 17, 18, 19, 20, 21, 22, 23, 24, 1, 2, 3, 4, 5, 6, 7] ∧
      orderAfter 24 = auditoria := by decide

/-- The largest quanta value holds grants for 33,554 µs (R131). -/
theorem test_pause_example : pauseEndOf 0 65535 = 33554 ∧ pauseEndOf 10 1 = 11 := by decide

/-- SHOW ENDED of auditorium 5 goes to group 5 × 64 + 32 = 352 (section 1.11). -/
theorem test_group_example : wideGroup 5 = 352 ∧ bandGroup 7 2 1 = 457 := by decide

/-- Released at max(0, Ts - L - Ob): with lead 300,000 and offset 40,000 (R100, section 4.10). -/
theorem test_instant_example :
    releaseInstant { Auditorium.initial with band1 := ⟨true, 40000⟩ } { newTrack .caption 3 0 41 0 8 ⟨300000, 6, 2, false⟩ with
      slot := 0 } 1000000 1 = 660000 ∧
    releaseInstant Auditorium.initial (newTrack .caption 3 0 41 0 8 ⟨300000, 6, 2, false⟩) 200000 0 = 0 := by decide

/-- A report adds at most 64, a report without loss takes 1 away, and the score is held at 256 (R146). -/
theorem test_score_example :
    scoreAfterReport 10 200 = 74 ∧ scoreAfterReport 10 0 = 9 ∧ scoreAfterReport 0 0 = 0 ∧ scoreAfterReport 250 3 = 256 ∧
      scoreAfterWindow 240 = 256 := by decide

/-! ### Small states -/

/-- The state after one step. -/
def after (i : Instr) (s : State) : State :=
  match exec i s with
  | .next t => t
  | .fault _ => State.reset
  | .refused _ => State.reset

def cueAt (n ts te : Nat) (marks : PerBand Bool) : Cue :=
  ⟨newCaption { cueBody with number := n, ts := ts, te := te } false, marks⟩

def blockAt (seq tp : Nat) (gap : Option Gap) (marks : PerBand Bool) : Block :=
  ⟨⟨seq, tp, 20000, [], false, false⟩, gap, marks⟩

def captionTrack : Track := newTrack .caption 5 0 41 0 8 ⟨300000, 6, 2, false⟩

def descriptionTrack : Track := newTrack .description 5 1 41 0 32 ⟨150000, 24, 8, false⟩

/-- Auditorium 5 in a state, with caption track 14 and description track 15, band 1 on, at engine time 10,000,000 with show
time 5,000 and composition 71. -/
def venue (l : Lifecycle) : State :=
  ((({ State.reset with engineTime := 10000000 }.setAuditorium 5 { Auditorium.initial with
    lifecycle := l, band1 := ⟨true, 40000⟩ }).setClock 5 { Clock.initial with
    e0 := 10000000, s0 := 5000, composition := some 71, lastAccepted := some 10000000
    holdoverDeadline := some 13000000, lostDeadline := some 40000000 }).setTrack 14 (some captionTrack)).setTrack 15
    (some descriptionTrack)

/-- The same with 30 members in band 0 of track 14 and 12 in band 0 of track 15. -/
def house (l : Lifecycle) : State := ((venue l).setTrackMembers 14 ⟨30, 0, 0, 0⟩).setTrackMembers 15 ⟨12, 0, 0, 0⟩

def patron : Subscription := ⟨0x900, 5, 14, 0, 10, 9000000, none, none, some 19000000, none⟩

/-- The same with one patron, at index 3. -/
def seat (l : Lifecycle) (r : Subscription) : State :=
  ((venue l).setSubscription 3 (some r)).setTrackMembers 14 ⟨if r.detached then 0 else 1, 0, 0, 0⟩

def order (code : Nat) (items : List Item) : Queued := ⟨7, code, items, 32, 9000000⟩

/-- A state with one command in the queue. -/
def asked (code : Nat) (items : List Item) (s : State) : State := { s with queue := [order code items] }

def waits (a : Nat) (cls : EgressClass) (body : DeliveryBody) (deadline : Option Nat) : Entry :=
  ⟨⟨.group 320, none, body⟩, cls, a, some 14, deadline, 0⟩

def holding (w : List Entry) (s : State) : State := { s with egress := { s.egress with waiting := w } }

def flying (e : Entry) (s : State) : State := { s with egress := { s.egress with inFlight := some e } }

/-- The status of the last RESULT. -/
def reply (s : State) : Option Status :=
  match s.contentOut.getLast? with
  | some (.result _ _ _ status _ _) => some status
  | _ => none

/-- The data of the last RESULT. -/
def replyData (s : State) : List (List Byte) :=
  match s.contentOut.getLast? with
  | some (.result _ _ _ _ _ items) => items.map Item.value
  | _ => []

/-- The bodies of the entries in the pool, the one in flight first. -/
def made (s : State) : List DeliveryBody :=
  (s.egress.inFlight.toList ++ s.egress.waiting).map fun e => e.frame.body

/-! ### Steps of the port, the links and the resets -/

/-- Power-on clears the context, the flag of a link that is DOWN is set (R174). -/
theorem test_power_on :
    (after .powerOn { venue .running with contentUp := false }).lifecycle 5 = .dark ∧
      (after .powerOn { venue .running with contentUp := false }).flags = [(⟨.contentLinkDown, 0⟩, true)] := by decide

/-- The controller list survives an ENGINE RESET, the tracks do not (Table 10-5, R173). -/
theorem test_engine_reset :
    (after (.engineReset 10000000) { asked 0x18 [] (venue .running) with controllers := ⟨some 32, none⟩ }).track 14 =
        none ∧
      (after (.engineReset 10000000) { asked 0x18 [] (venue .running) with controllers := ⟨some 32, none⟩ }).controllers =
        ⟨some 32, none⟩ := by decide

/-- A frame on the wire at an ENGINE RESET is finished: it goes out whole when its transmission completes (R119). -/
theorem test_reset_finishes_frame :
    (after (.transmissionCompletion 10000001) (after (.engineReset 10000000)
      (asked 0x18 [] (flying (waits 5 .audio (.audioFlush 15) none) (venue .running))))).deliveryOut =
      [(waits 5 .audio (.audioFlush 15) none).frame] := by decide +kernel

theorem test_reset_completion :
    (after (.resetCompletion 11000000) { venue .running with resetting := true, deliveryUp := false }).flags =
      [(⟨.deliveryLinkDown, 0⟩, true)] := by decide

theorem test_content_link :
    (after (.contentLinkDown 1) State.reset).flagSet ⟨.contentLinkDown, 0⟩ = true ∧
      (after (.contentLinkUp 1) { State.reset with contentUp := false }).contentUp = true := by decide

/-- The frame in flight is lost and counted, what waits stays (R132). -/
theorem test_delivery_link_down :
    (after (.deliveryLinkDown 1) (flying (waits 5 .audio (.audioFlush 15) none) (venue .running))).count
        (.auditorium 5 .linkAbort) = 1 := by decide

theorem test_delivery_link_up :
    (after (.deliveryLinkUp 1) { holding [waits 5 .caption (.captionClear 14) none] (venue .running) with
      deliveryUp := false }).egress.inFlight.isSome = true := by decide +kernel

/-- A frame of the wrong version is BAD_FRAME (R176). -/
theorem test_frame_discarded :
    (after (.frameDiscarded 1 .content ⟨true, 0x9A16, [2, 3, 0, 0]⟩) State.reset).live =
        [(.device .contentBadFrame, 1)] ∧
      (after (.frameDiscarded 1 .delivery ⟨false, 0x9A16, []⟩) State.reset).live = [(.device .deliveryBadFcs, 1)] := by
  decide

/-- The largest window ends 33,554 µs after the frame (R131). -/
theorem test_pause :
    (after (.flowControlPause 1000 65535) State.reset).egress.pauseEnd = some 34554 ∧
      (after (.pauseWindowClose 34554) (after (.flowControlPause 1000 65535) State.reset)).egress.pauseEnd = none := by
  decide

/-! ### Steps of SHOWTIME and of the watches -/

/-- Table 1-6: PAUSED in READY sets show time at the server's 0 plus the transit allowance. -/
theorem test_showtime_paused :
    ((after (.showtime 10000000 ⟨5, 1, 2, 0, 71⟩) (venue .ready)).clock 5).s0 = 2000 ∧
      (after (.showtime 10000000 ⟨5, 1, 2, 0, 71⟩) (venue .ready)).lifecycle 5 = .paused := by decide +kernel

/-- Table 2-5: a step keeps the drift and takes C to 0. -/
theorem test_showtime_step :
    ((after (.showtime 6000000 ⟨3, 1, 1, 691000000, 5⟩) ((State.reset.setAuditorium 3 { Auditorium.initial with
      lifecycle := .running }).setClock 3 { Clock.initial with
      e0 := 5000000, s0 := 601000020, drift := 35, correction := 253, rate := 288, stepCount := 4
      composition := some 5 })).clock 3) =
    { Clock.initial with
      e0 := 6000000, s0 := 691002000, drift := 35, rate := 35, lastError := 89001692, stepCount := 5
      composition := some 5, lastAccepted := some 6000000, holdoverDeadline := some 9000000
      lostDeadline := some 36000000 } := by decide +kernel

/-- Table 2-7: the lost watch freezes show time at its value at the deadline. -/
theorem test_lost_expiry :
    ((after (.lostExpiry 50000000 9) ((State.reset.setAuditorium 9 { Auditorium.initial with
      lifecycle := .holdover }).setClock 9 { Clock.initial with
      e0 := 20000000, s0 := 100000000, drift := -40, rate := -40, lostDeadline := some 50000000 })).clock 9).s0 =
      129998800 := by decide +kernel

theorem test_holdover_expiry :
    (after (.holdoverExpiry 13000000 5) (venue .running)).lifecycle 5 = .holdover ∧
      (after (.holdoverExpiry 12999999 5) (venue .running)).lifecycle 5 = .running := by decide +kernel

/-! ### Steps of classification and of content -/

/-- Label of auditorium hint 4, a content kind and a language (section 3.2). -/
def hint4 (kind language : Nat) : Label := BitVec.ofNat 32 (12 * 2 ^ 24 + 4 * 2 ^ 19 + kind * 2 ^ 16 + language * 2 ^ 6)

/-- The Filter Table of Table 3-7. -/
def filtered : State :=
  (((((State.reset.setMask 3 0x00FFFFC0).setMask 4 0).setFilter 0 ⟨true, hint4 1 41, 3, 0, 0, true, 30⟩).setFilter 1
    ⟨true, hint4 1 41, 3, 2, 0x40, false, 33⟩).setFilter 2 ⟨true, hint4 2 41, 3, 0, 0, false, 32⟩).setFilter 5
    ⟨true, 0, 4, 0, 0, false, 40⟩

/-- Frames a to e of Table 3-8 and their matches in scan order. -/
theorem test_scan :
    [(1, 41, 0x05), (1, 41, 0x47), (2, 41, 0), (2, 42, 0), (1, 41, 0)].map
      (fun f : Nat × Nat × Nat => filtered.scan (hint4 f.1 f.2.1) (BitVec.ofNat 8 f.2.2)) =
      [[0, 5], [0, 1], [2], [5], [0, 5]] := by decide +kernel

theorem test_cue :
    (after (.cue 1 9 { cueBody with label := hint4 1 41, cls := 0x47 }) filtered).copies.map Copy.target = [30, 33] := by
  decide +kernel

/-- Frame f of Table 3-8 is unclaimed. -/
theorem test_block :
    (after (.block 1 9 blockBody) State.reset).count (.device .unclaimed) = 1 := by decide +kernel

/-- A BLOCK offered to a caption track is KIND_MISMATCH (frame e of Table 3-8). -/
theorem test_copy_offer :
    (after (.copyOffer 1) { venue .running with copies := [⟨.block blockBody, 9, 1, 0, 14⟩] }).live =
      [(.track 14 .kindMismatch, 1)] := by decide +kernel

/-- A new cue is placed behind a cue of equal start and before a later one (R72). -/
theorem test_new_cue :
    (((house .paused).updateTrack 14 fun tr => { tr with
        pending := [cueAt 1 1000 9000 (PerBand.all false), cueAt 2 2000 9000 (PerBand.all false)] }).arriveCue 14
      { cueBody with number := 3, ts := 1000, te := 2000 } none false).track 14 =
    some { captionTrack with
      pending := [cueAt 1 1000 9000 (PerBand.all false), cueAt 3 1000 2000 (PerBand.all false),
        cueAt 2 2000 9000 (PerBand.all false)] } := by decide +kernel

/-- Table 5-6: block 236 behind block 232 carries a gap of 3 blocks and 60,000 µs. -/
theorem test_gap :
    gapBefore ⟨232, 1000720000, 20000⟩ { blockBody with seq := 236, tp := 1000800000 } = some ⟨3, 60000⟩ := by decide

/-- A block late at its arrival is released at once and takes no place (R91). -/
theorem test_late_block :
    made ((house .running).arriveBlock 15 { blockBody with seq := 8, tp := 100000 } none false) =
      [.audio 15 ⟨8, 100000, 20000, List.replicate 16 0, true, false⟩] := by decide +kernel

/-! ### Releases and beacons -/

/-- The band-0 release makes the cue current and retires the one that was (R104). -/
theorem test_release_instant :
    ((after (.releaseInstant 10000000 14 0) ((house .running).updateTrack 14 fun tr => { tr with
      current := some (cueAt 1 1000 900000 (PerBand.all true))
      pending := [cueAt 2 305000 9000000 (PerBand.all false)] })).track 14) =
    some { captionTrack with current := some (cueAt 2 305000 9000000 ⟨true, true, false, false⟩) } := by decide +kernel

theorem test_retirement :
    (((after (.currentCueRetirement 10000000 14) ((house .running).updateTrack 14 fun tr => { tr with
      current := some (cueAt 1 1000 5000 (PerBand.all true)) })).track 14).bind Track.current) = none := by decide +kernel

theorem test_beacon_expiry :
    made (after (.beaconExpiry 10000000 5) ((house .running).setBeacon 5 (some 10000000))) =
        [.beacon 5 (some ⟨.running, some 71, 5000⟩)] ∧
      (after (.beaconExpiry 10000000 5) ((house .running).setBeacon 5 (some 10000000))).beacon 5 = some 10500000 := by
  decide +kernel

/-! ### Egress -/

/-- Grant 2 of Table 7-6: an entry past its deadline is dropped, and the grant chooses again. -/
theorem test_stale :
    made (State.grant (holding [waits 5 .caption (.captionClear 1) (some 4999), waits 5 .caption (.captionClear 2)
        (some 5000)] (venue .running))) = [.captionClear 2] ∧
      (State.grant (holding [waits 5 .caption (.captionClear 1) (some 4999), waits 5 .caption (.captionClear 2)
        (some 5000)] (venue .running))).count (.auditorium 5 .stale) = 1 := by decide +kernel

/-- Grant 3 of Table 7-6: AUDIO ranks before CAPTION. -/
theorem test_completion :
    (made (after (.transmissionCompletion 1) (flying (waits 5 .caption (.captionClear 1) none)
      (holding [waits 9 .caption (.captionClear 2) none, waits 24 .audio (.audioFlush 3) none] State.reset)))) =
      [.audioFlush 3, .captionClear 2] := by decide +kernel

/-! ### Subscriptions -/

/-- The rejoin of section 8.10: the score is 0 again and the record keeps its index. -/
theorem test_join_restores :
    ((after (.join 20000000 ⟨0x900, 5, 1, 41, 0⟩) (seat .running { patron with
      score := 256, window := none, hold := some 70000000 })).subscription 3) =
    some { patron with joinTime := 20000000, score := 0, window := some 30000000 } := by decide +kernel

/-- Table 8-5: 20 missing frames raise the score by 4 × 16. -/
theorem test_report :
    ((after (.report 10000000 ⟨0x900, 5, 14, 77, 20⟩) (seat .running { patron with score := 36 })).subscription 3).map
      Subscription.score = some 100 := by decide +kernel

theorem test_leave :
    (after (.leave 10000000 ⟨0x900, 5⟩) (seat .running patron)).subscriptions = [] ∧
      (after (.leave 10000000 ⟨0x900, 6⟩) (seat .running patron)).live = [(.device .leaveMiss, 1)] := by decide +kernel

/-- A LEAVE is taken whatever the content link state (R136). -/
theorem test_leave_without_content :
    (after (.leave 10000000 ⟨0x900, 5⟩) { seat .running patron with contentUp := false }).subscriptions = [] := by
  decide +kernel

/-- Table 8-5: the sixth expiry, 244 + 16 held at 256, detaches with the hold 60 s on. -/
theorem test_window_expiry :
    ((after (.reportWindowExpiry 180000000 3) (seat .running { patron with score := 244, window := some 180000000 }
      )).subscription 3) = some { patron with score := 256, window := none, hold := some 240000000 } := by decide +kernel

theorem test_hold_expiry :
    (after (.holdExpiry 70000000 3) (seat .running { patron with score := 256, window := none, hold := some 70000000 }
      )).subscriptions = [] := by decide +kernel

theorem test_device_detach :
    (after (.deviceDetach 10000000) (asked 0x17 [dataItem 1 1 5, dataItem 2 6 0x900] (seat .running patron))).memberCount
      14 0 = 0 := by decide +kernel

theorem test_subscription_read :
    ((replyData (after (.subscriptionRead 10000000) (asked 0x16 [dataItem 3 6 0x900] (seat .running patron)))).map
      List.length)[0]? = some 2 := by decide +kernel

/-! ### Auditoria, bands and tracks -/

/-- The first three rows of Table 1-6. -/
theorem test_auditorium_open :
    ((after (.auditoriumOpen 1) (asked 0x05 [dataItem 1 1 5, dataItem 3 8 3000] State.reset)).auditorium 5) =
      { Auditorium.initial with lifecycle := .preparing, params := { Params.default with transit := 3000 } } := by
  decide +kernel

theorem test_auditorium_set :
    reply (after (.auditoriumSet 1) (asked 0x06 [dataItem 1 1 5, dataItem 3 8 20001] (venue .ready))) =
        some (.done true) ∧
      reply (after (.auditoriumSet 1) (asked 0x06 [dataItem 1 1 6] (venue .ready))) = some (.refused .wrongState) := by
  decide +kernel

/-- Table 1-6: the close ends with SHOW ENDED to group 352, its RESULT still owed. -/
theorem test_auditorium_close :
    made (after (.auditoriumClose 1) (asked 0x07 [dataItem 1 1 5] (venue .ready))) = [.showEnded 5] ∧
      (after (.auditoriumClose 1) (asked 0x07 [dataItem 1 1 5] (venue .ready))).contentOut = [] := by decide +kernel

theorem test_band_set :
    ((after (.bandSet 1) (asked 0x08 [dataItem 1 1 5, dataItem 2 1 3, dataItem 3 1 1] (venue .ready))).auditorium
      5).band3 = ⟨true, 250000⟩ := by decide +kernel

theorem test_track_bind :
    ((after (.trackBind 1) (asked 0x09 [dataItem 1 1 5, dataItem 2 1 1, dataItem 3 2 41, dataItem 4 1 0, dataItem 5 2 32]
      (venue .ready))).track 0) = some (newTrack .caption 5 2 41 0 32 ⟨300000, 24, 8, false⟩) := by decide +kernel

theorem test_track_set :
    ((after (.trackSet 1) (asked 0x0A [dataItem 1 1 14, dataItem 3 2 2] (venue .ready))).track 14).map
      (fun tr => (tr.high, tr.low)) = some (2, 1) := by decide +kernel

theorem test_track_unbind :
    (after (.trackUnbind 1) (asked 0x0B [dataItem 1 1 14] (venue .ready))).boundTracks 5 = [15] ∧
      reply (after (.trackUnbind 1) (asked 0x0B [dataItem 1 1 14] (venue .running))) = some (.refused .wrongState) := by
  decide +kernel

theorem test_clock_read :
    (replyData (after (.clockRead 10001000) (asked 0x0C [dataItem 1 1 5] (venue .running)))).take 3 =
      [beBytes 8 10001000, [3], beBytes 8 6000] := by decide +kernel

/-! ### House checks -/

theorem test_house_check_start :
    ((after (.houseCheckStart 50000000) (asked 0x0E [dataItem 1 1 5, dataItem 2 1 14, dataItem 3 1 2, dataItem 4 2 10,
      dataItem 7 4 1000, dataItem 8 4 2000] (venue .ready))).check 5).deadline = some 51000000 := by decide +kernel

/-- The counter check of Table 9-3, on track 14. -/
def counterCheck (n : Nat) : State :=
  ((venue .test).setClock 5 { Clock.initial with e0 := 50000000 }).setCheck 5 { HouseCheck.initial with
    running := true, track := some 14, mode := some .counter, count := some 10, interval := some 1000
    duration := some 2000, next := some n, deadline := some 51000000 }

/-- Table 9-3: cue 1, "CHECK 1", Ts 1,400,000, Te 3,400,000. -/
theorem test_generation_cue :
    ((((after (.generationDeadlineCue 51000000 5) (counterCheck 1)).track 14).map Track.pending).getD []).map
      (fun c => (c.caption.number, c.caption.ts, c.caption.te, c.caption.text, c.caption.test)) =
      [(0x70000001, 1400000, 3400000, bytesOf [67, 72, 69, 67, 75, 32, 49], true)] := by decide +kernel

theorem test_generation_block :
    (((after (.generationDeadlineBlock 50020000 5) ((counterCheck 1).setCheck 5 { (counterCheck 1).check 5 with
      track := some 15, mode := some .pattern, pattern := some 0xA5, deadline := some 50020000 })).track 15).map
        fun tr => tr.ring.map fun x => (x.audio.seq, x.audio.tp, x.audio.payload.length)) = some [(1, 270000, 240)] := by
  decide +kernel

theorem test_house_check_stop :
    ((after (.houseCheckStop 51000000) (asked 0x0F [dataItem 1 1 5] (counterCheck 1))).check 5).outcome = .stopped ∧
      (after (.houseCheckStop 51000000) (asked 0x0F [dataItem 1 1 5] (counterCheck 1))).lifecycle 5 = .ready := by
  decide +kernel

theorem test_house_check_read :
    (replyData (after (.houseCheckRead 1) (asked 0x10 [dataItem 1 1 5] (counterCheck 1))))[0]? = some [1] := by
  decide +kernel

/-! ### Commands of the tables and of management -/

/-- Table 10-5: the fifth command is answered BUSY, the one from station N counted ACCESS_REFUSED. -/
theorem test_control :
    reply (after (.control 1 32 ⟨0x105, 2, []⟩) { State.reset with queue := List.replicate 4 (order 0x0C []) }) =
        some (.refused .busy) ∧
      (after (.control 1 33 ⟨0x107, 0x11, []⟩) { State.reset with controllers := ⟨some 32, none⟩ }).live =
        [(.device .accessRefused, 1)] := by decide +kernel

theorem test_controller_set :
    (after (.controllerSet 1) (asked 0x01 [dataItem 1 6 32, ⟨2, []⟩] State.reset)).controllers = ⟨some 32, none⟩ := by
  decide +kernel

theorem test_filter_write :
    ((after (.filterWrite 1) (asked 0x02 [dataItem 1 1 63, dataItem 2 1 1, dataItem 3 4 9, dataItem 4 1 7, dataItem 5 1 8,
      dataItem 6 1 255, dataItem 7 1 0, dataItem 8 1 95] State.reset)).filter 63) =
      ⟨true, 9, 7, 8, 255, false, 95⟩ := by decide +kernel

theorem test_filter_read :
    (replyData (after (.filterRead 1) (asked 0x03 [dataItem 1 1 1] filtered))).drop 4 =
      [[0x40], [0], [33], [0, 0xFF, 0xFF, 0xC0]] := by decide +kernel

theorem test_mask_write :
    (after (.maskWrite 1) (asked 0x04 [dataItem 1 1 3, dataItem 2 4 0x00FFFFC0] State.reset)).masks =
      [(3, 0x00FFFFC0)] := by decide +kernel

theorem test_rotation_set :
    ((after (.rotationSet 1) (asked 0x0D [dataItem 1 1 1, dataItem 2 1 1, dataItem 3 1 24] State.reset)
      ).egress.rotation.caption) = ⟨auditoria, .fixed⟩ := by decide +kernel

/-- A flag that does not belong to the scope is refused (R169). -/
theorem test_status_clear :
    reply (after (.statusClear 1) (asked 0x12 [dataItem 1 1 1, dataItem 2 1 5, dataItem 3 1 7] State.reset)) =
        some (.refused .badParameter) ∧
      (after (.statusClear 1) (asked 0x12 [dataItem 1 1 3, dataItem 3 1 6] { State.reset with
        flags := [(⟨.clockStepped, 5⟩, true)] })).flags = [] := by decide +kernel

theorem test_status_read :
    reply (after (.statusRead 1) (asked 0x11 [dataItem 1 1 1, dataItem 2 1 25] State.reset)) =
      some (.refused .badParameter) := by decide +kernel

theorem test_alert_enable :
    (after (.alertEnable 1) (asked 0x13 [dataItem 1 1 1, dataItem 2 1 12] State.reset)).alertEnables =
      [(.clockLost, true)] := by decide +kernel

/-- Table 10-5: the snapshot counts what came before it, and clears with the option. -/
theorem test_snapshot :
    (after (.statisticsSnapshot 5) (asked 0x14 [dataItem 1 1 1] { State.reset with
      live := [(.device .accessRefused, 1)] })).snapshot = [(.device .accessRefused, 1)] ∧
      (after (.statisticsSnapshot 5) (asked 0x14 [dataItem 1 1 1] { State.reset with
        live := [(.device .accessRefused, 1)] })).count (.device .accessRefused) = 0 := by decide +kernel

theorem test_statistics_read :
    (replyData (after (.statisticsRead 5) (asked 0x15 [dataItem 1 1 3] { State.reset with
      snapshot := [(.filterHits 2, 9)], snapshotTime := some 4 }))).length = 65 := by decide +kernel

theorem test_unknown_command :
    reply (after (.unknownCommand 5) (asked 0x19 [] State.reset)) = some (.refused .unknownCommand) := by decide +kernel

/-! ### States that meet the hypotheses of the statements -/

theorem witness_StepRunsFrontOfQueue :
    { State.reset with pending := [Instr.copyOffer 1, Instr.copyOffer 2] }.pending = Instr.copyOffer 1 :: [.copyOffer 2] :=
  rfl

/-- None is due, one is due, two are due. -/
theorem witness_IdlePartTakesDueEventOrTime :
    (State.reset.pending = [] ∧ State.reset.due = []) ∧
    ((venue .running).advance 13000000).pending = [] ∧
      ((venue .running).advance 13000000).due = [.holdoverExpiry 13000000 5] ∧
    2 ≤ ((venue .running).advance 40000000).due.length ∧
    Tbl.Wf id none (seat .running patron).subscriptions ∧
      Instr.reportWindowExpiry 19000000 3 ∈ ((seat .running patron).advance 19000000).due := by decide +kernel

theorem witness_EngineResetClears :
    (asked 0x18 [] (venue .running)).queue = order 0x18 [] :: [] ∧
      (asked 0x18 [dataItem 1 1 0] (venue .running)).queue = order 0x18 [dataItem 1 1 0] :: [] ∧
        (order 0x18 []).code = 0x18 ∧ (order 0x18 [dataItem 1 1 0]).items ≠ [] ∧ { State.reset with resetting := true }.resetting = true := by
  decide

/-- A link UP and DOWN; in flight the SHOW ENDED of a CLOSING auditorium with its RESULT owed, and another frame. -/
def ending : State :=
  flying (waits 5 .caption (.showEnded 5) none) ((venue .running).setAuditorium 5 { (venue .running).auditorium 5 with
    lifecycle := .closing, owed := some ⟨7, 32⟩ })

theorem witness_LinksGoDown :
    State.reset.contentUp = true ∧ { State.reset with contentUp := false }.contentUp = false ∧ ending.deliveryUp = true ∧
      { State.reset with deliveryUp := false }.deliveryUp = false ∧
      (∃ e, ending.egress.inFlight = some e ∧ e.frame.body = .showEnded 5 ∧ ending.lifecycle 5 = .closing ∧
        (ending.auditorium 5).owed = some ⟨7, 32⟩) ∧
      (flying (waits 5 .audio (.audioFlush 15) none) (venue .running)).egress.inFlight =
        some (waits 5 .audio (.audioFlush 15) none) := by
  refine ⟨rfl, rfl, rfl, rfl, ⟨_, rfl, rfl, by decide +kernel, by decide +kernel⟩, rfl⟩

theorem witness_PauseWindowHoldsGrants :
    (State.reset.deliveryUp = true ∧ State.reset.resetting = false) ∧ { State.reset with resetting := true }.resetting = true ∧
      (after (.flowControlPause 1000 1) State.reset).egress.pauseEnd = some 1001 ∧
        1001 ≤ max (after (.flowControlPause 1000 1) State.reset).engineTime 1001 ∧
          max (after (.flowControlPause 1000 1) State.reset).engineTime 1000 < 1001 := by decide

/-- A LEAVE in the shortest Ethernet frame. -/
def leaveFrame : RawFrame := ⟨true, 0x9A16, [1, 0x32, 0, 7] ++ List.replicate 42 0⟩

/-- A CONTROL frame with one item. -/
def controlFrame : RawFrame := ⟨true, 0x9A16, [1, 4, 0, 6, 0, 9, 0x0C, 1, 1, 5]⟩

/-- A frame that fits on each port; a wrong check sequence, a strange type, a pause frame and one without quanta, a wrong
version, a CONTROL frame with half an item. -/
theorem witness_BadFramesAreDiscarded :
    State.reset.portOpen .content = true ∧ { State.reset with deliveryUp := false }.portOpen .delivery = false ∧
    judgeFrame .content ⟨false, 0x9A16, []⟩ = .badFcs ∧ judgeFrame .content ⟨true, 0x0800, []⟩ = .badFrame ∧
      PauseFrame .delivery ⟨true, 0x8808, [0, 1, 0, 9]⟩ ∧ ¬PauseFrame .delivery ⟨true, 0x8808, [0, 1, 0]⟩ ∧
      FrameFits .delivery leaveFrame 0x32 (List.replicate 7 0) ∧ FrameFits .content controlFrame 4 [0, 9, 0x0C, 1, 1, 5] ∧
      (∀ kind body, ¬FrameFits .delivery ⟨true, 0x9A16, [2, 8, 0, 0]⟩ kind body) ∧
      judgeFrame .delivery leaveFrame = .accepted 0x32 (List.replicate 7 0) ∧
      judgeFrame .content { controlFrame with data := [1, 4, 0, 5, 0, 9, 0x0C, 1, 1] } = .badFrame := by
  refine ⟨by decide, by decide, by decide, by decide, ?_, ?_, ⟨by decide, by decide, ⟨7, false, by decide⟩, nofun⟩,
    ⟨by decide, by decide, ⟨3, true, by decide⟩, fun _ _ => ⟨[⟨1, [5]⟩], by decide, by decide⟩⟩,
    fun _ _ h => absurd h.header.2.1 (by decide), by decide, by decide⟩ <;>
  · unfold PauseFrame
    decide

/-- A pool with nothing in its way, a stale entry chosen first and a timely one. -/
theorem witness_GrantTakesChosenEntry :
    (holding [waits 5 .caption (.captionClear 1) (some 4999)] (venue .running)).egress.choose =
        some (waits 5 .caption (.captionClear 1) (some 4999)) ∧ (venue .running).showTime 5 = 5000 ∧
      (holding [waits 5 .caption (.captionClear 1) (some 5000)] (venue .running)).egress.choose =
        some (waits 5 .caption (.captionClear 1) (some 5000)) ∧
      (venue .running).deliveryUp = true ∧ (venue .running).egress.inFlight = none ∧
        (venue .running).egress.wireTail = none ∧ (venue .running).egress.pauseEnd = none := by decide +kernel

/-- Of two classes, two auditoria and two entries of one FIFO. -/
theorem witness_ChoiceIsByClassThenRankThenAge :
    (holding [waits 9 .caption (.captionClear 1) none, waits 2 .caption (.captionClear 2) none,
      waits 2 .caption (.captionClear 3) none, waits 1 .beacon (.captionClear 4) none] State.reset).egress.choose =
        some (waits 2 .caption (.captionClear 2) none) ∧ State.reset.egress.rotation.Ranked := by
  refine ⟨by decide +kernel, ?_⟩
  intro c
  cases c <;> exact List.Perm.refl _

/-- A full pool of one kind of entry, behind some others. -/
def full (head : List Entry) (x : Entry) : State := holding (head ++ List.replicate (1024 - head.length) x) (venue .running)

theorem witness_OfferPlacesEvictsOrRefuses :
    (venue .running).egress.occupancy < 1024 ∧
    (1024 ≤ (full [waits 5 .audio (.audioFlush 1) none] (waits 5 .catchup (.captionClear 1) none)).egress.occupancy ∧
      (full [waits 5 .audio (.audioFlush 1) none] (waits 5 .catchup (.captionClear 1) none)).egress.waiting =
        [waits 5 .audio (.audioFlush 1) none] ++ waits 5 .catchup (.captionClear 1) none ::
          List.replicate 1022 (waits 5 .catchup (.captionClear 1) none)) ∧
    (1024 ≤ (full [waits 5 .beacon (.beacon 5 none) none] (waits 5 .audio (.audioFlush 1) none)).egress.occupancy ∧
      ∀ y ∈ (full [waits 5 .beacon (.beacon 5 none) none] (waits 5 .audio (.audioFlush 1) none)).egress.waiting,
        y.cls ≠ .catchup) ∧
    1024 ≤ (full [] (waits 5 .audio (.audioFlush 1) none)).egress.occupancy ∧
      ∀ y ∈ (full [] (waits 5 .audio (.audioFlush 1) none)).egress.waiting, y.cls ≠ .catchup ∧ y.cls ≠ .beacon := by
  decide +kernel

theorem witness_WithdrawalRemovesWhatItCovers :
    (holding [waits 5 .caption (.captionClear 1) none] (venue .running)).CountersBounded := by
  intro c
  exact Nat.zero_le _

theorem witness_CompletionEndsTransmission :
    (after (.engineReset 10000000) (asked 0x18 [] ending)).egress.wireTail = some ⟨.group 320, none, .showEnded 5⟩ ∧
      (State.reset.egress.wireTail = none ∧ State.reset.egress.inFlight = none) ∧ ending.egress.wireTail = none ∧
        (∃ e, ending.egress.inFlight = some e ∧ e.frame.body = .showEnded 5) ∧ ending.lifecycle 5 = .closing ∧
          (ending.auditorium 5).owed = some ⟨7, 32⟩ ∧ ending.contentUp = true := by
  refine ⟨by decide +kernel, ⟨rfl, rfl⟩, rfl, ⟨_, rfl, rfl⟩, by decide +kernel, by decide +kernel, by decide +kernel⟩

/-! #### SHOWTIME -/

/-- Each check of Table 2-2, at the ends of the auditorium range. -/
theorem witness_ShowtimeChecksInOrder :
    (venue .running).contentUp = true ∧ (venue .running).resetting = false ∧ ¬(1 ≤ 0 ∧ 0 ≤ 24) ∧ ¬(1 ≤ 25 ∧ 25 ≤ 24) ∧
      (State.reset.lifecycle 1 ∈ [.dark, .preparing, .closing] ∧ State.reset.lifecycle 24 ∈ [.dark, .preparing, .closing]) ∧
      ((venue .running).lifecycle 5 ∉ [.dark, .preparing, .closing] ∧ 0 ∉ [1, 2, 3] ∧ 4 ∉ [1, 2, 3]) ∧
      (((venue .running).setAuditorium 5 { (venue .running).auditorium 5 with
        params := { Params.default with source := 9 } }).auditorium 5).params.source ≠ 255 ∧
      ((venue .ready).lifecycle 5 = .ready ∧ ((venue .ready).auditorium 5).params.source = 255) ∧
      (venue .test).lifecycle 5 = .test := by decide +kernel

theorem witness_ShowStarts :
    Reports (house .ready) ⟨5, 1, 1, 0, 71⟩ ∧ (house .ready).lifecycle 5 = .ready ∧
      Reports (counterCheck 1) ⟨5, 1, 1, 0, 71⟩ ∧ (counterCheck 1).lifecycle 5 = .test ∧
        ((counterCheck 1).check 5).track = some 14 ∧ Reports (house .ready) ⟨5, 1, 2, 0, 71⟩ := by
  refine ⟨⟨?_, ?_, ?_⟩, ?_, ⟨?_, ?_, ?_⟩, ?_, ?_, ⟨?_, ?_, ?_⟩⟩ <;> decide +kernel

/-- An error of 249,999 with the stored composition, and one of 0. -/
theorem witness_SmallErrorSlews :
    Reports (house .running) ⟨5, 1, 1, 252999, 71⟩ ∧ (house .running).lifecycle 5 = .running ∧
      ((house .running).clock 5).composition = some 71 ∧
      (((house .running).target ⟨5, 1, 1, 252999, 71⟩ : Int) - (house .running).showTimeAt 5 10000000) = 249999 ∧
      (((house .holdover).target ⟨5, 1, 1, 3000, 71⟩ : Int) - (house .holdover).showTimeAt 5 10000000) = 0 ∧
      (house .holdover).lifecycle 5 = .holdover ∧ (249999 : Int).natAbs < ((house .running).auditorium 5).params.stepThreshold := by
  refine ⟨⟨?_, ?_, ?_⟩, ?_⟩ <;> decide +kernel

/-- Track 14 with cue 1 current and cue 2 pending, released to bands 0 and 1. -/
def screen (l : Lifecycle) : State :=
  (house l).updateTrack 14 fun tr => { tr with
    current := some (cueAt 1 1000 900000 (PerBand.all true)), pending := [cueAt 2 400000 9000000 ⟨false, true, false, false⟩] }

def screenTrack : Track :=
  { captionTrack with
    current := some (cueAt 1 1000 900000 (PerBand.all true)), pending := [cueAt 2 400000 9000000 ⟨false, true, false, false⟩] }

/-- An error of 250,000, and another composition; a track whose step purges its cue and one that keeps it. -/
theorem witness_LargeErrorSteps :
    Reports (house .running) ⟨5, 1, 1, 253000, 71⟩ ∧ (house .running).lifecycle 5 = .running ∧
      (((house .running).target ⟨5, 1, 1, 253000, 71⟩ : Int) - (house .running).showTimeAt 5 10000000) = 250000 ∧
      ((house .running).auditorium 5).params.stepThreshold ≤ (250000 : Int).natAbs ∧
      Reports (house .holdover) ⟨5, 1, 1, 3000, 72⟩ ∧ ((house .holdover).clock 5).composition ≠ some 72 ∧
      (screen .running).track 14 = some screenTrack ∧ screenTrack.current ≠ none ∧
      1 = (screenTrack.pending.length - (screenTrack.keptBy 9000000 (.step false)).pending.length) +
        (screenTrack.ring.length - (screenTrack.keptBy 9000000 (.step false)).ring.length) ∧
      0 = (screenTrack.pending.length - (screenTrack.keptBy 8999999 (.step false)).pending.length) +
        (screenTrack.ring.length - (screenTrack.keptBy 8999999 (.step false)).ring.length) := by
  refine ⟨⟨?_, ?_, ?_⟩, ?_, ?_, ?_, ⟨?_, ?_, ?_⟩, ?_⟩ <;> decide +kernel

/-- Moves of 250,000 and 249,999; a current cue on screen to the last microsecond, no longer, and not yet. -/
theorem witness_PausedFreezesOrMoves :
    Reports (house .running) ⟨5, 1, 2, 253000, 71⟩ ∧
      [Lifecycle.running, .holdover, .lost, .paused].all (fun l => (house l).lifecycle 5 == l) = true ∧
      (((house .running).target ⟨5, 1, 2, 253000, 71⟩ : Int) - (house .running).showTimeAt 5 10000000) = 250000 ∧
      (((house .paused).target ⟨5, 1, 2, 252999, 71⟩ : Int) - (house .paused).showTimeAt 5 90000000) = 249999 ∧
      ((house .paused).clock 5).composition = some 71 ∧ (screen .lost).track 14 = some screenTrack ∧
      screenTrack.current = some (cueAt 1 1000 900000 (PerBand.all true)) ∧ captionTrack.current = none ∧
      399999 + ((screen .lost).auditorium 5).params.minDisplay * 1000 < 900000 ∧
      900000 ≤ 400000 + ((screen .lost).auditorium 5).params.minDisplay * 1000 := by
  refine ⟨⟨?_, ?_, ?_⟩, ?_⟩ <;> decide +kernel

theorem witness_PlayingResumes :
    Reports (house .lost) ⟨5, 1, 1, 253000, 71⟩ ∧ (house .lost).lifecycle 5 = .lost ∧
      (((house .lost).target ⟨5, 1, 1, 253000, 71⟩ : Int) - ((house .lost).clock 5).s0) = 250000 ∧
      Reports (house .paused) ⟨5, 1, 1, 252999, 71⟩ ∧ (house .paused).lifecycle 5 = .paused ∧
      (((house .paused).target ⟨5, 1, 1, 252999, 71⟩ : Int) - ((house .paused).clock 5).s0) = 249999 ∧
      ((house .paused).clock 5).composition = some 71 := by
  refine ⟨⟨?_, ?_, ?_⟩, ?_, ?_, ⟨?_, ?_, ?_⟩, ?_⟩ <;> decide +kernel

theorem witness_StoppedEndsShow :
    Reports (house .running) ⟨5, 1, 3, 0, 71⟩ ∧ (house .running).lifecycle 5 = .running ∧
      (house .running).boundTracks 5 = [14, 15] ∧
      (((house .paused).setTrack 14 none).setTrack 15 none).boundTracks 5 = [] ∧
      (((house .paused).setTrack 14 none).setTrack 15 none).lifecycle 5 = .paused := by
  refine ⟨⟨?_, ?_, ?_⟩, ?_⟩ <;> decide +kernel

/-- At a deadline, and a microsecond before it. -/
theorem witness_WatchesExpire :
    ((house .running).lifecycle 5 = .running ∧ ((house .running).clock 5).holdoverDeadline = some 13000000 ∧
      13000000 ≤ max (house .running).engineTime 13000000 ∧ max (house .running).engineTime 12999999 < 13000000) ∧
    (house .paused).lifecycle 5 ≠ .running ∧ (house .paused).lifecycle 5 ≠ .holdover ∧
    (house .holdover).lifecycle 5 = .holdover ∧ ((house .holdover).clock 5).lostDeadline = some 40000000 ∧
      40000000 ≤ max (house .holdover).engineTime 40000000 := by decide +kernel

/-! #### Content -/

theorem witness_ContentFramesAreClassified :
    (filtered.contentUp = true ∧ filtered.resetting = false ∧ filtered.scan (hint4 1 41) 0x47 = [0, 1]) ∧
      State.reset.scan 0 0 = [] ∧ { State.reset with contentUp := false }.contentUp = false := by decide +kernel

/-- A copy to a FREE track, to a track of the other kind, and one of each kind to its own. -/
def offered (c : Content) (k : Nat) : State := { house .running with copies := [⟨c, 9, 1, 0, k⟩] }

theorem witness_CopyIsOfferedToItsTrack :
    (offered (.cue cueBody) 40).track 40 = none ∧ (offered (.cue cueBody) 40).copies = [⟨.cue cueBody, 9, 1, 0, 40⟩] ∧
      (offered (.block blockBody) 14).track 14 = some captionTrack ∧
      (offered (.block blockBody) 15).track 15 = some descriptionTrack ∧
      (house .running).lifecycle 5 ∉ [.dark, .closing, .test] ∧ (house .test).lifecycle 5 = .test ∧
      State.reset.copies = [] := by decide +kernel

theorem witness_DeletionWithdrawsCue :
    (screen .running).track 14 = some screenTrack ∧ MalformedCue { cueBody with number := 0 } ∧
      ¬MalformedCue ⟨0, 0, 0, 1, 0, 0, 0, 0, []⟩ ∧ ¬MalformedCue ⟨0, 0, 0, 2, 0, 0, 0, 0, []⟩ ∧
      ¬MalformedCue ⟨0, 0, 0, 3, 0, 0, 0, 0, []⟩ ∧
      screenTrack.pendingCue 2 = some (cueAt 2 400000 9000000 ⟨false, true, false, false⟩) ∧
      screenTrack.pendingCue 1 = none ∧ screenTrack.pendingCue 3 = none := by
  unfold MalformedCue
  decide +kernel

def fullTrack (start : Nat) : Track :=
  { captionTrack with pending := (List.range 8).map fun n => cueAt (n + 1) (start + n) 9000000 (PerBand.all false) }

/-- Place in the list while show time advances and while it stands; a full list, the new cue before its last and behind. -/
theorem witness_NewCueTakesItsPlace :
    ¬MalformedCue { cueBody with ts := 305001, te := 900000 } ∧ (house .running).lateFor captionTrack 305000 ∧
      ¬(house .running).lateFor captionTrack 305001 ∧ ¬(house .paused).lateFor captionTrack 1000 ∧
      505000 ≤ (house .running).showTime 5 + ((house .running).auditorium 5).params.minDisplay * 1000 ∧
      (house .running).showTime 5 + ((house .running).auditorium 5).params.minDisplay * 1000 < 505001 ∧ screenTrack.pendingCue 5 = none ∧
      screenTrack.pending.length < screenTrack.depth ∧ ((house .running).lifecycle 5).advancing = true ∧
      ((house .paused).lifecycle 5).advancing = false ∧
      (fullTrack 993).depth ≤ (fullTrack 993).pending.length ∧ ¬MalformedCue { cueBody with number := 9 } ∧
      (fullTrack 993).pendingCue 9 = none ∧
      (fullTrack 993).pending.getLast? = some (cueAt 8 1000 9000000 (PerBand.all false)) ∧
      (fullTrack 994).pending.getLast? = some (cueAt 8 1001 9000000 (PerBand.all false)) := by
  unfold MalformedCue State.lateFor
  decide +kernel

theorem witness_AmendmentReplacesCue :
    ¬MalformedCue { cueBody with number := 2 } ∧ ¬MalformedCue { cueBody with number := 2, ts := 1000, te := 505000 } ∧
      screenTrack.pendingCue 2 = some (cueAt 2 400000 9000000 ⟨false, true, false, false⟩) ∧
      (screen .running).lateFor screenTrack 305000 ∧ ¬(screen .running).lateFor screenTrack 305001 ∧
      ¬(screen .paused).lateFor screenTrack 1000 ∧
      (screen .running).showTime 5 + ((screen .running).auditorium 5).params.minDisplay * 1000 < 505001 ∧
      505000 ≤ (screen .running).showTime 5 + ((screen .running).auditorium 5).params.minDisplay * 1000 ∧
      ¬MalformedCue { cueBody with number := 1, ts := 1000, te := 5000 } ∧ screenTrack.pendingCue 1 = none ∧
      5000 ≤ (screen .running).showTime 5 ∧ (screen .paused).showTime 5 < 5001 := by
  unfold MalformedCue State.lateFor
  decide +kernel

/-- At the high mark and at the low mark, with a source and without. -/
theorem witness_PacingFollowsOccupancy :
    ({ fullTrack 0 with pending := (fullTrack 0).pending.take 6 }.pace = .opened ∧
      (fullTrack 0).high ≤ ({ fullTrack 0 with pending := (fullTrack 0).pending.take 6 } : Track).occupancy) ∧
    ({ fullTrack 0 with pending := (fullTrack 0).pending.take 2, pace := .holding } : Track).occupancy ≤ (fullTrack 0).low ∧
      ((house .running).setTrack 14 (some { fullTrack 0 with source := some ⟨3, 9⟩ })).track 14 =
        some { fullTrack 0 with source := some ⟨3, 9⟩ } := by decide +kernel

def ringTrack : Track :=
  { descriptionTrack with
    ring := [blockAt 7 400000 none (PerBand.all false), blockAt 8 420000 none (PerBand.all false)]
    lastBlock := some ⟨8, 420000, 20000⟩ }

/-- Sequences 8, 9 and 10 behind block 8, a block that goes back in time, and a restart that supersedes block 8 alone. -/
theorem witness_BlockOrderIsChecked :
    ((house .running).setTrack 15 (some ringTrack)).track 15 = some ringTrack ∧
      MalformedBlock { blockBody with duration := 9999 } ∧ MalformedBlock { blockBody with duration := 60001 } ∧
      ¬MalformedBlock { blockBody with duration := 10000 } ∧ ¬MalformedBlock { blockBody with duration := 60000 } ∧
      ({ ringTrack with lastBlock := none } : Track).ring =
        [blockAt 7 400000 none (PerBand.all false)] ++ [blockAt 8 420000 none (PerBand.all false)] ∧
      ¬MalformedBlock { blockBody with seq := 8, tp := 410000 } := by
  unfold MalformedBlock
  decide +kernel

/-- Its band-0 instant reached and a microsecond ahead; a ring with room and a full one. -/
theorem witness_BlockIsPlacedReleasedOrDropped :
    ((house .running).track 15 = some descriptionTrack ∧ ((house .running).lifecycle 5).advancing = true ∧
      155000 - descriptionTrack.lead ≤ (house .running).showTime 5 ∧
      (house .running).showTime 5 < 155001 - descriptionTrack.lead ∧ (house .running).showTime 5 = 5000) ∧
    descriptionTrack.ring.length < descriptionTrack.depth ∧
      ((house .paused).setTrack 15 (some { descriptionTrack with
        ring := List.replicate 32 (blockAt 7 400000 none (PerBand.all false)) })).track 15 =
      some { descriptionTrack with ring := List.replicate 32 (blockAt 7 400000 none (PerBand.all false)) } := by
  decide +kernel

/-! #### Releases -/

/-- Instants reached on a caption and on a description track, and tracks on which none is. -/
theorem witness_ReleaseInstantsAreTakenInOrder :
    ((house .running).lifecycle 5).advancing = true ∧ (house .running).showTime 5 = 5000 ∧
      [cueAt 2 305000 9000000 (PerBand.all false)].find? (fun d => !d.marks.get 0) =
        some (cueAt 2 305000 9000000 (PerBand.all false)) ∧
      dueBands ((house .running).auditorium 5) captionTrack 305000 (PerBand.all false) 5000 true = [1] ++ 0 :: [] ∧
      dueBands ((house .running).auditorium 5) descriptionTrack 155000 (PerBand.all false) 5000 true = [1] ++ 0 :: [] ∧
      5000 < 305001 - captionTrack.lead - (((house .running).auditorium 5).band 0).offset ∧
      ((house .running).setTrack 14 (some { captionTrack with pending := [cueAt 2 305000 9000000 (PerBand.all false)] })
        ).track 14 = some { captionTrack with pending := [cueAt 2 305000 9000000 (PerBand.all false)] } ∧
      { captionTrack with pending := [cueAt 2 305000 9000000 (PerBand.all false)] }.pendingCue 2 =
        some (cueAt 2 305000 9000000 (PerBand.all false)) ∧
      ringTrack.ringBlock 8 = some (blockAt 8 420000 none (PerBand.all false)) ∧
      ((house .paused).lifecycle 5).advancing = false ∧ (house .running).track 0 = none ∧
      (((house .running).auditorium 5).band 3).enabled = false := by decide +kernel

theorem witness_ReleaseMarksAndSends :
    (screen .running).track 14 = some screenTrack ∧
      screenTrack.pendingCue 2 = some (cueAt 2 400000 9000000 ⟨false, true, false, false⟩) ∧
      ((house .running).setTrack 15 (some ringTrack)).track 15 = some ringTrack ∧
      ringTrack.ringBlock 8 = some (blockAt 8 420000 none (PerBand.all false)) ∧
      (screen .running).memberCount 14 0 ≠ 0 ∧ (screen .running).memberCount 14 1 = 0 ∧ screenTrack.current ≠ none ∧
      (blockAt 8 420000 (some ⟨3, 60000⟩) (PerBand.all false)).gap = some ⟨3, 60000⟩ ∧
      (seat .running { patron with score := 128 }).records.filter
        (fun e => e.2.track = 14 ∧ e.2.band = 0 ∧ 128 ≤ e.2.score ∧ e.2.score < 256) =
          [(3, { patron with score := 128 })] := by decide +kernel

/-- At the end of the current cue and a microsecond before it. -/
theorem witness_CurrentCueRetires :
    (screen .running).track 14 = some screenTrack ∧ ((screen .running).lifecycle 5).advancing = true ∧
      screenTrack.current = some (cueAt 1 1000 900000 (PerBand.all true)) ∧
      900000 ≤ ((screen .running).advance 10895000).showTime 5 ∧
      ((screen .running).advance 10894999).showTime 5 < 900000 := by decide +kernel

/-- Ahead of the instant, with the remaining display too short, and with 1 µs more of it than that; a block ahead of its
instant, at it, a microsecond before its Tp and at it. -/
theorem witness_LateCueIsReleasedOrExpired :
    (screen .running).track 14 = some screenTrack ∧
      screenTrack.pendingCue 2 = some (cueAt 2 400000 9000000 ⟨false, true, false, false⟩) ∧
      99999 < 400000 - screenTrack.lead ∧ 400000 - screenTrack.lead ≤ 100000 ∧
      9000000 ≤ 8500000 + ((screen .running).auditorium 5).params.minDisplay * 1000 ∧
      8499999 + ((screen .running).auditorium 5).params.minDisplay * 1000 < 9000000 ∧
      400000 - screenTrack.lead ≤ 8499999 ∧
      ((house .running).setTrack 15 (some ringTrack)).track 15 = some ringTrack ∧
      ringTrack.ringBlock 8 = some (blockAt 8 420000 none (PerBand.all false)) ∧
      269999 < 420000 - ringTrack.lead ∧ 420000 - ringTrack.lead ≤ 270000 ∧ 420000 - ringTrack.lead ≤ 419999 ∧
      screenTrack.kind = .caption ∧ ringTrack.kind = .description := by decide +kernel

/-- A deadline reached and one a microsecond ahead; the link UP and DOWN; a beacon waiting and none. -/
theorem witness_BeaconExpires :
    ((house .running).setBeacon 5 (some 10000000)).beacon 5 = some 10000000 ∧
      10000000 ≤ max ((house .running).setBeacon 5 (some 10000000)).engineTime 10000000 ∧
      max ((house .running).setBeacon 5 (some 10000000)).engineTime 10000000 < 10000001 ∧
      (house .running).deliveryUp = true ∧ (house .running).egress.waiting = [] ∧
      (∃ e ∈ (holding [waits 5 .beacon (.beacon 5 none) none] (house .running)).egress.waiting,
        e.cls = .beacon ∧ e.auditorium = 5) := by
  decide +kernel

/-! #### Subscriptions -/

/-- The one track of its kind that a JOIN may find. -/
theorem seat_fits (l : Lifecycle) (r : Subscription) : JoinFits (seat l r) ⟨0x900, 5, 1, 41, 0⟩ 14 :=
  ⟨captionTrack, by decide, rfl, rfl, .inl ⟨rfl, rfl⟩, .inr rfl⟩

/-- No show, no track, a band that is off, an auditorium at its limit, a full table, and an accepted JOIN. -/
theorem witness_JoinsAreJudged :
    State.reset.lifecycle 5 ∉ [.ready, .running, .paused, .holdover, .lost, .test] ∧
      (venue .running).lifecycle 5 ∈ [.ready, .running, .paused, .holdover, .lost, .test] ∧
      (∀ k, ¬JoinFits State.reset ⟨0x900, 5, 1, 41, 0⟩ k) ∧
      (∀ j, j < 14 → ¬JoinFits (seat .running patron) ⟨0x900, 5, 1, 41, 0⟩ j) ∧
      (((seat .running patron).auditorium 5).band 2).enabled = false ∧
      (((seat .running patron).auditorium 5).band 1).enabled = true ∧
      JoinAdds (seat .running patron) ⟨0x901, 5, 1, 41, 0⟩ ∧ (seat .running patron).memberRecords 5 = 1 ∧
      (seat .running patron).findHandle 0x901 = none ∧ (seat .running patron).subscription 0 = none ∧
      Returned (seat .running patron) 0x900 5 ∧
      (seat .running patron).judgeJoin ⟨0x900, 5, 1, 40, 0⟩ = .error .noSuchTrack := by
  refine ⟨by decide +kernel, by decide +kernel, ?_, ?_, by decide +kernel, by decide +kernel, ?_, by decide +kernel,
    by decide +kernel, by decide +kernel, ⟨⟨by decide +kernel, by decide +kernel⟩, by decide, by decide⟩, rfl⟩
  · rintro k ⟨tr, -, h, -⟩
    cases h
  · rintro j hj ⟨tr, -, h, -⟩
    revert h
    have : (seat .running patron).track j = none := by
      have : ∀ j, j < 14 → (seat .running patron).track j = none := by decide +kernel
      exact this j hj
    simp [this]
  · intro i r h
    have : (seat .running patron).findHandle 0x901 = none := by decide +kernel
    rw [this] at h
    cases h

/-- A new handle, a record that switches, a DETACHED one; catch-up to a caption track. -/
theorem witness_AcceptedJoinSubscribes :
    Returned (seat .running patron) 0x901 5 ∧
      (seat .running patron).judgeJoin ⟨0x901, 5, 1, 41, 0⟩ = .ok (14, 0) ∧
      (seat .running patron).track 14 = some captionTrack ∧ (seat .running patron).findHandle 0x901 = none ∧
      (seat .running patron).subscription 0 = none ∧
      (seat .running patron).judgeJoin ⟨0x900, 5, 2, 41, 0⟩ = .ok (15, 0) ∧
      (seat .running patron).findHandle 0x900 = some (3, patron) ∧ patron.detached = false ∧
      (seat .running { patron with score := 256, window := none, hold := some 70000000 }).judgeJoin
        ⟨0x900, 5, 1, 41, 0⟩ = .ok (14, 0) ∧
      { patron with score := 256 }.detached = true ∧ captionTrack.kind = .caption ∧
      (seat .running patron).lifecycle 5 ∈ [.running, .holdover, .paused] ∧ descriptionTrack.kind = .description := by
  refine ⟨⟨⟨by decide +kernel, by decide +kernel⟩, by decide, by decide⟩, rfl, by decide +kernel, by decide +kernel, by decide +kernel, rfl,
    by decide +kernel, by decide +kernel, rfl, by decide +kernel, rfl, by decide +kernel, rfl⟩

theorem witness_LeaveFreesRecord :
    Returned (seat .running patron) 0x900 5 ∧ Returned (seat .running patron) 0x900 24 ∧
      (seat .running patron).findHandle 0x900 = some (3, patron) ∧ patron.auditorium = 5 ∧
      (seat .running patron).findHandle 0x901 = none ∧ ¬{ seat .running patron with deliveryUp := false }.ReturnsArrive ∧
      Returned { seat .running patron with contentUp := false } 0x900 5 := by
  refine ⟨⟨⟨by decide +kernel, by decide +kernel⟩, by decide, by decide⟩, ⟨⟨by decide +kernel, by decide +kernel⟩, by decide, by decide⟩, ?_, ?_, ?_, fun h => absurd h.1 (by decide),
    ⟨⟨by decide +kernel, by decide +kernel⟩, by decide, by decide⟩⟩ <;>
    decide +kernel

/-- Scores that end at 255 and at 256, a DETACHED record, another track. -/
theorem witness_ReportMovesScore :
    Returned (seat .running { patron with score := 191 }) 0x900 5 ∧
      (seat .running { patron with score := 191 }).findHandle 0x900 = some (3, { patron with score := 191 }) ∧
      min 256 (191 + 4 * min 17 16) = 255 ∧ min 256 (192 + 4 * min 16 16) = 256 ∧
      { patron with score := 255 }.detached = false ∧ { patron with score := 256 }.detached = true ∧
      patron.track ≠ 15 ∧ (seat .running patron).findHandle 0x901 = none := by
  refine ⟨⟨⟨by decide +kernel, by decide +kernel⟩, by decide, by decide⟩, ?_⟩
  decide +kernel

/-- Deadlines reached and a microsecond ahead; scores of 239 and 240. -/
theorem witness_WindowAndHoldExpire :
    (seat .running { patron with score := 239 }).subscription 3 = some { patron with score := 239 } ∧ 239 + 16 < 256 ∧
      256 ≤ 240 + 16 ∧ patron.window = some 19000000 ∧ 19000000 ≤ max (seat .running patron).engineTime 19000000 ∧
      max (seat .running patron).engineTime 18999999 < 19000000 ∧
      (seat .running { patron with score := 256, window := none, hold := some 70000000 }).subscription 3 =
        some { patron with score := 256, window := none, hold := some 70000000 } := by decide +kernel

/-- A state with a command at the head of its queue. -/
theorem heads_asked (code : Nat) (items : List Item) (s : State)
    (h : itemsFit ((commandParams code).getD []) items = true) : Heads (asked code items s) (order code items) [] code :=
  ⟨rfl, rfl, h⟩

theorem witness_DeviceDetachForcesOff :
    Heads (asked 0x17 [dataItem 1 1 5, dataItem 2 6 0x900] (seat .running patron))
        (order 0x17 [dataItem 1 1 5, dataItem 2 6 0x900]) [] 0x17 ∧
      argument (order 0x17 [dataItem 1 1 5, dataItem 2 6 0x900]).items 1 = 5 ∧
      argument (order 0x17 [dataItem 1 1 5, dataItem 2 6 0x900]).items 2 = 0x900 ∧
      (seat .running patron).findHandle 0x900 = some (3, patron) ∧ patron.detached = false ∧
      (seat .running patron).lifecycle 5 ≠ .closing ∧ (seat .closing patron).lifecycle 5 = .closing ∧
      (seat .running patron).findHandle 0x901 = none := by
  refine ⟨heads_asked _ _ _ (by decide), ?_⟩
  decide +kernel

/-! #### House checks -/

def startItems (mode : Nat) : List Item :=
  [dataItem 1 1 5, dataItem 2 1 (if mode = 4 then 15 else 14), dataItem 3 1 mode, dataItem 4 2 10, ⟨5, [65]⟩, dataItem 6 1 7]

/-- A start of each of the modes 1 and 4, and a stop. -/
theorem witness_HouseCheckStartsAndStops :
    Heads (asked 0x0E (startItems 1) (house .ready)) (order 0x0E (startItems 1)) [] 0x0E ∧
      Heads (asked 0x0E (startItems 4) (house .ready)) (order 0x0E (startItems 4)) [] 0x0E ∧
      (argument (startItems 4) 1 = 5 ∧ argument (startItems 4) 2 = 15 ∧ argument (startItems 4) 3 = 4 ∧
        argument (startItems 4) 4 = 10) ∧
      itemBytes (startItems 1) 5 = some [65] ∧ itemNat (startItems 4) 6 ≠ none ∧ (house .ready).lifecycle 5 = .ready ∧
      (house .ready).track 14 = some captionTrack ∧ (house .ready).track 15 = some descriptionTrack ∧
      Heads (asked 0x0F [dataItem 1 1 5] (counterCheck 1)) (order 0x0F [dataItem 1 1 5]) [] 0x0F ∧
      (counterCheck 1).lifecycle 5 = .test ∧ (house .running).lifecycle 5 ≠ .ready := by
  refine ⟨heads_asked _ _ _ (by decide), heads_asked _ _ _ (by decide), ?_, ?_, ?_, ?_, ?_, ?_,
    heads_asked _ _ _ (by decide), ?_⟩ <;> decide +kernel

def patternCheck : State :=
  (counterCheck 1).setCheck 5 { (counterCheck 1).check 5 with
    track := some 15, mode := some .pattern, pattern := some 0xA5, deadline := some 50020000 }

theorem witness_ItemsAreGenerated :
    (((counterCheck 1).check 5).running = true ∧ ((counterCheck 1).check 5).track = some 14 ∧
      (counterCheck 1).track 14 = some captionTrack ∧ ((counterCheck 1).check 5).mode = some .counter ∧
      ((counterCheck 1).check 5).next = some 1 ∧ ((counterCheck 1).check 5).deadline = some 51000000 ∧
      ((counterCheck 1).check 5).duration = some 2000 ∧ ((counterCheck 1).check 5).interval = some 1000 ∧
      ((counterCheck 1).check 5).count = some 10) ∧
    (patternCheck.check 5).running = true ∧ (patternCheck.check 5).track = some 15 ∧
      patternCheck.track 15 = some descriptionTrack ∧ (patternCheck.check 5).pattern = some 0xA5 ∧
      (patternCheck.check 5).next = some 1 ∧ (patternCheck.check 5).deadline = some 50020000 ∧
      (patternCheck.check 5).count = some 10 := by decide +kernel

theorem witness_HouseCheckCompletes :
    (((counterCheck 1).check 5).track = some 14 ∧ (counterCheck 1).track 14 = some captionTrack ∧
      captionTrack.auditorium = 5 ∧ ((counterCheck 1).check 5).deadline ≠ none) ∧
    (((counterCheck 11).setCheck 5 { (counterCheck 11).check 5 with deadline := none }).check 5).running = true ∧
      (((counterCheck 11).setCheck 5 { (counterCheck 11).check 5 with deadline := none }).check 5).deadline = none ∧
      captionTrack.pending = [] ∧ captionTrack.current = none := by decide +kernel

/-! #### Commands -/

/-- Three and four commands wait; a code that Table 11-7 does not list, and items that are not the command's own. -/
theorem witness_CommandsAreQueuedOrRefused :
    (State.reset.contentUp = true ∧ State.reset.resetting = false ∧ State.reset.controllers = ⟨none, none⟩ ∧
      (List.replicate 3 (order 0x0C [])).length < 4 ∧ 4 ≤ (List.replicate 4 (order 0x0C [])).length ∧
      { State.reset with controllers := ⟨some 32, none⟩ }.controllers.entry0.isSome = true) ∧
    (asked 0x19 [] State.reset).queue = order 0x19 [] :: [] ∧ 0x18 < (order 0x19 []).code ∧ (order 0 []).code = 0 ∧
      runOfCode 1 0x0C = some (.clockRead 1) ∧ State.reset.queue = [] ∧ (order 0x0C []).code ≠ 0x18 ∧
      itemsFit ((commandParams 0x0C).getD []) [dataItem 1 1 5, dataItem 9 1 5] = false ∧
      (∀ p ∈ (commandParams 0x0C).getD [], p.id ≠ (dataItem 9 1 5).id) ∧ 0x03 ≠ (order 0x0C []).code := by decide

/-- Table writes at their greatest numbers, and one past them. -/
theorem witness_TableWritesReplace :
    Heads (asked 0x01 [dataItem 1 6 32, ⟨2, []⟩] State.reset) (order 0x01 [dataItem 1 6 32, ⟨2, []⟩]) [] 0x01 ∧
      (itemStation [dataItem 1 6 (2 ^ 40), ⟨2, []⟩] 1 = some (2 ^ 40) ∧ 2 ^ 40 / 2 ^ 40 % 2 = 1 ∧ 32 / 2 ^ 40 % 2 = 0) ∧
      Heads (asked 0x02 ([1, 2, 4, 5, 6, 7, 8].map (fun n => dataItem n 1 0) ++ [dataItem 3 4 9]) State.reset)
        (order 0x02 ([1, 2, 4, 5, 6, 7, 8].map (fun n => dataItem n 1 0) ++ [dataItem 3 4 9])) [] 0x02 ∧
      Heads (asked 0x04 [dataItem 1 1 7, dataItem 2 4 1] State.reset) (order 0x04 [dataItem 1 1 7, dataItem 2 4 1]) []
        0x04 ∧
      argument [dataItem 1 1 7, dataItem 2 4 1] 1 ≤ 7 ∧ 7 < argument [dataItem 1 1 8, dataItem 2 4 1] 1 := by
  refine ⟨heads_asked _ _ _ (by decide), ?_, heads_asked _ _ _ (by decide), heads_asked _ _ _ (by decide), ?_⟩ <;>
    decide +kernel

/-- Auditorium 24 named and 25, class 3 and 4, and no auditorium. -/
theorem witness_RotationSetSetsModeAndOrder :
    Heads (asked 0x0D [dataItem 1 1 3, dataItem 2 1 1, dataItem 3 1 24] State.reset)
        (order 0x0D [dataItem 1 1 3, dataItem 2 1 1, dataItem 3 1 24]) [] 0x0D ∧
      itemNat [dataItem 1 1 3, dataItem 2 1 1, dataItem 3 1 24] 3 = some 24 ∧
      egressClasses[argument [dataItem 1 1 3, dataItem 2 1 1] 1]? = some .catchup ∧
      argument [dataItem 1 1 3, dataItem 2 1 1] 2 = 1 ∧ itemNat [dataItem 1 1 3, dataItem 2 1 1] 3 = none ∧
      3 < argument [dataItem 1 1 4, dataItem 2 1 1] 1 ∧
      itemNat [dataItem 1 1 3, dataItem 2 1 1, dataItem 3 1 25] 3 = some 25 := by
  refine ⟨heads_asked _ _ _ (by decide), ?_⟩
  decide +kernel

/-- Items of a number of bytes in all. -/
def itemsOf (n : Nat) : List Item := List.replicate 5 ⟨1, List.replicate 255 0⟩ ++ [⟨2, List.replicate (n - 1287) 0⟩]

/-- Each read with a number in its range; a command of each form of SUBSCRIPTION READ; items that just fit a RESULT and items
that do not. -/
theorem witness_ReadsChangeNothing :
    ([0x03, 0x0C, 0x10].all fun c => itemsFit ((commandParams c).getD []) [dataItem 1 1 24]) = true ∧
      ([0x11, 0x15].all fun c => itemsFit ((commandParams c).getD []) [dataItem 1 1 2, dataItem 2 1 95]) = true ∧
      (readScope [dataItem 1 1 0] = some .device ∧ readScope [dataItem 1 1 1, dataItem 2 1 24] = some (.auditorium 24) ∧
        readScope [dataItem 1 1 2, dataItem 2 1 95] = some (.track 95) ∧
        readScope [dataItem 1 1 2, dataItem 2 1 96] = none ∧ argument [dataItem 1 1 3] 1 = 3) ∧
      itemsFit ((commandParams 0x16).getD []) [dataItem 1 2 4095, dataItem 2 1 32] = true ∧
      itemsFit ((commandParams 0x16).getD []) [dataItem 3 6 0x900] = true ∧
      (itemNat [dataItem 1 2 4095, dataItem 2 1 32] 1 = some 4095 ∧
        itemNat [dataItem 1 2 4095, dataItem 2 1 32] 2 = some 32 ∧ itemNat [dataItem 3 6 0x900] 3 = some 0x900) ∧
      (seat .running patron).findHandle 0x900 = some (3, patron) ∧ (seat .running patron).findHandle 1 = none ∧
      (seat .running patron).lifecycle 5 ≠ .closing ∧ (house .running).track 14 = some captionTrack ∧
      (house .running).track 95 = none ∧ deviceCounters[18]? = some .deliveryBadFrame ∧
      ((itemsOf 1483).map fun i => 2 + i.value.length).sum = 1483 ∧
      ((itemsOf 1484).map fun i => 2 + i.value.length).sum = 1484 := by decide +kernel

/-- A lost time carried below the holdover time, and none carried. -/
theorem witness_ParametersAreHeld :
    readParams [dataItem 5 4 10000, dataItem 6 4 400] Params.default =
        ({ Params.default with holdover := 10000, lost := 10000 }, true) ∧
      readParams [] Params.default = (Params.default, false) ∧ Params.default.holdover ≤ 10000 := by decide +kernel

theorem witness_AuditoriumOpensAndRetunes :
    Heads (asked 0x05 [dataItem 1 1 24] State.reset) (order 0x05 [dataItem 1 1 24]) [] 0x05 ∧
      argument [dataItem 1 1 24] 1 = 24 ∧ State.reset.lifecycle 24 = .dark ∧ (house .running).lifecycle 5 ≠ .dark ∧
      Heads (asked 0x06 [dataItem 1 1 5, dataItem 5 4 500] (house .running)) (order 0x06 [dataItem 1 1 5, dataItem 5 4 500])
        [] 0x06 ∧
      (house .running).lifecycle 5 ≠ .closing ∧ ((house .running).clock 5).lastAccepted = some 10000000 ∧
      ((house .running).clock 5).holdoverDeadline = some 13000000 ∧ (house .closing).lifecycle 5 = .closing := by
  refine ⟨heads_asked _ _ _ (by decide), ?_, ?_, ?_, heads_asked _ _ _ (by decide), ?_⟩ <;> decide +kernel

/-- The tables and member counts of a house with one patron agree. -/
theorem seat_counted (l : Lifecycle) : (seat l patron).PatronsCounted where
  canonical := ⟨List.pairwise_singleton _ _, by simp [seat, patron, State.setSubscription, State.setTrackMembers, venue, Tbl.set, Tbl.erase, Tbl.insert, State.setTrack, State.setClock, State.setAuditorium, State.reset]⟩
  handles := List.nodup_singleton _
  timed := by
    have : (seat l patron).records = [(3, patron)] := rfl
    rw [this]
    intro e he
    cases List.mem_singleton.mp he
    exact ⟨by decide, by decide, by decide⟩
  tracks := by
    intro k tr h
    have ht : (seat l patron).track k = if 14 = k then some captionTrack else if 15 = k then some descriptionTrack else none := rfl
    rw [ht] at h
    split at h
    · omega
    · split at h
      · omega
      · cases h
  bound := by
    have : (seat l patron).records = [(3, patron)] := rfl
    rw [this]
    intro e he
    cases List.mem_singleton.mp he
    exact ⟨captionTrack, rfl, rfl⟩
  counts := by
    intro k b
    have hr : (seat l patron).records = [(3, patron)] := rfl
    have hm : (seat l patron).memberCount k b = ((if 14 = k then ⟨1, 0, 0, 0⟩ else PerBand.all 0 : PerBand Nat)).get b := rfl
    rw [hr, hm]
    by_cases hk : 14 = k
    · subst hk
      fin_cases b <;> rfl
    · rw [if_neg hk]
      have hp : Subscription.memberOf k b patron = false := by
        have : ((patron.track == k) = false) := by
          show (14 == k) = false
          simpa using hk
        simp [Subscription.memberOf, this]
      fin_cases b <;> simp_all [PerBand.all, PerBand.get]

theorem witness_AuditoriumCloses :
    Heads (asked 0x07 [dataItem 1 1 5] (seat .running patron)) (order 0x07 [dataItem 1 1 5]) [] 0x07 ∧
      argument [dataItem 1 1 5] 1 = 5 ∧ (seat .running patron).lifecycle 5 ≠ .dark ∧
      (seat .running patron).lifecycle 5 ≠ .closing ∧ (seat .running patron).PatronsCounted ∧
      State.reset.lifecycle 5 = .dark ∧ (seat .running patron).egress.occupancy < 1024 ∧
      (seat .running patron).boundTracks 5 = [14, 15] ∧ (seat .running patron).CountersBounded := by
  refine ⟨heads_asked _ _ _ (by decide), ?_, ?_, ?_, seat_counted _, ?_, ?_, ?_, fun c => ?_⟩
  all_goals first | exact Nat.zero_le _ | decide +kernel

/-- A pool that auditorium 6 fills with CAPTION entries. -/
def crowded : State :=
  { seat .running patron with
    egress := { Egress.initial with waiting := List.replicate 1024 (waits 6 .caption (.captionClear 1) none) } }

/-- The pool still refuses SHOW ENDED when the entries of auditorium 5 have left it. -/
theorem witness_AuditoriumCloses_refused :
    crowded.PatronsCounted ∧ crowded.lifecycle 5 = .running ∧
      1024 ≤ (crowded.egress.waiting.filter fun e => e.auditorium != 5).length ∧
      ∀ y ∈ crowded.egress.waiting, y.cls ≠ .catchup ∧ y.cls ≠ .beacon := by
  have h := seat_counted .running
  refine ⟨⟨h.canonical, h.handles, h.timed, h.tracks, h.bound, h.counts⟩, rfl, by decide +kernel, fun y h => ?_⟩
  rw [List.eq_of_mem_replicate h]
  decide

def bandItems (n : Nat) : List Item := [dataItem 1 1 5, dataItem 2 1 n, dataItem 3 1 1, dataItem 4 8 500001]

/-- Bands 1 and 3, and 0 and 4; a band with members and without. -/
theorem witness_BandSetChangesBand :
    Heads (asked 0x08 (bandItems 3) (house .running)) (order 0x08 (bandItems 3)) [] 0x08 ∧
      argument (bandItems 3) 2 = 3 ∧ argument (bandItems 0) 2 = 0 ∧ 3 < argument (bandItems 4) 2 ∧
      (house .running).lifecycle 5 ≠ .dark ∧ (house .running).lifecycle 5 ≠ .closing ∧ State.reset.lifecycle 5 = .dark ∧
      (∀ k ∈ (house .running).boundTracks 5, (house .running).memberCount k 3 = 0) ∧
      (((house .running).auditorium 5).band 3).enabled = false ∧ ((house .running).lifecycle 5).advancing = true ∧
      (∃ k ∈ (house .running).boundTracks 5, ((house .running).setMemberCount 14 1 2).memberCount k 1 ≠ 0) ∧
      itemNat (bandItems 3) 4 = some 500001 ∧ itemNat [dataItem 1 1 5] 4 = none := by
  refine ⟨heads_asked _ _ _ (by decide), ?_⟩
  decide +kernel

def bindItems (kind depth : Nat) : List Item :=
  [dataItem 1 1 5, dataItem 2 1 kind, dataItem 3 2 41, dataItem 4 1 0, dataItem 5 2 depth]

/-- The depths 64 and 256; no room in the pool, and room for just the depth. -/
theorem witness_TrackBinds :
    Heads (asked 0x09 (bindItems 1 64) (house .ready)) (order 0x09 (bindItems 1 64)) [] 0x09 ∧
      Heads (asked 0x09 (bindItems 2 256) (house .ready)) (order 0x09 (bindItems 2 256)) [] 0x09 ∧
      argument (bindItems 2 256) 5 ∈ [32, 64, 128, 256] ∧ argument (bindItems 1 64) 5 ∈ [8, 16, 32, 64] ∧
      (house .ready).lifecycle 5 ∈ [.preparing, .ready, .paused] ∧
      (house .running).lifecycle 5 ∉ [.preparing, .ready, .paused] ∧ (house .ready).track 0 = none ∧
      2 ∉ (house .ready).slots 5 ∧ (∀ i, i < 2 → i ∈ (house .ready).slots 5) ∧ 64 ≤ (house .ready).freeSlots .caption ∧
      ((house .ready).setTrack 14 (some { captionTrack with depth := 2048 - 63 })).freeSlots .caption < 64 := by
  refine ⟨heads_asked _ _ _ (by decide), heads_asked _ _ _ (by decide), ?_⟩
  decide +kernel

theorem witness_TrackSetRetunes :
    Heads (asked 0x0A [dataItem 1 1 14, dataItem 2 8 1] (house .running)) (order 0x0A [dataItem 1 1 14, dataItem 2 8 1]) []
        0x0A ∧
      argument [dataItem 1 1 14, dataItem 2 8 1] 1 = 14 ∧ (house .running).track 14 = some captionTrack ∧
      (house .running).lifecycle captionTrack.auditorium ≠ .closing ∧ State.reset.track 95 = none ∧
      95 < argument [dataItem 1 1 96] 1 ∧
      ({ captionTrack with lead := 1 } : Track).high ≤ 6 ∧ ((house .running).lifecycle 5).advancing = true := by
  refine ⟨heads_asked _ _ _ (by decide), ?_⟩
  decide +kernel

theorem witness_TrackUnbindRefusals :
    Heads (asked 0x0B [dataItem 1 1 14] (house .running)) (order 0x0B [dataItem 1 1 14]) [] 0x0B ∧
      argument [dataItem 1 1 14] 1 = 14 ∧ 95 < argument [dataItem 1 1 96] 1 ∧ argument [dataItem 1 1 95] 1 = 95 ∧
      (house .running).track 95 = none ∧ (house .running).track 14 = some captionTrack ∧
      (house .running).lifecycle captionTrack.auditorium ≠ .ready ∧
      (house .running).lifecycle captionTrack.auditorium ≠ .paused := by
  refine ⟨heads_asked _ _ _ (by decide), ?_⟩
  decide +kernel

/-- A track of several, and the last one. -/
theorem witness_TrackUnbindFrees :
    Heads (asked 0x0B [dataItem 1 1 14] (seat .ready patron)) (order 0x0B [dataItem 1 1 14]) [] 0x0B ∧
      argument [dataItem 1 1 14] 1 = 14 ∧ (seat .ready patron).track 14 = some captionTrack ∧
      (seat .ready patron).PatronsCounted ∧ (seat .ready patron).CountersBounded ∧ (seat .ready patron).lifecycle 5 = .ready ∧
      (seat .ready patron).boundTracks 5 = [14, 15] ∧ ((seat .ready patron).setTrack 15 none).boundTracks 5 = [14] := by
  refine ⟨heads_asked _ _ _ (by decide), ?_, ?_, seat_counted _, fun c => Nat.zero_le _, ?_⟩ <;> decide +kernel

/-- One flag of the part is set. -/
def stepped : State := { house .running with flags := [(⟨.clockStepped, 5⟩, true)] }

/-- With no flag set and with one, which is then the highest. -/
theorem witness_SummaryIsHighestFlag :
    (∀ f : Flag, f.Exists → State.reset.flagSet f = false) ∧
      (Flag.Exists ⟨.clockStepped, 5⟩ ∧ stepped.flagSet ⟨.clockStepped, 5⟩ = true ∧
        (FlagName.clockStepped, 6, Scope.auditorium) ∈ flagTable) ∧
      ∀ g : Flag, g.Exists → stepped.flagSet g = true → g.name.rank < 6 ∨ (g.name = .clockStepped ∧ 5 ≤ g.inst) := by
  refine ⟨fun _ _ => rfl, ⟨⟨by decide, by decide⟩, by decide, by decide⟩, ?_⟩
  intro g _ hg
  have h : stepped.flagSet g = if (⟨.clockStepped, 5⟩ : Flag) = g then true else false := rfl
  rw [h] at hg
  split at hg
  · subst g
    exact .inr ⟨rfl, Nat.le_refl 5⟩
  · cases hg

theorem witness_FlagsEnablesAndSnapshot :
    Heads (asked 0x12 [dataItem 1 1 1, dataItem 2 1 5, dataItem 3 1 6] (house .running))
        (order 0x12 [dataItem 1 1 1, dataItem 2 1 5, dataItem 3 1 6]) [] 0x12 ∧
      readFlags [dataItem 3 1 6] 3 = some [.clockStepped] ∧ readFlags [] 3 = none ∧
      readScope [dataItem 1 1 1, dataItem 2 1 5] = some (.auditorium 5) ∧ argument [dataItem 1 1 3] 1 = 3 ∧
      Heads (asked 0x13 [dataItem 1 1 1, dataItem 2 1 12] (house .running)) (order 0x13 [dataItem 1 1 1, dataItem 2 1 12]) []
        0x13 ∧
      Heads (asked 0x14 [dataItem 1 1 1] (house .running)) (order 0x14 [dataItem 1 1 1]) [] 0x14 ∧
      (itemNat [dataItem 1 1 1] 1).getD 0 = 1 ∧ (itemNat [] 1).getD 0 = 0 ∧ 1 < (itemNat [dataItem 1 1 2] 1).getD 0 := by
  refine ⟨heads_asked _ _ _ (by decide), ?_, ?_, ?_, ?_, heads_asked _ _ _ (by decide), heads_asked _ _ _ (by decide), ?_⟩ <;>
    decide +kernel

/-! #### What every step keeps -/

theorem witness_BoundsAreKept :
    (∃ t, step { house .running with pending := [.powerOn] } = .next t) ∧
      (house .running).PoolBounded ∧ (house .running).QueueBounded ∧ (house .running).CountersBounded ∧
        (house .running).egress.rotation.Ranked ∧ (house .running).FiltersInRange ∧ (house .running).TracksFit := by
  refine ⟨⟨_, rfl⟩, Nat.zero_le _, Nat.zero_le _, fun c => Nat.zero_le _, ?_, fun i => ⟨Nat.zero_le _, Nat.zero_le _,
    Nat.zero_le _⟩, ?_⟩
  · intro c
    cases c <;> exact List.Perm.refl _
  · intro k tr h
    have ht : (house .running).track k =
        if 14 = k then some captionTrack else if 15 = k then some descriptionTrack else none := rfl
    rw [ht] at h
    split at h
    · cases h
      exact ⟨Nat.zero_le _, Nat.zero_le _⟩
    · split at h
      · cases h
        exact ⟨Nat.zero_le _, Nat.zero_le _⟩
      · cases h

theorem witness_PatronsStayCounted :
    (∃ t, step { seat .running patron with pending := [.leave 10000000 ⟨0x900, 5⟩] } = .next t) ∧
      (seat .running patron).PatronsCounted := ⟨⟨_, rfl⟩, seat_counted _⟩

/-- TRACK SET, TRACK UNBIND and TRACK BIND beside another bound track, and the close of another auditorium. -/
theorem witness_OnlyTheirStepsChange_bindings :
    (∃ t, exec (.trackUnbind 1) (asked 0x0B [dataItem 1 1 14] (house .ready)) = .next t) ∧
      (∃ t, exec (.trackSet 1) (asked 0x0A [dataItem 1 1 14] (house .ready)) = .next t) ∧
      (∃ t, exec (.trackBind 1) (asked 0x09 (bindItems 1 64) (house .ready)) = .next t) ∧
      (∃ t, exec (.auditoriumClose 1) (asked 0x07 [dataItem 1 1 6] (house .ready)) = .next t) ∧
      argument [dataItem 1 1 14] 1 = 14 ∧ argument [dataItem 1 1 6] 1 = 6 ∧
      (house .ready).track 15 = some descriptionTrack ∧ descriptionTrack.auditorium = 5 ∧ (house .ready).track 0 = none :=
  ⟨⟨_, rfl⟩, ⟨_, rfl⟩, ⟨_, rfl⟩, ⟨_, rfl⟩, by decide +kernel⟩

theorem witness_OnlyTheirStepsChange :
    (∃ t, exec (.leave 10000000 ⟨0x900, 5⟩) { seat .running patron with flags := [(⟨.clockLost, 5⟩, true)] } = .next t) ∧
      Instr.leave 10000000 ⟨0x900, 5⟩ ≠ .powerOn ∧
      { seat .running patron with flags := [(⟨.clockLost, 5⟩, true)] }.flagSet ⟨.clockLost, 5⟩ = true :=
  ⟨⟨_, rfl⟩, by decide, by decide⟩


end Sys2Proof.Tests
end

/-! PROOFS. The slew of R33: an accepted PLAYING whose error is below the step threshold moves the clock record and the
lifecycle state of its auditorium, looks at the beacon deadline, and does nothing else. -/

namespace Sys2Proof.Machine

/-! ### The arithmetic of the slew -/

/-- C of a slew (R33). -/
def slewCorrection (err : Int) : Int := clampInt (-300) 300 (err.tdiv 8)

/-- D of a slew, from the drift before it (R33). -/
def slewDrift (drift err : Int) : Int := clampInt (-200) 200 (drift + (slewCorrection err).tdiv 16)

/-- The clamp of R to ±500 never acts after a slew: C is within ±300 and D within ±200 (R33). -/
theorem clampInt_slewDrift_add_slewCorrection (drift err : Int) :
    clampInt (-500) 500 (slewDrift drift err + slewCorrection err) = slewDrift drift err + slewCorrection err := by
  have hc : -300 ≤ slewCorrection err ∧ slewCorrection err ≤ 300 := by unfold slewCorrection clampInt; omega
  have hd : -200 ≤ slewDrift drift err ∧ slewDrift drift err ≤ 200 := by unfold slewDrift clampInt; omega
  unfold clampInt
  omega

/-- A slew sets the anchor, C, D and R, and R is the plain sum of the two (R33). -/
theorem Clock.slew_eq (c : Clock) (ea sLoc : Nat) (err : Int) :
    c.slew ea sLoc err = { c with
      e0 := ea, s0 := sLoc, correction := slewCorrection err, drift := slewDrift c.drift err
      rate := slewDrift c.drift err + slewCorrection err } := by
  rw [← clampInt_slewDrift_add_slewCorrection]
  rfl

/-! ### An event that moves the clock record and the lifecycle state alone -/

/-- Clock record and lifecycle state of an auditorium set, the beacon deadline then looked at: what a SHOWTIME that
touches no content does once it is accepted. -/
def State.movesTo (s : State) (a : Nat) (l : Lifecycle) (c : Clock) : State :=
  ((s.setClock a c).setLifecycle a l).updateBeacon a

section
variable (s : State) (a : Nat) (l : Lifecycle) (c : Clock)

theorem settled_movesTo : Settled a ((s.setClock a c).setLifecycle a l) (s.movesTo a l c) := settled (Plays.refl _)

theorem movesTo_clock : (s.movesTo a l c).clock a = c :=
  (settled_movesTo s a l c).clock.trans (State.clock_setClock_same s a c)

theorem movesTo_auditorium : (s.movesTo a l c).auditorium a = { s.auditorium a with lifecycle := l } :=
  (settled_movesTo s a l c).auditorium.trans (State.auditorium_setAuditorium_same ..)

/-- A move to a state in which beacons run keeps the deadline, or sets it from the engine time as it stood (R116). -/
theorem movesTo_beacon (hl : l ∈ [.running, .paused, .holdover, .test]) :
    (s.movesTo a l c).beacon a = s.beaconRunning a := by
  have hparams : (((s.setClock a c).setLifecycle a l).auditorium a).params = (s.auditorium a).params := by
    rw [State.auditorium_setLifecycle, if_pos rfl]
    rfl
  have hbeacon := (settled_movesTo s a l c).running (by rwa [State.lifecycle_setLifecycle_same])
  rw [hbeacon]
  unfold State.beaconRunning
  rw [hparams]
  rfl

theorem movesTo_frame :
    s.movesTo a l c = { s with
      auditoriums := (s.movesTo a l c).auditoriums, clocks := (s.movesTo a l c).clocks
      beacons := (s.movesTo a l c).beacons } := by
  unfold State.movesTo
  rw [updateBeacon_eq]
  rfl

theorem movesTo_live : (s.movesTo a l c).live = s.live := by rw [movesTo_frame]

theorem movesTo_count (d : Counter) : (s.movesTo a l c).count d = s.count d := by
  unfold State.count
  rw [movesTo_live]

theorem within_movesTo {p : Nat → Prop} {cs : List Counter} {fs : List Flag} :
    WithinShow a p cs fs s (s.movesTo a l c) :=
  ((WithinShow.setClock c).trans (WithinShow.setLifecycle l)).trans WithinShow.updateBeacon

end

/-! ### An accepted frame that moves its auditorium -/

section
variable (s : State) (a ea : Nat) (l : Lifecycle) (c : Clock)

/-- Acceptance counts SHOWTIME_ACCEPTED and no other counter. -/
theorem accepting_counts : SameCounts s (s.accepting a ea) [.auditorium a .showtimeAccepted] := by
  intro d hd
  show ((s.advance ea).bumpAuditorium a .showtimeAccepted).count d = s.count d
  rw [State.bumpAuditorium, State.bump, State.count_bumpBy, if_neg (by simpa using hd), State.advance_count]

theorem accepting_movesTo_beacon (hl : l ∈ [.running, .paused, .holdover, .test]) :
    ((s.accepting a ea).movesTo a l c).beacon a = (s.advance ea).beaconRunning a :=
  movesTo_beacon (s.accepting a ea) a l c hl

theorem accepting_movesTo_accepted :
    ((s.accepting a ea).movesTo a l c).count (.auditorium a .showtimeAccepted) =
      min counterMax (s.count (.auditorium a .showtimeAccepted) + 1) :=
  (movesTo_count ..).trans (accepting_count s a ea)

theorem accepting_movesTo_counts :
    SameCounts s ((s.accepting a ea).movesTo a l c) [.auditorium a .showtimeAccepted] :=
  fun d hd => (movesTo_count ..).trans (accepting_counts s a ea d hd)

theorem accepting_movesTo_others : OtherShows a s ((s.accepting a ea).movesTo a l c) := by
  have hadvance : SameShows s (s.advance ea) := ⟨rfl, rfl, rfl, rfl⟩
  have haccept : WithinShow a (s.owns a) [.auditorium a .showtimeAccepted] [] (s.advance ea) (s.accepting a ea) :=
    within_accepting s a ea (List.mem_singleton_self _)
  exact (hadvance.others a).trans (haccept.trans (within_movesTo _ a l c)).shows

theorem accepting_movesTo_frame :
    (s.accepting a ea).movesTo a l c = { s with
      engineTime := max s.engineTime ea
      auditoriums := ((s.accepting a ea).movesTo a l c).auditoriums
      clocks := ((s.accepting a ea).movesTo a l c).clocks
      beacons := ((s.accepting a ea).movesTo a l c).beacons
      live := ((s.accepting a ea).movesTo a l c).live } := by
  rw [movesTo_live]
  exact movesTo_frame (s.accepting a ea) a l c

end

/-! ### The servo below the threshold -/

/-- With the stored composition and an error below the threshold the servo slews (R32, R33). -/
theorem servo_slews {s : State} {a ea target comp : Nat} {err : Int} (hcomp : (s.clock a).composition = some comp)
    (herr : err = (target : Int) - s.showTimeAt a ea) (hsmall : err.natAbs < (s.auditorium a).params.stepThreshold) :
    s.servo a ea target comp = s.movesTo a .running
      ((Clock.slew { s.clock a with lastError := err } ea (s.showTimeAt a ea) err).startWatches
        (s.auditorium a).params ea) := by
  subst herr
  have hreach : reachesThreshold ((target : Int) - s.showTimeAt a ea) (s.auditorium a).params.stepThreshold = false :=
    decide_eq_false (Nat.not_le.mpr hsmall)
  unfold State.servo
  simp only [hcomp, hreach, ne_eq, not_true_eq_false, if_false, Bool.false_eq_true]
  rfl

/-- PLAYING in RUNNING and in HOLDOVER goes to the servo (R9, R13, Table 2-3). -/
theorem playing_servo {s : State} {a : Nat} (hl : s.lifecycle a = .running ∨ s.lifecycle a = .holdover)
    (ea target comp : Nat) : s.actOnShowtime a ea target comp .playing = s.servo a ea target comp := by
  unfold State.actOnShowtime
  rcases hl with hl | hl <;> simp only [hl]

/-- A PLAYING accepted in RUNNING or HOLDOVER is the servo's after its acceptance. -/
theorem showtime_playing_servo {s : State} {ea a : Nat} {f : ShowtimeFrame} (h : Reports s f) (ha : f.auditorium = a)
    (hst : f.status = 1) (hl : s.lifecycle a = .running ∨ s.lifecycle a = .holdover) :
    exec (.showtime ea f) s = .next ((s.accepting a ea).servo a ea (s.target f) f.composition) := by
  have hplaying : showStatus f.status = some .playing := by rw [hst]; rfl
  have hheard : (s.lifecycle a).ignoresShowtime = false := by rcases hl with hl | hl <;> rw [hl] <;> rfl
  rw [showtime_accepted h ha hplaying hheard rfl, playing_servo (s := s.accepting a ea) hl]

/-- A small error slews the clock of the accepted frame, and its auditorium runs (R31 to R33, R41). -/
theorem showtime_slews {s : State} {ea a : Nat} {f : ShowtimeFrame} {e : Int} (h : Reports s f)
    (ha : f.auditorium = a) (hst : f.status = 1) (hl : s.lifecycle a = .running ∨ s.lifecycle a = .holdover)
    (hcomp : (s.clock a).composition = some f.composition) (he : e = (s.target f : Int) - s.showTimeAt a ea)
    (hsmall : e.natAbs < (s.auditorium a).params.stepThreshold) :
    exec (.showtime ea f) s = .next ((s.accepting a ea).movesTo a .running { s.watched a ea with
      e0 := ea, s0 := s.showTimeAt a ea, lastError := e
      correction := slewCorrection e, drift := slewDrift (s.clock a).drift e
      rate := slewDrift (s.clock a).drift e + slewCorrection e }) := by
  have hcomp' : ((s.accepting a ea).clock a).composition = some f.composition := by rwa [accepting_clock]
  have he' : e = (s.target f : Int) - (s.accepting a ea).showTimeAt a ea := by rwa [accepting_showTimeAt]
  rw [showtime_playing_servo h ha hst hl, servo_slews hcomp' he' hsmall, Clock.slew_eq, accepting_showTimeAt,
    accepting_clock]
  rfl

/-- Settles O16: the accepted frame is a slew, and such a move leaves everything but its own records as it stood. -/
theorem smallErrorSlews : Obligations.SmallErrorSlews := by
  intro s ea a f e hreports ha hstatus hl hcomp he hsmall
  exact ⟨_, _, _, showtime_slews hreports ha hstatus hl hcomp he hsmall, rfl, rfl, movesTo_clock ..,
    movesTo_auditorium .., accepting_movesTo_beacon s a ea .running _ (by decide), accepting_movesTo_accepted ..,
    accepting_movesTo_others .., accepting_movesTo_counts s a ea .running _, accepting_movesTo_frame ..⟩

end Sys2Proof.Machine

/-! PROOFS. The refusals of TRACK UNBIND (R67): each of its checks ends the run of the command at the head of the queue
with a REFUSED RESULT, and a run so refused has no effect of its own (R165). -/

namespace Sys2Proof.Machine

/-! ### A run whose body refuses -/

/-- Engine time moving on leaves the head of the queue as it stood. -/
theorem heads_advance {s : State} {q : Queued} {rest : List Queued} {code : Nat} (h : Heads s q rest code) (t : Nat) :
    Heads (s.advance t) q rest code :=
  ⟨h.queue, h.codeIs, h.items⟩

/-- A body that refuses makes the whole run a refused one: its RESULT and counts, and nothing else (R164, R165). -/
theorem runRefused_runHead {s : State} {q : Queued} {rest : List Queued} {code : Nat}
    {body : Queued → State → State × Reply} {r : Reason} (h : Heads s q rest code) (hbody : body q s = s.refuse r) :
    RunRefused s (s.runHead code body) q rest r := by
  rw [runHead_eq h, hbody]
  exact ⟨runEnded_refused h.queue r [], onlyEnds_endRun ..⟩

/-! ### The checks of TRACK UNBIND -/

theorem unbinds_eq_false {l : Lifecycle} (hready : l ≠ .ready) (hpaused : l ≠ .paused) : l.unbinds = false := by
  simp [Lifecycle.unbinds, hready, hpaused]

section
variable {s : State} {q : Queued}

theorem runTrackUnbind_out_of_range (hk : 95 < argument q.items 1) :
    runTrackUnbind q s = s.refuse .badParameter :=
  if_pos hk

theorem runTrackUnbind_free (hk : argument q.items 1 ≤ 95) (hfree : s.track (argument q.items 1) = none) :
    runTrackUnbind q s = s.refuse .wrongState := by
  simp only [runTrackUnbind, if_neg (Nat.not_lt.mpr hk), hfree]

theorem runTrackUnbind_not_unbinding {tr : Track} (hk : argument q.items 1 ≤ 95)
    (hbound : s.track (argument q.items 1) = some tr) (hstate : (s.lifecycle tr.auditorium).unbinds = false) :
    runTrackUnbind q s = s.refuse .wrongState := by
  simp only [runTrackUnbind, if_neg (Nat.not_lt.mpr hk), hbound, hstate, Bool.false_eq_true, if_false]

end

/-- The step TRACK_UNBIND is a refused run where the body refuses at the engine time the step has reached. -/
theorem exec_trackUnbind_refused {s : State} {t : Nat} {q : Queued} {rest : List Queued} {r : Reason}
    (h : Heads s q rest trackUnbindCode) (hbody : runTrackUnbind q (s.advance t) = (s.advance t).refuse r) :
    ∃ u, exec (.trackUnbind t) s = .next u ∧ RunRefused (s.advance t) u q rest r :=
  ⟨_, rfl, runRefused_runHead (heads_advance h t) hbody⟩

/-- Settles O54: one refusal for each check of R67, in its order. -/
theorem trackUnbindRefusals : Obligations.TrackUnbindRefusals := by
  rintro s t q rest _ hheads rfl
  refine ⟨fun hout => ?_, fun hin hfree => ?_, fun tr hin hbound hready hpaused => ?_⟩
  · exact exec_trackUnbind_refused hheads (runTrackUnbind_out_of_range hout)
  · exact exec_trackUnbind_refused hheads (runTrackUnbind_free hin hfree)
  · exact exec_trackUnbind_refused hheads
      (runTrackUnbind_not_unbinding hin hbound (unbinds_eq_false hready hpaused))

end Sys2Proof.Machine

/-! PROOFS. ROTATION SET (R124): the codes it takes, the order it writes, and its run. -/

namespace Sys2Proof.Machine

/-! ### The operands of ROTATION SET -/

/-- The code of a class is its place in the ranking of the classes (Table 11-13, R126). -/
theorem classOfCode_eq_getElem? (n : Nat) : classOfCode n = egressClasses[n]? := by
  match n with
  | 0 | 1 | 2 | 3 | _ + 4 => rfl

theorem rotationModeOfCode_eq_some_iff {n : Nat} {m : RotationMode} :
    rotationModeOfCode n = some m ↔ (n = 0 ∧ m = .automatic) ∨ (n = 1 ∧ m = .fixed) := by
  match n with
  | 0 | 1 => simp [rotationModeOfCode, eq_comm]
  | _ + 2 => simp [rotationModeOfCode]

theorem rotationModeOfCode_eq_none_iff {n : Nat} : rotationModeOfCode n = none ↔ 1 < n := by
  match n with
  | 0 | 1 | _ + 2 => simp [rotationModeOfCode]

theorem auditoriumNumber_eq_true_iff {a : Nat} : auditoriumNumber a = true ↔ 1 ≤ a ∧ a ≤ 24 :=
  decide_eq_true_iff

/-- The order written is the order 1 to 24 rotated past the named auditorium. -/
theorem orderAfter_eq_rotate (a : Nat) : orderAfter a = auditoria.rotate a := by
  refine List.ext_getElem (by simp [orderAfter, auditoria]) fun i _ _ => ?_
  simp [orderAfter, auditoria, List.getElem_rotate, Nat.add_comm]

theorem orderAfter_eq_drop_append_take {a : Nat} (ha : a ≤ 24) :
    orderAfter a = auditoria.drop a ++ auditoria.take a :=
  (orderAfter_eq_rotate a).trans (List.rotate_eq_drop_append_take ha)

/-! ### The body of ROTATION SET -/

section
variable {s : State} {q : Queued}

theorem runRotationSet_class_out_of_range (hc : 3 < argument q.items 1) :
    runRotationSet q s = s.refuse .badParameter := by
  have hnone : egressClasses[argument q.items 1]? = none := List.getElem?_eq_none hc
  simp only [runRotationSet, classOfCode_eq_getElem?, hnone]

theorem runRotationSet_mode_out_of_range (hm : 1 < argument q.items 2) :
    runRotationSet q s = s.refuse .badParameter := by
  simp only [runRotationSet, rotationModeOfCode_eq_none_iff.mpr hm]
  cases classOfCode (argument q.items 1) <;> rfl

theorem runRotationSet_auditorium_out_of_range {a : Nat} (ha : itemNat q.items 3 = some a)
    (hout : ¬(1 ≤ a ∧ a ≤ 24)) : runRotationSet q s = s.refuse .badParameter := by
  simp only [runRotationSet, ha, auditoriumNumber_eq_true_iff, if_neg hout]
  split <;> rfl

/-- With its operands in range, ROTATION SET writes the mode of the class and, where an auditorium is named, its order. -/
theorem runRotationSet_in_range {c : EgressClass} {m : RotationMode}
    (hc : egressClasses[argument q.items 1]? = some c) (hm : rotationModeOfCode (argument q.items 2) = some m)
    (hnamed : ∀ a, itemNat q.items 3 = some a → 1 ≤ a ∧ a ≤ 24) :
    runRotationSet q s =
      (s.setRotation c ⟨((itemNat q.items 3).map orderAfter).getD (s.egress.rotation.get c).order, m⟩,
        .done false []) := by
  simp only [runRotationSet, classOfCode_eq_getElem?, hc, hm]
  cases ha : itemNat q.items 3 with
  | none => rfl
  | some a => exact if_pos (auditoriumNumber_eq_true_iff.mpr (hnamed a ha))

end

/-! ### The run of ROTATION SET -/

/-- A body that answers DONE, the queue as it stood, makes the whole run a taken one (R164, R165). -/
theorem runDone_runHead {s v : State} {q : Queued} {rest : List Queued} {code : Nat}
    {body : Queued → State → State × Reply} {clamped : Bool} {items : List Item} (h : Heads s q rest code)
    (hbody : body q s = (v, .done clamped items)) (hqueue : v.queue = s.queue) :
    RunDone v (s.runHead code body) q rest clamped items := by
  rw [runHead_eq h, hbody]
  exact ⟨runEnded_done (hqueue.trans h.queue) clamped items, onlyEnds_endRun ..⟩

theorem exec_rotationSet_refused {s : State} {t : Nat} {q : Queued} {rest : List Queued} {r : Reason}
    (h : Heads s q rest rotationSetCode) (hbody : runRotationSet q (s.advance t) = (s.advance t).refuse r) :
    ∃ u, exec (.rotationSet t) s = .next u ∧ RunRefused (s.advance t) u q rest r :=
  ⟨_, rfl, runRefused_runHead (heads_advance h t) hbody⟩

/-- Settles O46: the refusals of R124, then the one rotation that a command in range writes. -/
theorem rotationSetSetsModeAndOrder : Obligations.RotationSetSetsModeAndOrder := by
  rintro s t q rest _ hheads rfl
  constructor
  · rintro (hclass | hmode | ⟨a, ha, hout⟩)
    · exact exec_rotationSet_refused hheads (runRotationSet_class_out_of_range hclass)
    · exact exec_rotationSet_refused hheads (runRotationSet_mode_out_of_range hmode)
    · exact exec_rotationSet_refused hheads (runRotationSet_auditorium_out_of_range ha hout)
  · intro c m hc hm hnamed
    have hbody := runRotationSet_in_range (s := s.advance t) hc (rotationModeOfCode_eq_some_iff.mpr hm) hnamed
    refine ⟨_, _, rfl, runDone_runHead (heads_advance hheads t) hbody rfl, rfl, rfl, ?_, fun d hd => ?_,
      fun hnone => ?_, fun a ha => ?_⟩
    · simp [Rotations.get_set]
    · simp [Rotations.get_set, hd]
    · simp [Rotations.get_set, hnone]
    · simp [Rotations.get_set, ha, orderAfter_eq_drop_append_take (hnamed a ha).2]

end Sys2Proof.Machine

/-! PROOFS. What every step keeps (O57, O58), what only its own steps write (O59), and the state after reset (O60). Each row
of the table is looked at once: most keep all bounds and every part alike, and the twelve that write a part on purpose
are then looked at one by one. -/

namespace Sys2Proof.Machine

/-! ### The state that a row answers -/

/-- The state that a row of the table leaves. -/
def after (i : Instr) (s : State) : State :=
  match exec i s with
  | .next t => t
  | .fault _ => s
  | .refused _ => s

/-- Every row answers a next state, from every state. -/
theorem exec_after (i : Instr) (s : State) : exec i s = .next (after i s) := by
  cases i <;> rfl

theorem after_of_exec {i : Instr} {s t : State} (h : exec i s = .next t) : t = after i s :=
  Host.Outcome.next.inj (h.symm.trans (exec_after i s))

/-! ### Bounds kept, parts kept -/

/-- The six bounds, and the agreement of the Subscription Table with the member counts, hold behind a step that starts
with them. -/
structure Keeps (s t : State) : Prop where
  pool : s.PoolBounded → t.PoolBounded
  queue : s.QueueBounded → t.QueueBounded
  rotation : s.egress.rotation.Ranked → t.egress.rotation.Ranked
  counters : s.CountersBounded → t.CountersBounded
  filters : s.FiltersInRange → t.FiltersInRange
  tracks : s.TracksFit → t.TracksFit
  patrons : s.PatronsCounted → t.PatronsCounted

/-- The parts of the state that only steps of their own write. -/
inductive Part where
  | flags
  | controllers
  | filters
  | masks
  | enables
  | bindings

/-- A part as a step that does not write it leaves it: a flag may still be set. -/
def Part.Kept (x : Part) (s t : State) : Prop :=
  match x with
  | .flags => ∀ f, s.flagSet f = true → t.flagSet f = true
  | .controllers => t.controllers = s.controllers
  | .filters => t.filters = s.filters
  | .masks => t.masks = s.masks
  | .enables => t.alertEnables = s.alertEnables
  | .bindings => BindingsStand s t

/-- A step that keeps every bound and writes no part. -/
structure Tame (s t : State) : Prop where
  keeps : Keeps s t
  kept : ∀ x : Part, x.Kept s t

theorem Keeps.trans {s t u : State} (h : Keeps s t) (g : Keeps t u) : Keeps s u where
  pool := g.pool ∘ h.pool
  queue := g.queue ∘ h.queue
  rotation := g.rotation ∘ h.rotation
  counters := g.counters ∘ h.counters
  filters := g.filters ∘ h.filters
  tracks := g.tracks ∘ h.tracks
  patrons := g.patrons ∘ h.patrons

theorem Part.Kept.refl (x : Part) (s : State) : x.Kept s s := by
  cases x with
  | flags => exact fun _ => id
  | bindings => exact BindingsStand.refl s
  | controllers | filters | masks | enables => rfl

theorem Part.Kept.trans {x : Part} {s t u : State} (h : x.Kept s t) (g : x.Kept t u) : x.Kept s u := by
  cases x with
  | flags => exact fun f hf => g f (h f hf)
  | bindings => exact BindingsStand.trans h g
  | controllers | filters | masks | enables => exact Eq.trans g h

theorem Tame.trans {s t u : State} (h : Tame s t) (g : Tame t u) : Tame s u :=
  ⟨h.keeps.trans g.keeps, fun x => (h.kept x).trans (g.kept x)⟩

theorem filtersInRange_of_eq {s t : State} (h : t.filters = s.filters) (hs : s.FiltersInRange) : t.FiltersInRange :=
  fun i => by
    have : t.filter i = s.filter i := by unfold State.filter; rw [h]
    rw [this]
    exact hs i

/-- What is quiet keeps all bounds but those of tracks and subscriptions, and every part but the bindings. -/
theorem Quiet.keeps {s t : State} (h : Quiet s t) (ht : s.TracksFit → t.TracksFit)
    (hp : s.PatronsCounted → t.PatronsCounted) : Keeps s t where
  pool := h.pool
  queue := fun hs => by unfold State.QueueBounded; rw [h.queue]; exact hs
  rotation := h.rotation
  counters := h.counters
  filters := filtersInRange_of_eq h.classifier.filters
  tracks := ht
  patrons := hp

theorem Quiet.kept {s t : State} (h : Quiet s t) {x : Part} (hx : x ≠ .bindings) : x.Kept s t := by
  cases x with
  | flags => exact h.flags
  | controllers => exact h.controllers
  | filters => exact h.classifier.filters
  | masks => exact h.classifier.masks
  | enables => exact h.alertEnables
  | bindings => exact absurd rfl hx

theorem Works.tame {s t : State} (h : Works s t) : Tame s t where
  keeps := h.toQuiet.keeps h.bindings.fit h.counted
  kept x := by
    by_cases hx : x = .bindings
    · subst hx; exact h.bindings.stand
    · exact h.toQuiet.kept hx

theorem Plays.tame {s t : State} (h : Plays s t) : Tame s t := h.works.tame
theorem Sends.tame {s t : State} (h : Sends s t) : Tame s t := h.works.tame

theorem Tame.refl (s : State) : Tame s s := (Works.refl s).tame

theorem Tame.foldl {β : Type} {f : State → β → State} (h : ∀ s x, Tame s (f s x)) (l : List β) (s : State) :
    Tame s (l.foldl f s) := by
  induction l generalizing s with
  | nil => exact Tame.refl s
  | cons x xs ih => exact (h s x).trans (ih _)

/-! ### Changes that touch little -/

/-- A change that no bound speaks of, with the pool no fuller. -/
theorem keeps_of_same {s t : State} (hpool : t.egress.occupancy ≤ s.egress.occupancy)
    (hrot : t.egress.rotation = s.egress.rotation) (hqueue : s.QueueBounded → t.QueueBounded) (hlive : t.live = s.live)
    (hfilters : t.filters = s.filters) (htracks : t.tracks = s.tracks) (hpatrons : SamePatrons s t) : Keeps s t where
  pool h := hpool.trans h
  queue := hqueue
  rotation h := hrot ▸ h
  counters h c := by
    have : t.count c = s.count c := by unfold State.count; rw [hlive]
    rw [this]
    exact h c
  filters := filtersInRange_of_eq hfilters
  tracks := (BindingsKept.of_tracks htracks).fit
  patrons := counted_of_same htracks hpatrons

/-- A change of tables that no bound and no part speaks of. -/
theorem tame_of_same {s t : State} (hkeeps : Keeps s t) (hflags : t.flags = s.flags)
    (hcontrollers : t.controllers = s.controllers) (hfilters : t.filters = s.filters) (hmasks : t.masks = s.masks)
    (henables : t.alertEnables = s.alertEnables) (htracks : t.tracks = s.tracks) : Tame s t where
  keeps := hkeeps
  kept x := by
    cases x with
    | flags =>
      intro f hf
      unfold State.flagSet at *
      rwa [hflags]
    | controllers => exact hcontrollers
    | filters => exact hfilters
    | masks => exact hmasks
    | enables => exact henables
    | bindings => exact BindingsStand.of_tracks htracks

theorem tame_advance (s : State) (t : Nat) : Tame s (s.advance t) :=
  tame_of_same (keeps_of_same le_rfl rfl id rfl rfl rfl ⟨rfl, rfl⟩) rfl rfl rfl rfl rfl rfl

theorem tame_ports (s : State) (c d : Bool) : Tame s { s with contentUp := c, deliveryUp := d } :=
  tame_of_same (keeps_of_same le_rfl rfl id rfl rfl rfl ⟨rfl, rfl⟩) rfl rfl rfl rfl rfl rfl

theorem tame_copies (s : State) (cs : List Copy) : Tame s { s with copies := cs } :=
  tame_of_same (keeps_of_same le_rfl rfl id rfl rfl rfl ⟨rfl, rfl⟩) rfl rfl rfl rfl rfl rfl

theorem tame_queue (s : State) {l : List Queued} (hl : s.QueueBounded → l.length ≤ queuePlaces) :
    Tame s { s with queue := l } :=
  tame_of_same (keeps_of_same le_rfl rfl hl rfl rfl rfl ⟨rfl, rfl⟩) rfl rfl rfl rfl rfl rfl

theorem tame_pushDelivery (s : State) (f : DeliveryFrame) : Tame s (s.pushDelivery f) :=
  tame_of_same (keeps_of_same le_rfl rfl id rfl rfl rfl ⟨rfl, rfl⟩) rfl rfl rfl rfl rfl rfl

theorem tame_egress (s : State) {g : Egress} (hpool : g.occupancy ≤ s.egress.occupancy)
    (hrot : g.rotation = s.egress.rotation) : Tame s { s with egress := g } :=
  tame_of_same (keeps_of_same hpool hrot id rfl rfl rfl ⟨rfl, rfl⟩) rfl rfl rfl rfl rfl rfl

theorem tame_setPause (s : State) (e : Option Nat) : Tame s (s.setPause e) := tame_egress s le_rfl rfl

theorem tame_clearTail (s : State) : Tame s s.clearTail := tame_egress s le_rfl rfl

/-- Engine time moves on, and then the event does its work. -/
theorem Tame.timed {s u : State} {t : Nat} (h : Tame (s.advance t) u) : Tame s u := (tame_advance s t).trans h

/-! ### Links, pauses, frames -/

theorem tame_contentLinkLost (s : State) : Tame s s.contentLinkLost := by
  unfold State.contentLinkLost
  split
  · exact (tame_ports s false s.deliveryUp).trans (sends_setFlag _ _ _).tame
  · exact Tame.refl s

theorem occupancy_idle_le (g : Egress) (p : Option Nat) (w : Option DeliveryFrame) :
    ({ g with pauseEnd := p, inFlight := none, wireTail := w } : Egress).occupancy ≤ g.occupancy := by
  simp [Egress.occupancy]

theorem tame_deliveryLinkLost (s : State) : Tame s s.deliveryLinkLost := by
  unfold State.deliveryLinkLost
  split
  · have hflag := (tame_ports s s.contentUp false).trans (sends_setFlag _ .deliveryLinkDown 0).tame
    have hidle := hflag.trans (tame_egress _ (occupancy_idle_le _ none none) rfl)
    simp only
    split
    · exact hidle
    · exact (hidle.trans (sends_bumpAuditorium _ _ _).tame).trans (works_endOfFrame _ _).tame
  · exact Tame.refl s

theorem tame_discardFrame (s : State) (port : Port) (f : RawFrame) : Tame s (s.discardFrame port f) := by
  unfold State.discardFrame
  split
  · split
    · exact (sends_bumpDevice _ _).tame
    · exact (sends_bumpDevice _ _).tame
    · exact Tame.refl s
    · exact Tame.refl s
  · exact Tame.refl s

theorem tame_pauseFrame (s : State) (ea q : Nat) : Tame s (s.pauseFrame ea q) := by
  unfold State.pauseFrame
  split
  · have hcount := (sends_bumpDevice s .pauseFrames).tame
    simp only
    split
    · exact (hcount.trans (tame_setPause _ _)).trans (sends_grant _).tame
    · exact hcount.trans (tame_setPause _ _)
  · exact Tame.refl s

theorem tame_closePause (s : State) : Tame s s.closePause := by
  unfold State.closePause
  split
  · exact Tame.refl s
  · split
    · exact (tame_setPause s _).trans (sends_grant _).tame
    · exact Tame.refl s

theorem tame_completeTransmission (s : State) : Tame s s.completeTransmission := by
  unfold State.completeTransmission
  split
  · exact ((tame_clearTail s).trans (tame_pushDelivery _ _)).trans (sends_grant _).tame
  · split
    · exact Tame.refl s
    · exact ((((sends_clearFlight s).tame.trans (sends_bumpAuditorium _ _ _).tame).trans (tame_pushDelivery _ _)).trans
        (works_endOfFrame _ _).tame).trans (sends_grant _).tame

theorem tame_classify (s : State) (ea src : Nat) (content : Content) (label : Label) (cls : ContentClass) :
    Tame s (s.classify ea src content label cls) := by
  unfold State.classify
  have hcount := (sends_bumpDevice s .contentClassified).tame
  simp only
  split
  · exact (hcount.trans (sends_bumpDevice _ _).tame).trans (sends_setFlag _ _ _).tame
  · exact ((hcount.trans (Tame.foldl (fun s i => (sends_bump s (.filterHits i)).tame) _ _)).trans
      (sends_bumpBy _ _ _).tame).trans (tame_copies _ _)

theorem tame_cueFrame (s : State) (ea src : Nat) (b : CueBody) : Tame s (s.cueFrame ea src b) := by
  unfold State.cueFrame
  split
  · exact tame_classify ..
  · exact Tame.refl s

theorem tame_blockFrame (s : State) (ea src : Nat) (b : BlockBody) : Tame s (s.blockFrame ea src b) := by
  unfold State.blockFrame
  split
  · exact tame_classify ..
  · exact Tame.refl s

theorem tame_nextCopy (s : State) : Tame s s.nextCopy := by
  unfold State.nextCopy
  split
  · exact Tame.refl s
  · exact (tame_copies s _).trans (plays_offerCopy _ _).tame

theorem tame_controlFrame (s : State) (ea src : Nat) (f : ControlFrame) : Tame s (s.controlFrame ea src f) := by
  unfold State.controlFrame
  split
  · split
    · split
      · rename_i hroom
        exact tame_queue s fun _ => by rw [List.length_append]; exact hroom
      · exact (sends_sendResult ..).tame.trans (sends_bumpDevice _ _).tame
    · exact (sends_bumpDevice _ _).tame
  · exact Tame.refl s

/-! ### Runs of commands -/

/-- The end of a run sends, counts, and takes the head off the queue. -/
theorem tame_endRun (s : State) (q : Queued) (reply : Reply) : Tame s (s.endRun q reply) := by
  have hdrop : ∀ u : State, Tame u { u with queue := u.queue.drop 1 } := fun u =>
    tame_queue u fun h => by rw [List.length_drop]; exact (Nat.sub_le _ _).trans h
  unfold State.endRun
  cases reply with
  | done c items =>
    exact ((sends_sendResult ..).tame.trans (sends_bumpDevice _ _).tame).trans (hdrop _)
  | refused r items =>
    exact (((sends_sendResult ..).tame.trans (sends_bumpDevice _ _).tame).trans (sends_bumpDevice _ _).tame).trans
      (hdrop _)
  | owed => exact (sends_bumpDevice _ _).tame.trans (hdrop _)

section
variable {s : State} {code : Nat} {body : Queued → State → State × Reply}

/-- What holds of the state before a run, behind its body and behind every end holds behind the run. -/
theorem runHead_holds {P : State → Prop} (hstart : P s) (hend : ∀ u q r, P u → P (u.endRun q r))
    (hbody : ∀ q rest, s.queue = q :: rest → P (body q s).1) : P (s.runHead code body) := by
  rcases runHead_cases s code body with heq | ⟨q, rest, hq, -, heq | heq⟩ <;> rw [heq]
  · exact hstart
  · exact hend _ _ _ hstart
  · exact hend _ _ _ (hbody q rest hq)

theorem keeps_runHead (h : ∀ q, Keeps s (body q s).1) : Keeps s (s.runHead code body) :=
  runHead_holds (Tame.refl s).keeps (fun u q r hu => hu.trans (tame_endRun u q r).keeps) fun q _ _ => h q

theorem kept_runHead {x : Part} (h : ∀ q, x.Kept s (body q s).1) : x.Kept s (s.runHead code body) :=
  runHead_holds (Part.Kept.refl x s) (fun u q r hu => hu.trans ((tame_endRun u q r).kept x)) fun q _ _ => h q

theorem tame_runHead (h : ∀ q, Tame s (body q s).1) : Tame s (s.runHead code body) :=
  ⟨keeps_runHead fun q => (h q).keeps, fun _ => kept_runHead fun q => (h q).kept _⟩

end

theorem tame_runUnknown (s : State) : Tame s s.runUnknown := by
  unfold State.runUnknown
  split
  · exact Tame.refl s
  · split
    · exact tame_endRun ..
    · exact Tame.refl s

/-- The run of a read leaves what its body was given. -/
theorem tame_of_reads {s : State} {code : Nat} {body : Queued → State → State × Reply} (h : ∀ q u, (body q u).1 = u) :
    Tame s (s.runHead code body) :=
  tame_runHead fun q => (h q s).symm ▸ Tame.refl s

theorem runFilterRead_state (q : Queued) (s : State) : (runFilterRead q s).1 = s := by
  unfold runFilterRead; simp only; split <;> rfl

theorem runClockRead_state (q : Queued) (s : State) : (runClockRead q s).1 = s := by
  unfold runClockRead; simp only; split <;> [rfl; (split <;> rfl)]

theorem runHouseCheckRead_state (q : Queued) (s : State) : (runHouseCheckRead q s).1 = s := by
  unfold runHouseCheckRead; simp only; split <;> rfl

theorem runStatusRead_state (q : Queued) (s : State) : (runStatusRead q s).1 = s := by
  unfold runStatusRead; split <;> rfl

theorem runStatisticsRead_state (q : Queued) (s : State) : (runStatisticsRead q s).1 = s := by
  unfold runStatisticsRead; split <;> rfl

theorem runSubscriptionRead_state (q : Queued) (s : State) : (runSubscriptionRead q s).1 = s := by
  unfold runSubscriptionRead
  split
  · split <;> rfl
  · split <;> rfl
  · rfl

theorem orderAfter_perm {a : Nat} : (orderAfter a).Perm auditoria := by
  rw [orderAfter_eq_rotate]
  exact List.rotate_perm auditoria a

theorem tame_setRotation (s : State) (c : EgressClass) {r : Rotation}
    (hr : s.egress.rotation.Ranked → r.order.Perm auditoria) : Tame s (s.setRotation c r) :=
  (sends_egress s { s.egress with rotation := s.egress.rotation.set c r } rfl rfl id fun h => ranked_set h c (hr h)).tame

theorem tame_runRotationSet (q : Queued) (s : State) : Tame s (runRotationSet q s).1 := by
  unfold runRotationSet
  split
  · split
    · exact tame_setRotation s _ fun h => h _
    · split
      · exact tame_setRotation s _ fun _ => orderAfter_perm
      · exact Tame.refl s
  · exact Tame.refl s
  · exact Tame.refl s

theorem tame_clearCounters (s : State) : Tame s { s with live := [] } where
  keeps := { Tame.refl s |>.keeps with
    counters := fun _ _ => Nat.zero_le _
    patrons := counted_of_same rfl ⟨rfl, rfl⟩ }
  kept x := by
    have hx := Part.Kept.refl x s
    cases x <;> exact hx

theorem tame_takeSnapshot (s : State) (clear : Bool) : Tame s (s.takeSnapshot clear) := by
  have hsame : Tame s { s with snapshot := s.live, snapshotTime := some s.engineTime } :=
    tame_of_same (keeps_of_same le_rfl rfl id rfl rfl rfl ⟨rfl, rfl⟩) rfl rfl rfl rfl rfl rfl
  cases clear with
  | false => exact hsame
  | true => exact hsame.trans (tame_clearCounters _)

theorem tame_runStatisticsSnapshot (q : Queued) (s : State) : Tame s (runStatisticsSnapshot q s).1 := by
  unfold runStatisticsSnapshot
  split
  · exact Tame.refl s
  · exact tame_takeSnapshot s _

/-! ### Steps that write a part of their own -/

/-- A step that keeps every bound and writes the one part `p`. -/
structure TameBut (p : Part) (s t : State) : Prop where
  keeps : Keeps s t
  kept : ∀ x : Part, x ≠ p → x.Kept s t

theorem Tame.but {p : Part} {s t : State} (h : Tame s t) : TameBut p s t := ⟨h.keeps, fun x _ => h.kept x⟩

theorem TameBut.refl (p : Part) (s : State) : TameBut p s s := (Tame.refl s).but

theorem TameBut.trans {p : Part} {s t u : State} (h : TameBut p s t) (g : TameBut p t u) : TameBut p s u :=
  ⟨h.keeps.trans g.keeps, fun x hx => (h.kept x hx).trans (g.kept x hx)⟩

theorem TameBut.timed {p : Part} {s u : State} {t : Nat} (h : TameBut p (s.advance t) u) : TameBut p s u :=
  (tame_advance s t).but.trans h

theorem tameBut_runHead {p : Part} {s : State} {code : Nat} {body : Queued → State → State × Reply}
    (h : ∀ q, TameBut p s (body q s).1) : TameBut p s (s.runHead code body) :=
  ⟨keeps_runHead fun q => (h q).keeps, fun x hx => kept_runHead fun q => (h q).kept x hx⟩

theorem tameBut_runControllerSet (q : Queued) (s : State) : TameBut .controllers s (runControllerSet q s).1 := by
  unfold runControllerSet
  simp only
  split
  · exact TameBut.refl _ s
  · refine ⟨keeps_of_same le_rfl rfl id rfl rfl rfl ⟨rfl, rfl⟩, fun x hx => ?_⟩
    have hkept := Part.Kept.refl x s
    cases x with
    | controllers => exact absurd rfl hx
    | flags | filters | masks | enables | bindings => exact hkept

/-- The entry that a FILTER WRITE in range spells has every field in its range (R57). -/
theorem readFilter_inRange {items : List Item} {f : Filter} (h : readFilter items = some f) : f.InRange := by
  unfold readFilter at h
  split at h
  · split at h
    · rename_i hin
      cases h
      exact ⟨hin.2.1, hin.2.2.1, hin.2.2.2⟩
    · cases h
  · cases h
  · cases h

theorem tameBut_runFilterWrite (q : Queued) (s : State) : TameBut .filters s (runFilterWrite q s).1 := by
  unfold runFilterWrite
  split
  · exact TameBut.refl _ s
  · rename_i f hf
    refine ⟨{ Tame.refl s |>.keeps with
      filters := fun h => Tbl.forall_get_set h (readFilter_inRange hf)
      patrons := counted_of_same rfl ⟨rfl, rfl⟩ }, fun x hx => ?_⟩
    have hkept := Part.Kept.refl x s
    cases x with
    | filters => exact absurd rfl hx
    | flags | controllers | masks | enables | bindings => exact hkept

theorem tameBut_runMaskWrite (q : Queued) (s : State) : TameBut .masks s (runMaskWrite q s).1 := by
  unfold runMaskWrite
  simp only
  split
  · refine ⟨keeps_of_same le_rfl rfl id rfl rfl rfl ⟨rfl, rfl⟩, fun x hx => ?_⟩
    have hkept := Part.Kept.refl x s
    cases x with
    | masks => exact absurd rfl hx
    | flags | controllers | filters | enables | bindings => exact hkept
  · exact TameBut.refl _ s

theorem tameBut_runAlertEnable (q : Queued) (s : State) : TameBut .enables s (runAlertEnable q s).1 := by
  unfold runAlertEnable
  split
  · refine ⟨keeps_of_same le_rfl rfl id rfl rfl rfl ⟨rfl, rfl⟩, fun x hx => ?_⟩
    have hkept := Part.Kept.refl x s
    cases x with
    | enables => exact absurd rfl hx
    | flags | controllers | filters | masks | bindings => exact hkept
  · exact TameBut.refl _ s
  · exact TameBut.refl _ s

theorem tameBut_writeFlag (s : State) (f : Flag) (v : Bool) : TameBut .flags s (s.writeFlag f v) := by
  refine ⟨keeps_of_same le_rfl rfl id rfl rfl rfl ⟨rfl, rfl⟩, fun x hx => ?_⟩
  have hkept := Part.Kept.refl x s
  cases x with
  | flags => exact absurd rfl hx
  | controllers | filters | masks | enables | bindings => exact hkept

theorem tameBut_clearFlags (fs : List Flag) (s : State) : TameBut .flags s (s.clearFlags fs) := by
  unfold State.clearFlags
  induction fs generalizing s with
  | nil => exact TameBut.refl _ s
  | cons f fs ih => exact (tameBut_writeFlag s f false).trans (ih _)

theorem tameBut_runStatusClear (q : Queued) (s : State) : TameBut .flags s (runStatusClear q s).1 := by
  unfold runStatusClear
  split
  · exact TameBut.refl _ s
  · exact tameBut_clearFlags _ s

/-! ### Resets and power-on -/

theorem patronsCounted_of_empty {t : State} (htracks : t.tracks = []) (hrecords : t.subscriptions = [])
    (hmembers : t.members = []) : t.PatronsCounted := by
  have hnone : t.records = [] := by unfold State.records; rw [hrecords]; rfl
  refine ⟨by rw [hrecords]; exact ⟨List.Pairwise.nil, by simp⟩, by rw [hnone]; exact List.nodup_nil, ?_, ?_, ?_, ?_⟩
  · simp [hnone]
  · intro k tr htr
    unfold State.track at htr
    rw [htracks] at htr
    cases htr
  · simp [hnone]
  · intro k b
    simp [hnone, State.memberCount, State.trackMembers, hmembers]

/-- A part whose pool, queue, counters, tracks and records are empty keeps every bound, its rotations and filters being
those it had, or in range. -/
theorem keeps_of_cleared {s t : State} (hpool : t.egress.occupancy = 0)
    (hrot : s.egress.rotation.Ranked → t.egress.rotation.Ranked) (hqueue : t.queue = []) (hlive : t.live = [])
    (hfilters : s.FiltersInRange → t.FiltersInRange) (htracks : t.tracks = []) (hrecords : t.subscriptions = [])
    (hmembers : t.members = []) : Keeps s t where
  pool _ := by unfold State.PoolBounded; rw [hpool]; exact Nat.zero_le _
  queue _ := by unfold State.QueueBounded; rw [hqueue]; exact Nat.zero_le _
  rotation := hrot
  counters _ c := by unfold State.count; rw [hlive]; exact Nat.zero_le _
  filters := hfilters
  tracks _ k tr htr := by
    unfold State.track at htr
    rw [htracks] at htr
    cases htr
  patrons _ := patronsCounted_of_empty htracks hrecords hmembers

theorem ranked_initial : Rotations.initial.Ranked := fun c => by cases c <;> exact List.Perm.refl _

theorem inRange_initial : Filter.initial.InRange := ⟨Nat.zero_le _, Nat.zero_le _, Nat.zero_le _⟩

theorem sends_flagDownLinks (s : State) : Sends s s.flagDownLinks := by
  have hflag : ∀ (u : State) (up : Bool) (n : FlagName), Sends u (if up then u else u.setFlag n 0) := fun u up n => by
    split
    · exact Sends.refl u
    · exact sends_setFlag u n 0
  exact (hflag s s.deliveryUp .deliveryLinkDown).trans (hflag _ _ .contentLinkDown)

theorem keeps_powerOn (s : State) : Keeps s s.powerOn :=
  Keeps.trans (t := { State.reset with
    contentUp := s.contentUp, deliveryUp := s.deliveryUp, contentOut := s.contentOut, deliveryOut := s.deliveryOut
    choices := s.choices, pending := s.pending })
    (keeps_of_cleared rfl (fun _ => ranked_initial) rfl rfl (fun _ _ => inRange_initial) rfl rfl rfl)
    (sends_flagDownLinks _).tame.keeps

/-- The reset values clear all but what a reset leaves (R119, R173). -/
theorem keeps_resetValues (s : State) (r : Bool) : Keeps s { s.resetValues with resetting := r } :=
  keeps_of_cleared rfl id rfl rfl id rfl rfl rfl

theorem keeps_completeReset (s : State) : Keeps s s.completeReset := by
  unfold State.completeReset
  split
  · exact (keeps_resetValues s false).trans (sends_flagDownLinks _).tame.keeps
  · exact (Tame.refl s).keeps

theorem keeps_runEngineReset (s : State) : Keeps s s.runEngineReset := by
  unfold State.runEngineReset
  split
  · exact (Tame.refl s).keeps
  · split
    · split
      · exact (sends_sendResult ..).tame.keeps.trans (keeps_resetValues _ true)
      · exact (tame_endRun ..).keeps
    · exact (Tame.refl s).keeps

/-- The parts that a reset leaves as they stood: the controller list and the Filter and Mask Tables (R173). -/
def Part.outlivesReset (x : Part) : Prop := x = .controllers ∨ x = .filters ∨ x = .masks

theorem kept_resetValues {x : Part} (hx : x.outlivesReset) (s : State) (r : Bool) :
    x.Kept s { s.resetValues with resetting := r } := by
  rcases hx with rfl | rfl | rfl <;> rfl

theorem kept_completeReset {x : Part} (hx : x.outlivesReset) (s : State) : x.Kept s s.completeReset := by
  unfold State.completeReset
  split
  · exact (kept_resetValues hx s false).trans ((sends_flagDownLinks _).tame.kept x)
  · exact Part.Kept.refl x s

theorem kept_runEngineReset {x : Part} (hx : x.outlivesReset) (s : State) : x.Kept s s.runEngineReset := by
  unfold State.runEngineReset
  split
  · exact Part.Kept.refl x s
  · split
    · split
      · exact ((sends_sendResult ..).tame.kept x).trans (kept_resetValues hx _ true)
      · exact (tame_endRun ..).kept x
    · exact Part.Kept.refl x s

/-! ### Bindings -/

/-- Every track but those that `p` names stays FREE, or bound as it was (R62, R66). -/
def BindingsBut (p : Nat → Prop) (s t : State) : Prop :=
  ∀ k, ¬p k → (t.track k).map Track.binding = (s.track k).map Track.binding

/-- No FREE track has been bound (R65). -/
def FreeStays (s t : State) : Prop := ∀ k, s.track k = none → t.track k = none

theorem BindingsBut.then {p : Nat → Prop} {s t u : State} (h : BindingsBut p s t) (g : BindingsStand t u) :
    BindingsBut p s u := fun k hk => (g k).trans (h k hk)

theorem BindingsStand.but {s t : State} (h : BindingsStand s t) (p : Nat → Prop) : BindingsBut p s t := fun k _ => h k

theorem BindingsStand.freeStays {s t : State} (h : BindingsStand s t) : FreeStays s t := fun k hk => by
  have := h k
  rwa [hk, Option.map_none, Option.map_eq_none_iff] at this

theorem FreeStays.then {s t u : State} (h : FreeStays s t) (g : BindingsStand t u) : FreeStays s u :=
  fun k hk => g.freeStays k (h k hk)

theorem Freed.but {s t : State} {ks : List Nat} (h : Freed s t ks) : BindingsBut (· ∈ ks) s t := fun k hk => by
  rw [h k, if_neg hk]

theorem Freed.freeStays {s t : State} {ks : List Nat} (h : Freed s t ks) : FreeStays s t := fun k hk => by
  rw [h k, hk, ite_self]

theorem Tame.stand {s t : State} (h : Tame s t) : BindingsStand s t := h.kept .bindings

theorem stand_endRun (s : State) (q : Queued) (r : Reply) : BindingsStand s (s.endRun q r) := (tame_endRun s q r).stand

/-- A run leaves the bindings that its body leaves. -/
theorem bindingsBut_runHead {s : State} {code : Nat} {body : Queued → State → State × Reply} {p : Nat → Prop}
    (h : ∀ q rest, s.queue = q :: rest → BindingsBut p s (body q s).1) : BindingsBut p s (s.runHead code body) :=
  runHead_holds ((BindingsStand.refl s).but p) (fun u q r hu => hu.then (stand_endRun u q r)) h

theorem freeStays_runHead {s : State} {code : Nat} {body : Queued → State → State × Reply}
    (h : ∀ q, FreeStays s (body q s).1) : FreeStays s (s.runHead code body) :=
  runHead_holds (fun _ => id) (fun u q r hu => hu.then (stand_endRun u q r)) fun q _ _ => h q

/-- Tracks that go FREE write the bindings alone. -/
theorem Frees.tameBut {s t : State} {ks : List Nat} (h : Frees s t ks) : TameBut .bindings s t :=
  ⟨h.toQuiet.keeps h.freed.fit h.counted, fun _ hx => h.toQuiet.kept hx⟩

/-! ### The four commands that write bindings -/

theorem frees_runTrackUnbind (q : Queued) (s : State) :
    Works s (runTrackUnbind q s).1 ∨ Frees s (runTrackUnbind q s).1 [argument q.items 1] := by
  unfold runTrackUnbind
  generalize argument q.items 1 = k
  simp only
  split
  · exact .inl (Works.refl s)
  · split
    · exact .inl (Works.refl s)
    · split
      · dsimp only
        exact .inr (frees_unbindTrack s k _)
      · exact .inl (Works.refl s)

theorem frees_runAuditoriumClose (q : Queued) (s : State) :
    Works s (runAuditoriumClose q s).1 ∨ Frees s (runAuditoriumClose q s).1 (s.boundTracks (argument q.items 1)) := by
  unfold runAuditoriumClose
  simp only
  split
  · exact .inl (Works.refl s)
  · split
    · exact .inl (Works.refl s)
    · have hset := works_setAuditorium s (argument q.items 1)
        { s.auditorium (argument q.items 1) with lifecycle := .closing, owed := some ⟨q.tag, q.station⟩ }
      have htear := frees_teardown (s.setAuditorium (argument q.items 1)
        { s.auditorium (argument q.items 1) with lifecycle := .closing, owed := some ⟨q.tag, q.station⟩ })
        (argument q.items 1)
      exact .inr ⟨hset.toQuiet.trans htear.toQuiet, htear.freed, htear.counted ∘ hset.counted⟩

theorem newTrack_fits (kind : TrackKind) (a slot language variant depth : Nat) (m : Marks) :
    (newTrack kind a slot language variant depth m).Fits := ⟨Nat.zero_le _, Nat.zero_le _⟩

theorem tracksFit_bindTrack {s : State} (h : s.TracksFit) (k : Nat) {tr : Track} (htr : tr.Fits) :
    (s.bindTrack k tr).TracksFit := by
  intro j x hx
  rw [track_bindTrack] at hx
  split at hx
  · cases hx; exact htr
  · exact h j x hx

/-- TRACK BIND binds one FREE track, and otherwise writes no binding. -/
theorem runTrackBind_binds (q : Queued) (s : State) :
    TameBut .bindings s (runTrackBind q s).1 ∧ BindingsBut (fun k => s.track k = none) s (runTrackBind q s).1 := by
  have hnothing : TameBut .bindings s s ∧ BindingsBut (fun k => s.track k = none) s s :=
    ⟨TameBut.refl _ s, (BindingsStand.refl s).but _⟩
  unfold runTrackBind
  simp only
  split
  · exact hnothing
  · split
    · exact hnothing
    · split
      · exact hnothing
      · split
        · rename_i k _ hk _
          obtain ⟨hrange, hfree⟩ := freeTrack_spec hk
          split
          · exact hnothing
          · refine ⟨⟨(quiet_bindTrack s k _).keeps (fun h => tracksFit_bindTrack h k (newTrack_fits ..)) fun h =>
              counted_bindTrack h hrange hfree, fun _ hx => (quiet_bindTrack s k _).kept hx⟩, fun j hj => ?_⟩
            rw [track_bindTrack, if_neg fun hjk : j = k => hj (hjk ▸ hfree)]
        · exact hnothing
        · exact hnothing

/-- A bound track whose lead and marks alone change: its bindings move, its bounds do not. -/
theorem tameBut_retune {s : State} {k : Nat} {x y : Track} (hx : s.track k = some x) (ha : y.auditorium = x.auditorium)
    (hd : y.depth = x.depth) (hp : y.pending = x.pending) (hr : y.ring = x.ring) :
    TameBut .bindings s (s.setTrack k (some y)) := by
  have hquiet := (calm_setTrack s k (some y)).toQuiet
  have htrack : ∀ j z, (s.setTrack k (some y)).track j = some z →
      ∃ w, s.track j = some w ∧ z.auditorium = w.auditorium ∧ (w.Fits → z.Fits) := by
    intro j z hz
    rw [State.track_setTrack] at hz
    split at hz
    · rename_i hj
      cases hz
      exact ⟨x, hj ▸ hx, ha, fun h => by unfold Track.Fits; rwa [hd, hp, hr]⟩
    · exact ⟨z, hz, rfl, id⟩
  refine ⟨hquiet.keeps (fun h j z hz => ?_) fun h => { h with tracks := fun j z hz => ?_, bound := fun e he => ?_ },
    fun _ hx => hquiet.kept hx⟩
  · obtain ⟨w, hw, -, hfit⟩ := htrack j z hz
    exact hfit (h j w hw)
  · obtain ⟨w, hw, -, -⟩ := htrack j z hz
    exact h.tracks j w hw
  · obtain ⟨w, hw, hwa⟩ := h.bound e he
    rw [State.track_setTrack]
    split
    · rename_i hk
      rw [hk, hx] at hw
      cases hw
      exact ⟨y, rfl, ha.trans hwa⟩
    · exact ⟨w, hw, hwa⟩

/-- The context that a TRACK SET leaves: its lead and marks read anew (R66). -/
def retunedTrack (items : List Item) (tr : Track) : Track :=
  let m := readMarks items 2 3 4 tr.depth tr.lead tr.high tr.low
  { tr with lead := m.lead, high := m.high, low := m.low }

/-- The passed instants of a track, taken where they are asked for (R107). -/
def State.reviewed (s : State) (k a : Nat) (asked : Bool) : State :=
  if asked && (s.lifecycle a).advancing then s.takePassedTrack k (s.showTime a) true else s

theorem tame_reviewed (s : State) (k a : Nat) (asked : Bool) : Tame s (s.reviewed k a asked) := by
  unfold State.reviewed
  split
  · exact (plays_takePassedTrack s k _ true).tame
  · exact Tame.refl s

/-- A TRACK SET that is taken: the context retuned, its content reviewed, both marks compared, the check looked at. -/
theorem runTrackSet_taken {q : Queued} {s : State} {k : Nat} {tr : Track} (hk : argument q.items 1 = k) (hin : k ≤ 95)
    (htr : s.track k = some tr) (hopen : s.lifecycle tr.auditorium ≠ .closing) :
    runTrackSet q s =
      (State.completeCheck (State.paceDown (State.paceUp
        ((s.setTrack k (some (retunedTrack q.items tr))).reviewed k tr.auditorium (itemNat q.items 2).isSome) k) k)
        tr.auditorium, .done (readMarks q.items 2 3 4 tr.depth tr.lead tr.high tr.low).clamped []) := by
  subst hk
  simp only [runTrackSet, if_neg (Nat.not_lt.mpr hin), htr, if_neg hopen]
  rfl

/-- What a TRACK SET does not take it refuses. -/
theorem runTrackSet_cases (q : Queued) (s : State) :
    (∃ r, runTrackSet q s = s.refuse r) ∨ ∃ tr, argument q.items 1 ≤ 95 ∧ s.track (argument q.items 1) = some tr ∧
      s.lifecycle tr.auditorium ≠ .closing := by
  unfold runTrackSet
  simp only
  split
  · exact .inl ⟨_, rfl⟩
  · rename_i hin
    split
    · exact .inl ⟨_, rfl⟩
    · rename_i tr htr
      by_cases hopen : s.lifecycle tr.auditorium = .closing
      · exact .inl ⟨.wrongState, if_pos hopen⟩
      · exact .inr ⟨tr, Nat.not_lt.mp hin, htr, hopen⟩

/-- TRACK SET retunes the track it names, and then works on its content. -/
theorem runTrackSet_retunes (q : Queued) (s : State) :
    TameBut .bindings s (runTrackSet q s).1 ∧ BindingsBut (· = argument q.items 1) s (runTrackSet q s).1 ∧
      FreeStays s (runTrackSet q s).1 := by
  rcases runTrackSet_cases q s with ⟨r, hr⟩ | ⟨tr, hin, htr, hopen⟩
  · rw [hr]
    exact ⟨TameBut.refl _ s, (BindingsStand.refl s).but _, fun _ => id⟩
  · rw [runTrackSet_taken rfl hin htr hopen]
    generalize argument q.items 1 = k at *
    have hother : ∀ j, j ≠ k → (s.setTrack k (some (retunedTrack q.items tr))).track j = s.track j := fun j hj => by
      rw [State.track_setTrack, if_neg hj]
    have hwork := (((tame_reviewed (s.setTrack k (some (retunedTrack q.items tr))) k tr.auditorium
      (itemNat q.items 2).isSome).trans (plays_paceUp _ k).tame).trans (plays_paceDown _ k).tame).trans
      (works_completeCheck _ tr.auditorium).tame
    refine ⟨(tameBut_retune (y := retunedTrack q.items tr) htr rfl rfl rfl rfl).trans hwork.but, BindingsBut.then ?_ hwork.stand,
      FreeStays.then ?_ hwork.stand⟩
    · exact fun j hj => by rw [hother j hj]
    · intro j hj
      rwa [hother j fun hjk => by rw [hjk, htr] at hj; cases hj]

/-! ### Every row -/

/-- The parts that a step writes: its own. -/
def stepWrites (i : Instr) (x : Part) : Prop :=
  match i with
  | .powerOn => True
  | .engineReset _ => ¬x.outlivesReset
  | .resetCompletion _ => ¬x.outlivesReset
  | .controllerSet _ => x = .controllers
  | .filterWrite _ => x = .filters
  | .maskWrite _ => x = .masks
  | .statusClear _ => x = .flags
  | .alertEnable _ => x = .enables
  | .auditoriumClose _ => x = .bindings
  | .trackBind _ => x = .bindings
  | .trackSet _ => x = .bindings
  | .trackUnbind _ => x = .bindings
  | _ => False

theorem tameBut_runTrackUnbind (q : Queued) (s : State) : TameBut .bindings s (runTrackUnbind q s).1 :=
  (frees_runTrackUnbind q s).elim (fun h => h.tame.but) fun h => h.tameBut

theorem tameBut_runAuditoriumClose (q : Queued) (s : State) : TameBut .bindings s (runAuditoriumClose q s).1 :=
  (frees_runAuditoriumClose q s).elim (fun h => h.tame.but) fun h => h.tameBut

/-- A row keeps every bound, and every part that is not its own to write. -/
structure Lawful (i : Instr) (s t : State) : Prop where
  keeps : Keeps s t
  kept : ∀ x : Part, ¬stepWrites i x → x.Kept s t

theorem Tame.lawful {s t : State} (h : Tame s t) (i : Instr) : Lawful i s t := ⟨h.keeps, fun x _ => h.kept x⟩

theorem TameBut.lawful {p : Part} {i : Instr} {s t : State} (h : TameBut p s t) (hi : stepWrites i p) :
    Lawful i s t := ⟨h.keeps, fun x hx => h.kept x fun hxp => hx (hxp ▸ hi)⟩

/-- What one step can do, row by row. -/
theorem after_lawful (i : Instr) (s : State) : Lawful i s (after i s) := by
  cases i with
  | powerOn => exact ⟨keeps_powerOn s, fun x hx => absurd trivial hx⟩
  | engineReset t =>
    exact ⟨(tame_advance s t).keeps.trans (keeps_runEngineReset _),
      fun x hx => ((tame_advance s t).kept x).trans (kept_runEngineReset (not_not.mp hx) _)⟩
  | resetCompletion t =>
    exact ⟨(tame_advance s t).keeps.trans (keeps_completeReset _),
      fun x hx => ((tame_advance s t).kept x).trans (kept_completeReset (not_not.mp hx) _)⟩
  | contentLinkDown t => exact (tame_contentLinkLost _).timed.lawful _
  | contentLinkUp t => exact (tame_ports (s.advance t) true s.deliveryUp).timed.lawful _
  | deliveryLinkDown t => exact (tame_deliveryLinkLost _).timed.lawful _
  | deliveryLinkUp t =>
    exact ((tame_ports (s.advance t) s.contentUp true).trans (sends_grant _).tame).timed.lawful _
  | frameDiscarded t port frame => exact (tame_discardFrame ..).timed.lawful _
  | showtime ea frame => exact (works_showtimeFrame ..).tame.timed.lawful _
  | cue ea src body => exact (tame_cueFrame ..).timed.lawful _
  | block ea src body => exact (tame_blockFrame ..).timed.lawful _
  | copyOffer t => exact (tame_nextCopy _).timed.lawful _
  | control ea src frame => exact (tame_controlFrame ..).timed.lawful _
  | join ea frame => exact (works_joinFrame ..).tame.timed.lawful _
  | leave ea frame => exact (works_leaveFrame ..).tame.timed.lawful _
  | report ea frame => exact (works_reportFrame ..).tame.timed.lawful _
  | flowControlPause ea quanta => exact (tame_pauseFrame ..).timed.lawful _
  | pauseWindowClose t => exact (tame_closePause _).timed.lawful _
  | holdoverExpiry t a => exact (works_takeHoldover ..).tame.timed.lawful _
  | lostExpiry t a => exact (works_takeLost ..).tame.timed.lawful _
  | releaseInstant t k b =>
    exact ((plays_takeInstant _ k b).tame.trans (works_completeTrackCheck _ k).tame).timed.lawful _
  | currentCueRetirement t k =>
    exact ((plays_retireCurrent _ k).tame.trans (works_completeTrackCheck _ k).tame).timed.lawful _
  | beaconExpiry t a => exact (works_takeBeacon ..).tame.timed.lawful _
  | reportWindowExpiry t i => exact (works_takeWindow ..).tame.timed.lawful _
  | holdExpiry t i => exact (works_takeHold ..).tame.timed.lawful _
  | generationDeadlineCue t a => exact (works_generateCue ..).tame.timed.lawful _
  | generationDeadlineBlock t a => exact (works_generateBlock ..).tame.timed.lawful _
  | transmissionCompletion t => exact (tame_completeTransmission _).timed.lawful _
  | controllerSet t => exact (tameBut_runHead fun q => tameBut_runControllerSet q _).timed.lawful rfl
  | filterWrite t => exact (tameBut_runHead fun q => tameBut_runFilterWrite q _).timed.lawful rfl
  | filterRead t => exact (tame_of_reads runFilterRead_state).timed.lawful _
  | maskWrite t => exact (tameBut_runHead fun q => tameBut_runMaskWrite q _).timed.lawful rfl
  | auditoriumOpen t => exact (tame_runHead fun q => (works_runAuditoriumOpen q _).tame).timed.lawful _
  | auditoriumSet t => exact (tame_runHead fun q => (works_runAuditoriumSet q _).tame).timed.lawful _
  | auditoriumClose t => exact (tameBut_runHead fun q => tameBut_runAuditoriumClose q _).timed.lawful rfl
  | bandSet t => exact (tame_runHead fun q => (works_runBandSet q _).tame).timed.lawful _
  | trackBind t => exact (tameBut_runHead fun q => (runTrackBind_binds q _).1).timed.lawful rfl
  | trackSet t => exact (tameBut_runHead fun q => (runTrackSet_retunes q _).1).timed.lawful rfl
  | trackUnbind t => exact (tameBut_runHead fun q => tameBut_runTrackUnbind q _).timed.lawful rfl
  | clockRead t => exact (tame_of_reads runClockRead_state).timed.lawful _
  | rotationSet t => exact (tame_runHead fun q => tame_runRotationSet q _).timed.lawful _
  | houseCheckStart t => exact (tame_runHead fun q => (works_runHouseCheckStart q _).tame).timed.lawful _
  | houseCheckStop t => exact (tame_runHead fun q => (works_runHouseCheckStop q _).tame).timed.lawful _
  | houseCheckRead t => exact (tame_of_reads runHouseCheckRead_state).timed.lawful _
  | statusRead t => exact (tame_of_reads runStatusRead_state).timed.lawful _
  | statusClear t => exact (tameBut_runHead fun q => tameBut_runStatusClear q _).timed.lawful rfl
  | alertEnable t => exact (tameBut_runHead fun q => tameBut_runAlertEnable q _).timed.lawful rfl
  | statisticsSnapshot t => exact (tame_runHead fun q => tame_runStatisticsSnapshot q _).timed.lawful _
  | statisticsRead t => exact (tame_of_reads runStatisticsRead_state).timed.lawful _
  | subscriptionRead t => exact (tame_of_reads runSubscriptionRead_state).timed.lawful _
  | deviceDetach t => exact (tame_runHead fun q => (works_runDeviceDetach q _).tame).timed.lawful _
  | unknownCommand t => exact (tame_runUnknown _).timed.lawful _

theorem exec_keeps {i : Instr} {s t : State} (h : exec i s = .next t) : Keeps s t :=
  after_of_exec h ▸ (after_lawful i s).keeps

/-! ### A step of the machine -/

theorem keeps_queued (s : State) (cs : List Instr) : Keeps s { s with pending := cs } :=
  keeps_of_same le_rfl rfl id rfl rfl rfl ⟨rfl, rfl⟩

theorem keeps_choices (s : State) (n : Nat) : Keeps s { s with choices := n } :=
  keeps_of_same le_rfl rfl id rfl rfl rfl ⟨rfl, rfl⟩

theorem keeps_microsecond (s : State) : Keeps s { s with engineTime := s.engineTime + 1 } :=
  keeps_of_same le_rfl rfl id rfl rfl rfl ⟨rfl, rfl⟩

theorem idle_keeps {s t : State} (h : s.idle = .next t) : Keeps s t := by
  unfold State.idle at h
  split at h
  · exact Host.Outcome.next.inj h ▸ keeps_microsecond s
  · exact exec_keeps h
  · exact (keeps_choices s _).trans (exec_keeps h)

theorem step_keeps {s t : State} (h : step s = .next t) : Keeps s t := by
  unfold step at h
  split at h
  · exact idle_keeps h
  · exact (keeps_queued s _).trans (exec_keeps h)

/-- Settles O57: a step is one row, or a microsecond, and each keeps the bounds. -/
theorem boundsAreKept : Obligations.BoundsAreKept := by
  intro s t h
  have hk := step_keeps h
  exact ⟨hk.pool, hk.queue, hk.rotation, hk.counters, hk.filters, hk.tracks⟩

/-- Settles O58: the agreement of the tables is one of the things that every row keeps. -/
theorem patronsStayCounted : Obligations.PatronsStayCounted := fun _ _ h => (step_keeps h).patrons

/-! ### Only their own steps -/

theorem exec_kept {i : Instr} {s t : State} (h : exec i s = .next t) {x : Part} (hx : ¬stepWrites i x) : x.Kept s t :=
  after_of_exec h ▸ (after_lawful i s).kept x hx

section
variable {i : Instr}

theorem not_writes_flags (hi : i ≠ .powerOn)
    (h : ∀ e, i ≠ .statusClear e ∧ i ≠ .engineReset e ∧ i ≠ .resetCompletion e) : ¬stepWrites i .flags := by
  cases i <;> simp [stepWrites] at *

theorem not_writes_controllers (hi : i ≠ .powerOn) (h : ∀ e, i ≠ .controllerSet e) : ¬stepWrites i .controllers := by
  cases i <;> simp [stepWrites, Part.outlivesReset] at *

theorem not_writes_filters (hi : i ≠ .powerOn) (h : ∀ e, i ≠ .filterWrite e) : ¬stepWrites i .filters := by
  cases i <;> simp [stepWrites, Part.outlivesReset] at *

theorem not_writes_masks (hi : i ≠ .powerOn) (h : ∀ e, i ≠ .maskWrite e) : ¬stepWrites i .masks := by
  cases i <;> simp [stepWrites, Part.outlivesReset] at *

theorem not_writes_enables (hi : i ≠ .powerOn)
    (h : ∀ e, i ≠ .alertEnable e ∧ i ≠ .engineReset e ∧ i ≠ .resetCompletion e) : ¬stepWrites i .enables := by
  cases i <;> simp [stepWrites] at *

theorem not_writes_bindings (hi : i ≠ .powerOn)
    (h : ∀ e, i ≠ .trackSet e ∧ i ≠ .trackBind e ∧ i ≠ .trackUnbind e ∧ i ≠ .auditoriumClose e ∧ i ≠ .engineReset e ∧
      i ≠ .resetCompletion e) : ¬stepWrites i .bindings := by
  cases i <;> simp [stepWrites] at *

end

/-- The command named at the head is the one that runs. -/
theorem head_of_queue {s : State} {q : Queued} {rest : List Queued} (h : s.queue = q :: rest) :
    s.queue.head? = some q := by rw [h]; rfl

/-- TRACK SET and TRACK UNBIND write the binding of the track that the head of the queue names, and no other. -/
theorem bindings_namedTrack {s : State} {i : Instr} {e k : Nat} (hi : i = .trackSet e ∨ i = .trackUnbind e)
    (hk : ∀ q, s.queue.head? = some q → k ≠ argument q.items 1) :
    ((after i s).track k).map Track.binding = (s.track k).map Track.binding := by
  have hnamed : ∀ q rest, (s.advance e).queue = q :: rest → k ≠ argument q.items 1 := fun q rest hq =>
    hk q (head_of_queue hq)
  rcases hi with rfl | rfl
  · exact bindingsBut_runHead (s := s.advance e) (p := (· ≠ k)) (fun q rest hq j hj =>
      (runTrackSet_retunes q (s.advance e)).2.1 j (not_not.mp hj ▸ hnamed q rest hq)) k (not_not.mpr rfl)
  · refine bindingsBut_runHead (s := s.advance e) (p := (· ≠ k)) (fun q rest hq j hj => ?_) k (not_not.mpr rfl)
    rcases frees_runTrackUnbind q (s.advance e) with hw | hf
    · exact hw.bindings.stand j
    · exact hf.freed.but j fun hm => hnamed q rest hq (not_not.mp hj ▸ List.mem_singleton.mp hm)

/-- AUDITORIUM CLOSE frees the tracks of the auditorium that the head of the queue names, and no other. -/
theorem bindings_otherShow {s : State} {e k : Nat} {tr : Track} (htr : s.track k = some tr)
    (ha : ∀ q, s.queue.head? = some q → tr.auditorium ≠ argument q.items 1) :
    ((after (.auditoriumClose e) s).track k).map Track.binding = some tr.binding := by
  have hkept : ((after (.auditoriumClose e) s).track k).map Track.binding = (s.track k).map Track.binding := by
    refine bindingsBut_runHead (s := s.advance e) (p := (· ≠ k)) (fun q rest hq j hj => ?_) k (not_not.mpr rfl)
    rcases frees_runAuditoriumClose q (s.advance e) with hw | hf
    · exact hw.bindings.stand j
    · refine hf.freed.but j fun hmem => ?_
      rw [not_not.mp hj] at hmem
      obtain ⟨-, x, hx, hxa⟩ := mem_boundTracks.mp hmem
      cases htr.symm.trans hx
      exact ha q (head_of_queue hq) hxa
  rw [hkept, htr, Option.map_some]

/-- TRACK BIND leaves every bound track as it was. -/
theorem bindings_bind {s : State} {e k : Nat} {tr : Track} (htr : s.track k = some tr) :
    ((after (.trackBind e) s).track k).map Track.binding = some tr.binding := by
  have hkept : ((after (.trackBind e) s).track k).map Track.binding = (s.track k).map Track.binding :=
    bindingsBut_runHead (s := s.advance e) (fun q _ _ => (runTrackBind_binds q (s.advance e)).2) k
      fun hfree => Option.some_ne_none tr (htr.symm.trans hfree)
  rw [hkept, htr, Option.map_some]

theorem freeStays_of_noTracks {s t : State} (h : t.tracks = []) : FreeStays s t := fun k _ => by
  unfold State.track; rw [h]; rfl

theorem freeStays_reset {s u : State} {t : Nat} (h : u.tracks = [] ∨ u.tracks = (s.advance t).tracks) :
    FreeStays s u := by
  rcases h with h | h
  · exact freeStays_of_noTracks h
  · exact (BindingsStand.of_tracks h : BindingsStand s u).freeStays

theorem completeReset_tracks (s : State) : s.completeReset.tracks = [] ∨ s.completeReset.tracks = s.tracks := by
  unfold State.completeReset
  split
  · exact .inl (sends_flagDownLinks _).tracks
  · exact .inr rfl

theorem runEngineReset_tracks (s : State) : s.runEngineReset.tracks = [] ∨ s.runEngineReset.tracks = s.tracks := by
  unfold State.runEngineReset
  split
  · exact .inr rfl
  · split
    · split
      · exact .inl rfl
      · exact .inr (onlyEnds_endRun ..).tracks.tracks
    · exact .inr rfl

/-- No step but TRACK BIND binds a FREE track (R65). -/
theorem freeStays_after {i : Instr} (hi : ∀ e, i ≠ .trackBind e) (s : State) : FreeStays s (after i s) := by
  by_cases hw : stepWrites i .bindings
  · cases i <;> simp only [stepWrites, Part.outlivesReset, reduceCtorEq] at hw
    case powerOn => exact freeStays_of_noTracks (sends_flagDownLinks _).tracks
    case engineReset t => exact freeStays_reset (runEngineReset_tracks (s.advance t))
    case resetCompletion t => exact freeStays_reset (completeReset_tracks (s.advance t))
    case auditoriumClose t =>
      refine freeStays_runHead (s := s.advance t) fun q => ?_
      exact (frees_runAuditoriumClose q _).elim (fun h => h.bindings.stand.freeStays) fun h => h.freed.freeStays
    case trackBind t => exact absurd rfl (hi t)
    case trackSet t => exact freeStays_runHead (s := s.advance t) fun q => (runTrackSet_retunes q _).2.2
    case trackUnbind t =>
      refine freeStays_runHead (s := s.advance t) fun q => ?_
      exact (frees_runTrackUnbind q _).elim (fun h => h.bindings.stand.freeStays) fun h => h.freed.freeStays
  · exact BindingsStand.freeStays ((after_lawful i s).kept .bindings hw)

/-- Settles O59: a part is kept by every step that does not write it, and what the four commands of bindings write is
what the head of the queue names. -/
theorem onlyTheirStepsChange : Obligations.OnlyTheirStepsChange := by
  refine ⟨fun s t i h hi => ?_, fun i s => ⟨_, exec_after i s⟩⟩
  refine ⟨fun hx => exec_kept h (not_writes_flags hi hx), fun hx => exec_kept h (not_writes_controllers hi hx),
    fun hx => exec_kept h (not_writes_filters hi hx), fun hx => exec_kept h (not_writes_masks hi hx),
    fun hx => exec_kept h (not_writes_enables hi hx), fun hx => exec_kept h (not_writes_bindings hi hx), ?_, ?_, ?_, ?_⟩
  all_goals rw [after_of_exec h]
  · exact fun e k hi hk => bindings_namedTrack hi hk
  · rintro e k tr rfl htr ha
    exact bindings_otherShow htr ha
  · rintro e k tr rfl htr
    exact bindings_bind htr
  · exact fun hb => freeStays_after hb s

/-! ### The state after reset -/

/-- Settles O60: everything that could break a bound is empty after reset. -/
theorem resetKeepsBounds : Obligations.ResetKeepsBounds :=
  ⟨Nat.zero_le _, Nat.zero_le _, ranked_initial, fun _ => Nat.zero_le _, fun _ => inRange_initial,
    fun _ _ h => (Option.some_ne_none _ h.symm).elim, patronsCounted_of_empty rfl rfl rfl⟩

/-- Settles O1: a waiting step is taken from the front of the queue. -/
theorem stepRunsFrontOfQueue : Obligations.StepRunsFrontOfQueue := by
  intro s c cs h
  unfold step
  rw [h]

end Sys2Proof.Machine

/-! PROOFS. How the shared operations are said in the terms of claims: counts, flags and track records; and power-on, the
resets, the links and the Egress Arbiter (O3 to O6, O8 to O13). -/

namespace Sys2Proof.Machine

/-! ### Counts, flags and track records in the terms of claims -/

theorem countedBy_bumpBy (s : State) (c : Counter) (n : Nat) : CountedBy s (s.bumpBy c n) c n where
  frame := rfl
  counted := by rw [State.count_bumpBy, if_pos rfl]
  others d hd := by rw [State.count_bumpBy, if_neg (by simpa using hd)]

theorem counted_bump (s : State) (c : Counter) : Counted s (s.bump c) c where
  frame := rfl
  counted := (countedBy_bumpBy s c 1).counted
  others := (countedBy_bumpBy s c 1).others

theorem SameCounts.refl (s : State) (l : List Counter) : SameCounts s s l := fun _ _ => rfl

theorem SameCounts.trans {s t u : State} {l : List Counter} (h : SameCounts s t l) (g : SameCounts t u l) :
    SameCounts s u l := fun c hc => (g c hc).trans (h c hc)

theorem SameCounts.mono {s t : State} {l m : List Counter} (h : SameCounts s t l) (hlm : l ⊆ m) : SameCounts s t m :=
  fun c hc => h c fun hl => hc (hlm hl)

/-- A new flag's ALERT is made when its enable is on, a controller entry present and the link UP (R170). -/
theorem alert_cases (s : State) (f : Flag) :
    (s.alert f = s ∧ (s.alertEnabled f.name = false ∨ s.contentUp = false ∨ s.controllers.first = none)) ∨
      ∃ dest, s.controllers.first = some dest ∧ s.alertEnabled f.name = true ∧ s.contentUp = true ∧
        s.alert f = (s.pushContent (.alert dest f s.engineTime s.summary)).bumpDevice .alertsSent := by
  unfold State.alert
  by_cases h : (s.alertEnabled f.name && s.contentUp) = true
  · rw [if_pos h]
    rw [Bool.and_eq_true] at h
    cases hd : s.controllers.first with
    | none => exact .inl ⟨rfl, .inr (.inr rfl)⟩
    | some dest => exact .inr ⟨dest, rfl, h.1, h.2, rfl⟩
  · rw [if_neg h]
    refine .inl ⟨rfl, ?_⟩
    rw [Bool.and_eq_true, not_and_or, Bool.not_eq_true, Bool.not_eq_true] at h
    exact h.elim .inl fun h => .inr (.inl h)

/-- What an ALERT leaves: the flags, and every count but ALERTS_SENT. -/
theorem alert_leaves (s : State) (f : Flag) :
    SameCounts s (s.alert f) [.device .alertsSent] ∧
      s.alert f = { s with live := (s.alert f).live, contentOut := (s.alert f).contentOut } := by
  rcases alert_cases s f with ⟨h, -⟩ | ⟨dest, -, -, -, h⟩ <;> rw [h]
  · exact ⟨SameCounts.refl s _, rfl⟩
  · exact ⟨(counted_bump (s.pushContent _) _).others, rfl⟩

theorem flagged_again {s : State} {f : Flag} (h : s.flagSet f = true) : Flagged f s s where
  set := h
  others _ _ := rfl
  again _ := rfl
  alert dest hf := by rw [h] at hf; cases hf
  silent _ := ⟨rfl, rfl⟩
  counts := SameCounts.refl s _
  frame := rfl

/-- A clear flag set, and its ALERT. -/
theorem flagged_new {s : State} {f : Flag} (h : s.flagSet f = false) : Flagged f s ((s.writeFlag f true).alert f) := by
  obtain ⟨hcounts, hframe⟩ := alert_leaves (s.writeFlag f true) f
  have hflag : ∀ g, ((s.writeFlag f true).alert f).flagSet g = if g = f then true else s.flagSet g := fun g => by
    rw [hframe]
    exact State.flagSet_writeFlag s f true g
  have hset : ((s.writeFlag f true).alert f).flagSet f = true := by rw [hflag, if_pos rfl]
  have hothers : ∀ g, g ≠ f → ((s.writeFlag f true).alert f).flagSet g = s.flagSet g := fun g hg => by
    rw [hflag, if_neg hg]
  have hflags : ((s.writeFlag f true).alert f).flags = (s.writeFlag f true).flags := by rw [hframe]
  refine ⟨hset, hothers, fun hs => absurd (h.symm.trans hs) (by decide), fun dest _ hon hup hdest => ?_,
    fun hoff => ?_, hcounts, hframe.trans (by rw [hflags]; rfl)⟩
  · rcases alert_cases (s.writeFlag f true) f with ⟨-, hno | hno | hno⟩ | ⟨d, hd, -, -, heq⟩
    · exact absurd (hon.symm.trans hno) (by decide)
    · exact absurd (hup.symm.trans hno) (by decide)
    · exact absurd (hdest.symm.trans hno) (by simp)
    · rw [heq]
      cases hdest.symm.trans hd
      exact ⟨rfl, (counted_bump _ _).counted⟩
  · rcases alert_cases (s.writeFlag f true) f with ⟨heq, -⟩ | ⟨d, hd, hon, hup, -⟩
    · rw [heq]
      exact ⟨rfl, rfl⟩
    · rcases hoff with hno | hno | hno
      · exact absurd (hon.symm.trans hno) (by decide)
      · exact absurd (hup.symm.trans hno) (by decide)
      · exact absurd (hd.symm.trans hno) (by simp)

/-- A setting event in the terms of claims (R167, R170). -/
theorem flagged_setFlag (s : State) (n : FlagName) (i : Nat) : Flagged ⟨n, i⟩ s (s.setFlag n i) := by
  unfold State.setFlag
  split
  · rename_i h
    exact flagged_again h
  · rename_i h
    exact flagged_new (Bool.not_eq_true _ ▸ h)

/-- Without enables a setting event makes no ALERT. -/
theorem setFlag_silent {s : State} (h : s.alertEnables = []) (n : FlagName) (i : Nat) :
    s.setFlag n i = { s with flags := (s.setFlag n i).flags } := by
  have hf := flagged_setFlag s n i
  have hoff : s.alertEnabled n = false := by unfold State.alertEnabled; rw [h]; rfl
  obtain ⟨hout, hlive⟩ := hf.silent (.inl hoff)
  rw [hf.frame, hout, hlive]

theorem trackBecomes_setTrack (s : State) (k : Nat) (tr : Track) : TrackBecomes k tr s (s.setTrack k (some tr)) where
  frame := rfl
  track := State.track_setTrack_same ..
  others j hj := by rw [State.track_setTrack, if_neg hj]

theorem updateTrack_bound {s : State} {k : Nat} {tr : Track} (h : s.track k = some tr) (f : Track → Track) :
    s.updateTrack k f = s.setTrack k (some (f tr)) := by
  unfold State.updateTrack; rw [h]

theorem trackBecomes_updateTrack {s : State} {k : Nat} {tr : Track} (h : s.track k = some tr) (f : Track → Track) :
    TrackBecomes k (f tr) s (s.updateTrack k f) :=
  updateTrack_bound h f ▸ trackBecomes_setTrack s k (f tr)

/-! ### Power-on and resets (R173, R174) -/

/-- A part with every table empty is cleared. -/
theorem cleared_of_empty {t : State} (auditoriums : t.auditoriums = []) (clocks : t.clocks = []) (checks : t.checks = [])
    (beacons : t.beacons = []) (copies : t.copies = []) (tracks : t.tracks = []) (sequences : t.sequences = [])
    (egress : t.egress.waiting = [] ∧ t.egress.inFlight = none ∧ t.egress.pauseEnd = none)
    (subscriptions : t.subscriptions = []) (members : t.members = []) (queue : t.queue = [])
    (enables : t.alertEnables = []) (live : t.live = []) (snapshot : t.snapshot = [] ∧ t.snapshotTime = none) :
    Cleared t where
  auditorium a := by rw [State.auditorium, auditoriums]; rfl
  clock a := by rw [State.clock, clocks]; rfl
  check a := by rw [State.check, checks]; rfl
  beacon a := by rw [State.beacon, beacons]; rfl
  copies := copies
  track k := by rw [State.track, tracks]; rfl
  nextSeq k b := by rw [State.nextSeq, State.trackSequences, sequences]; exact PerBand.get_all 0 b
  waiting := egress.1
  inFlight := egress.2.1
  pauseEnd := egress.2.2
  subscription i := by rw [State.subscription, subscriptions]; rfl
  memberCount k b := by rw [State.memberCount, State.trackMembers, members]; exact PerBand.get_all 0 b
  queue := queue
  alertEnabled n := by rw [State.alertEnabled, enables]; rfl
  count c := by rw [State.count, live]; rfl
  snapshotCount c := by rw [State.snapshotCount, snapshot.1]; rfl
  snapshotTime := snapshot.2

theorem flagSet_of_empty {t : State} (h : t.flags = []) (f : Flag) : t.flagSet f = false := by
  rw [State.flagSet, h]; rfl

theorem rotationsInitial_get (c : EgressClass) : Rotations.initial.get c = ⟨auditoria, .automatic⟩ := by
  cases c <;> rfl

/-- With the flags clear and the enables off, the flags of the links are all that is set. -/
theorem flagDownLinks_eq {s : State} (henables : s.alertEnables = []) :
    s.flagDownLinks = { s with flags := s.flagDownLinks.flags } := by
  have hstep : ∀ (u : State) (up : Bool) (n : FlagName), u.alertEnables = [] →
      (if up then u else u.setFlag n 0) = { u with flags := (if up then u else u.setFlag n 0).flags } := by
    intro u up n hu
    split
    · rfl
    · exact setFlag_silent hu n 0
  have hdelivery := hstep s s.deliveryUp .deliveryLinkDown henables
  have hcontent := hstep { s with flags := (if s.deliveryUp then s else s.setFlag .deliveryLinkDown 0).flags }
    s.contentUp .contentLinkDown henables
  unfold State.flagDownLinks
  simp only
  rw [hdelivery]
  exact hcontent

theorem flagsOfLinks_flagDownLinks {s : State} (hflags : s.flags = []) (henables : s.alertEnables = []) :
    FlagsOfLinks s.flagDownLinks := by
  have hstep : ∀ (u : State) (up : Bool) (n : FlagName) (f : Flag),
      (if up then u else u.setFlag n 0).flagSet f = true ↔ u.flagSet f = true ∨ (f = ⟨n, 0⟩ ∧ up = false) := by
    intro u up n f
    cases up with
    | true => simp
    | false =>
      have hf := flagged_setFlag u n 0
      by_cases hfn : f = ⟨n, 0⟩
      · simp [hfn, hf.set]
      · simp [hfn, hf.others f hfn]
  intro f
  have hup : s.flagDownLinks.deliveryUp = s.deliveryUp ∧ s.flagDownLinks.contentUp = s.contentUp := by
    rw [flagDownLinks_eq henables]
    exact ⟨rfl, rfl⟩
  have hmid : (if s.deliveryUp then s else s.setFlag .deliveryLinkDown 0).contentUp = s.contentUp := by
    split
    · rfl
    · exact (sends_setFlag ..).ports.contentUp
  rw [hup.1, hup.2]
  unfold State.flagDownLinks
  simp only
  rw [hstep, hstep, hmid, flagSet_of_empty hflags]
  simp

theorem poweredOn_reset : PoweredOn State.reset where
  toCleared := cleared_of_empty rfl rfl rfl rfl rfl rfl rfl ⟨rfl, rfl, rfl⟩ rfl rfl rfl rfl rfl ⟨rfl, rfl⟩
  engineTime := rfl
  resetting := rfl
  controllers := rfl
  filter _ := rfl
  mask _ := rfl
  rotation := rotationsInitial_get

theorem powerOn_eq (s : State) :
    s.powerOn = { State.reset with
      contentUp := s.contentUp, deliveryUp := s.deliveryUp, contentOut := s.contentOut, deliveryOut := s.deliveryOut
      choices := s.choices, pending := s.pending, flags := s.powerOn.flags } :=
  flagDownLinks_eq rfl

/-- Power-on leaves what `State.reset` holds, whatever stood before. -/
theorem poweredOn_powerOn (s : State) : PoweredOn s.powerOn := by
  rw [powerOn_eq]
  exact {
    toCleared := cleared_of_empty rfl rfl rfl rfl rfl rfl rfl ⟨rfl, rfl, rfl⟩ rfl rfl rfl rfl rfl ⟨rfl, rfl⟩
    engineTime := rfl
    resetting := rfl
    controllers := rfl
    filter := fun _ => rfl
    mask := fun _ => rfl
    rotation := rotationsInitial_get }

/-- Settles O3: the values of the tables, and power-on as the state after reset with the links' flags. -/
theorem powerOnSetsEveryBlock : Obligations.PowerOnSetsEveryBlock := by
  refine ⟨⟨poweredOn_reset, fun _ => rfl, rfl, rfl, rfl, rfl, rfl, rfl, rfl, rfl, rfl, rfl⟩, fun s => ?_⟩
  refine ⟨s.powerOn, rfl, poweredOn_powerOn s, flagsOfLinks_flagDownLinks rfl rfl, ?_⟩
  rw [powerOn_eq]
  exact ⟨rfl, rfl, rfl, rfl, rfl, rfl, rfl⟩

theorem cleared_resetValues (s : State) (r : Bool) (fs : Tbl Flag Bool) :
    Cleared { s.resetValues with resetting := r, flags := fs } :=
  cleared_of_empty rfl rfl rfl rfl rfl rfl rfl ⟨rfl, rfl, rfl⟩ rfl rfl rfl rfl rfl ⟨rfl, rfl⟩

theorem sendResult_egress (s : State) (dest tag code : Nat) (status : Status) (items : List Item) :
    (s.sendResult dest tag code status items).egress = s.egress :=
  (onlyEnds_sendResult s dest tag code status items).egress.egress

/-- A RESULT moves the frames sent and the counters, and nothing else. -/
theorem sendResult_frame (s : State) (dest tag code : Nat) (status : Status) (items : List Item) :
    s.sendResult dest tag code status items =
      { s with
        live := (s.sendResult dest tag code status items).live
        contentOut := (s.sendResult dest tag code status items).contentOut } := by
  unfold State.sendResult
  split <;> rfl

/-- ENGINE RESET with no item at the head is taken (R173). -/
theorem runEngineReset_taken {s : State} {q : Queued} {rest : List Queued} (hq : s.queue = q :: rest)
    (hc : q.code = resetCode) (hi : q.items = []) :
    s.runEngineReset = (s.sendResult q.station q.tag q.code (.done false) []).engineReset := by
  unfold State.runEngineReset
  rw [hq]
  simp only [hc, hi, if_true, List.isEmpty_nil]

/-- One that carries an item is refused (R177, log entry 17). -/
theorem runEngineReset_refused {s : State} {q : Queued} {rest : List Queued} (hq : s.queue = q :: rest)
    (hc : q.code = resetCode) (hi : q.items ≠ []) : s.runEngineReset = s.endRun q (.refused .badParameter []) := by
  unfold State.runEngineReset
  rw [hq]
  have hempty : q.items.isEmpty = false := by simpa using hi
  simp only [hc, hempty, if_true, Bool.false_eq_true, if_false]

/-- The end of a run that is refused outside `runHead`. -/
theorem runRefused_endRun {s : State} {q : Queued} {rest : List Queued} (hq : s.queue = q :: rest) (r : Reason) :
    RunRefused s (s.endRun q (.refused r [])) q rest r :=
  ⟨runEnded_refused hq r [], onlyEnds_endRun ..⟩

theorem onWire_idle {g : Egress} (h : g.inFlight = none) : g.onWire = g.wireTail := by
  unfold Egress.onWire; rw [h]

theorem onWire_sending {g : Egress} {e : Entry} (h : g.inFlight = some e) : g.onWire = some e.frame := by
  unfold Egress.onWire; rw [h]

/-- Settles O4: the run of ENGINE RESET, and its completion. -/
theorem engineResetClears : Obligations.EngineResetClears := by
  refine ⟨fun s t q rest hq hc => ⟨fun hi => ?_, fun hi => ?_⟩, fun s t => ⟨fun hr => ?_, fun hr => ?_⟩⟩
  · refine ⟨_, congrArg Host.Outcome.next (runEngineReset_taken (s := s.advance t) hq hc hi), ?_⟩
    have hframe := sendResult_frame (s.advance t) q.station q.tag q.code (.done false) []
    have hout := sendResult_contentOut (s.advance t) q.station q.tag q.code (.done false) []
    have hegress := sendResult_egress (s.advance t) q.station q.tag q.code (.done false) []
    generalize (s.advance t).sendResult q.station q.tag q.code (.done false) [] = v at *
    refine ⟨cleared_resetValues v true _, rfl, fun _ => rfl, fun hidle => ?_, fun e he => ?_, ?_, ?_, ?_⟩
    · show v.egress.onWire = _
      rw [hegress]
      exact onWire_idle hidle
    · show v.egress.onWire = _
      rw [hegress]
      exact onWire_sending he
    · show v.egress.rotation = _
      rw [hegress]
      rfl
    · show v.contentOut = _
      rw [hout, hc]
      rfl
    · rw [hframe]
      rfl
  · refine ⟨_, congrArg Host.Outcome.next (runEngineReset_refused (s := s.advance t) hq hc hi), ?_⟩
    exact runRefused_endRun (s := s.advance t) hq .badParameter
  · have hrun : (s.advance t).completeReset =
        { (s.advance t).resetValues with resetting := false, flags := (s.advance t).completeReset.flags } := by
      unfold State.completeReset
      rw [if_pos (show (s.advance t).resetting = true from hr)]
      exact flagDownLinks_eq rfl
    refine ⟨(s.advance t).completeReset, rfl, hrun ▸ cleared_resetValues _ false _, ?_, ?_, ?_, ?_⟩
    · rw [hrun]
    · unfold State.completeReset
      rw [if_pos (show (s.advance t).resetting = true from hr)]
      exact flagsOfLinks_flagDownLinks rfl rfl
    · rw [hrun]
      rfl
    · rw [hrun]
      rfl
  · show Host.Outcome.next (s.advance t).completeReset = _
    unfold State.completeReset
    rw [if_neg (by rw [State.advance_resetting, hr]; decide)]

/-! ### The end of a frame (R19, R129) -/

theorem cutItems_nil : cutItems [] = [] := rfl

theorem closeComplete_auditorium (s : State) (a j : Nat) :
    (s.closeComplete a).auditorium j =
      if j = a then { s.auditorium a with lifecycle := .dark, owed := none } else s.auditorium j := by
  have hset := State.auditorium_setAuditorium s a { s.auditorium a with lifecycle := .dark, owed := none } j
  unfold State.closeComplete
  simp only
  split
  · exact hset
  · rw [← hset, State.auditorium, (onlyEnds_sendResult ..).shows.auditoriums]
    rfl

/-- The RESULT that an AUDITORIUM CLOSE owes goes out as the auditorium enters DARK (R19). -/
theorem closeComplete_contentOut {s : State} {a : Nat} {o : Owed} (h : (s.auditorium a).owed = some o)
    (hup : s.contentUp = true) :
    (s.closeComplete a).contentOut =
      s.contentOut ++ [.result o.station o.tag 0x07 (.done false) s.engineTime []] := by
  unfold State.closeComplete
  simp only [h]
  rw [sendResult_contentOut, if_pos (by rw [State.setAuditorium_contentUp, hup]), cutItems_nil]
  rfl

theorem closeComplete_counts (s : State) (a : Nat) : SameCounts s (s.closeComplete a) [.device .resultsSent] := by
  intro c hc
  unfold State.closeComplete
  simp only
  split
  · rfl
  · rw [sendResult_count, if_neg fun h => hc (List.mem_singleton.mpr h.1)]
    rfl

theorem closeComplete_frame (s : State) (a : Nat) :
    s.closeComplete a = { s with
      auditoriums := (s.closeComplete a).auditoriums, live := (s.closeComplete a).live
      contentOut := (s.closeComplete a).contentOut } := by
  unfold State.closeComplete
  simp only
  split
  · rfl
  · rw [sendResult_frame]
    rfl

/-- What the end of the transmission of `e` tells the auditoria: that of a SHOW ENDED takes its CLOSING auditorium to
DARK, and any other nothing (R19). -/
structure FrameEnded (e : Entry) (s v : State) : Prop where
  counts : SameCounts s v [.device .resultsSent]
  closed : ∀ a, e.frame.body = .showEnded a → s.lifecycle a = .closing →
    v.auditorium a = { s.auditorium a with lifecycle := .dark, owed := none } ∧
      ∀ o, (s.auditorium a).owed = some o → s.contentUp = true →
        v.contentOut = s.contentOut ++ [.result o.station o.tag 0x07 (.done false) s.engineTime []]
  others : ∀ j, (e.frame.body = .showEnded j → s.lifecycle j ≠ .closing) → v.auditorium j = s.auditorium j
  frame : v = { s with auditoriums := v.auditoriums, live := v.live, contentOut := v.contentOut }

theorem frameEnded_none {e : Entry} {s : State} (h : ∀ a, e.frame.body = .showEnded a → s.lifecycle a ≠ .closing) :
    FrameEnded e s s where
  counts := SameCounts.refl s _
  closed a ha hl := absurd hl (h a ha)
  others _ _ := rfl
  frame := rfl

theorem frameEnded_close {e : Entry} {s : State} {a : Nat} (h : e.frame.body = .showEnded a)
    (hl : s.lifecycle a = .closing) : FrameEnded e s (s.closeComplete a) where
  counts := closeComplete_counts s a
  closed b hb _ := by
    cases DeliveryBody.showEnded.inj (h.symm.trans hb)
    exact ⟨by rw [closeComplete_auditorium, if_pos rfl], fun o ho hup => closeComplete_contentOut ho hup⟩
  others j hj := by
    rw [closeComplete_auditorium, if_neg]
    rintro rfl
    exact hj h hl
  frame := closeComplete_frame s a

theorem endOfFrame_ended (s : State) (e : Entry) : FrameEnded e s (s.endOfFrame e) := by
  unfold State.endOfFrame
  cases hb : e.frame.body with
  | showEnded a =>
    simp only
    split
    · rename_i hl
      exact frameEnded_close hb hl
    · rename_i hl
      refine frameEnded_none fun b hb' => ?_
      cases DeliveryBody.showEnded.inj (hb.symm.trans hb')
      exact hl
  | caption | captionReplace | captionWithdraw | captionClear | audio | audioGap | audioFlush | beacon | joinResult
    | trackEnded => exact frameEnded_none fun b hb' => by rw [hb] at hb'; cases hb'

/-! ### Links and pauses (R131, R132, R175) -/

theorem contentLinkDown_spec {s : State} {t : Nat} (h : s.contentUp = true) :
    ∃ u, exec (.contentLinkDown t) s = .next u ∧ u.contentUp = false ∧
      u.flagSet ⟨.contentLinkDown, 0⟩ = true ∧ (∀ f, f ≠ ⟨.contentLinkDown, 0⟩ → u.flagSet f = s.flagSet f) ∧
      u = { s with engineTime := max s.engineTime t, contentUp := u.contentUp, flags := u.flags } := by
  have hrun : (s.advance t).contentLinkLost = State.setFlag { s.advance t with contentUp := false } .contentLinkDown 0 :=
    if_pos h
  have hf := flagged_setFlag { s.advance t with contentUp := false } .contentLinkDown 0
  obtain ⟨hout, hlive⟩ := hf.silent (.inr (.inl rfl))
  refine ⟨_, congrArg Host.Outcome.next hrun, ?_, hf.set, hf.others, ?_⟩
  · rw [hf.frame]
  · rw [hf.frame, hout, hlive]
    rfl

/-- The state in which a delivery link that goes DOWN ends its transmission: flag set, window closed, wire empty. -/
def State.deliverySilenced (s : State) : State :=
  let v := State.setFlag { s with deliveryUp := false } .deliveryLinkDown 0
  { v with egress := { s.egress with pauseEnd := none, inFlight := none, wireTail := none } }

theorem deliverySilenced_frame (s : State) :
    s.deliverySilenced = { s with
      deliveryUp := false, flags := s.deliverySilenced.flags, egress := s.deliverySilenced.egress
      live := s.deliverySilenced.live, contentOut := s.deliverySilenced.contentOut } := by
  unfold State.deliverySilenced
  simp only
  rw [(flagged_setFlag { s with deliveryUp := false } .deliveryLinkDown 0).frame]

theorem setFlag_egress (s : State) (n : FlagName) (i : Nat) : (s.setFlag n i).egress = s.egress := by
  rw [(flagged_setFlag s n i).frame]

theorem deliverySilenced_flagSet (s : State) (f : Flag) :
    s.deliverySilenced.flagSet f = if f = ⟨.deliveryLinkDown, 0⟩ then true else s.flagSet f := by
  have hf := flagged_setFlag { s with deliveryUp := false } .deliveryLinkDown 0
  split
  · rename_i h
    rw [h]
    exact hf.set
  · exact hf.others f ‹_›

theorem deliverySilenced_counts (s : State) : SameCounts s s.deliverySilenced [.device .alertsSent] :=
  (flagged_setFlag { s with deliveryUp := false } .deliveryLinkDown 0).counts

/-- The delivery link goes DOWN with nothing in flight. -/
theorem deliveryLinkDown_idle {s : State} (hup : s.deliveryUp = true) (hidle : s.egress.inFlight = none) :
    s.deliveryLinkLost = s.deliverySilenced := by
  unfold State.deliveryLinkLost State.deliverySilenced
  rw [if_pos hup]
  simp only [setFlag_egress, hidle]

/-- The delivery link goes DOWN with `e` in flight: counted LINK_ABORT, and its auditorium told. -/
theorem deliveryLinkDown_sending {s : State} {e : Entry} (hup : s.deliveryUp = true)
    (hsend : s.egress.inFlight = some e) :
    s.deliveryLinkLost = (s.deliverySilenced.bumpAuditorium e.auditorium .linkAbort).endOfFrame e := by
  unfold State.deliveryLinkLost State.deliverySilenced
  rw [if_pos hup]
  simp only [setFlag_egress, hsend]

/-- Settles O5: each link's loss and return. -/
theorem linksGoDown : Obligations.LinksGoDown := by
  refine ⟨fun s t => ⟨contentLinkDown_spec, fun h => ?_, rfl⟩, fun s t => ⟨fun h => ?_, fun hup => ?_⟩⟩
  · exact congrArg Host.Outcome.next (if_neg (by rw [State.advance_contentUp, h]; decide))
  · exact congrArg Host.Outcome.next (if_neg (by rw [State.advance_deliveryUp, h]; decide))
  have hflag := deliverySilenced_flagSet (s.advance t)
  have hcounts := deliverySilenced_counts (s.advance t)
  have hframe := deliverySilenced_frame (s.advance t)
  have hegress : (s.advance t).deliverySilenced.egress =
    { s.egress with pauseEnd := none, inFlight := none, wireTail := none } := rfl
  refine ⟨(s.advance t).deliveryLinkLost, rfl, ?_⟩
  cases hfl : s.egress.inFlight with
  | none =>
    rw [deliveryLinkDown_idle (s := s.advance t) hup hfl]
    generalize (s.advance t).deliverySilenced = v at *
    refine ⟨by rw [hframe], (hflag _).trans (if_pos rfl), fun f hf => (hflag f).trans (if_neg hf), hegress,
      fun c _ hc _ => hcounts c (by simpa using hc), (by simp), (by simp), fun j _ => by rw [hframe]; rfl, ?_⟩
    rw [hframe]
    rfl
  | some e =>
    rw [deliveryLinkDown_sending (s := s.advance t) hup hfl]
    generalize (s.advance t).deliverySilenced = v at *
    have hbump := counted_bump v (.auditorium e.auditorium .linkAbort)
    have hend := endOfFrame_ended (v.bumpAuditorium e.auditorium .linkAbort) e
    have hlife : ∀ a, (v.bumpAuditorium e.auditorium .linkAbort).lifecycle a = s.lifecycle a := fun a => by
      rw [hframe]; rfl
    have haud : ∀ a, (v.bumpAuditorium e.auditorium .linkAbort).auditorium a = s.auditorium a := fun a => by
      rw [hframe]; rfl
    change Counted v (v.bumpAuditorium e.auditorium .linkAbort) _ at hbump
    generalize v.bumpAuditorium e.auditorium .linkAbort = w at *
    generalize w.endOfFrame e = u at *
    have hwv := hbump.frame
    have huw := hend.frame
    refine ⟨by rw [huw, hwv, hframe], ?_, fun f hf => ?_, by rw [huw, hwv]; exact hegress, fun c hc ha hr => ?_,
      fun e' he' => ?_, fun e' a he' hbody hl => ?_, fun j hj => ?_, ?_⟩
    · rw [huw, hwv]
      exact (hflag _).trans (if_pos rfl)
    · rw [huw, hwv]
      exact (hflag _).trans (if_neg hf)
    · rw [hend.counts c (by simpa using hr), hbump.others c (by simpa using hc e rfl)]
      exact hcounts c (by simpa using ha)
    · cases he'
      rw [hend.counts _ (by simp), hbump.counted, hcounts _ (by simp)]
      rfl
    · cases he'
      obtain ⟨hdark, hresult⟩ := hend.closed a hbody ((hlife a).trans hl)
      refine ⟨by rw [hdark, haud], fun o ho hcu => ?_⟩
      rw [hresult o (by rw [haud]; exact ho) (by rw [hwv, hframe]; exact hcu), List.getLast?_append, hwv, hframe]
      rfl
    · rw [hend.others j fun hb => by rw [hlife]; exact hj e rfl hb, haud]
    · rw [huw, hwv, hframe]
      rfl

end Sys2Proof.Machine

/-! PROOFS. Pauses and the Egress Arbiter: grants, choices, offers, withdrawals and completed transmissions (O6, O8 to
O13). -/

namespace Sys2Proof.Machine

/-! ### Pauses (R131) -/

theorem deliveryOpen_iff (s : State) : s.deliveryOpen = true ↔ s.deliveryUp = true ∧ s.resetting = false := by
  unfold State.deliveryOpen
  simp

theorem contentOpen_iff (s : State) : s.contentOpen = true ↔ s.contentUp = true ∧ s.resetting = false := by
  unfold State.contentOpen
  simp

/-- Settles O6: pause frames, the close of a window and the link's return. -/
theorem pauseWindowHoldsGrants : Obligations.PauseWindowHoldsGrants := by
  refine ⟨fun s ea q => ⟨fun hup hr => ⟨_, counted_bump (s.advance ea) (.device .pauseFrames), ?_⟩, fun hoff => ?_⟩,
    fun s t => ⟨rfl, fun e he hle => ?_, fun e he hlt => ?_, fun he => ?_⟩⟩
  · have hopen : (s.advance ea).deliveryOpen = true := (deliveryOpen_iff _).mpr ⟨hup, hr⟩
    have hrun : exec (.flowControlPause ea q) s = .next ((s.advance ea).pauseFrame ea q) := rfl
    rw [hrun]
    unfold State.pauseFrame
    rw [if_pos hopen]
    exact ⟨fun hq => congrArg Host.Outcome.next (if_neg (by omega)),
      fun hq => congrArg Host.Outcome.next (if_pos hq)⟩
  · refine congrArg Host.Outcome.next (if_neg ?_)
    rw [deliveryOpen_iff]
    rintro ⟨hup, hr⟩
    rcases hoff with h | h
    · exact absurd (hup.symm.trans h) (by decide)
    · exact absurd (hr.symm.trans h) (by decide)
  all_goals
    have hrun : exec (.pauseWindowClose t) s = .next (s.advance t).closePause := rfl
    rw [hrun]
    unfold State.closePause
    rw [State.advance_egress, he]
  · exact congrArg Host.Outcome.next (if_pos hle)
  · exact congrArg Host.Outcome.next (if_neg (by show ¬e ≤ max s.engineTime t; omega))

/-! ### Grants (R125 to R128) -/

theorem linkFree_iff (s : State) :
    s.linkFree = true ↔
      s.deliveryUp = true ∧ s.egress.inFlight = none ∧ s.egress.wireTail = none ∧ s.egress.pauseEnd = none := by
  unfold State.linkFree
  simp [and_assoc]

theorem stale_iff (s : State) (e : Entry) :
    s.stale e = true ↔ ∃ d, e.deadline = some d ∧ d < s.showTime e.auditorium := by
  unfold State.stale
  cases e.deadline <;> simp

/-- A grant with the link free takes what is chosen: a stale entry is dropped and the grant chooses again. -/
theorem grant_chosen {s : State} {e : Entry} (hfree : s.linkFree = true) (hc : s.egress.choose = some e) :
    s.grant =
      if s.stale e then ((s.removeWaiting e).bumpAuditorium e.auditorium .stale).grant else s.startTransmission e := by
  have hmem : e ∈ s.egress.waiting := (choose_spec hc).1
  obtain ⟨n, hn⟩ : ∃ n, s.egress.waiting.length = n + 1 := ⟨_, (Nat.succ_pred_eq_of_pos (List.length_pos_of_mem hmem)).symm⟩
  have hlen : ((s.removeWaiting e).bumpAuditorium e.auditorium .stale).egress.waiting.length = n := by
    show (s.egress.waiting.erase e).length = n
    rw [List.length_erase_of_mem hmem, hn]
    rfl
  have hfree' : ((s.removeWaiting e).bumpAuditorium e.auditorium .stale).linkFree = true := hfree
  have hagain : ((s.removeWaiting e).bumpAuditorium e.auditorium .stale).grant =
      State.grantLoop n ((s.removeWaiting e).bumpAuditorium e.auditorium .stale) := by
    unfold State.grant
    rw [if_pos hfree', hlen]
  rw [hagain]
  unfold State.grant
  rw [if_pos hfree, hn]
  simp only [State.grantLoop, hc]

theorem fillBeacon_beacon {s : State} {f : DeliveryFrame} {a : Nat} {x : Option BeaconFill}
    (h : f.body = .beacon a x) :
    s.fillBeacon f = { f with body := .beacon a (some ⟨s.lifecycle a, (s.clock a).composition, s.showTime a⟩) } := by
  unfold State.fillBeacon; rw [h]

theorem fillBeacon_other {s : State} {f : DeliveryFrame} (h : ∀ a x, f.body ≠ .beacon a x) : s.fillBeacon f = f := by
  unfold State.fillBeacon
  split
  · exact absurd ‹_› (h _ _)
  all_goals rfl

/-- Settles O8: the conditions of a grant, and what it does with the entry it chooses. -/
theorem grantTakesChosenEntry : Obligations.GrantTakesChosenEntry := by
  refine fun s => ⟨fun hno => ?_, fun hempty => ?_, fun e hup hfl htail hpause hc => ⟨fun hstale => ?_, fun hfresh => ?_⟩⟩
  · unfold State.grant
    rw [if_neg]
    rw [linkFree_iff]
    rintro ⟨hup, hfl, htail, hpause⟩
    simp_all
  · unfold State.grant
    rw [hempty]
    exact ite_self _
  · have hfree := (linkFree_iff s).mpr ⟨hup, hfl, htail, hpause⟩
    refine ⟨_, counted_bump (s.removeWaiting e) _, ?_⟩
    rw [grant_chosen hfree hc, if_pos ((stale_iff s e).mpr hstale)]
    rfl
  · have hfree := (linkFree_iff s).mpr ⟨hup, hfl, htail, hpause⟩
    have hns : ¬s.stale e = true := by
      rw [stale_iff]
      rintro ⟨d, hd, hlt⟩
      have := hfresh d hd
      omega
    refine ⟨s.startTransmission e, by rw [grant_chosen hfree hc, if_neg hns], rfl, rfl,
      ⟨_, rfl, fun a x hb => fillBeacon_beacon hb, fillBeacon_other⟩, fun c hcne => ?_, fun hauto => ?_, fun hfix => ?_,
      hpause, htail, rfl⟩
    · exact (Rotations.get_set ..).trans (if_neg hcne)
    · refine (congrArg Rotation.order ((Rotations.get_set ..).trans (if_pos rfl))).trans ?_
      unfold Rotation.afterGrant
      rw [hauto]
    · refine ((Rotations.get_set ..).trans (if_pos rfl)).trans ?_
      unfold Rotation.afterGrant
      rw [hfix]

/-! ### The choice of a grant (R126) -/

theorem inFifo_iff (c : EgressClass) (a : Nat) (e : Entry) : e.inFifo c a = true ↔ e.cls = c ∧ e.auditorium = a := by
  unfold Entry.inFifo
  simp

/-- The three searches of a choice, class, auditorium and entry. -/
theorem choose_searches {g : Egress} {e : Entry} (h : g.choose = some e) :
    egressClasses.find? (fun c => g.waiting.any fun x => x.cls == c) = some e.cls ∧
      (g.rotation.get e.cls).order.find? (fun a => g.waiting.any (Entry.inFifo e.cls a)) = some e.auditorium ∧
      g.waiting.find? (Entry.inFifo e.cls e.auditorium) = some e := by
  unfold Egress.choose at h
  split at h
  · cases h
  · rename_i c hc
    split at h
    · cases h
    · rename_i a ha
      obtain ⟨rfl, rfl⟩ := (inFifo_iff c a e).mp (List.find?_some h)
      exact ⟨hc, ha, h⟩

theorem find?_append_of_some {α : Type} {p : α → Bool} {l : List α} {a : α} (h : l.find? p = some a) :
    ∃ l₁ l₂, l = l₁ ++ a :: l₂ ∧ ∀ x ∈ l₁, ¬p x = true := by
  obtain ⟨-, l₁, l₂, hl, hno⟩ := List.find?_eq_some_iff_append.mp h
  exact ⟨l₁, l₂, hl, fun x hx => by simpa using hno x hx⟩

/-- What a search passes over stands in front of what it finds. -/
theorem idxOf_le_of_append {α : Type} [BEq α] [LawfulBEq α] {l l₁ l₂ : List α} {a b : α} (h : l = l₁ ++ a :: l₂)
    (hb : b ∉ l₁) : l.idxOf a ≤ l.idxOf b := by
  rw [h, List.idxOf_append_of_notMem hb]
  by_cases ha : a ∈ l₁
  · rw [List.idxOf_append_of_mem ha]
    have := List.idxOf_lt_length_of_mem ha
    omega
  · rw [List.idxOf_append_of_notMem ha, List.idxOf_cons_self]
    omega

theorem choose_isSome {g : Egress} (hr : g.rotation.Ranked) (hw : g.waiting ≠ [])
    (haud : ∀ x ∈ g.waiting, x.auditorium ∈ auditoria) : g.choose.isSome = true := by
  have hclass : (egressClasses.find? fun c => g.waiting.any fun x => x.cls == c).isSome = true := by
    obtain ⟨x, hx⟩ := List.exists_mem_of_ne_nil _ hw
    rw [List.find?_isSome]
    exact ⟨x.cls, by cases x.cls <;> decide, List.any_eq_true.mpr ⟨x, hx, by simp⟩⟩
  obtain ⟨c, hc⟩ := Option.isSome_iff_exists.mp hclass
  have hany := List.find?_some hc
  simp only [List.any_eq_true] at hany
  obtain ⟨x, hx, hxc⟩ := hany
  have hrank : ((g.rotation.get c).order.find? fun a => g.waiting.any (Entry.inFifo c a)).isSome = true := by
    rw [List.find?_isSome]
    exact ⟨x.auditorium, (hr c).mem_iff.mpr (haud x hx),
      List.any_eq_true.mpr ⟨x, hx, (inFifo_iff ..).mpr ⟨by simpa using hxc, rfl⟩⟩⟩
  obtain ⟨a, ha⟩ := Option.isSome_iff_exists.mp hrank
  unfold Egress.choose
  rw [hc]
  simp only [ha]
  rw [List.find?_isSome]
  have hany := List.find?_some ha
  exact List.any_eq_true.mp hany

/-- Settles O9: class, rank and age of the chosen entry, and that there is one. -/
theorem choiceIsByClassThenRankThenAge : Obligations.ChoiceIsByClassThenRankThenAge := by
  refine fun g => ⟨fun e h => ?_, choose_isSome⟩
  obtain ⟨hclass, hrank, hage⟩ := choose_searches h
  obtain ⟨c₁, c₂, hc, hnoc⟩ := find?_append_of_some hclass
  obtain ⟨r₁, r₂, hr, hnor⟩ := find?_append_of_some hrank
  obtain ⟨w₁, w₂, hw, hnow⟩ := find?_append_of_some hage
  refine ⟨List.mem_of_find?_eq_some hage, fun x hx => idxOf_le_of_append hc fun hm => hnoc _ hm ?_,
    ⟨r₁, r₂, hr, fun x hx hxc hm => hnor _ hm ?_⟩, w₁, w₂, hw, fun x hx hfifo => hnow x hx ((inFifo_iff ..).mpr hfifo)⟩
  · exact List.any_eq_true.mpr ⟨x, hx, by simp⟩
  · exact List.any_eq_true.mpr ⟨x, hx, (inFifo_iff ..).mpr ⟨hxc, rfl⟩⟩

/-! ### Offers (R121, R122) -/

theorem evicts_iff (c : EgressClass) : c.evicts = true ↔ c = .audio ∨ c = .caption := by
  cases c <;> decide

theorem victim_catchup {g : Egress} {l₁ l₂ : List Entry} {x : Entry} (h : g.waiting = l₁ ++ x :: l₂)
    (hx : x.cls = .catchup) (hno : ∀ y ∈ l₁, y.cls ≠ .catchup) : g.victim = some x := by
  unfold Egress.victim
  have hf : g.waiting.find? (fun e => e.cls == .catchup) = some x :=
    List.find?_eq_some_iff_append.mpr ⟨by simp [hx], l₁, l₂, h, fun y hy => by simpa using hno y hy⟩
  rw [hf]

theorem victim_beacon {g : Egress} {l₁ l₂ : List Entry} {x : Entry} (h : g.waiting = l₁ ++ x :: l₂)
    (hx : x.cls = .beacon) (hno : ∀ y ∈ l₁, y.cls ≠ .beacon) (hcatch : ∀ y ∈ g.waiting, y.cls ≠ .catchup) :
    g.victim = some x := by
  unfold Egress.victim
  have hf : g.waiting.find? (fun e => e.cls == .catchup) = none :=
    List.find?_eq_none.mpr fun y hy => by simpa using hcatch y hy
  rw [hf]
  exact List.find?_eq_some_iff_append.mpr ⟨by simp [hx], l₁, l₂, h, fun y hy => by simpa using hno y hy⟩

theorem victim_none {g : Egress} (h : ∀ y ∈ g.waiting, y.cls ≠ .catchup ∧ y.cls ≠ .beacon) : g.victim = none := by
  unfold Egress.victim
  have hf : g.waiting.find? (fun e => e.cls == .catchup) = none :=
    List.find?_eq_none.mpr fun y hy => by simpa using (h y hy).1
  rw [hf]
  exact List.find?_eq_none.mpr fun y hy => by simpa using (h y hy).2

theorem offer_place {s : State} (e : Entry) (h : s.egress.occupancy < poolSize) : s.offer e = s.place e :=
  if_pos h

theorem offer_evict {s : State} {e v : Entry} (h : ¬s.egress.occupancy < poolSize) (hev : e.cls.evicts = true)
    (hv : s.egress.victim = some v) :
    s.offer e = ((s.removeWaiting v).bumpAuditorium v.auditorium .evicted).place e := by
  unfold State.offer
  rw [if_neg h, if_pos hev, hv]

theorem offer_refuse {s : State} {e : Entry} (h : ¬s.egress.occupancy < poolSize)
    (hv : e.cls.evicts = true → s.egress.victim = none) :
    s.offer e = (s.bumpAuditorium e.auditorium .egressFull).setFlag .egressFull 0 := by
  unfold State.offer
  rw [if_neg h]
  split
  · rename_i v hm
    split at hm
    · rw [hv ‹_›] at hm
      cases hm
    · cases hm
  · rfl

/-- The state of an offer refused: one count and the flag. -/
theorem egressFull_spec (s : State) (a : Nat) (u : State)
    (hu : u = (s.bumpAuditorium a .egressFull).setFlag .egressFull 0) :
    u.flagSet ⟨.egressFull, 0⟩ = true ∧ (∀ f, f ≠ ⟨.egressFull, 0⟩ → u.flagSet f = s.flagSet f) ∧
      u.count (.auditorium a .egressFull) = min counterMax (s.count (.auditorium a .egressFull) + 1) ∧
      SameCounts s u [.auditorium a .egressFull, .device .alertsSent] ∧
      u = { s with flags := u.flags, live := u.live, contentOut := u.contentOut } := by
  have hb := counted_bump s (.auditorium a .egressFull)
  have hf := flagged_setFlag (s.bumpAuditorium a .egressFull) .egressFull 0
  rw [← hu] at hf
  change Counted s (s.bumpAuditorium a .egressFull) _ at hb
  generalize s.bumpAuditorium a .egressFull = v at *
  have hframe := hf.frame
  have hbframe := hb.frame
  refine ⟨hf.set, fun f hne => (hf.others f hne).trans (by rw [hbframe]; rfl), ?_, fun c hc => ?_, ?_⟩
  · rw [hf.counts _ (by simp), hb.counted]
  · rw [List.mem_cons, List.mem_singleton, not_or] at hc
    rw [hf.counts c (by simpa using hc.2), hb.others c (by simpa using hc.1)]
  · rw [hframe, hbframe]

/-- Settles O10: the three ends of an offer. -/
theorem offerPlacesEvictsOrRefuses : Obligations.OfferPlacesEvictsOrRefuses := by
  refine fun s e => ⟨fun h => ⟨_, ?_, counted_bump _ (.auditorium e.auditorium .entriesMade)⟩,
    fun l₁ x l₂ hfull hcls hw hx => ?_, fun hfull hno => ⟨_, rfl, ?_⟩⟩
  · rw [offer_place e h]
    rfl
  · have hv : s.egress.victim = some x := by
      rcases hx with ⟨hx, hnone⟩ | ⟨hx, hnone, hcatch⟩
      · exact victim_catchup hw hx hnone
      · exact victim_beacon hw hx hnone hcatch
    refine ⟨_, _, counted_bump (s.removeWaiting x) (.auditorium x.auditorium .evicted),
      counted_bump _ (.auditorium e.auditorium .entriesMade), ?_⟩
    rw [offer_evict (Nat.not_lt.mpr hfull) ((evicts_iff _).mpr hcls) hv]
    rfl
  · refine egressFull_spec s e.auditorium _ (offer_refuse (Nat.not_lt.mpr hfull) fun hev => ?_)
    rcases hno with h | h | h
    · rw [h] at hev
      cases hev
    · rw [h] at hev
      cases hev
    · exact victim_none h

/-! ### Withdrawals (R130) -/

/-- Each of a list of entries counted WITHDRAWN moves that count alone, by the number of entries of the auditorium. -/
theorem bumpWithdrawn_counts (es : List Entry) (s : State) :
    (∀ a, s.CountersBounded → (es.foldl (fun s e => s.bumpAuditorium e.auditorium .withdrawn) s).count
        (.auditorium a .withdrawn) =
      min counterMax (s.count (.auditorium a .withdrawn) + (es.filter fun e => e.auditorium == a).length)) ∧
    (∀ c, (∀ a, c ≠ .auditorium a .withdrawn) →
      (es.foldl (fun s e => s.bumpAuditorium e.auditorium .withdrawn) s).count c = s.count c) ∧
    es.foldl (fun s e => s.bumpAuditorium e.auditorium .withdrawn) s =
      { s with live := (es.foldl (fun s e => s.bumpAuditorium e.auditorium .withdrawn) s).live } := by
  induction es generalizing s with
  | nil => exact ⟨fun a hb => by rw [List.foldl_nil, List.filter_nil]; exact (Nat.min_eq_right (hb _)).symm, fun _ _ => rfl, rfl⟩
  | cons e es ih =>
    obtain ⟨hcount, hother, hframe⟩ := ih (s.bumpAuditorium e.auditorium .withdrawn)
    refine ⟨fun a hb => ?_, fun c hc => ?_, hframe⟩
    · rw [List.foldl_cons, hcount a (State.countersBounded_bumpBy hb _ 1), State.count_bumpAuditorium]
      by_cases ha : e.auditorium = a
      · subst ha
        simp
        omega
      · rw [if_neg (by simpa using Ne.symm ha), List.filter_cons_of_neg (by simpa using ha)]
    · rw [List.foldl_cons, hother c hc, State.count_bumpAuditorium, if_neg (hc e.auditorium)]

/-- Settles O11: what a withdrawal removes and counts. -/
theorem withdrawalRemovesWhatItCovers : Obligations.WithdrawalRemovesWhatItCovers := by
  intro s covers hb
  obtain ⟨hcount, hother, hframe⟩ := bumpWithdrawn_counts (s.egress.waiting.filter covers)
    { s with egress := { s.egress with waiting := s.egress.waiting.filter fun e => !covers e } }
  change (∀ a, _ → (s.withdraw covers).count _ = _) at hcount
  change (∀ c, _ → (s.withdraw covers).count c = _) at hother
  change s.withdraw covers = _ at hframe
  refine ⟨by rw [hframe], fun a => ?_, hother, ?_⟩
  · rw [hcount a hb, List.filter_filter]
    simp only [Bool.and_comm]
    rfl
  · rw [hframe]

/-! ### Frames to band groups, and the end of a transmission (R101, R129) -/

theorem grantLoop_frame (n : Nat) (s : State) :
    State.grantLoop n s =
      { s with egress := (State.grantLoop n s).egress, live := (State.grantLoop n s).live } := by
  induction n generalizing s with
  | zero => rfl
  | succ n ih =>
    unfold State.grantLoop
    split
    · rfl
    · split
      · exact ih _
      · rfl

/-- A grant moves the pool and the counters alone. -/
theorem grant_frame (s : State) : s.grant = { s with egress := s.grant.egress, live := s.grant.live } := by
  unfold State.grant
  split
  · exact grantLoop_frame ..
  · rfl

/-- Only the pool, the counters, the flags and what the content port sends move: all that an offer moves. -/
def OffersOnly (s t : State) : Prop := ∃ g l f o, t = { s with egress := g, live := l, flags := f, contentOut := o }

theorem OffersOnly.refl (s : State) : OffersOnly s s := ⟨_, _, _, _, rfl⟩

theorem OffersOnly.trans {s t u : State} (h : OffersOnly s t) (g : OffersOnly t u) : OffersOnly s u := by
  obtain ⟨_, _, _, _, rfl⟩ := h
  obtain ⟨_, _, _, _, rfl⟩ := g
  exact ⟨_, _, _, _, rfl⟩

theorem OffersOnly.frame {s t : State} (h : OffersOnly s t) :
    t = { s with egress := t.egress, live := t.live, flags := t.flags, contentOut := t.contentOut } := by
  obtain ⟨_, _, _, _, rfl⟩ := h
  rfl

theorem offersOnly_grant (s : State) : OffersOnly s s.grant := ⟨_, _, _, _, grant_frame s⟩

theorem offersOnly_setFlag (s : State) (n : FlagName) (i : Nat) : OffersOnly s (s.setFlag n i) :=
  ⟨_, _, _, _, (flagged_setFlag s n i).frame⟩

theorem offersOnly_bump (s : State) (c : Counter) : OffersOnly s (s.bump c) := ⟨_, _, _, _, rfl⟩

theorem offersOnly_place (s : State) (e : Entry) : OffersOnly s (s.place e) := by
  unfold State.place
  exact OffersOnly.trans ⟨_, _, _, _, rfl⟩ (offersOnly_grant _)

theorem offersOnly_offer (s : State) (e : Entry) : OffersOnly s (s.offer e) := by
  unfold State.offer
  split
  · exact offersOnly_place s e
  · split
    · exact OffersOnly.trans ⟨_, _, _, _, rfl⟩ (offersOnly_place ..)
    · exact (offersOnly_bump ..).trans (offersOnly_setFlag ..)

theorem sendToBand_nextSeq (s : State) (k : Nat) (tr : Track) (b : Band) (cls : EgressClass) (body : DeliveryBody)
    (d : Option Nat) (j : Nat) (c : Band) :
    (s.sendToBand k tr b cls body d).nextSeq j c = if j = k ∧ c = b then s.nextSeq k b + 1 else s.nextSeq j c := by
  have hoffer : (s.sendToBand k tr b cls body d).nextSeq j c =
      (s.setTrackSequences k ((s.trackSequences k).set b (s.nextSeq k b + 1))).nextSeq j c := by
    unfold State.sendToBand
    simp only
    rw [(offersOnly_offer _ _).frame]
    rfl
  rw [hoffer, State.nextSeq, State.trackSequences_setTrackSequences]
  by_cases hj : j = k
  · subst hj
    rw [if_pos rfl, PerBand.get_set]
    by_cases hc : c = b
    · rw [if_pos hc, if_pos ⟨rfl, hc⟩]
    · rw [if_neg hc, if_neg fun h => hc h.2]
      rfl
  · rw [if_neg hj, if_neg fun h => hj h.1]
    rfl

/-- Settles O12: the sequence number a band group's frame takes, and the entry offered. -/
theorem bandFrameTakesSequenceNumber : Obligations.BandFrameTakesSequenceNumber := by
  refine fun s k tr b cls body d => ⟨?_, fun j c h => ?_, _, ?_, rfl⟩
  · rw [sendToBand_nextSeq, if_pos ⟨rfl, rfl⟩]
  · rw [sendToBand_nextSeq, if_neg fun hjc => h.elim (· hjc.1) (· hjc.2)]
  · rfl

/-- Settles O13: the end of what is on the wire. -/
theorem completionEndsTransmission : Obligations.CompletionEndsTransmission := by
  have hrun : ∀ (s : State) (t : Nat),
      exec (.transmissionCompletion t) s = .next (s.advance t).completeTransmission := fun _ _ => rfl
  refine fun s t => ⟨fun f hf => ?_, fun htail hfl => ?_, fun e htail hfl => ?_⟩
  · rw [hrun]
    unfold State.completeTransmission
    rw [State.advance_egress, hf]
    rfl
  · rw [hrun]
    unfold State.completeTransmission
    rw [State.advance_egress, htail]
    simp only [hfl]
  · rw [hrun]
    unfold State.completeTransmission
    rw [State.advance_egress, htail]
    simp only [hfl]
    refine ⟨_, rfl, ?_⟩
    have hcount := counted_bump (s.advance t).clearFlight (.auditorium e.auditorium .framesSent)
    change Counted _ ((s.advance t).clearFlight.bumpAuditorium e.auditorium .framesSent) _ at hcount
    generalize (s.advance t).clearFlight.bumpAuditorium e.auditorium .framesSent = v at *
    have hend := endOfFrame_ended (v.pushDelivery e.frame) e
    have hv := hcount.frame
    have hlife : ∀ a, (v.pushDelivery e.frame).lifecycle a = s.lifecycle a := fun a => by rw [hv]; rfl
    have haud : ∀ a, (v.pushDelivery e.frame).auditorium a = s.auditorium a := fun a => by rw [hv]; rfl
    generalize (v.pushDelivery e.frame).endOfFrame e = u at *
    have hu := hend.frame
    refine ⟨by rw [hu, hv]; rfl, by rw [hu, hv]; rfl, ?_, fun c hc => ?_, fun a hb hl => ?_, fun j hj => ?_, ?_⟩
    · exact (hend.counts _ (by simp)).trans hcount.counted
    · rw [List.mem_cons, List.mem_singleton, not_or] at hc
      exact (hend.counts c (by simpa using hc.2)).trans (hcount.others c (by simpa using hc.1))
    · obtain ⟨hdark, hresult⟩ := hend.closed a hb ((hlife a).trans hl)
      refine ⟨by rw [hdark, haud], fun o ho hcu => ?_⟩
      rw [hresult o (by rw [haud]; exact ho) (by rw [hv]; exact hcu), hv]
      rfl
    · rw [hend.others j fun hb => by rw [hlife]; exact hj hb, haud]
    · rw [hu, hv]
      rfl

end Sys2Proof.Machine

/-! PROOFS. The order of release instants, the timed events that are due, and the judgement of received frames (O2, O7). -/

namespace Sys2Proof.Machine

/-! ### The order of release instants (R100) -/

theorem mem_bands (b : Band) : b ∈ bands := by
  revert b; decide

/-- A band's instant comes before another's, ties in increasing number (R100). -/
def instantBefore (inst : Band → Nat) (b c : Band) : Prop := inst b < inst c ∨ (inst b = inst c ∧ b < c)

theorem instantBefore_total {inst : Band → Nat} {b c : Band} (hne : b ≠ c) (h : ¬instantBefore inst b c) :
    instantBefore inst c b := by
  unfold instantBefore at *
  have hval : b.val ≠ c.val := fun hv => hne (Fin.ext hv)
  simp only [Fin.lt_def] at *
  omega

theorem instantBefore_trans {inst : Band → Nat} {b c d : Band} (h : instantBefore inst b c) (g : instantBefore inst c d) :
    instantBefore inst b d := by
  unfold instantBefore at *
  simp only [Fin.lt_def] at *
  omega

theorem mem_insertBand (inst : Band → Nat) (b x : Band) (bs : List Band) :
    x ∈ insertBand inst b bs ↔ x = b ∨ x ∈ bs := by
  induction bs with
  | nil => simp [insertBand]
  | cons c cs ih =>
    unfold insertBand
    split
    · simp
    · rw [List.mem_cons, ih, List.mem_cons]
      tauto

theorem sorted_insertBand {inst : Band → Nat} {b : Band} {bs : List Band} (h : bs.Pairwise (instantBefore inst))
    (hb : b ∉ bs) : (insertBand inst b bs).Pairwise (instantBefore inst) := by
  induction bs with
  | nil => exact List.pairwise_singleton _ _
  | cons c cs ih =>
    rw [List.pairwise_cons] at h
    rw [List.mem_cons, not_or] at hb
    unfold insertBand
    split
    · rename_i hlt
      have hbc : instantBefore inst b c := hlt
      refine List.pairwise_cons.mpr ⟨fun x hx => ?_, List.pairwise_cons.mpr h⟩
      rcases List.mem_cons.mp hx with rfl | hx
      · exact hbc
      · exact instantBefore_trans hbc (h.1 x hx)
    · rename_i hlt
      refine List.pairwise_cons.mpr ⟨fun x hx => ?_, ih h.2 hb.2⟩
      rcases (mem_insertBand ..).mp hx with rfl | hx
      · exact instantBefore_total hb.1 hlt
      · exact h.1 x hx

theorem insertAll_spec (inst : Band → Nat) {bs : List Band} (h : bs.Nodup) :
    (∀ x, x ∈ bs.foldr (insertBand inst) [] ↔ x ∈ bs) ∧
      (bs.foldr (insertBand inst) []).Pairwise (instantBefore inst) := by
  induction bs with
  | nil => exact ⟨fun _ => Iff.rfl, List.Pairwise.nil⟩
  | cons b bs ih =>
    obtain ⟨hb, hbs⟩ := List.nodup_cons.mp h
    obtain ⟨hmem, hsorted⟩ := ih hbs
    refine ⟨fun x => ?_, sorted_insertBand hsorted fun hm => hb ((hmem b).mp hm)⟩
    rw [List.foldr_cons, mem_insertBand, hmem, List.mem_cons]

theorem mem_releaseOrder (inst : Band → Nat) {bs : List Band} (h : bs.Nodup) (b : Band) :
    b ∈ releaseOrder inst bs ↔ b ∈ bs := by
  unfold releaseOrder
  rw [List.mem_append, (insertAll_spec inst (h.filter _)).1, List.mem_filter, List.mem_filter]
  by_cases hb : b.val = 0 <;> simp [hb]

/-- The order of R100: band 0 last, the others by instant and number. -/
theorem sorted_releaseOrder (inst : Band → Nat) {bs : List Band} (h : bs.Nodup) :
    (releaseOrder inst bs).Pairwise fun b c => b ≠ 0 ∧ (c = 0 ∨ instantBefore inst b c) := by
  obtain ⟨hmem, hsorted⟩ := insertAll_spec inst (h.filter fun b => b.val != 0)
  have hnonzero : ∀ b ∈ (bs.filter fun b => b.val != 0).foldr (insertBand inst) [], b ≠ 0 := fun b hb hb0 => by
    have := (List.mem_filter.mp ((hmem b).mp hb)).2
    rw [hb0] at this
    exact absurd this (by decide)
  have hzero : ∀ b ∈ bs.filter fun b => b.val == 0, b = 0 := fun b hb =>
    Fin.ext (by simpa using (List.mem_filter.mp hb).2)
  unfold releaseOrder
  refine List.pairwise_append.mpr ⟨?_, ?_, fun b hb c hc => ⟨hnonzero b hb, .inl (hzero c hc)⟩⟩
  · exact hsorted.imp_of_mem fun hb _ hbc => ⟨hnonzero _ hb, .inr hbc⟩
  · exact (h.filter _).imp_of_mem fun hb hc hne => absurd ((hzero _ hb).trans (hzero _ hc).symm) hne

theorem nodup_openBands (au : Auditorium) (marks : PerBand Bool) : (openBands au marks).Nodup :=
  List.Nodup.filter _ (by decide)

theorem mem_openBands (au : Auditorium) (marks : PerBand Bool) (b : Band) :
    b ∈ openBands au marks ↔ (au.band b).enabled = true ∧ marks.get b = false := by
  unfold openBands
  rw [List.mem_filter]
  simp [mem_bands]

theorem mem_dueBands (au : Auditorium) (tr : Track) (time sh : Nat) (marks : PerBand Bool) (zero : Bool) (b : Band) :
    b ∈ dueBands au tr time marks sh zero ↔ (au.band b).enabled = true ∧ marks.get b = false ∧
      time - tr.lead - (au.band b).offset ≤ sh ∧ (zero = true ∨ b ≠ 0) := by
  have hzero : b.val = 0 ↔ b = 0 := ⟨fun h => Fin.ext h, fun h => congrArg Fin.val h⟩
  unfold dueBands
  rw [mem_releaseOrder _ ((nodup_openBands au marks).filter _), List.mem_filter, mem_openBands]
  simp [releaseInstant, hzero, and_assoc]

/-- The due bands of a record in the order in which their instants are taken. -/
theorem releaseOrder_dueBands (au : Auditorium) (tr : Track) (time sh : Nat) (marks : PerBand Bool) (zero : Bool) :
    ReleaseOrder au tr time (fun b => (au.band b).enabled = true ∧ marks.get b = false ∧
      time - tr.lead - (au.band b).offset ≤ sh ∧ (zero = true ∨ b ≠ 0)) (dueBands au tr time marks sh zero) where
  names := mem_dueBands au tr time sh marks zero
  order := sorted_releaseOrder (releaseInstant au tr time) ((nodup_openBands au marks).filter _)

/-- The enabled unmarked bands of a record in the order in which they are released. -/
theorem releaseOrder_openBands (au : Auditorium) (tr : Track) (time : Nat) (marks : PerBand Bool) :
    ReleaseOrder au tr time (fun b => (au.band b).enabled = true ∧ marks.get b = false)
      (releaseOrder (releaseInstant au tr time) (openBands au marks)) where
  names b := (mem_releaseOrder _ (nodup_openBands au marks) b).trans (mem_openBands au marks b)
  order := sorted_releaseOrder (releaseInstant au tr time) (nodup_openBands au marks)

/-! ### Timed events that are due (log entries 2 and 3) -/

theorem mem_dueIf (c : Bool) (i j : Instr) : i ∈ dueIf c j ↔ c = true ∧ i = j := by
  unfold dueIf
  cases c <;> simp

theorem reached_iff (s : State) (d : Option Nat) : s.reached d = true ↔ s.Reached d := by
  unfold State.reached State.Reached
  cases d <;> simp

theorem checkedTrack_eq_some {s : State} {a k : Nat} {kind : TrackKind} {tr : Track} :
    s.checkedTrack a kind = some (k, tr) ↔
      (s.check a).running = true ∧ (s.check a).track = some k ∧ s.track k = some tr ∧ tr.kind = kind := by
  unfold State.checkedTrack
  constructor
  · intro h
    split at h
    · split at h
      · cases h
      · split at h
        · cases h
        · split at h
          · cases h
            exact ⟨‹_›, ‹_›, ‹_›, ‹_›⟩
          · cases h
    · cases h
  · rintro ⟨hr, hk, ht, hkind⟩
    simp only [hr, hk, ht, hkind, if_true]

theorem generationDue_iff (s : State) (a : Nat) (kind : TrackKind) :
    s.generationDue a kind = true ↔ s.GenerationReached a kind := by
  unfold State.generationDue State.GenerationReached
  rw [Bool.and_eq_true, reached_iff, Option.isSome_iff_exists]
  constructor
  · rintro ⟨⟨⟨k, tr⟩, h⟩, hd⟩
    obtain ⟨hr, hk, ht, hkind⟩ := checkedTrack_eq_some.mp h
    exact ⟨hr, hd, k, tr, hk, ht, hkind⟩
  · rintro ⟨hr, hd, k, tr, hk, ht, hkind⟩
    exact ⟨⟨(k, tr), checkedTrack_eq_some.mpr ⟨hr, hk, ht, hkind⟩⟩, hd⟩

theorem lostDue_iff (s : State) (a : Nat) :
    s.lostDue a = true ↔
      (s.lifecycle a = .running ∨ s.lifecycle a = .holdover) ∧ s.Reached (s.clock a).lostDeadline := by
  unfold State.lostDue
  rw [Bool.and_eq_true, reached_iff]
  simp

theorem currentEnded_iff (s : State) (k : Nat) :
    s.currentEnded k = true ↔ ∃ tr c, s.track k = some tr ∧ tr.current = some c ∧
      (s.lifecycle tr.auditorium).advancing = true ∧ c.caption.te ≤ s.showTime tr.auditorium := by
  unfold State.currentEnded
  cases ht : s.track k with
  | none => simp
  | some tr =>
    cases hc : tr.current with
    | none => simp [hc]
    | some c => simp [hc]

/-- The band is due in a record that is not marked for it when its instant has been reached. -/
theorem contains_dueBands {au : Auditorium} {tr : Track} {time sh : Nat} {marks : PerBand Bool} {b : Band}
    (h : marks.get b = false) :
    (dueBands au tr time marks sh true).contains b = true ↔
      (au.band b).enabled = true ∧ time - tr.lead - (au.band b).offset ≤ sh := by
  rw [List.contains_iff_mem, mem_dueBands]
  simp [h]

theorem positionCue_unmarked {tr : Track} {b : Band} {c : Cue} (h : tr.positionCue b = some c) :
    c.marks.get b = false := by
  simpa using List.find?_some h

theorem positionBlock_unmarked {tr : Track} {b : Band} {x : Block} (h : tr.positionBlock b = some x) :
    x.marks.get b = false := by
  simpa using List.find?_some h

/-- The release position of a band of a caption track is due when its instant has been reached. -/
theorem positionCue_due (au : Auditorium) (tr : Track) (b : Band) (sh : Nat) :
    ((tr.positionCue b).any fun c => (dueBands au tr c.caption.ts c.marks sh true).contains b) = true ↔
      ∃ c, tr.positionCue b = some c ∧ (au.band b).enabled = true ∧
        c.caption.ts - tr.lead - (au.band b).offset ≤ sh := by
  cases hp : tr.positionCue b with
  | none => simp
  | some c =>
    rw [Option.any_some, contains_dueBands (positionCue_unmarked hp)]
    simp

theorem positionBlock_due (au : Auditorium) (tr : Track) (b : Band) (sh : Nat) :
    ((tr.positionBlock b).any fun x => (dueBands au tr x.audio.tp x.marks sh true).contains b) = true ↔
      ∃ x, tr.positionBlock b = some x ∧ (au.band b).enabled = true ∧
        x.audio.tp - tr.lead - (au.band b).offset ≤ sh := by
  cases hp : tr.positionBlock b with
  | none => simp
  | some x =>
    rw [Option.any_some, contains_dueBands (positionBlock_unmarked hp)]
    simp

theorem instantDue_iff (s : State) (k : Nat) (b : Band) : s.instantDue k b = true ↔ s.InstantReached k b := by
  unfold State.instantDue State.InstantReached
  cases ht : s.track k with
  | none => simp
  | some tr =>
    rw [Bool.and_eq_true]
    cases hkind : tr.kind with
    | caption =>
      rw [positionCue_due]
      constructor
      · rintro ⟨hadv, c, hc, hen, hle⟩
        exact ⟨tr, _, rfl, hadv, hen, hle, .inl ⟨hkind, c, hc, rfl⟩⟩
      · rintro ⟨_, _, ⟨⟩, hadv, hen, hle, ⟨-, c, hc, rfl⟩ | ⟨hd, -⟩⟩
        · exact ⟨hadv, c, hc, hen, hle⟩
        · exact absurd (hkind.symm.trans hd) (by decide)
    | description =>
      rw [positionBlock_due]
      constructor
      · rintro ⟨hadv, x, hx, hen, hle⟩
        exact ⟨tr, _, rfl, hadv, hen, hle, .inr ⟨hkind, x, hx, rfl⟩⟩
      · rintro ⟨_, _, ⟨⟩, hadv, hen, hle, ⟨hd, -⟩ | ⟨-, x, hx, rfl⟩⟩
        · exact absurd (hkind.symm.trans hd) (by decide)
        · exact ⟨hadv, x, hx, hen, hle⟩

theorem mem_dueAuditorium (s : State) (a : Nat) (i : Instr) :
    i ∈ s.dueAuditorium a ↔
      (i = .holdoverExpiry s.engineTime a ∧ s.lifecycle a = .running ∧ s.Reached (s.clock a).holdoverDeadline) ∨
      (i = .lostExpiry s.engineTime a ∧ (s.lifecycle a = .running ∨ s.lifecycle a = .holdover) ∧
        s.Reached (s.clock a).lostDeadline) ∨
      (i = .beaconExpiry s.engineTime a ∧ s.Reached (s.beacon a)) ∨
      (i = .generationDeadlineCue s.engineTime a ∧ s.GenerationReached a .caption) ∨
      (i = .generationDeadlineBlock s.engineTime a ∧ s.GenerationReached a .description) := by
  unfold State.dueAuditorium
  simp only [List.mem_append, mem_dueIf, Bool.and_eq_true, reached_iff, lostDue_iff, generationDue_iff, beq_iff_eq]
  tauto

theorem mem_dueTrack (s : State) (k : Nat) (i : Instr) :
    i ∈ s.dueTrack k ↔ (∃ b, i = .releaseInstant s.engineTime k b ∧ s.InstantReached k b) ∨
      (i = .currentCueRetirement s.engineTime k ∧ ∃ tr c, s.track k = some tr ∧ tr.current = some c ∧
        (s.lifecycle tr.auditorium).advancing = true ∧ c.caption.te ≤ s.showTime tr.auditorium) := by
  unfold State.dueTrack
  simp only [List.mem_append, mem_dueIf, List.mem_map, List.mem_filter, mem_bands, true_and, instantDue_iff,
    currentEnded_iff]
  refine or_congr ⟨?_, ?_⟩ and_comm
  · rintro ⟨b, hb, rfl⟩
    exact ⟨b, rfl, hb⟩
  · rintro ⟨b, rfl, hb⟩
    exact ⟨b, hb, rfl⟩

theorem mem_dueRecord (s : State) (e : Nat × Subscription) (i : Instr) :
    i ∈ s.dueRecord e ↔ (i = .reportWindowExpiry s.engineTime e.1 ∧ s.Reached e.2.window) ∨
      (i = .holdExpiry s.engineTime e.1 ∧ s.Reached e.2.hold) := by
  unfold State.dueRecord
  simp only [List.mem_append, mem_dueIf, reached_iff]
  tauto

/-- The events listed, auditorium by auditorium, track by track and record by record. -/
theorem mem_due (s : State) (i : Instr) :
    i ∈ s.due ↔ (i = .pauseWindowClose s.engineTime ∧ s.Reached s.egress.pauseEnd) ∨
      (∃ a ∈ auditoria, i ∈ s.dueAuditorium a) ∨ (∃ k ∈ trackNumbers, i ∈ s.dueTrack k) ∨
        ∃ e ∈ s.records, i ∈ s.dueRecord e := by
  unfold State.due
  simp only [List.mem_append, mem_dueIf, reached_iff, List.mem_flatMap, or_assoc]
  exact or_congr and_comm Iff.rfl

/-- Every listed event is due. -/
theorem due_of_mem {s : State} (hwf : Tbl.Wf id none s.subscriptions) {i : Instr} (h : i ∈ s.due) : s.Due i := by
  rcases (mem_due s i).mp h with ⟨rfl, hp⟩ | ⟨a, ha, h⟩ | ⟨k, hk, h⟩ | ⟨⟨j, r⟩, he, h⟩
  · exact ⟨rfl, hp⟩
  · rcases (mem_dueAuditorium s a i).mp h with ⟨rfl, hl, hd⟩ | ⟨rfl, hl, hd⟩ | ⟨rfl, hd⟩ | ⟨rfl, hg⟩ | ⟨rfl, hg⟩
    · exact ⟨rfl, ha, hl, hd⟩
    · exact ⟨rfl, ha, hl, hd⟩
    · exact ⟨rfl, ha, hd⟩
    · exact ⟨rfl, ha, hg⟩
    · exact ⟨rfl, ha, hg⟩
  · rcases (mem_dueTrack s k i).mp h with ⟨b, rfl, hb⟩ | ⟨rfl, hc⟩
    · exact ⟨rfl, hk, hb⟩
    · exact ⟨rfl, hk, hc⟩
  · rcases (mem_dueRecord s (j, r) i).mp h with ⟨rfl, hd⟩ | ⟨rfl, hd⟩
    · exact ⟨rfl, r, (mem_records hwf).mp he, hd⟩
    · exact ⟨rfl, r, (mem_records hwf).mp he, hd⟩

/-- Every event that is due is listed. -/
theorem mem_of_due {s : State} (hwf : Tbl.Wf id none s.subscriptions) {i : Instr} (h : s.Due i) : i ∈ s.due := by
  rw [mem_due]
  cases i with
  | pauseWindowClose t =>
    obtain ⟨rfl, hp⟩ := h
    exact .inl ⟨rfl, hp⟩
  | holdoverExpiry t a =>
    obtain ⟨rfl, ha, hd⟩ := h
    exact .inr (.inl ⟨a, ha, (mem_dueAuditorium ..).mpr (.inl ⟨rfl, hd⟩)⟩)
  | lostExpiry t a =>
    obtain ⟨rfl, ha, hd⟩ := h
    exact .inr (.inl ⟨a, ha, (mem_dueAuditorium ..).mpr (.inr (.inl ⟨rfl, hd⟩))⟩)
  | beaconExpiry t a =>
    obtain ⟨rfl, ha, hd⟩ := h
    exact .inr (.inl ⟨a, ha, (mem_dueAuditorium ..).mpr (.inr (.inr (.inl ⟨rfl, hd⟩)))⟩)
  | generationDeadlineCue t a =>
    obtain ⟨rfl, ha, hd⟩ := h
    exact .inr (.inl ⟨a, ha, (mem_dueAuditorium ..).mpr (.inr (.inr (.inr (.inl ⟨rfl, hd⟩))))⟩)
  | generationDeadlineBlock t a =>
    obtain ⟨rfl, ha, hd⟩ := h
    exact .inr (.inl ⟨a, ha, (mem_dueAuditorium ..).mpr (.inr (.inr (.inr (.inr ⟨rfl, hd⟩))))⟩)
  | releaseInstant t k b =>
    obtain ⟨rfl, hk, hd⟩ := h
    exact .inr (.inr (.inl ⟨k, hk, (mem_dueTrack ..).mpr (.inl ⟨b, rfl, hd⟩)⟩))
  | currentCueRetirement t k =>
    obtain ⟨rfl, hk, hd⟩ := h
    exact .inr (.inr (.inl ⟨k, hk, (mem_dueTrack ..).mpr (.inr ⟨rfl, hd⟩)⟩))
  | reportWindowExpiry t j =>
    obtain ⟨rfl, r, hr, hd⟩ := h
    exact .inr (.inr (.inr ⟨(j, r), (mem_records hwf).mpr hr, (mem_dueRecord ..).mpr (.inl ⟨rfl, hd⟩)⟩))
  | holdExpiry t j =>
    obtain ⟨rfl, r, hr, hd⟩ := h
    exact .inr (.inr (.inr ⟨(j, r), (mem_records hwf).mpr hr, (mem_dueRecord ..).mpr (.inr ⟨rfl, hd⟩)⟩))
  | _ => exact h.elim

/-- The part left to itself with several events due takes one of them, the free choice deciding. -/
theorem idle_several {s : State} (h : 2 ≤ s.due.length) :
    ∃ i ∈ s.due, s.idle = exec i { s with choices := s.choices + 1 } := by
  unfold State.idle
  match hd : s.due with
  | [] => rw [hd] at h; exact absurd h (by decide)
  | [i] => rw [hd] at h; exact absurd h (by simp)
  | i :: j :: is =>
    have hlt : Config.dueChoice s.choices % (is.length + 2) < (i :: j :: is).length :=
      Nat.mod_lt _ (by omega)
    refine ⟨_, ?_, rfl⟩
    rw [List.getD_eq_getElem _ _ hlt]
    exact List.getElem_mem hlt

/-- Settles O2: what the part does with no step waiting, and which events are due. -/
theorem idlePartTakesDueEventOrTime : Obligations.IdlePartTakesDueEventOrTime := by
  refine ⟨fun s hp => ?_, fun s hwf i => ⟨due_of_mem hwf, mem_of_due hwf⟩⟩
  have hstep : step s = s.idle := by
    unfold step
    rw [hp]
  rw [hstep]
  refine ⟨fun h => ?_, fun i h => ?_, idle_several⟩
  · unfold State.idle
    rw [h]
  · unfold State.idle
    rw [h]

/-! ### The judgement of a received frame (R176) -/

theorem inboundKind_iff (port : Port) (kind fixed : Nat) (more : Bool) :
    inboundKind port kind = some (fixed, more) ↔ (port, kind, fixed, more) ∈ inboundTable := by
  have hmem : (port, kind, fixed, more) ∈ inboundTable ↔
      (port = .content ∧ kind = 0x01 ∧ fixed = 15 ∧ more = false) ∨
      (port = .content ∧ kind = 0x02 ∧ fixed = 28 ∧ more = true) ∨
      (port = .content ∧ kind = 0x03 ∧ fixed = 22 ∧ more = true) ∨
      (port = .content ∧ kind = 0x04 ∧ fixed = 3 ∧ more = true) ∨
      (port = .delivery ∧ kind = 0x31 ∧ fixed = 11 ∧ more = false) ∨
      (port = .delivery ∧ kind = 0x32 ∧ fixed = 7 ∧ more = false) ∨
      (port = .delivery ∧ kind = 0x33 ∧ fixed = 11 ∧ more = false) := by
    simp [inboundTable]
  rw [hmem]
  cases port <;> simp only [inboundKind] <;> split <;> simp_all [eq_comm]

theorem itemBytesOut_eq (i : Item) :
    itemBytesOut i = BitVec.ofNat 8 i.id :: BitVec.ofNat 8 i.value.length :: i.value := by
  unfold itemBytesOut beBytes
  simp [beBytes]

theorem spellsItems_nil : SpellsItems [] := ⟨[], by simp, rfl⟩

/-- Items behind one item: its id, its length and its value come first. -/
theorem spellsItems_cons {id len : Byte} {rest : List Byte} :
    SpellsItems (id :: len :: rest) ↔ len.toNat ≤ rest.length ∧ SpellsItems (rest.drop len.toNat) := by
  constructor
  · rintro ⟨items, hsmall, heq⟩
    match items with
    | [] => exact absurd heq (by simp)
    | i :: is =>
      obtain ⟨hi, his⟩ := List.forall_mem_cons.mp hsmall
      rw [List.flatMap_cons, itemBytesOut_eq] at heq
      simp only [List.cons_append, List.cons.injEq] at heq
      obtain ⟨-, hlen, hrest⟩ := heq
      have hn : len.toNat = i.value.length := by
        rw [hlen, BitVec.toNat_ofNat]
        exact Nat.mod_eq_of_lt hi.2
      refine ⟨by rw [hrest, hn, List.length_append]; omega, is, his, ?_⟩
      rw [hrest, hn, List.drop_left]
  · rintro ⟨hle, items, hsmall, heq⟩
    have hl := len.isLt
    have htake : (rest.take len.toNat).length = len.toNat := by rw [List.length_take]; omega
    refine ⟨⟨id.toNat, rest.take len.toNat⟩ :: items, List.forall_mem_cons.mpr ⟨⟨id.isLt, htake.symm ▸ hl⟩, hsmall⟩, ?_⟩
    rw [List.flatMap_cons, itemBytesOut_eq, ← heq]
    simp only [htake, BitVec.ofNat_toNat, BitVec.setWidth_eq, List.cons_append, List.take_append_drop]

theorem not_spellsItems_singleton (b : Byte) : ¬SpellsItems [b] := by
  rintro ⟨items, -, heq⟩
  match items with
  | [] => exact absurd heq (by simp)
  | i :: is =>
    rw [List.flatMap_cons, itemBytesOut_eq] at heq
    exact absurd heq (by simp)

/-- The items of a byte string are found just when they end where it ends (R177). -/
theorem parseItems_isSome_iff (fuel : Nat) (bytes : List Byte) (h : bytes.length ≤ fuel) :
    (parseItems fuel bytes).isSome = true ↔ SpellsItems bytes := by
  induction fuel generalizing bytes with
  | zero =>
    rw [List.eq_nil_of_length_eq_zero (Nat.le_zero.mp h)]
    exact ⟨fun _ => spellsItems_nil, fun _ => rfl⟩
  | succ fuel ih =>
    match bytes with
    | [] => exact ⟨fun _ => spellsItems_nil, fun _ => rfl⟩
    | [b] => exact ⟨fun hs => (by cases hs), fun hs => absurd hs (not_spellsItems_singleton b)⟩
    | id :: len :: rest =>
      rw [spellsItems_cons]
      unfold parseItems
      by_cases hlt : rest.length < len.toNat
      · rw [if_pos hlt]
        exact ⟨fun hs => (by cases hs), fun hs => absurd hs.1 (Nat.not_le.mpr hlt)⟩
      · rw [if_neg hlt, Option.isSome_map, ih]
        · exact ⟨fun hs => ⟨Nat.not_lt.mp hlt, hs⟩, fun hs => hs.2⟩
        · simp only [List.length_cons] at h
          rw [List.length_drop]
          omega

theorem not_pauseFrame_of_type {port : Port} {f : RawFrame} (h : f.etherType = 0x9A16) : ¬PauseFrame port f := by
  rintro ⟨-, hp, -⟩
  rw [h] at hp
  cases hp

/-- A frame with its check sequence right, the part's type and a header of version 1, judged by its kind. -/
theorem judgeFrame_header {port : Port} {f : RawFrame} (hfcs : f.fcsOk = true) (htype : f.etherType = 0x9A16)
    (hheader : ¬(f.data.length < 4 ∨ fieldAt f.data 0 1 ≠ 1)) :
    (inboundKind port (fieldAt f.data 1 1) = none → judgeFrame port f = .badFrame) ∧
    ∀ fixed more body, inboundKind port (fieldAt f.data 1 1) = some (fixed, more) →
      body = (f.data.drop 4).take (fieldAt f.data 2 2) →
      judgeFrame port f =
        if f.data.length - 4 < fieldAt f.data 2 2 ∨ fieldAt f.data 2 2 < fixed ∨
          (more = false ∧ fieldAt f.data 2 2 ≠ fixed) then .badFrame
        else if port = .content ∧ fieldAt f.data 1 1 = 0x04 ∧
          (parseItems body.length (body.drop 3)).isNone = true then .badFrame
        else .accepted (fieldAt f.data 1 1) body := by
  have hno : ¬(port = .delivery ∧ f.etherType = pauseType ∧ 4 ≤ f.data.length ∧ fieldAt f.data 0 2 = 1) :=
    not_pauseFrame_of_type htype
  have htype' : ¬f.etherType ≠ frameType := not_not.mpr htype
  have hf : ¬(!f.fcsOk) = true := by simp [hfcs]
  constructor
  · intro hk
    unfold judgeFrame
    rw [if_neg hf, if_neg hno, if_neg htype', if_neg hheader]
    simp only [hk]
  · rintro fixed more body hk rfl
    unfold judgeFrame
    rw [if_neg hf, if_neg hno, if_neg htype', if_neg hheader]
    simp only [hk]

theorem judgeFrame_noHeader {port : Port} {f : RawFrame} (hfcs : f.fcsOk = true) (htype : f.etherType = 0x9A16)
    (hheader : f.data.length < 4 ∨ fieldAt f.data 0 1 ≠ 1) : judgeFrame port f = .badFrame := by
  have hno : ¬(port = .delivery ∧ f.etherType = pauseType ∧ 4 ≤ f.data.length ∧ fieldAt f.data 0 2 = 1) :=
    not_pauseFrame_of_type htype
  have htype' : ¬f.etherType ≠ frameType := not_not.mpr htype
  unfold judgeFrame
  rw [if_neg (by simp [hfcs]), if_neg hno, if_neg htype', if_pos hheader]

/-- The fourth check of R176 passes just when the frame fits. -/
theorem judgeFrame_fits {port : Port} {f : RawFrame} {kind : Nat} {body : List Byte} (hfcs : f.fcsOk = true)
    (htype : f.etherType = 0x9A16) (h : FrameFits port f kind body) : judgeFrame port f = .accepted kind body := by
  obtain ⟨hlen, hver, hkind⟩ := h.header
  obtain ⟨hrec, hbody⟩ := h.received
  obtain ⟨fixed, more, htable, hfixed, hmore⟩ := h.inbound
  have hheader : ¬(f.data.length < 4 ∨ fieldAt f.data 0 1 ≠ 1) := by
    rintro (h | h)
    · omega
    · exact h hver
  have hbl : body.length = fieldAt f.data 2 2 := by
    rw [hbody, List.length_take, List.length_drop]
    omega
  rw [← hkind] at htable
  rw [(judgeFrame_header hfcs htype hheader).2 fixed more body ((inboundKind_iff ..).mpr htable) hbody, if_neg, if_neg,
    hkind]
  · rintro ⟨hport, hk, hnone⟩
    have hitems := h.items hport (hkind ▸ hk)
    rw [← parseItems_isSome_iff body.length _ (by rw [List.length_drop]; omega)] at hitems
    rw [Option.isNone_iff_eq_none] at hnone
    rw [hnone] at hitems
    cases hitems
  · rw [← hbl]
    rintro (h | h | ⟨h, hne⟩)
    · omega
    · omega
    · exact hne (hmore h)

/-- What is accepted behind the first three checks fits. -/
theorem judgeFrame_badFrame {port : Port} {f : RawFrame} (hfcs : f.fcsOk = true) (htype : f.etherType = 0x9A16)
    (h : ∀ kind body, ¬FrameFits port f kind body) : judgeFrame port f = .badFrame := by
  by_cases hheader : f.data.length < 4 ∨ fieldAt f.data 0 1 ≠ 1
  · exact judgeFrame_noHeader hfcs htype hheader
  obtain ⟨hnone, hsome⟩ := judgeFrame_header (port := port) hfcs htype hheader
  match hk : inboundKind port (fieldAt f.data 1 1) with
  | none => exact hnone hk
  | some (fixed, more) =>
    rw [hsome fixed more _ hk rfl]
    split
    · rfl
    · rename_i hlen
      split
      · rfl
      · rename_i hitems
        rw [not_or, not_or] at hlen
        rw [not_or] at hheader
        obtain ⟨hrec, hfix, hmore⟩ := hlen
        have hbl : ((f.data.drop 4).take (fieldAt f.data 2 2)).length = fieldAt f.data 2 2 := by
          rw [List.length_take, List.length_drop]
          omega
        refine absurd ?_ (h (fieldAt f.data 1 1) ((f.data.drop 4).take (fieldAt f.data 2 2)))
        refine ⟨⟨Nat.not_lt.mp hheader.1, not_not.mp hheader.2, rfl⟩, ⟨Nat.not_lt.mp hrec, rfl⟩,
          ⟨fixed, more, (inboundKind_iff ..).mp hk, by omega, fun hm => ?_⟩, fun hport hkind => ?_⟩
        · rw [hbl]
          exact not_not.mp fun hne => hmore ⟨hm, hne⟩
        · rw [← parseItems_isSome_iff _ _ (by rw [List.length_drop]; omega : _ ≤ ((f.data.drop 4).take (fieldAt f.data 2 2)).length)]
          rw [Option.isSome_iff_ne_none, Ne, ← Option.isNone_iff_eq_none]
          exact fun hn => hitems ⟨hport, hkind, hn⟩

theorem portOpen_closed {s : State} {port : Port} (h : s.portOpen port = false) (f : RawFrame) : s.discardFrame port f = s :=
  if_neg (by rw [h]; decide)

/-- Settles O7: what a discarded frame counts, and which frames are bad. -/
theorem badFramesAreDiscarded : Obligations.BadFramesAreDiscarded := by
  refine ⟨fun s t port f => ⟨fun hopen hv => ?_, fun hopen hv => ?_, fun hclosed => ?_, fun hv => ?_, contentOpen_iff s,
    deliveryOpen_iff s⟩, fun port f => ⟨fun hf => ?_, fun hf hp => ?_, fun hf hp ht => ?_, fun hf ht =>
      ⟨fun kind body => judgeFrame_fits hf ht, judgeFrame_badFrame hf ht⟩⟩⟩
  · have hopen' : (s.advance t).portOpen port = true := by cases port <;> exact hopen
    refine ⟨(s.advance t).bumpDevice (badFcsOf port), congrArg Host.Outcome.next ?_, ?_⟩
    · unfold State.discardFrame
      rw [if_pos hopen', hv]
    · cases port <;> exact counted_bump _ _
  · have hopen' : (s.advance t).portOpen port = true := by cases port <;> exact hopen
    refine ⟨(s.advance t).bumpDevice (badFrameOf port), congrArg Host.Outcome.next ?_, ?_⟩
    · unfold State.discardFrame
      rw [if_pos hopen', hv]
    · cases port <;> exact counted_bump _ _
  · have hclosed' : (s.advance t).portOpen port = false := by cases port <;> exact hclosed
    exact congrArg Host.Outcome.next (portOpen_closed hclosed' f)
  · refine congrArg Host.Outcome.next ?_
    unfold State.discardFrame
    rcases hv with ⟨q, hq⟩ | ⟨kind, body, hk⟩
    · rw [hq]
      exact ite_self _
    · rw [hk]
      exact ite_self _
  · unfold judgeFrame
    rw [if_pos (by simp [hf])]
  · have hp' : port = .delivery ∧ f.etherType = pauseType ∧ 4 ≤ f.data.length ∧ fieldAt f.data 0 2 = 1 := hp
    unfold judgeFrame
    rw [if_neg (by simp [hf]), if_pos hp']
  · have hp' : ¬(port = .delivery ∧ f.etherType = pauseType ∧ 4 ≤ f.data.length ∧ fieldAt f.data 0 2 = 1) := hp
    unfold judgeFrame
    rw [if_neg (by simp [hf]), if_neg hp']
    exact if_pos ht

end Sys2Proof.Machine

/-! PROOFS. The content port and the beacon: SHOWTIME's checks, CUE and BLOCK, the offers of copies, CONTROL and the items of
commands (O14, O22, O23, O34, O44). -/

namespace Sys2Proof.Machine

/-! ### The checks of SHOWTIME (R29) -/

theorem contentOpen_false {s : State} (h : s.contentUp = false ∨ s.resetting = true) : ¬s.contentOpen = true := by
  rw [contentOpen_iff]
  rintro ⟨hup, hr⟩
  rcases h with h | h
  · exact absurd (hup.symm.trans h) (by decide)
  · exact absurd (hr.symm.trans h) (by decide)

theorem ignoresShowtime_iff (l : Lifecycle) : l.ignoresShowtime = true ↔ l ∈ [.dark, .preparing, .closing] := by
  cases l <;> decide

theorem takesCopies_iff (l : Lifecycle) : l.takesCopies = true ↔ l ∉ [.dark, .closing, .test] := by
  cases l <;> decide

theorem showStatus_eq_none_iff (n : Nat) : showStatus n = none ↔ n ∉ [1, 2, 3] := by
  unfold showStatus
  simp only [List.mem_cons, List.not_mem_nil, or_false]
  split
  · simp [*]
  · split
    · simp [*]
    · split <;> simp [*]

/-- The status of a frame that passes check 3 and is dropped by check 5 (R29). -/
theorem statusIgnored_of {n : Nat} {l : Lifecycle} (hn : n ∈ [1, 2, 3])
    (h : (n = 3 ∧ l = .ready) ∨ (n ≠ 1 ∧ l = .test)) : ∃ st, showStatus n = some st ∧ statusIgnored l st = true := by
  simp only [List.mem_cons, List.not_mem_nil, or_false] at hn
  rcases hn with rfl | rfl | rfl
  · rcases h with ⟨h, -⟩ | ⟨h, -⟩
    · cases h
    · exact absurd rfl h
  · rcases h with ⟨h, -⟩ | ⟨-, rfl⟩
    · cases h
    · exact ⟨.paused, rfl, rfl⟩
  · rcases h with ⟨-, rfl⟩ | ⟨-, rfl⟩
    · exact ⟨.stopped, rfl, rfl⟩
    · exact ⟨.stopped, rfl, rfl⟩

/-- A SHOWTIME frame that fails a check counts its counter and changes nothing else. -/
theorem showtime_dropped {s : State} {ea : Nat} {f : ShowtimeFrame} {c : Counter} (hup : s.contentUp = true)
    (hr : s.resetting = false) (hj : (s.advance ea).judgeShowtime f = .error c) :
    ∃ u, exec (.showtime ea f) s = .next u ∧ Counted (s.advance ea) u c := by
  have hopen : (s.advance ea).contentOpen = true := (contentOpen_iff _).mpr ⟨hup, hr⟩
  refine ⟨_, congrArg Host.Outcome.next ?_, counted_bump (s.advance ea) c⟩
  unfold State.showtimeFrame
  rw [if_pos hopen, hj]

section
variable {s : State} {f : ShowtimeFrame} (hr : 1 ≤ f.auditorium ∧ f.auditorium ≤ 24)
include hr

theorem judgeShowtime_ignored (h : (s.lifecycle f.auditorium).ignoresShowtime = true) :
    s.judgeShowtime f = .error (.auditorium f.auditorium .showtimeIgnored) := by
  have ha := auditoriumNumber_eq_true_iff.mpr hr
  have h' : (s.auditorium f.auditorium).lifecycle.ignoresShowtime = true := h
  unfold State.judgeShowtime
  rw [if_neg (by simp [ha])]
  exact if_pos h'

theorem judgeShowtime_badStatus (h : ¬(s.lifecycle f.auditorium).ignoresShowtime = true)
    (hst : showStatus f.status = none) :
    s.judgeShowtime f = .error (.auditorium f.auditorium .showtimeBadStatus) := by
  have ha := auditoriumNumber_eq_true_iff.mpr hr
  have h' : ¬(s.auditorium f.auditorium).lifecycle.ignoresShowtime = true := h
  unfold State.judgeShowtime
  rw [if_neg (by simp [ha])]
  simp only [h', hst, if_false, Bool.false_eq_true]

theorem judgeShowtime_foreign {st : ShowStatus} (h : ¬(s.lifecycle f.auditorium).ignoresShowtime = true)
    (hst : showStatus f.status = some st) (hsrc : (s.auditorium f.auditorium).params.source ≠ 255 ∧
      (s.auditorium f.auditorium).params.source ≠ f.server) :
    s.judgeShowtime f = .error (.auditorium f.auditorium .showtimeForeign) := by
  have ha := auditoriumNumber_eq_true_iff.mpr hr
  have h' : ¬(s.auditorium f.auditorium).lifecycle.ignoresShowtime = true := h
  unfold State.judgeShowtime
  rw [if_neg (by simp [ha])]
  simp only [h', hst, if_false, Bool.false_eq_true]
  exact if_pos hsrc

theorem judgeShowtime_statusIgnored {st : ShowStatus} (h : ¬(s.lifecycle f.auditorium).ignoresShowtime = true)
    (hst : showStatus f.status = some st) (hsrc : (s.auditorium f.auditorium).params.source = 255 ∨
      (s.auditorium f.auditorium).params.source = f.server)
    (hig : statusIgnored (s.lifecycle f.auditorium) st = true) :
    s.judgeShowtime f = .error (.auditorium f.auditorium .showtimeIgnored) := by
  have ha := auditoriumNumber_eq_true_iff.mpr hr
  have h' : ¬(s.auditorium f.auditorium).lifecycle.ignoresShowtime = true := h
  have hno : ¬((s.auditorium f.auditorium).params.source ≠ 255 ∧
      (s.auditorium f.auditorium).params.source ≠ f.server) := fun hn => hsrc.elim hn.1 hn.2
  unfold State.judgeShowtime
  rw [if_neg (by simp [ha])]
  simp only [h', hst, if_false, Bool.false_eq_true]
  rw [if_neg hno]
  exact if_pos hig

end

/-- Settles O14: check by check of Table 2-2. -/
theorem showtimeChecksInOrder : Obligations.ShowtimeChecksInOrder := by
  rintro s ea _ f rfl
  refine ⟨fun hclosed => congrArg Host.Outcome.next (if_neg (contentOpen_false (s := s.advance ea) hclosed)),
    fun hup hrs => ⟨fun hr => ?_, fun h1 h24 => ⟨fun hl => ?_, fun hl => ⟨fun hst => ?_, fun hst =>
      ⟨fun h255 hsrv => ?_, fun hsrc hig => ?_⟩⟩⟩⟩⟩
  · refine showtime_dropped hup hrs (if_pos ?_)
    rw [Bool.not_eq_true', ← Bool.not_eq_true, auditoriumNumber_eq_true_iff]
    exact hr
  · exact showtime_dropped hup hrs (judgeShowtime_ignored ⟨h1, h24⟩ ((ignoresShowtime_iff _).mpr hl))
  all_goals
    have hl' : ¬((s.advance ea).lifecycle f.auditorium).ignoresShowtime = true := (ignoresShowtime_iff _).not.mpr hl
  · exact showtime_dropped hup hrs (judgeShowtime_badStatus ⟨h1, h24⟩ hl' ((showStatus_eq_none_iff _).mpr hst))
  · obtain ⟨st, hst'⟩ : ∃ st, showStatus f.status = some st :=
      Option.ne_none_iff_exists'.mp fun h => (showStatus_eq_none_iff _).mp h hst
    exact showtime_dropped hup hrs (judgeShowtime_foreign ⟨h1, h24⟩ hl' hst' ⟨h255, hsrv⟩)
  · obtain ⟨st, hst', hig'⟩ := statusIgnored_of hst hig
    exact showtime_dropped hup hrs (judgeShowtime_statusIgnored ⟨h1, h24⟩ hl' hst' hsrc hig')

/-! ### The scan (R49 to R53) -/

theorem mem_scanFrom (s : State) (label : Label) (cls : ContentClass) (fuel i j : Nat) :
    j ∈ s.scanFrom label cls fuel i ↔ (i ≤ j ∧ j < i + fuel) ∧ s.filterMatches label cls j = true ∧
      ∀ m, i ≤ m → m < j → s.filterMatches label cls m = true → (s.filter m).continues = true := by
  induction fuel generalizing i with
  | zero =>
    refine ⟨fun h => (by cases h), fun h => ?_⟩
    omega
  | succ fuel ih =>
    unfold State.scanFrom
    by_cases hm : s.filterMatches label cls i = true
    · rw [if_pos hm, List.mem_cons]
      by_cases hc : (s.filter i).continues = true
      · rw [if_pos hc, ih]
        constructor
        · rintro (rfl | ⟨hr, hj, hbefore⟩)
          · exact ⟨by omega, hm, fun m h1 h2 => by omega⟩
          · refine ⟨by omega, hj, fun m h1 h2 hmm => ?_⟩
            rcases Nat.eq_or_lt_of_le h1 with rfl | h1
            · exact hc
            · exact hbefore m h1 h2 hmm
        · rintro ⟨hr, hj, hbefore⟩
          by_cases hij : j = i
          · exact .inl hij
          · exact .inr ⟨by omega, hj, fun m h1 h2 => hbefore m (by omega) h2⟩
      · rw [if_neg hc]
        constructor
        · rintro (rfl | h)
          · exact ⟨by omega, hm, fun m h1 h2 => by omega⟩
          · cases h
        · rintro ⟨hr, hj, hbefore⟩
          refine .inl (Nat.le_antisymm (Nat.not_lt.mp fun hlt => hc (hbefore i (Nat.le_refl i) hlt hm)) hr.1)
    · rw [if_neg hm, ih]
      constructor
      · rintro ⟨hr, hj, hbefore⟩
        refine ⟨by omega, hj, fun m h1 h2 hmm => hbefore m ?_ h2 hmm⟩
        rcases Nat.eq_or_lt_of_le h1 with rfl | h1
        · exact absurd hmm hm
        · exact h1
      · rintro ⟨hr, hj, hbefore⟩
        have hne : j ≠ i := fun h => hm (h ▸ hj)
        exact ⟨by omega, hj, fun m h1 h2 => hbefore m (by omega) h2⟩

theorem sorted_scanFrom (s : State) (label : Label) (cls : ContentClass) (fuel i : Nat) :
    (s.scanFrom label cls fuel i).Pairwise (· < ·) := by
  induction fuel generalizing i with
  | zero => exact List.Pairwise.nil
  | succ fuel ih =>
    unfold State.scanFrom
    split
    · refine List.pairwise_cons.mpr ⟨fun j hj => ?_, ?_⟩
      · split at hj
        · exact ((mem_scanFrom ..).mp hj).1.1
        · cases hj
      · split
        · exact ih _
        · exact List.Pairwise.nil
    · exact ih _

theorem labelTest_iff (mask match' label : Label) :
    labelTest mask match' label = true ↔
      ∀ n, n < 32 → mask.getLsbD n = true → label.getLsbD n = match'.getLsbD n := by
  unfold labelTest
  rw [beq_iff_eq]
  constructor
  · intro h n hn hmask
    have hbit := congrArg (·.getLsbD n) h
    simpa [hmask] using hbit
  · intro h
    refine BitVec.eq_of_getLsbD_eq fun n hn => ?_
    cases hmask : mask.getLsbD n with
    | false => simp [hmask]
    | true => simp [hmask, h n hn hmask]

theorem selectorTest_iff (n : Nat) (selector cls : ContentClass) :
    selectorTest n selector cls = true ↔ ∀ m, m < 8 → 8 ≤ m + n → cls.getLsbD m = selector.getLsbD m := by
  unfold selectorTest
  rw [beq_iff_eq]
  constructor
  · intro h m hm hle
    have hbit := congrArg (·.getLsbD (m - (8 - n))) h
    simp only [BitVec.getLsbD_ushiftRight] at hbit
    rwa [show 8 - n + (m - (8 - n)) = m by omega] at hbit
  · intro h
    refine BitVec.eq_of_getLsbD_eq fun m hm => ?_
    rw [BitVec.getLsbD_ushiftRight, BitVec.getLsbD_ushiftRight]
    by_cases hlt : 8 - n + m < 8
    · exact h _ hlt (by omega)
    · rw [BitVec.getLsbD_of_ge _ _ (by omega), BitVec.getLsbD_of_ge _ _ (by omega)]

theorem filterMatches_iff (s : State) (label : Label) (cls : ContentClass) (j : Nat) :
    s.filterMatches label cls j = true ↔ (s.filter j).enabled = true ∧
      (∀ n, n < 32 → (s.mask (s.filter j).mask).getLsbD n = true → label.getLsbD n = (s.filter j).label.getLsbD n) ∧
      ∀ n, n < 8 → 8 ≤ n + (s.filter j).bits → cls.getLsbD n = (s.filter j).selector.getLsbD n := by
  unfold State.filterMatches
  simp only [Bool.and_eq_true, labelTest_iff, selectorTest_iff, and_assoc]

/-- The hits of a list of distinct filters counted, each on its own counter. -/
theorem bumpHits_spec (hits : List Nat) (h : hits.Nodup) (s : State) :
    (∀ j, (hits.foldl (fun s i => s.bump (.filterHits i)) s).count (.filterHits j) =
      if j ∈ hits then min counterMax (s.count (.filterHits j) + 1) else s.count (.filterHits j)) ∧
    (∀ c, (∀ j, c ≠ .filterHits j) → (hits.foldl (fun s i => s.bump (.filterHits i)) s).count c = s.count c) ∧
    hits.foldl (fun s i => s.bump (.filterHits i)) s =
      { s with live := (hits.foldl (fun s i => s.bump (.filterHits i)) s).live } := by
  induction hits generalizing s with
  | nil => exact ⟨fun _ => rfl, fun _ _ => rfl, rfl⟩
  | cons i is ih =>
    obtain ⟨hi, his⟩ := List.nodup_cons.mp h
    obtain ⟨hhits, hothers, hframe⟩ := ih his (s.bump (.filterHits i))
    refine ⟨fun j => ?_, fun c hc => ?_, hframe⟩
    · rw [List.foldl_cons, hhits, State.count_bump]
      by_cases hj : j = i
      · subst hj
        simp [hi]
      · simp [hj]
    · rw [List.foldl_cons, hothers c hc, State.count_bump, if_neg (hc i)]

/-- A frame that no filter matches. -/
theorem classify_unclaimed {s : State} {ea src : Nat} {content : Content} {label : Label} {cls : ContentClass}
    (h : s.scan label cls = []) :
    s.classify ea src content label cls =
      ((s.bumpDevice .contentClassified).bumpDevice .unclaimed).setFlag .unclaimedSeen 0 := by
  unfold State.classify
  simp only [h, List.isEmpty_nil, if_true]

/-- A frame that a filter matches: copies, hits and the matches beyond the fourth. -/
theorem classify_matched {s : State} {ea src : Nat} {content : Content} {label : Label} {cls : ContentClass}
    {hits : List Nat} (hscan : s.scan label cls = hits) (h : hits ≠ []) :
    s.classify ea src content label cls =
      { ((hits.take copyLimit).foldl (fun s i => s.bump (.filterHits i))
          (s.bumpDevice .contentClassified)).bumpBy (.device .fanoutLimit) (hits.length - copyLimit) with
        copies := ((hits.take copyLimit).foldl (fun s i => s.bump (.filterHits i))
          (s.bumpDevice .contentClassified)).copies ++
            (hits.take copyLimit).map fun i => ⟨content, src, ea, i, (s.filter i).target⟩ } := by
  unfold State.classify
  simp only [hscan, List.isEmpty_eq_false_iff.mpr h, Bool.false_eq_true, if_false]
  rfl

theorem scan_congr {s t : State} (hf : t.filters = s.filters) (hm : t.masks = s.masks) (label : Label)
    (cls : ContentClass) : t.scan label cls = s.scan label cls := by
  have hfilter : ∀ i, t.filter i = s.filter i := fun i => by unfold State.filter; rw [hf]
  have hmask : ∀ i, t.mask i = s.mask i := fun i => by unfold State.mask; rw [hm]
  have hmatch : ∀ i, t.filterMatches label cls i = s.filterMatches label cls i := fun i => by
    unfold State.filterMatches
    simp only [hfilter, hmask]
  have hfrom : ∀ fuel i, t.scanFrom label cls fuel i = s.scanFrom label cls fuel i := by
    intro fuel
    induction fuel with
    | zero => exact fun _ => rfl
    | succ fuel ih =>
      intro i
      unfold State.scanFrom
      simp only [hmatch, hfilter, ih]
  exact hfrom 64 0

/-- What UNCLAIMED leaves: two counts and the flag. -/
theorem unclaimed_spec (s u : State)
    (hu : u = ((s.bumpDevice .contentClassified).bumpDevice .unclaimed).setFlag .unclaimedSeen 0) :
    u.count (.device .contentClassified) = min counterMax (s.count (.device .contentClassified) + 1) ∧
      u.flagSet ⟨.unclaimedSeen, 0⟩ = true ∧ (∀ f, f ≠ ⟨.unclaimedSeen, 0⟩ → u.flagSet f = s.flagSet f) ∧
      u.count (.device .unclaimed) = min counterMax (s.count (.device .unclaimed) + 1) ∧
      SameCounts s u [.device .contentClassified, .device .unclaimed, .device .alertsSent] ∧
      u = { s with flags := u.flags, live := u.live, contentOut := u.contentOut } := by
  have hflag := flagged_setFlag ((s.bumpDevice .contentClassified).bumpDevice .unclaimed) .unclaimedSeen 0
  rw [← hu] at hflag
  have hcount : ∀ c, c ≠ .device .alertsSent →
      u.count c = ((s.bumpDevice .contentClassified).bumpDevice .unclaimed).count c := fun c hc =>
    hflag.counts c (by simpa using hc)
  simp only [State.count_bumpDevice] at hcount
  refine ⟨by rw [hcount _ (by simp)]; simp, hflag.set, hflag.others, by rw [hcount _ (by simp)]; simp, fun c hc => ?_,
    hflag.frame⟩
  simp only [List.mem_cons, List.not_mem_nil, or_false, not_or] at hc
  rw [hcount c hc.2.2, if_neg hc.2.1, if_neg hc.1]

/-- What the matches of a frame leave: the copies of the first four, their hits, and the count of the others. -/
theorem matched_spec {s u : State} {ea src : Nat} {content : Content} {label : Label} {cls : ContentClass}
    {hits : List Nat} (hscan : s.scan label cls = hits) (h : hits ≠ []) (hu : u = s.classify ea src content label cls) :
    u.count (.device .contentClassified) = min counterMax (s.count (.device .contentClassified) + 1) ∧
      u.copies = s.copies ++ (hits.take 4).map (fun j => ⟨content, src, ea, j, (s.filter j).target⟩) ∧
      (∀ j, u.count (.filterHits j) =
        if j ∈ hits.take 4 then min counterMax (s.count (.filterHits j) + 1) else s.count (.filterHits j)) ∧
      u.count (.device .fanoutLimit) = min counterMax (s.count (.device .fanoutLimit) + (hits.length - 4)) ∧
      (∀ c, (∀ j, c ≠ .filterHits j) → c ∉ [.device .contentClassified, .device .fanoutLimit] →
        u.count c = s.count c) ∧
      u = { s with copies := u.copies, live := u.live } := by
  have hnodup : (hits.take 4).Nodup := by
    rw [← hscan]
    exact ((sorted_scanFrom s label cls 64 0).imp Nat.ne_of_lt).sublist (List.take_sublist ..)
  obtain ⟨hhits, hothers, hframe⟩ := bumpHits_spec (hits.take 4) hnodup (s.bumpDevice .contentClassified)
  have hfan := countedBy_bumpBy ((hits.take 4).foldl (fun s i => s.bump (.filterHits i))
    (s.bumpDevice .contentClassified)) (.device .fanoutLimit) (hits.length - 4)
  rw [classify_matched hscan h] at hu
  rw [show copyLimit = 4 from rfl] at hu
  generalize (hits.take 4).foldl (fun s i => s.bump (.filterHits i)) (s.bumpDevice .contentClassified) = v at *
  generalize v.bumpBy (.device .fanoutLimit) (hits.length - 4) = w at *
  have hcount : ∀ c, u.count c = w.count c := fun c => by rw [hu]; rfl
  have hwv := hfan.frame
  refine ⟨?_, ?_, fun j => ?_, ?_, fun c hc hno => ?_, ?_⟩
  · rw [hcount, hfan.others _ (by simp), hothers _ (by simp), State.count_bumpDevice, if_pos rfl]
  · rw [hu, hframe]
    rfl
  · rw [hcount, hfan.others _ (by simp), hhits]
    simp [State.count_bumpDevice]
  · rw [hcount, hfan.counted, hothers _ (by simp)]
    simp [State.count_bumpDevice]
  · simp only [List.mem_cons, List.not_mem_nil, or_false, not_or] at hno
    rw [hcount, hfan.others c (by simpa using hno.2), hothers c hc, State.count_bumpDevice, if_neg hno.1]
  · rw [hu, hwv, hframe]
    rfl

/-- Settles O22: the classification of a CUE or BLOCK, and the scan. -/
theorem contentFramesAreClassified : Obligations.ContentFramesAreClassified := by
  refine ⟨fun s ea src i content label cls hi => ?_, fun s label cls =>
    ⟨sorted_scanFrom .., fun j => (mem_scanFrom ..).trans ?_, filterMatches_iff s label cls⟩⟩
  · have hrun : (¬(s.advance ea).contentOpen = true → exec i s = .next (s.advance ea)) ∧
        ((s.advance ea).contentOpen = true → exec i s = .next ((s.advance ea).classify ea src content label cls)) := by
      rcases hi with ⟨b, rfl, rfl, rfl, rfl⟩ | ⟨b, rfl, rfl, rfl, rfl⟩
      · exact ⟨fun h => congrArg Host.Outcome.next (if_neg h), fun h => congrArg Host.Outcome.next (if_pos h)⟩
      · exact ⟨fun h => congrArg Host.Outcome.next (if_neg h), fun h => congrArg Host.Outcome.next (if_pos h)⟩
    refine ⟨fun hclosed => hrun.1 (contentOpen_false hclosed), fun hup hr hits hscan =>
      ⟨_, hrun.2 ((contentOpen_iff _).mpr ⟨hup, hr⟩), ?_⟩⟩
    have hscan' : (s.advance ea).scan label cls = hits := (scan_congr rfl rfl label cls).trans hscan
    by_cases hempty : hits = []
    · obtain ⟨hclass, hset, hothers, huncl, hcounts, hframe⟩ :=
        unclaimed_spec (s.advance ea) _ (classify_unclaimed (ea := ea) (src := src) (content := content)
          (hempty ▸ hscan'))
      exact ⟨hclass, fun _ => ⟨hset, hothers, huncl, hcounts, hframe⟩, fun hne => absurd hempty hne⟩
    · obtain ⟨hclass, hcopies, hhits, hfan, hcounts, hframe⟩ := matched_spec (ea := ea) (src := src)
        (content := content) hscan' hempty rfl
      exact ⟨hclass, fun hno => absurd hno hempty, fun _ => ⟨hcopies, hhits, hfan, hcounts, hframe⟩⟩
  · constructor
    · rintro ⟨hr, hm, hbefore⟩
      exact ⟨by omega, hm, fun m hlt => hbefore m (Nat.zero_le m) hlt⟩
    · rintro ⟨hr, hm, hbefore⟩
      exact ⟨by omega, hm, fun m _ hlt => hbefore m hlt⟩

/-! ### The offers of copies (R54 to R56) -/

theorem nextCopy_cons {s : State} {c : Copy} {cs : List Copy} (h : s.copies = c :: cs) :
    s.nextCopy = State.offerCopy { s with copies := cs } c := by
  unfold State.nextCopy
  rw [h]

theorem offerCopy_undeliverable {s : State} {c : Copy}
    (h : ∀ tr, s.track c.target = some tr → ¬(s.lifecycle tr.auditorium).takesCopies = true) :
    s.offerCopy c = s.bumpTrack c.target .undeliverable := by
  unfold State.offerCopy
  cases ht : s.track c.target with
  | none => simp only [ht]
  | some tr => simp only [ht, if_neg (h tr ht)]

section
variable {s : State} {c : Copy} {tr : Track} (ht : s.track c.target = some tr)
  (hl : (s.lifecycle tr.auditorium).takesCopies = true)
include ht hl

theorem offerCopy_mismatch (h : ((∃ b, c.content = .cue b) ∧ tr.kind = .description) ∨
    ((∃ b, c.content = .block b) ∧ tr.kind = .caption)) : s.offerCopy c = s.bumpTrack c.target .kindMismatch := by
  unfold State.offerCopy
  rcases h with ⟨⟨b, hc⟩, hk⟩ | ⟨⟨b, hc⟩, hk⟩
  · simp only [ht, if_pos hl, hc, hk]
  · simp only [ht, if_pos hl, hc, hk]

theorem offerCopy_cue {b : CueBody} (hc : c.content = .cue b) (hk : tr.kind = .caption) :
    s.offerCopy c = (s.bumpTrack c.target .copiesDelivered).arriveCue c.target b (some ⟨b.label, c.station⟩) false := by
  unfold State.offerCopy
  simp only [ht, if_pos hl, hc, hk]

theorem offerCopy_block {b : BlockBody} (hc : c.content = .block b) (hk : tr.kind = .description) :
    s.offerCopy c =
      (s.bumpTrack c.target .copiesDelivered).arriveBlock c.target b (some ⟨b.label, c.station⟩) false := by
  unfold State.offerCopy
  simp only [ht, if_pos hl, hc, hk]

end

/-- Settles O23: the outcomes of Table 3-4. -/
theorem copyIsOfferedToItsTrack : Obligations.CopyIsOfferedToItsTrack := by
  refine fun s t => ⟨fun h => congrArg Host.Outcome.next ?_, ?_⟩
  · unfold State.nextCopy
    rw [State.advance_copies, h]
  · rintro c cs _ hcopies rfl
    have hrun : exec (.copyOffer t) s = .next (State.offerCopy { s.advance t with copies := cs } c) :=
      congrArg Host.Outcome.next (nextCopy_cons (s := s.advance t) hcopies)
    rw [hrun]
    refine ⟨fun hno => ⟨_, rfl, ?_⟩, fun tr ht hl => ?_⟩
    · rw [offerCopy_undeliverable (s := { s.advance t with copies := cs }) fun tr ht => by
        rw [takesCopies_iff]
        intro hn
        exact hn (hno tr ht)]
      exact counted_bump _ _
    · have hl' : ((s.lifecycle tr.auditorium)).takesCopies = true := (takesCopies_iff _).mpr hl
      refine ⟨fun hm => ⟨_, rfl, ?_⟩, fun b hc hk => ⟨_, counted_bump _ (.track c.target .copiesDelivered),
        congrArg Host.Outcome.next (offerCopy_cue (s := { s.advance t with copies := cs }) ht hl' hc hk)⟩,
        fun b hc hk => ⟨_, counted_bump _ (.track c.target .copiesDelivered),
        congrArg Host.Outcome.next (offerCopy_block (s := { s.advance t with copies := cs }) ht hl' hc hk)⟩⟩
      rw [offerCopy_mismatch (s := { s.advance t with copies := cs }) ht hl' hm]
      exact counted_bump _ _

/-! ### The beacon (R117) -/

theorem takeBeacon_early {s : State} {a : Nat} (h : ∀ d, s.beacon a = some d → s.engineTime < d) :
    s.takeBeacon a = s := by
  unfold State.takeBeacon
  cases hb : s.beacon a with
  | none => simp only
  | some d =>
    simp only
    rw [if_neg (Nat.not_le.mpr (h d hb))]

theorem takeBeacon_reached {s : State} {a d : Nat} (hb : s.beacon a = some d) (h : d ≤ s.engineTime) :
    s.takeBeacon a = (s.setBeacon a (some (d + (s.auditorium a).params.beaconInterval * 1000))).beaconOutcome a := by
  unfold State.takeBeacon
  rw [hb]
  simp only
  rw [if_pos h]

theorem beaconWaits_iff (s : State) (a : Nat) :
    s.egress.waiting.any (Entry.inFifo .beacon a) = true ↔
      ∃ e ∈ s.egress.waiting, e.cls = .beacon ∧ e.auditorium = a := by
  rw [List.any_eq_true]
  simp only [inFifo_iff]

/-- The counter of a beacon expiry (R117). -/
def State.beaconCounter (s : State) (a : Nat) : AuditoriumCounter :=
  if !s.deliveryUp then .beaconsSkipped
  else if s.egress.waiting.any (Entry.inFifo .beacon a) then .beaconsCoalesced else .beaconsMade

/-- Settles O34: the deadline's move and the three outcomes. -/
theorem beaconExpires : Obligations.BeaconExpires := by
  refine fun s t a => ⟨fun h => congrArg Host.Outcome.next (takeBeacon_early (s := s.advance t) h), fun d hb hd => ?_⟩
  have hrun : exec (.beaconExpiry t a) s = .next (((s.advance t).setBeacon a
      (some (d + (s.auditorium a).params.beaconInterval * 1000))).beaconOutcome a) :=
    congrArg Host.Outcome.next (takeBeacon_reached (s := s.advance t) hb hd)
  rw [hrun]
  refine ⟨_, (s.advance t).setBeacon a (some (d + (s.auditorium a).params.beaconInterval * 1000)), s.beaconCounter a,
    by rw [State.beacon_setBeacon, if_pos rfl], fun j hj => by rw [State.beacon_setBeacon, if_neg hj]; rfl, rfl,
    counted_bump _ _, fun hup => ?_, fun hup hw => ?_, fun hup hw => ?_⟩
  all_goals unfold State.beaconOutcome State.beaconCounter
  · have hup' : (!s.deliveryUp) = true := by rw [hup]; rfl
    exact ⟨if_pos hup', by rw [if_pos hup']; exact congrArg Host.Outcome.next (if_pos hup')⟩
  · have hup' : ¬(!s.deliveryUp) = true := by rw [hup]; decide
    have hw' := (beaconWaits_iff s a).mpr hw
    rw [if_neg hup', if_pos hw']
    exact ⟨rfl, congrArg Host.Outcome.next ((if_neg hup').trans (if_pos hw'))⟩
  · have hup' : ¬(!s.deliveryUp) = true := by rw [hup]; decide
    have hw' : ¬s.egress.waiting.any (Entry.inFifo .beacon a) = true := by
      rw [beaconWaits_iff]
      rintro ⟨e, he, h⟩
      exact hw e he h
    rw [if_neg hup', if_neg hw']
    exact ⟨rfl, congrArg Host.Outcome.next ((if_neg hup').trans (if_neg hw'))⟩

/-! ### CONTROL, and the items of commands (R162, R164, R166, R177) -/

theorem admits_iff (c : Controllers) (src : Nat) :
    c.admits src = true ↔ c = ⟨none, none⟩ ∨ c.entry0 = some src ∨ c.entry1 = some src := by
  unfold Controllers.admits
  obtain ⟨e0, e1⟩ := c
  simp [or_assoc]

theorem itemCount_pos_iff (items : List Item) (id : Nat) : 1 ≤ itemCount items id ↔ ∃ i ∈ items, i.id = id := by
  unfold itemCount
  rw [Nat.one_le_iff_ne_zero, Ne, List.length_eq_zero_iff, List.filter_eq_nil_iff]
  simp

/-- Items fit a command just as R177 says. -/
theorem itemsFit_iff (ps : List Param) (items : List Item) :
    itemsFit ps items = true ↔
      (∀ i ∈ items, ∃ p ∈ ps, p.id = i.id ∧ p.width.admits i.value.length = true) ∧
      ∀ p ∈ ps, (p.repeats = false → (items.filter fun i => i.id == p.id).length ≤ 1) ∧
        (p.mandatory = true → ∃ i ∈ items, i.id = p.id) := by
  unfold itemsFit itemFits
  simp only [Bool.and_eq_true, List.all_eq_true, List.any_eq_true, beq_iff_eq, Bool.or_eq_true, decide_eq_true_eq,
    Bool.not_eq_true', itemCount_pos_iff]
  refine and_congr Iff.rfl (forall₂_congr fun p _ => and_congr ?_ ?_)
  · unfold itemCount
    cases p.repeats <;> simp
  · cases p.mandatory <;> simp

theorem commandParams_unlisted {c : Nat} (h : c = 0 ∨ 0x18 < c) : commandParams c = none := by
  unfold commandParams
  split <;> simp_all

theorem commandParams_listed {c : Nat} (h : 1 ≤ c ∧ c ≤ 0x18) : (commandParams c).isNone = false := by
  obtain ⟨h1, h2⟩ := h
  interval_cases c <;> rfl

/-- The run of each code is the run of the head of the queue under that code. -/
theorem exec_runOfCode {t c : Nat} {i : Instr} (h : runOfCode t c = some i) :
    ∃ body, ∀ s, exec i s = .next ((s.advance t).runHead c body) := by
  unfold runOfCode at h
  split at h <;> cases h <;> exact ⟨_, fun _ => rfl⟩

theorem runHead_empty {s : State} {code : Nat} {body : Queued → State → State × Reply} (h : s.queue = []) :
    s.runHead code body = s := by
  unfold State.runHead
  rw [h]

theorem runHead_other {s : State} {q : Queued} {rest : List Queued} {code : Nat}
    {body : Queued → State → State × Reply} (h : s.queue = q :: rest) (hc : q.code ≠ code) :
    s.runHead code body = s := by
  unfold State.runHead
  rw [h]
  exact if_neg hc

theorem runHead_unfit {s : State} {q : Queued} {rest : List Queued} {code : Nat}
    {body : Queued → State → State × Reply} (h : s.queue = q :: rest) (hc : q.code = code)
    (hfit : itemsFit ((commandParams code).getD []) q.items = false) :
    s.runHead code body = s.endRun q (.refused .badParameter []) := by
  unfold State.runHead
  rw [h]
  simp only [hc, hfit, if_true, Bool.false_eq_true, if_false]

/-- An admitted command that finds no place is answered BUSY at once (R164). -/
theorem busy_spec {s u : State} {src tag code : Nat} (hup : s.contentUp = true)
    (hu : u = (s.sendResult src tag code (.refused .busy) []).bumpDevice .commandsBusy) :
    u.contentOut = s.contentOut ++ [.result src tag code (.refused .busy) s.engineTime []] ∧
      u.count (.device .commandsBusy) = min counterMax (s.count (.device .commandsBusy) + 1) ∧
      u.count (.device .resultsSent) = min counterMax (s.count (.device .resultsSent) + 1) ∧
      SameCounts s u [.device .commandsBusy, .device .resultsSent] ∧
      u = { s with contentOut := u.contentOut, live := u.live } := by
  have hout := sendResult_contentOut s src tag code (.refused .busy) []
  have hcount := sendResult_count s src tag code (.refused .busy) []
  have hframe := sendResult_frame s src tag code (.refused .busy) []
  generalize s.sendResult src tag code (.refused .busy) [] = v at *
  subst hu
  refine ⟨?_, by simp [State.count_bumpDevice, hcount], by simp [State.count_bumpDevice, hcount, hup], fun c hc => ?_, ?_⟩
  · rw [if_pos hup, cutItems_nil] at hout
    exact hout
  · simp only [List.mem_cons, List.not_mem_nil, or_false, not_or] at hc
    rw [State.count_bumpDevice, if_neg hc.1, hcount, if_neg fun h => hc.2 h.1]
  · rw [hframe]
    rfl

/-- Settles O44: CONTROL frames, commands that are refused before their own checks, and the items of Table 11-13. -/
theorem commandsAreQueuedOrRefused : Obligations.CommandsAreQueuedOrRefused := by
  refine ⟨fun s ea src f => ⟨fun hclosed => congrArg Host.Outcome.next (if_neg (contentOpen_false hclosed)),
    fun hup hr => ?_⟩, fun s t q rest hq => ⟨fun hc => ?_, fun hc => ?_, fun i hi hfit => ?_, fun i c hi hne => ?_,
      fun hc => ?_, fun i hi hno => ?_⟩, fun s t i hq hi => ?_, itemsFit_iff, fun w n => by simp [Width.admits],
    fun n => by simp [Width.admits], fun n => rfl, ?_, rfl, rfl, rfl, rfl⟩
  · have hrun : exec (.control ea src f) s = .next ((s.advance ea).controlFrame ea src f) := rfl
    rw [hrun]
    unfold State.controlFrame
    rw [if_pos ((contentOpen_iff (s.advance ea)).mpr ⟨hup, hr⟩)]
    refine ⟨fun hsome h0 h1 => ⟨_, rfl, ?_⟩, fun hadmit => ⟨fun hroom => ?_, fun hfull => ⟨_, rfl, ?_⟩⟩⟩
    · rw [if_neg]
      · exact counted_bump _ _
      · rw [admits_iff]
        rintro (h | h | h)
        · have hnone : s.controllers = ⟨none, none⟩ := h
          rw [hnone] at hsome
          simp at hsome
        · exact h0 h
        · exact h1 h
    · rw [if_pos ((admits_iff (s.advance ea).controllers src).mpr hadmit)]
      exact congrArg Host.Outcome.next (if_pos hroom)
    · rw [if_pos ((admits_iff (s.advance ea).controllers src).mpr hadmit)]
      exact busy_spec (s := s.advance ea) hup (if_neg (Nat.not_lt.mpr hfull))
  · have hnone : (commandParams q.code).isNone = true := by rw [commandParams_unlisted hc]; rfl
    refine ⟨_, congrArg Host.Outcome.next ?_, runRefused_endRun (s := s.advance t) hq .unknownCommand⟩
    unfold State.runUnknown
    rw [State.advance_queue, hq]
    exact if_pos hnone
  · refine congrArg Host.Outcome.next ?_
    unfold State.runUnknown
    rw [State.advance_queue, hq]
    simp only [commandParams_listed hc, Bool.false_eq_true, if_false]
  · obtain ⟨body, hbody⟩ := exec_runOfCode hi
    refine ⟨_, hbody s, ?_⟩
    rw [runHead_unfit (s := s.advance t) hq rfl hfit]
    exact runRefused_endRun (s := s.advance t) hq .badParameter
  · obtain ⟨body, hbody⟩ := exec_runOfCode hi
    rw [hbody s, runHead_other (s := s.advance t) hq (Ne.symm hne)]
  · refine congrArg Host.Outcome.next ?_
    unfold State.runEngineReset
    rw [State.advance_queue, hq]
    exact if_neg hc
  · rw [← Bool.not_eq_true, itemsFit_iff]
    rintro ⟨hall, -⟩
    obtain ⟨p, hp, hid, -⟩ := hall i hi
    exact hno p hp hid
  · have hempty : (s.advance t).queue = [] := hq
    rcases hi with rfl | rfl | ⟨c, hc⟩
    · refine congrArg Host.Outcome.next ?_
      unfold State.runUnknown
      rw [hempty]
    · refine congrArg Host.Outcome.next ?_
      unfold State.runEngineReset
      rw [hempty]
    · obtain ⟨body, hbody⟩ := exec_runOfCode hc
      rw [hbody s, runHead_empty hempty]
  · intro c must may h
    simp only [List.mem_cons, List.not_mem_nil, or_false, Prod.mk.injEq] at h
    rcases h with h | h | h | h | h | h | h | h | h | h | h | h | h | h | h | h | h | h | h | h
    all_goals
      obtain ⟨rfl, rfl, rfl⟩ := h
      rfl

end Sys2Proof.Machine

/-! PROOFS. Content work on one track: what the frames to band groups leave, pacing, the release of cues and blocks and the
instants of RELEASE_INSTANT (O27, O30, O31, O32). -/

namespace Sys2Proof.Machine

/-! ### A track's record -/

theorem TrackBecomes.of_bound {s : State} {k : Nat} {tr : Track} (h : s.track k = some tr) : TrackBecomes k tr s s :=
  ⟨rfl, h, fun _ _ => rfl⟩

theorem TrackBecomes.trans {s t u : State} {k : Nat} {x y : Track} (h : TrackBecomes k x s t)
    (g : TrackBecomes k y t u) : TrackBecomes k y s u where
  frame := by rw [g.frame, h.frame]
  track := g.track
  others j hj := (g.others j hj).trans (h.others j hj)

section
variable {s t : State} {k : Nat} {x : Track} (h : TrackBecomes k x s t)
include h

theorem TrackBecomes.auditorium (a : Nat) : t.auditorium a = s.auditorium a := by rw [h.frame]; rfl
theorem TrackBecomes.lifecycle (a : Nat) : t.lifecycle a = s.lifecycle a := by rw [h.frame]; rfl
theorem TrackBecomes.showTime (a : Nat) : t.showTime a = s.showTime a := by rw [h.frame]; rfl
theorem TrackBecomes.memberCount (j : Nat) (b : Band) : t.memberCount j b = s.memberCount j b := by rw [h.frame]; rfl
theorem TrackBecomes.count (c : Counter) : t.count c = s.count c := by rw [h.frame]; rfl
theorem TrackBecomes.nextSeq (j : Nat) (b : Band) : t.nextSeq j b = s.nextSeq j b := by rw [h.frame]; rfl

end

theorem Counted.track {s t : State} {c : Counter} (h : Counted s t c) (k : Nat) : t.track k = s.track k := by
  rw [h.frame]; rfl
theorem Counted.nextSeq {s t : State} {c : Counter} (h : Counted s t c) (k : Nat) (b : Band) :
    t.nextSeq k b = s.nextSeq k b := by
  rw [h.frame]; rfl

/-- Content work on one track in the terms of claims. -/
theorem withinTrack_of {s t : State} {k : Nat} (h : Plays s t) (e : Stays k s t) : WithinTrack k s t :=
  ⟨h.shows, WithinShow.work h e⟩

theorem mem_populatedBands (s : State) (k : Nat) (tr : Track) (b : Band) : b ∈ s.populatedBands k tr ↔ s.hears k tr b := by
  unfold State.populatedBands State.populated State.hears
  rw [List.mem_filter]
  simp [mem_bands]

theorem sorted_bands (p : Band → Bool) : (bands.filter p).Pairwise (· < ·) :=
  List.Pairwise.filter _ (by decide)

theorem sorted_populatedBands (s : State) (k : Nat) (tr : Track) : (s.populatedBands k tr).Pairwise (· < ·) :=
  sorted_bands _

theorem mem_markedPopulated (s : State) (k : Nat) (tr : Track) (marks : PerBand Bool) (b : Band) :
    b ∈ s.markedPopulated k tr marks ↔ s.hears k tr b ∧ marks.get b = true := by
  unfold State.markedPopulated
  rw [List.mem_filter, mem_populatedBands]

theorem sorted_markedPopulated (s : State) (k : Nat) (tr : Track) (marks : PerBand Bool) :
    (s.markedPopulated k tr marks).Pairwise (· < ·) :=
  (sorted_populatedBands s k tr).filter _

theorem band_zero (au : Auditorium) : au.band 0 = ⟨true, 0⟩ := rfl

/-! ### Pacing (R80, R81) -/

theorem paceNotice_sent {s : State} {k : Nat} {tr : Track} {o : Source} (hold : Bool) (hsrc : tr.source = some o)
    (hup : s.contentUp = true) :
    s.paceNotice k tr hold = (s.pushContent (.pace o.station hold k o.label)).bumpTrack k .paceSent := by
  unfold State.paceNotice
  rw [hsrc]
  exact if_pos hup

theorem paceNotice_silent {s : State} {k : Nat} {tr : Track} (hold : Bool)
    (h : tr.source = none ∨ s.contentUp = false) : s.paceNotice k tr hold = s := by
  unfold State.paceNotice
  cases hsrc : tr.source with
  | none => rfl
  | some o =>
    refine if_neg ?_
    rw [h.resolve_left (by simp [hsrc])]
    decide

theorem paceUp_holds {s : State} {k : Nat} {tr : Track} (ht : s.track k = some tr)
    (h : tr.pace = .opened ∧ tr.high ≤ tr.occupancy) :
    s.paceUp k = ((s.setTrack k (some { tr with pace := .holding })).paceNotice k tr true).setFlag .paceHold k := by
  unfold State.paceUp
  rw [ht]
  exact if_pos h

theorem paceUp_stands {s : State} {k : Nat} {tr : Track} (ht : s.track k = some tr)
    (h : ¬(tr.pace = .opened ∧ tr.high ≤ tr.occupancy)) : s.paceUp k = s := by
  unfold State.paceUp
  rw [ht]
  exact if_neg h

theorem paceDown_opens {s : State} {k : Nat} {tr : Track} (ht : s.track k = some tr)
    (h : tr.pace = .holding ∧ tr.occupancy ≤ tr.low) :
    s.paceDown k = (s.setTrack k (some { tr with pace := .opened })).paceNotice k tr false := by
  unfold State.paceDown
  rw [ht]
  exact if_pos h

theorem paceDown_stands {s : State} {k : Nat} {tr : Track} (ht : s.track k = some tr)
    (h : ¬(tr.pace = .holding ∧ tr.occupancy ≤ tr.low)) : s.paceDown k = s := by
  unfold State.paceDown
  rw [ht]
  exact if_neg h

theorem setFlag_nextSeq (s : State) (n : FlagName) (i k : Nat) (b : Band) :
    (s.setFlag n i).nextSeq k b = s.nextSeq k b := by
  rw [(flagged_setFlag s n i).frame]
  rfl

theorem setFlag_trackCount (s : State) (n : FlagName) (i k : Nat) (c : TrackCounter) :
    (s.setFlag n i).count (.track k c) = s.count (.track k c) :=
  (flagged_setFlag s n i).counts _ (by simp)

theorem paceNotice_nextSeq (s : State) (k : Nat) (tr : Track) (hold : Bool) (j : Nat) (b : Band) :
    (s.paceNotice k tr hold).nextSeq j b = s.nextSeq j b := by
  unfold State.paceNotice
  split
  · rfl
  · split <;> rfl

/-- Settles O27: both pace transitions, and where there is none. -/
theorem pacingFollowsOccupancy : Obligations.PacingFollowsOccupancy := by
  refine fun s k tr ht => ⟨fun h => ⟨_, rfl, ?_⟩, paceUp_stands ht, fun h => ⟨_, rfl, ?_⟩, paceDown_stands ht⟩
  · refine ⟨?_, ?_, withinTrack_of (plays_paceUp s k) (stays_paceUp s k), fun b => ⟨fun hf => hf.elim, fun _ => ?_⟩,
      fun o hsrc hup => ?_, fun hno => fun c _ => ?_⟩
    all_goals rw [paceUp_holds ht h]
    · rw [(sends_setFlag ..).track, (sends_paceNotice ..).track, State.track_setTrack_same]
    · exact flagSet_setFlag ..
    · rw [setFlag_nextSeq, paceNotice_nextSeq]
      rfl
    · rw [paceNotice_sent (s := s.setTrack k _) true hsrc hup]
      have hsent := (sends_setFlag (((s.setTrack k (some { tr with pace := .holding })).pushContent
        (.pace o.station true k o.label)).bumpTrack k .paceSent) .paceHold k).sent
      exact ⟨hsent, (setFlag_trackCount ..).trans (counted_bump _ _).counted⟩
    · rw [paceNotice_silent (s := s.setTrack k _) true hno, setFlag_trackCount]
      rfl
  · refine ⟨?_, withinTrack_of (plays_paceDown s k) (stays_paceDown s k), ?_, fun o hsrc hup => ?_, fun hno => ?_⟩
    all_goals rw [paceDown_opens ht h]
    · rw [(sends_paceNotice ..).track, State.track_setTrack_same]
    · unfold State.paceNotice
      split
      · rfl
      · split <;> rfl
    · rw [paceNotice_sent (s := s.setTrack k _) false hsrc hup]
      exact ⟨rfl, (counted_bump _ _).counted⟩
    · rw [paceNotice_silent (s := s.setTrack k _) false hno]
      exact trackBecomes_setTrack s k _

/-! ### Frames to band groups (R101, R102, R115) -/

theorem offer_trackCount (s : State) (e : Entry) (k : Nat) (c : TrackCounter) :
    (s.offer e).count (.track k c) = s.count (.track k c) :=
  (elsewhere_offer (p := fun _ => False) s e).counts k c id

theorem offer_nextSeq (s : State) (e : Entry) (k : Nat) (b : Band) : (s.offer e).nextSeq k b = s.nextSeq k b := by
  rw [(offersOnly_offer s e).frame]
  rfl

/-- Frames made for track `k`: each band group has had as many sequence numbers as `made` says, the track's counters stand
but those of `but`, and only what the making of frames moves has moved. -/
structure Made (k : Nat) (made : Band → SeqNo) (but : List TrackCounter) (s t : State) : Prop where
  sends : Sends s t
  stays : Stays k s t
  sequences : ∀ b, t.nextSeq k b = s.nextSeq k b + made b
  counts : SameTrackCounts k but s t

section
variable {k : Nat} {f g : Band → SeqNo} {cs ds : List TrackCounter} {s t u : State}

theorem Made.refl : Made k (fun _ => 0) cs s s :=
  ⟨Sends.refl s, Stays.refl k s, fun _ => (BitVec.add_zero _).symm, fun _ _ => rfl⟩

theorem Made.trans (h : Made k f cs s t) (h' : Made k g cs t u) : Made k (fun b => f b + g b) cs s u :=
  ⟨h.sends.trans h'.sends, h.stays.trans h'.stays,
    fun b => by rw [h'.sequences, h.sequences, BitVec.add_assoc], fun c hc => (h'.counts c hc).trans (h.counts c hc)⟩

theorem Made.mono (h : Made k f cs s t) (hcs : cs ⊆ ds) : Made k f ds s t :=
  { h with counts := fun c hc => h.counts c fun hm => hc (hcs hm) }

theorem Made.congr (h : Made k f cs s t) (hfg : ∀ b, f b = g b) : Made k g cs s t :=
  { h with sequences := fun b => by rw [h.sequences, hfg] }

end

theorem made_bumpTrack (s : State) (k : Nat) (c : TrackCounter) : Made k (fun _ => 0) [c] s (s.bumpTrack k c) where
  sends := sends_bumpTrack s k c
  stays := stays_bumpTrack s k c
  sequences _ := (BitVec.add_zero _).symm
  counts d hd := (counted_bump s (.track k c)).others _ (by simpa using hd)

theorem made_sendToBand (s : State) (k : Nat) (tr : Track) (b : Band) (cls : EgressClass) (body : DeliveryBody)
    (d : Option Nat) : Made k (fun c => if c = b then 1 else 0) [] s (s.sendToBand k tr b cls body d) where
  sends := sends_sendToBand s k tr b cls body d
  stays := stays_sendToBand s k tr b cls body d
  sequences c := by
    rw [sendToBand_nextSeq]
    by_cases hc : c = b <;> simp [hc]
  counts c _ := offer_trackCount _ _ k c

/-- The copies to DEGRADED records move no sequence number, and of the track's counters their own two. -/
theorem made_degradedCopies (s : State) (k : Nat) (tr : Track) (b : Band) (q : SeqNo) (body : DeliveryBody)
    (d : Option Nat) :
    Made k (fun _ => 0) [.degradedCopies, .degradedLimit] s (s.degradedCopies k tr b q body d) where
  sends := sends_degradedCopies s k tr b q body d
  stays := stays_degradedCopies s k tr b q body d
  sequences c := by
    have hfold : ∀ (rs : List Subscription) (v : State), (rs.foldl (fun s r => (s.bumpTrack k .degradedCopies).offer
        ⟨⟨.device r.handle, some q, body⟩, .catchup, tr.auditorium, some k, d, 0⟩) v).nextSeq k c = v.nextSeq k c := by
      intro rs
      induction rs with
      | nil => exact fun _ => rfl
      | cons r rs ih =>
        intro v
        rw [List.foldl_cons, ih, offer_nextSeq]
        rfl
    exact (hfold _ s).trans (BitVec.add_zero _).symm
  counts c hc := by
    simp only [List.mem_cons, List.not_mem_nil, or_false, not_or] at hc
    have hfold : ∀ (rs : List Subscription) (v : State), (rs.foldl (fun s r => (s.bumpTrack k .degradedCopies).offer
        ⟨⟨.device r.handle, some q, body⟩, .catchup, tr.auditorium, some k, d, 0⟩) v).count (.track k c) =
          v.count (.track k c) := by
      intro rs
      induction rs with
      | nil => exact fun _ => rfl
      | cons r rs ih =>
        intro v
        rw [List.foldl_cons, ih, offer_trackCount, State.count_bumpTrack, if_neg (by simpa using hc.1)]
    unfold State.degradedCopies
    simp only
    rw [State.count_bumpBy, if_neg (by simpa using hc.2)]
    exact hfold _ s

theorem made_sendCaption (s : State) (k : Nat) (tr : Track) (b : Band) (body : DeliveryBody) (d : Option Nat) :
    Made k (fun c => if c = b then 1 else 0) [.degradedCopies, .degradedLimit] s (s.sendCaption k tr b body d) :=
  (((made_sendToBand s k tr b .caption body d).mono (List.nil_subset _)).trans
    (made_degradedCopies _ k tr b _ body d)).congr fun _ => BitVec.add_zero _

theorem captionDeadline_eq (au : Auditorium) (c : Caption) : captionDeadline au c = shownUntil au c := by
  unfold captionDeadline shownUntil Auditorium.minDisplay
  by_cases h : c.late = true ∨ c.repeated = true
  · have h' : (c.late || c.repeated) = true := by simpa using h
    simp only [if_pos h, if_pos h']
  · have h' : ¬(c.late || c.repeated) = true := by simpa using h
    simp only [if_neg h, if_neg h']

/-- A caption released to a band without members is counted and goes nowhere. -/
theorem releaseCaption_unheard {s : State} {k : Nat} {b : Band} (h : s.memberCount k b = 0) (tr : Track) (c : Caption) :
    s.releaseCaption k tr c b = s.bumpTrack k .releases := by
  unfold State.releaseCaption
  exact if_pos h

theorem releaseCaption_heard {s : State} {k : Nat} {b : Band} (h : s.memberCount k b ≠ 0) (tr : Track) (c : Caption) :
    s.releaseCaption k tr c b = (s.bumpTrack k .releases).sendCaption k tr b (.caption k c)
      (some (shownUntil (s.auditorium tr.auditorium) c)) := by
  unfold State.releaseCaption
  rw [← captionDeadline_eq]
  exact if_neg h

/-- The frames of a caption released to band `b`. -/
def capFrames (s : State) (k : Nat) (b c : Band) : SeqNo := if c = b ∧ s.memberCount k b ≠ 0 then 1 else 0

/-- The track counters that the release of a caption moves. -/
def captionCounters : List TrackCounter := [.releases, .degradedCopies, .degradedLimit]

theorem made_releaseCaption (s : State) (k : Nat) (tr : Track) (c : Caption) (b : Band) :
    Made k (capFrames s k b) captionCounters s (s.releaseCaption k tr c b) := by
  have hbump := (made_bumpTrack s k .releases).mono (ds := captionCounters) (by decide)
  by_cases h : s.memberCount k b = 0
  · rw [releaseCaption_unheard h]
    exact hbump.congr fun d => by simp [capFrames, h]
  · rw [releaseCaption_heard h]
    refine (hbump.trans ((made_sendCaption _ k tr b _ _).mono (by decide))).congr fun d => ?_
    by_cases hd : d = b <;> simp [capFrames, h, hd]

theorem releaseCaption_releases (s : State) (k : Nat) (tr : Track) (c : Caption) (b : Band) :
    (s.releaseCaption k tr c b).count (.track k .releases) = min counterMax (s.count (.track k .releases) + 1) := by
  by_cases h : s.memberCount k b = 0
  · rw [releaseCaption_unheard h]
    exact (counted_bump s _).counted
  · rw [releaseCaption_heard h, (made_sendCaption ..).counts .releases (by decide)]
    exact (counted_bump s _).counted

/-- The AUDIO GAP that goes before a block's AUDIO, where it carries one. -/
def State.sendGap (s : State) (k : Nat) (tr : Track) (x : Block) (b : Band) : State :=
  match x.gap with
  | none => s
  | some g => s.sendToBand k tr b .audio (.audioGap k x.audio.seq g) (some x.audio.tp)

theorem sendGap_none {s : State} {x : Block} (h : x.gap = none) (k : Nat) (tr : Track) (b : Band) :
    s.sendGap k tr x b = s := by
  unfold State.sendGap; rw [h]

theorem sendGap_some {s : State} {x : Block} {g : Gap} (h : x.gap = some g) (k : Nat) (tr : Track) (b : Band) :
    s.sendGap k tr x b = s.sendToBand k tr b .audio (.audioGap k x.audio.seq g) (some x.audio.tp) := by
  unfold State.sendGap; rw [h]

theorem releaseAudio_unheard {s : State} {k : Nat} {b : Band} (h : s.memberCount k b = 0) (tr : Track) (x : Block) :
    s.releaseAudio k tr x b = s.bumpTrack k .releases := by
  unfold State.releaseAudio
  exact if_pos h

theorem releaseAudio_heard {s : State} {k : Nat} {b : Band} (h : s.memberCount k b ≠ 0) (tr : Track) (x : Block) :
    s.releaseAudio k tr x b = ((s.bumpTrack k .releases).sendGap k tr x b).sendToBand k tr b .audio
      (.audio k x.audio) (some x.audio.tp) := by
  have h' : ¬(s.bumpTrack k .releases).memberCount k b = 0 := h
  cases hg : x.gap with
  | none =>
    rw [sendGap_none hg]
    unfold State.releaseAudio
    simp only [h', hg, if_false]
  | some g =>
    rw [sendGap_some hg]
    unfold State.releaseAudio
    simp only [h', hg, if_false]

/-- How many sequence numbers a block's release takes of a group that hears it (R104). -/
def Block.frames (x : Block) : SeqNo := if x.gap.isSome then 2 else 1

/-- The frames of a block released to band `b`. -/
def audioFrames (s : State) (k : Nat) (x : Block) (b c : Band) : SeqNo :=
  if c = b ∧ s.memberCount k b ≠ 0 then x.frames else 0

theorem made_releaseAudio (s : State) (k : Nat) (tr : Track) (x : Block) (b : Band) :
    Made k (audioFrames s k x b) [.releases] s (s.releaseAudio k tr x b) := by
  have hbump := made_bumpTrack s k .releases
  by_cases h : s.memberCount k b = 0
  · rw [releaseAudio_unheard h]
    exact hbump.congr fun d => by simp [audioFrames, h]
  · rw [releaseAudio_heard h]
    have hsend := fun v => (made_sendToBand v k tr b .audio (.audio k x.audio) (some x.audio.tp)).mono
      (List.nil_subset [TrackCounter.releases])
    cases hg : x.gap with
    | none =>
      rw [sendGap_none hg]
      refine (hbump.trans (hsend _)).congr fun d => ?_
      by_cases hd : d = b <;> simp [audioFrames, Block.frames, h, hd, hg]
    | some g =>
      rw [sendGap_some hg]
      refine ((hbump.trans ((made_sendToBand _ k tr b .audio _ _).mono (List.nil_subset _))).trans (hsend _)).congr
        fun d => ?_
      by_cases hd : d = b <;> simp [audioFrames, Block.frames, h, hd, hg]

theorem releaseAudio_releases (s : State) (k : Nat) (tr : Track) (x : Block) (b : Band) :
    (s.releaseAudio k tr x b).count (.track k .releases) = min counterMax (s.count (.track k .releases) + 1) := by
  by_cases h : s.memberCount k b = 0
  · rw [releaseAudio_unheard h]
    exact (counted_bump s _).counted
  · rw [releaseAudio_heard h, (made_sendToBand ..).counts .releases (by simp)]
    cases hg : x.gap with
    | none =>
      rw [sendGap_none hg]
      exact (counted_bump s _).counted
    | some g =>
      rw [sendGap_some hg, (made_sendToBand ..).counts .releases (by simp)]
      exact (counted_bump s _).counted

/-- Pacing after a release or a removal: the pace may change, and PACE_SENT alone is counted. -/
theorem paceDown_leaves {s : State} {k : Nat} {tr : Track} (ht : s.track k = some tr) :
    (∃ p, (s.paceDown k).track k = some { tr with pace := p }) ∧
      (∀ b, (s.paceDown k).nextSeq k b = s.nextSeq k b) ∧ SameTrackCounts k [.paceSent] s (s.paceDown k) := by
  by_cases h : tr.pace = .holding ∧ tr.occupancy ≤ tr.low
  · rw [paceDown_opens ht h]
    refine ⟨⟨.opened, by rw [(sends_paceNotice ..).track, State.track_setTrack_same]⟩,
      fun b => (paceNotice_nextSeq ..).trans rfl, fun c hc => ?_⟩
    unfold State.paceNotice
    split
    · rfl
    · split
      · rw [State.count_bumpTrack, if_neg (by simpa using hc)]
        rfl
      · rfl
  · rw [paceDown_stands ht h]
    exact ⟨⟨tr.pace, ht⟩, fun _ => rfl, fun _ _ => rfl⟩

/-! ### The release of a cue (R101, R103) -/

theorem removePending_becomes {s : State} {k : Nat} {tr : Track} (ht : s.track k = some tr) (n : Nat) :
    TrackBecomes k (tr.withoutCue n) s (s.removePending k n) :=
  trackBecomes_updateTrack ht fun tr => tr.withoutCue n

theorem editPending_becomes {s : State} {k : Nat} {tr : Track} (ht : s.track k = some tr) (n : Nat) (f : Cue → Cue) :
    TrackBecomes k { tr with pending := tr.pending.map fun d => if d.caption.number = n then f d else d } s
      (s.editPending k n f) :=
  trackBecomes_updateTrack ht fun tr =>
    { tr with pending := tr.pending.map fun d => if d.caption.number = n then f d else d }

theorem pendingCue_number {tr : Track} {n : Nat} {c : Cue} (h : tr.pendingCue n = some c) : c.caption.number = n := by
  simpa using List.find?_some h

/-- Cues of a number changed and then taken out are the cues of that number taken out. -/
theorem withoutCue_edit (tr : Track) (n : Nat) {f : Cue → Cue} (hf : ∀ d, d.caption.number = n → (f d).caption.number = n) :
    ({ tr with pending := tr.pending.map fun d => if d.caption.number = n then f d else d } : Track).withoutCue n =
      tr.withoutCue n := by
  unfold Track.withoutCue
  simp only [Track.mk.injEq, true_and, and_true]
  induction tr.pending with
  | nil => rfl
  | cons d ds ih =>
    rw [List.map_cons, List.filter_cons, List.filter_cons, ih]
    by_cases hd : d.caption.number = n
    · simp [hd, hf d hd]
    · simp [hd]

/-- The first cue of a number after the cues of that number have been changed. -/
theorem pendingCue_edit {tr : Track} {n : Nat} {c : Cue} {f : Cue → Cue} (h : tr.pendingCue n = some c)
    (hf : ∀ d, d.caption.number = n → (f d).caption.number = n) :
    ({ tr with pending := tr.pending.map fun d => if d.caption.number = n then f d else d } : Track).pendingCue n =
      some (f c) := by
  unfold Track.pendingCue at *
  have hnum := pendingCue_number h
  induction hp : tr.pending generalizing tr with
  | nil => rw [hp] at h; cases h
  | cons d ds ih =>
    rw [hp] at h
    rw [List.map_cons]
    by_cases hd : d.caption.number = n
    · rw [List.find?_cons_of_pos (by simp [hd])] at h
      cases h
      rw [List.find?_cons_of_pos (by simp [hd, hf])]
      simp [hd]
    · rw [List.find?_cons_of_neg (by simp [hd])] at h
      rw [List.find?_cons_of_neg (by simp [hd])]
      exact ih (tr := { tr with pending := ds }) h rfl

/-- A cue becomes current, the one that was retired and counted (R78, R103). -/
theorem becomeCurrent_spec {s : State} {k : Nat} {tr : Track} (ht : s.track k = some tr) (c : Cue) :
    ∃ x, TrackBecomes k { tr with current := some c } s x ∧ (tr.current = none → s.becomeCurrent k c = x) ∧
      (tr.current ≠ none → Counted x (s.becomeCurrent k c) (.track k .cuesRetired)) := by
  refine ⟨s.setTrack k (some { tr with current := some c }), trackBecomes_setTrack .., fun h => ?_, fun h => ?_⟩
  · unfold State.becomeCurrent
    rw [ht]
    simp only [h, Option.isSome_none, Bool.false_eq_true, if_false]
  · unfold State.becomeCurrent
    rw [ht]
    simp only [Option.isSome_iff_ne_none.mpr h, if_true]
    exact counted_bump _ _

theorem releasePending_eq {s : State} {k n : Nat} {b : Band} {tr : Track} {c : Cue} (ht : s.track k = some tr)
    (hc : tr.pendingCue n = some c) :
    s.releasePending k n b =
      if b.val = 0 then ((((s.editPending k n fun _ => { c with marks := c.marks.set b true }).releaseCaption k tr
        c.caption b).removePending k n).becomeCurrent k { c with marks := c.marks.set b true }).paceDown k
      else (s.editPending k n fun _ => { c with marks := c.marks.set b true }).releaseCaption k tr c.caption b := by
  unfold State.releasePending
  simp only [ht, hc]

/-- The release of a pending cue, state by state: marked, sent, and at band 0 current and out of the list. -/
theorem releasePending_spec {s : State} {k n : Nat} {b : Band} {tr : Track} {c marked : Cue} (ht : s.track k = some tr)
    (hc : tr.pendingCue n = some c) (hm : marked = { c with marks := c.marks.set b true }) :
    ∃ v w, TrackBecomes k { tr with pending := tr.pending.map fun d => if d.caption.number = n then marked else d } s v ∧
      w = v.releaseCaption k tr c.caption b ∧ (b ≠ 0 → s.releasePending k n b = w) ∧
      (b = 0 → ∃ x y, TrackBecomes k { tr.withoutCue n with current := some marked } w x ∧
        (tr.current = none → y = x) ∧ (tr.current ≠ none → Counted x y (.track k .cuesRetired)) ∧
        s.releasePending k n b = y.paceDown k) := by
  have hv := editPending_becomes ht n fun _ => marked
  have hmade := made_releaseCaption (s.editPending k n fun _ => marked) k tr c.caption b
  refine ⟨_, _, hv, rfl, fun hb => ?_, fun hb => ?_⟩
  · have hb0 : ¬b.val = 0 := fun h => hb (Fin.ext h)
    rw [releasePending_eq ht hc, if_neg hb0, hm]
  · have hwt := (hmade.sends.track k).trans hv.track
    have hrem := removePending_becomes hwt n
    have hc' := pendingCue_number hc
    have hnum : marked.caption.number = n := by rw [hm]; exact hc'
    rw [withoutCue_edit tr n fun _ _ => hnum] at hrem
    obtain ⟨x, hx, hnone, hsome⟩ := becomeCurrent_spec hrem.track marked
    refine ⟨x, _, hrem.trans hx, hnone, hsome, ?_⟩
    rw [releasePending_eq ht hc, if_pos (by rw [hb]; rfl), hm]

/-- What the release of a pending cue to one band leaves in all. -/
theorem releasePending_sum {s : State} {k n : Nat} {b : Band} {tr : Track} {c marked : Cue} (ht : s.track k = some tr)
    (hc : tr.pendingCue n = some c) (hm : marked = { c with marks := c.marks.set b true }) :
    ∃ tr', (s.releasePending k n b).track k = some tr' ∧ tr'.ring = tr.ring ∧
      (s.releasePending k n b).count (.track k .releases) = min counterMax (s.count (.track k .releases) + 1) ∧
      (∀ d, (s.releasePending k n b).nextSeq k d = s.nextSeq k d + capFrames s k b d) ∧
      SameTrackCounts k (captionCounters ++ [.cuesRetired, .paceSent]) s (s.releasePending k n b) ∧
      (b ≠ 0 → tr' = { tr with pending := tr.pending.map fun d => if d.caption.number = n then marked else d } ∧
        (s.releasePending k n b).count (.track k .cuesRetired) = s.count (.track k .cuesRetired)) ∧
      (b = 0 → (∃ p, tr' = { tr.withoutCue n with current := some marked, pace := p }) ∧
        (s.releasePending k n b).count (.track k .cuesRetired) =
          if tr.current.isSome then min counterMax (s.count (.track k .cuesRetired) + 1)
          else s.count (.track k .cuesRetired)) := by
  obtain ⟨v, w, hv, hw, hother, hzero⟩ := releasePending_spec ht hc hm
  have hmade := made_releaseCaption v k tr c.caption b
  have hrel := releaseCaption_releases v k tr c.caption b
  rw [← hw] at hmade hrel
  have hframes : ∀ d, w.nextSeq k d = s.nextSeq k d + capFrames s k b d := fun d => by
    rw [hmade.sequences, hv.nextSeq]
    unfold capFrames
    rw [hv.memberCount]
  have hcount : SameTrackCounts k captionCounters s w := fun d hd => (hmade.counts d hd).trans (hv.count _)
  by_cases hb : b = 0
  · obtain ⟨x, y, hx, hnone, hsome, hu⟩ := hzero hb
    have hretired : y.count (.track k .cuesRetired) =
        (if tr.current.isSome then min counterMax (s.count (.track k .cuesRetired) + 1)
          else s.count (.track k .cuesRetired)) ∧
        (∀ d, d ≠ .cuesRetired → y.count (.track k d) = w.count (.track k d)) ∧ y.track k = x.track k ∧
          ∀ d, y.nextSeq k d = w.nextSeq k d := by
      cases hcur : tr.current with
      | none =>
        rw [hnone hcur]
        exact ⟨(hx.count _).trans (hcount _ (by decide)), fun d _ => hx.count _, rfl, fun d => hx.nextSeq k d⟩
      | some cur =>
        have hy := hsome (by rw [hcur]; exact Option.some_ne_none cur)
        refine ⟨?_, fun d hd => (hy.others _ (by simpa using hd)).trans (hx.count _), hy.track k,
          fun d => (hy.nextSeq k d).trans (hx.nextSeq k d)⟩
        rw [hy.counted, hx.count, hcount _ (by decide)]
        rfl
    obtain ⟨hret, hothers, htrack, hseq⟩ := hretired
    obtain ⟨⟨p, hp⟩, hpseq, hpcount⟩ := paceDown_leaves (htrack.trans hx.track)
    rw [← hu] at hp hpseq hpcount
    refine ⟨_, hp, rfl, ?_, fun d => ?_, fun d hd => ?_, fun hne => absurd hb hne, fun _ => ⟨⟨p, rfl⟩, ?_⟩⟩
    · rw [hpcount _ (by decide), hothers _ (by decide), hrel, hv.count]
    · rw [hpseq, hseq, hframes]
    · simp only [captionCounters, List.mem_append, List.mem_cons, List.not_mem_nil, or_false, not_or] at hd
      rw [hpcount d (by simpa using hd.2.2), hothers d hd.2.1, hcount d (by simpa [captionCounters] using hd.1)]
    · rw [hpcount _ (by decide), hret]
  · rw [hother hb]
    refine ⟨_, (hmade.sends.track k).trans hv.track, rfl, by rw [hrel, hv.count], hframes,
      fun d hd => hcount d fun hm => hd (List.mem_append_left _ hm), fun _ => ⟨rfl, hcount _ (by decide)⟩,
      fun h0 => absurd h0 hb⟩

/-! ### The release of a block (R94, R101, R104) -/

/-- A ring without the blocks of a sequence. -/
def Track.withoutBlock (tr : Track) (n : Nat) : Track := { tr with ring := tr.ring.filter fun y => y.audio.seq != n }

theorem removeBlock_becomes {s : State} {k : Nat} {tr : Track} (ht : s.track k = some tr) (n : Nat) :
    TrackBecomes k (tr.withoutBlock n) s (s.removeBlock k n) :=
  trackBecomes_updateTrack ht fun tr => tr.withoutBlock n

theorem editBlock_becomes {s : State} {k : Nat} {tr : Track} (ht : s.track k = some tr) (n : Nat) (f : Block → Block) :
    TrackBecomes k { tr with ring := tr.ring.map fun y => if y.audio.seq = n then f y else y } s (s.editBlock k n f) :=
  trackBecomes_updateTrack ht fun tr => { tr with ring := tr.ring.map fun y => if y.audio.seq = n then f y else y }

theorem ringBlock_seq {tr : Track} {n : Nat} {x : Block} (h : tr.ringBlock n = some x) : x.audio.seq = n := by
  simpa using List.find?_some h

theorem withoutBlock_edit (tr : Track) (n : Nat) {f : Block → Block} (hf : ∀ y, y.audio.seq = n → (f y).audio.seq = n) :
    ({ tr with ring := tr.ring.map fun y => if y.audio.seq = n then f y else y } : Track).withoutBlock n =
      tr.withoutBlock n := by
  unfold Track.withoutBlock
  simp only [Track.mk.injEq, true_and, and_true]
  induction tr.ring with
  | nil => rfl
  | cons y ys ih =>
    rw [List.map_cons, List.filter_cons, List.filter_cons, ih]
    by_cases hy : y.audio.seq = n
    · simp [hy, hf y hy]
    · simp [hy]

theorem releaseBlock_eq {s : State} {k n : Nat} {b : Band} {tr : Track} {x : Block} (ht : s.track k = some tr)
    (hx : tr.ringBlock n = some x) :
    s.releaseBlock k n b =
      if b.val = 0 then
        (((s.editBlock k n fun _ => { x with marks := x.marks.set b true }).releaseAudio k tr x b).removeBlock k n).paceDown k
      else (s.editBlock k n fun _ => { x with marks := x.marks.set b true }).releaseAudio k tr x b := by
  unfold State.releaseBlock
  simp only [ht, hx]

/-- The release of a block, state by state. -/
theorem releaseBlock_spec {s : State} {k n : Nat} {b : Band} {tr : Track} {x : Block} (ht : s.track k = some tr)
    (hx : tr.ringBlock n = some x) :
    ∃ v w, TrackBecomes k { tr with ring := tr.ring.map fun y =>
        if y.audio.seq = n then { x with marks := x.marks.set b true } else y } s v ∧
      w = v.releaseAudio k tr x b ∧ (b ≠ 0 → s.releaseBlock k n b = w) ∧
      (b = 0 → ∃ y, TrackBecomes k (tr.withoutBlock n) w y ∧ s.releaseBlock k n b = y.paceDown k) := by
  have hv := editBlock_becomes ht n fun _ => { x with marks := x.marks.set b true }
  have hmade := made_releaseAudio (s.editBlock k n fun _ => { x with marks := x.marks.set b true }) k tr x b
  refine ⟨_, _, hv, rfl, fun hb => ?_, fun hb => ?_⟩
  · have hb0 : ¬b.val = 0 := fun h => hb (Fin.ext h)
    rw [releaseBlock_eq ht hx, if_neg hb0]
  · have hrem := removeBlock_becomes ((hmade.sends.track k).trans hv.track) n
    have hseq := ringBlock_seq hx
    rw [withoutBlock_edit tr n (f := fun _ => { x with marks := x.marks.set b true }) fun _ _ => hseq] at hrem
    refine ⟨_, hrem, ?_⟩
    rw [releaseBlock_eq ht hx, if_pos (by rw [hb]; rfl)]

/-- What the release of a block to one band leaves in all. -/
theorem releaseBlock_sum {s : State} {k n : Nat} {b : Band} {tr : Track} {x : Block} (ht : s.track k = some tr)
    (hx : tr.ringBlock n = some x) :
    ∃ tr', (s.releaseBlock k n b).track k = some tr' ∧ tr'.pending = tr.pending ∧ tr'.current = tr.current ∧
      (s.releaseBlock k n b).count (.track k .releases) = min counterMax (s.count (.track k .releases) + 1) ∧
      (∀ d, (s.releaseBlock k n b).nextSeq k d = s.nextSeq k d + audioFrames s k x b d) ∧
      (b ≠ 0 → tr' = { tr with ring := tr.ring.map fun y =>
        if y.audio.seq = n then { x with marks := x.marks.set b true } else y }) ∧
      (b = 0 → tr'.ring = tr.ring.filter fun y => y.audio.seq != n) := by
  obtain ⟨v, w, hv, hw, hother, hzero⟩ := releaseBlock_spec ht hx (b := b)
  have hmade := made_releaseAudio v k tr x b
  have hrel := releaseAudio_releases v k tr x b
  rw [← hw] at hmade hrel
  have hframes : ∀ d, w.nextSeq k d = s.nextSeq k d + audioFrames s k x b d := fun d => by
    rw [hmade.sequences, hv.nextSeq]
    unfold audioFrames
    rw [hv.memberCount]
  by_cases hb : b = 0
  · obtain ⟨y, hy, hu⟩ := hzero hb
    obtain ⟨⟨p, hp⟩, hpseq, hpcount⟩ := paceDown_leaves hy.track
    rw [← hu] at hp hpseq hpcount
    refine ⟨_, hp, rfl, rfl, ?_, fun d => ?_, fun hne => absurd hb hne, fun _ => rfl⟩
    · rw [hpcount _ (by decide), hy.count, hrel, hv.count]
    · rw [hpseq, hy.nextSeq, hframes]
  · rw [hother hb]
    exact ⟨_, (hmade.sends.track k).trans hv.track, rfl, rfl, by rw [hrel, hv.count], hframes, fun _ => rfl,
      fun h0 => absurd h0 hb⟩

/-! ### Degraded repeat copies (R115) -/

theorem degraded_iff (r : Subscription) : r.state = .degraded ↔ 128 ≤ r.score ∧ r.score < 256 := by
  unfold Subscription.state subscriptionState
  split
  · simp; omega
  · split
    · simp; omega
    · split
      · simp; omega
      · simp; omega

theorem degradedRecords_eq (s : State) (k : Nat) (b : Band) :
    s.degradedRecords k b =
      (s.records.filter fun e => e.2.track = k ∧ e.2.band = b ∧ 128 ≤ e.2.score ∧ e.2.score < 256).map Prod.snd := by
  unfold State.degradedRecords
  rw [List.filter_map]
  congr 2
  funext e
  rw [Bool.eq_iff_iff]
  simp [← degraded_iff, and_assoc]

/-- A CAPTION's copies: one offer to each of the first 16 records, and a count of the others. -/
theorem sendCaption_copies (s : State) (k : Nat) (tr : Track) (b : Band) (body : DeliveryBody) (d : Option Nat)
    (rs : List (Nat × Subscription))
    (hrs : rs = s.records.filter fun e => e.2.track = k ∧ e.2.band = b ∧ 128 ≤ e.2.score ∧ e.2.score < 256) :
    ∃ v, v = (rs.take 16).foldl (fun x e => (x.bump (.track k .degradedCopies)).offer
        (madeEntry ⟨.device e.2.handle, some (s.nextSeq k b), body⟩ .catchup tr.auditorium (some k) d))
        (s.sendToBand k tr b .caption body d) ∧
      CountedBy v (s.sendCaption k tr b body d) (.track k .degradedLimit) (rs.length - 16) := by
  have hrecords : (s.sendToBand k tr b .caption body d).degradedRecords k b = rs.map Prod.snd := by
    rw [degradedRecords_eq, hrs]
    unfold State.records
    rw [(made_sendToBand s k tr b .caption body d).sends.patrons.subscriptions]
  refine ⟨_, rfl, ?_⟩
  unfold State.sendCaption State.degradedCopies
  simp only [hrecords, List.length_map]
  rw [← List.map_take, List.foldl_map]
  exact countedBy_bumpBy _ _ _

/-- Settles O31: what a release leaves, how it goes, and the copies of a CAPTION. -/
theorem releaseMarksAndSends : Obligations.ReleaseMarksAndSends := by
  refine ⟨fun s k tr b n ht => ⟨fun c hc => ?_, fun x hx => ?_⟩, fun s k tr b ht => ⟨fun c => ?_, fun x => ?_,
    fun n c marked hc hm => releasePending_spec ht hc hm, fun n x hx => releaseBlock_spec ht hx⟩, sendCaption_copies⟩
  · obtain ⟨tr', htr', hring, hrel, hseq, -, hother, hzero⟩ := releasePending_sum ht hc (b := b) rfl
    refine ⟨_, tr', _, rfl, withinTrack_of (plays_releasePending ..) (stays_releasePending ..), htr', rfl, hring, hrel,
      fun d => ⟨fun hd => ?_, fun hd => ?_⟩, fun hb => (hother hb).1, fun hb => ?_⟩
    · rw [hseq, capFrames, if_pos hd]
    · rw [hseq, capFrames, if_neg hd]
      exact BitVec.add_zero _
    · obtain ⟨⟨p, rfl⟩, hret⟩ := hzero hb
      exact ⟨rfl, rfl, hret⟩
  · obtain ⟨tr', htr', hpend, hcur, hrel, hseq, hother, hzero⟩ := releaseBlock_sum ht hx (b := b)
    exact ⟨_, tr', rfl, withinTrack_of (plays_releaseBlock ..) (stays_releaseBlock ..), htr', hpend, hcur, hrel, hseq,
      hother, hzero⟩
  · exact ⟨_, counted_bump s (.track k .releases), fun h => releaseCaption_unheard h tr c,
      fun h => releaseCaption_heard h tr c⟩
  · exact ⟨_, (s.bumpTrack k .releases).sendGap k tr x b, counted_bump s (.track k .releases),
      fun h => releaseAudio_unheard h tr x, fun h => sendGap_none h k tr b, fun g h => sendGap_some h k tr b,
      fun h => releaseAudio_heard h tr x⟩

/-! ### RELEASE_INSTANT and the passed instants (R100, R101, R107) -/

theorem bandsUpTo_append {b : Band} {pre post : List Band} (h : b ∉ pre) :
    bandsUpTo b (pre ++ b :: post) = pre ++ [b] := by
  induction pre with
  | nil => exact if_pos rfl
  | cons c cs ih =>
    rw [List.mem_cons, not_or] at h
    rw [List.cons_append, List.cons_append, ← ih h.2]
    exact if_neg (Ne.symm h.1)

/-- A band stands once among the due bands. -/
theorem notMem_before_due {au : Auditorium} {tr : Track} {time sh : Nat} {marks : PerBand Bool} {zero : Bool} {b : Band}
    {pre post : List Band} (h : dueBands au tr time marks sh zero = pre ++ b :: post) : b ∉ pre := by
  intro hb
  have hsorted := (releaseOrder_dueBands au tr time sh marks zero).order
  rw [h, List.pairwise_append] at hsorted
  obtain ⟨hne, hz | hlt | ⟨-, hlt⟩⟩ := hsorted.2.2 b hb b (List.mem_cons_self ..)
  · exact hne hz
  · exact absurd hlt (Nat.lt_irrefl _)
  · exact absurd hlt (lt_irrefl b)

section
variable {s : State} {k : Nat} {b : Band} {tr : Track} (ht : s.track k = some tr)
include ht

theorem takeInstant_standing (h : (s.lifecycle tr.auditorium).advancing = false) : s.takeInstant k b = s := by
  have h' : ¬(s.auditorium tr.auditorium).lifecycle.advancing = true := by
    rw [show (s.auditorium tr.auditorium).lifecycle = s.lifecycle tr.auditorium from rfl, h]
    decide
  unfold State.takeInstant
  rw [ht]
  exact if_neg h'

theorem takeInstant_caption {c : Cue} (hadv : (s.lifecycle tr.auditorium).advancing = true) (hk : tr.kind = .caption)
    (hc : tr.positionCue b = some c) :
    s.takeInstant k b =
      if b ∈ dueBands (s.auditorium tr.auditorium) tr c.caption.ts c.marks (s.showTime tr.auditorium) true then
        s.releasePendingTo k c.caption.number
          (bandsUpTo b (dueBands (s.auditorium tr.auditorium) tr c.caption.ts c.marks (s.showTime tr.auditorium) true))
      else s := by
  have h' : (s.auditorium tr.auditorium).lifecycle.advancing = true := hadv
  unfold State.takeInstant
  simp only [ht, h', if_true, hk, hc]

theorem takeInstant_description {x : Block} (hadv : (s.lifecycle tr.auditorium).advancing = true)
    (hk : tr.kind = .description) (hx : tr.positionBlock b = some x) :
    s.takeInstant k b =
      if b ∈ dueBands (s.auditorium tr.auditorium) tr x.audio.tp x.marks (s.showTime tr.auditorium) true then
        s.releaseBlockTo k x.audio.seq
          (bandsUpTo b (dueBands (s.auditorium tr.auditorium) tr x.audio.tp x.marks (s.showTime tr.auditorium) true))
      else s := by
  have h' : (s.auditorium tr.auditorium).lifecycle.advancing = true := hadv
  unfold State.takeInstant
  simp only [ht, h', if_true, hk, hx]

theorem takeInstant_noCue (hk : tr.kind = .caption) (hc : tr.positionCue b = none) : s.takeInstant k b = s := by
  unfold State.takeInstant
  simp only [ht, hk, hc]
  exact ite_self _

theorem takeInstant_noBlock (hk : tr.kind = .description) (hx : tr.positionBlock b = none) : s.takeInstant k b = s := by
  unfold State.takeInstant
  simp only [ht, hk, hx]
  exact ite_self _

/-- RELEASE_INSTANT finds nothing to take on a caption track where no position's instant is due. -/
theorem takeInstant_cueAhead (hk : tr.kind = .caption)
    (h : ∀ c, tr.positionCue b = some c →
      b ∉ dueBands (s.auditorium tr.auditorium) tr c.caption.ts c.marks (s.showTime tr.auditorium) true) :
    s.takeInstant k b = s := by
  cases hadv : (s.lifecycle tr.auditorium).advancing with
  | false => exact takeInstant_standing ht hadv
  | true =>
    cases hc : tr.positionCue b with
    | none => exact takeInstant_noCue ht hk hc
    | some c => rw [takeInstant_caption ht hadv hk hc, if_neg (h c hc)]

theorem takeInstant_blockAhead (hk : tr.kind = .description)
    (h : ∀ x, tr.positionBlock b = some x →
      b ∉ dueBands (s.auditorium tr.auditorium) tr x.audio.tp x.marks (s.showTime tr.auditorium) true) :
    s.takeInstant k b = s := by
  cases hadv : (s.lifecycle tr.auditorium).advancing with
  | false => exact takeInstant_standing ht hadv
  | true =>
    cases hx : tr.positionBlock b with
    | none => exact takeInstant_noBlock ht hk hx
    | some x => rw [takeInstant_description ht hadv hk hx, if_neg (h x hx)]

end

/-- A check on the track of an event completes with the auditorium that the track is bound to. -/
theorem completeTrackCheck_bound {s t : State} {k : Nat} {tr : Track} (h : BindingsKept s t) (ht : s.track k = some tr) :
    t.completeTrackCheck k = t.completeCheck tr.auditorium := by
  obtain ⟨y, hy, hb⟩ := h.of_bound ht
  unfold State.completeTrackCheck
  rw [hy, ← hb.auditorium]

theorem exec_releaseInstant {s : State} {k : Nat} {tr : Track} (t : Nat) (b : Band) (ht : s.track k = some tr) :
    exec (.releaseInstant t k b) s = .next (((s.advance t).takeInstant k b).completeCheck tr.auditorium) :=
  congrArg Host.Outcome.next
    (completeTrackCheck_bound (s := s.advance t) (plays_takeInstant (s.advance t) k b).bindings ht)

theorem takeInstant_free {s : State} {k : Nat} (h : s.track k = none) (b : Band) : s.takeInstant k b = s := by
  unfold State.takeInstant
  rw [h]

theorem takePassedCue_eq {s : State} {k n : Nat} {tr : Track} {c : Cue} (ht : s.track k = some tr)
    (hc : tr.pendingCue n = some c) (sh : Nat) (zero : Bool) :
    s.takePassedCue k sh zero n =
      (dueBands (s.auditorium tr.auditorium) tr c.caption.ts c.marks sh zero).foldl
        (fun x b => x.releasePending k n b) s := by
  unfold State.takePassedCue
  simp only [ht, hc]
  rfl

theorem takePassedBlock_eq {s : State} {k n : Nat} {tr : Track} {x : Block} (ht : s.track k = some tr)
    (hx : tr.ringBlock n = some x) (sh : Nat) (zero : Bool) :
    s.takePassedBlock k sh zero n =
      (dueBands (s.auditorium tr.auditorium) tr x.audio.tp x.marks sh zero).foldl
        (fun y b => y.releaseBlock k n b) s := by
  unfold State.takePassedBlock
  simp only [ht, hx]
  rfl

theorem takePassedTrack_caption {s : State} {k : Nat} {tr : Track} (ht : s.track k = some tr) (hk : tr.kind = .caption)
    (sh : Nat) (zero : Bool) :
    s.takePassedTrack k sh zero =
      (tr.pending.map fun c => c.caption.number).foldl (fun x n => x.takePassedCue k sh zero n) s := by
  unfold State.takePassedTrack State.pendingNumbers
  simp only [ht, hk]

theorem takePassedTrack_description {s : State} {k : Nat} {tr : Track} (ht : s.track k = some tr)
    (hk : tr.kind = .description) (sh : Nat) (zero : Bool) :
    s.takePassedTrack k sh zero =
      (tr.ring.map fun x => x.audio.seq).foldl (fun x n => x.takePassedBlock k sh zero n) s := by
  unfold State.takePassedTrack State.ringNumbers
  simp only [ht, hk]

/-- Settles O30: the order of instants, RELEASE_INSTANT, and the passed instants of a record and a track. -/
theorem releaseInstantsAreTakenInOrder : Obligations.ReleaseInstantsAreTakenInOrder := by
  refine ⟨fun au tr time sh marks zero => ⟨mem_dueBands au tr time sh marks zero,
    (releaseOrder_dueBands au tr time sh marks zero).order⟩, ⟨fun s t k b ht => ?_, ?_⟩, ?_⟩
  · refine congrArg Host.Outcome.next ?_
    have ht' : (s.advance t).track k = none := ht
    unfold State.completeTrackCheck
    rw [takeInstant_free ht', ht']
  · rintro s _ t k b tr _ rfl ht rfl
    have ht' : (s.advance t).track k = some tr := ht
    rw [exec_releaseInstant t b ht]
    refine ⟨fun hoff => ?_, fun hadv => ⟨fun c pre post hk hc hdue => ?_, fun x pre post hk hx hdue => ?_⟩, fun hno => ?_⟩
    · have hout : ∀ time marks, b ∉ dueBands (s.auditorium tr.auditorium) tr time marks
          ((s.advance t).showTime tr.auditorium) true := fun time marks hb => by
        rw [((mem_dueBands ..).mp hb).1] at hoff
        cases hoff
      cases hk : tr.kind with
      | caption => rw [takeInstant_cueAhead ht' hk fun c _ => hout _ _]
      | description => rw [takeInstant_blockAhead ht' hk fun x _ => hout _ _]
    · rw [takeInstant_caption ht' hadv hk hc]
      have hdue' : dueBands ((s.advance t).auditorium tr.auditorium) tr c.caption.ts c.marks
          ((s.advance t).showTime tr.auditorium) true = pre ++ b :: post := hdue
      rw [hdue', if_pos (by simp), bandsUpTo_append (notMem_before_due hdue)]
      rfl
    · rw [takeInstant_description ht' hadv hk hx]
      have hdue' : dueBands ((s.advance t).auditorium tr.auditorium) tr x.audio.tp x.marks
          ((s.advance t).showTime tr.auditorium) true = pre ++ b :: post := hdue
      rw [hdue', if_pos (by simp), bandsUpTo_append (notMem_before_due hdue)]
      rfl
    · rcases hno with hadv | ⟨hk, hahead⟩ | ⟨hk, hahead⟩
      · rw [takeInstant_standing ht' hadv]
      · rw [takeInstant_cueAhead ht' hk fun c hc hb => Nat.not_le.mpr (hahead c hc) ((mem_dueBands ..).mp hb).2.2.1]
      · rw [takeInstant_blockAhead ht' hk fun x hx hb => Nat.not_le.mpr (hahead x hx) ((mem_dueBands ..).mp hb).2.2.1]
  · rintro s k sh tr zero _ ht rfl
    exact ⟨fun n c hc => ⟨_, releaseOrder_dueBands .., takePassedCue_eq ht hc sh zero⟩,
      fun n x hx => ⟨_, releaseOrder_dueBands .., takePassedBlock_eq ht hx sh zero⟩,
      fun hk => takePassedTrack_caption ht hk sh zero, fun hk => takePassedTrack_description ht hk sh zero⟩

/-! ### The current cue's end (R78) -/

theorem exec_currentCueRetirement {s : State} {k : Nat} {tr : Track} (t : Nat) (ht : s.track k = some tr) :
    exec (.currentCueRetirement t k) s = .next (((s.advance t).retireCurrent k).completeCheck tr.auditorium) :=
  congrArg Host.Outcome.next
    (completeTrackCheck_bound (s := s.advance t) (plays_retireCurrent (s.advance t) k).bindings ht)

/-- Settles O32: the retirement of a current cue, and where there is none. -/
theorem currentCueRetires : Obligations.CurrentCueRetires := by
  intro s t k tr ht
  have ht' : (s.advance t).track k = some tr := ht
  rw [exec_currentCueRetirement t ht]
  refine ⟨fun c hc hadv hend => ?_, fun hno => ?_⟩
  · refine ⟨_, _, trackBecomes_updateTrack ht' fun tr => { tr with current := none },
      counted_bump _ (.track k .cuesRetired), ?_⟩
    have hended := (currentEnded_iff (s.advance t) k).mpr ⟨tr, c, ht', hc, hadv, hend⟩
    unfold State.retireCurrent
    rw [if_pos hended]
    rfl
  · have hstands : ¬(s.advance t).currentEnded k = true := by
      rw [currentEnded_iff]
      rintro ⟨tr', c, htr', hc, hadv, hend⟩
      cases Option.some.inj (ht'.symm.trans htr')
      rcases hno with h | h | ⟨d, hd, hlt⟩
      · rw [hc] at h
        cases h
      · exact absurd (hadv.symm.trans h) (by decide)
      · cases hc.symm.trans hd
        exact absurd hend (Nat.not_le.mpr hlt)
    unfold State.retireCurrent
    rw [if_neg hstands]

end Sys2Proof.Machine

/-! PROOFS. The arrival of cues: malformed copies, deletions, new cues and amendments (O24, O25, O26). -/

namespace Sys2Proof.Machine

/-! ### Lists of marks and cues -/

/-- A list of bands marked in turn. -/
theorem get_markAll (bs : List Band) (m : PerBand Bool) (d : Band) :
    (bs.foldl (fun m b => m.set b true) m).get d = (m.get d || decide (d ∈ bs)) := by
  induction bs generalizing m with
  | nil => simp
  | cons b bs ih =>
    rw [List.foldl_cons, ih, PerBand.get_set]
    by_cases hd : d = b
    · simp [hd]
    · simp [hd]

/-- A cue put in its place stands behind every cue of equal or earlier start and before a later one (R70, R72). -/
theorem placed_insertCue (c : Cue) (l : List Cue) : Placed c l (insertCue c l) := by
  induction l with
  | nil => exact ⟨[], [], rfl, rfl, by simp, by simp⟩
  | cons d ds ih =>
    unfold insertCue
    split
    · rename_i h
      exact ⟨[], d :: ds, rfl, rfl, by simp, by simpa using h⟩
    · rename_i h
      obtain ⟨l₁, l₂, h₁, h₂, hbefore, hafter⟩ := ih
      refine ⟨d :: l₁, l₂, by rw [h₁, List.cons_append], by rw [h₂, List.cons_append], ?_, hafter⟩
      exact List.forall_mem_cons.mpr ⟨Nat.not_lt.mp h, hbefore⟩

/-! ### The arrival of a cue copy (R71) -/

theorem counted_bumpTrack (s : State) (k : Nat) (c : TrackCounter) : Counted s (s.bumpTrack k c) (.track k c) :=
  counted_bump s _

theorem cueMalformed_iff (b : CueBody) : cueMalformed b = true ↔ MalformedCue b := by
  unfold cueMalformed MalformedCue
  split
  · rename_i h
    simp [h, or_comm]
  · rename_i h
    simp [h]

/-- The track with the source that an accepted copy sets. -/
def State.withSource (s : State) (k : Nat) (src : Option Source) : State :=
  if src.isSome then s.updateTrack k fun tr => { tr with source := src } else s

theorem withSource_becomes {s : State} {k : Nat} {tr : Track} (ht : s.track k = some tr) (src : Option Source) :
    TrackBecomes k (tr.sourced src) s (s.withSource k src) := by
  unfold State.withSource Track.sourced
  cases src with
  | none => exact TrackBecomes.of_bound ht
  | some o => exact trackBecomes_updateTrack ht fun tr => { tr with source := some o }

theorem arriveCue_malformed {b : CueBody} (h : MalformedCue b) (s : State) (k : Nat) (src : Option Source) (test : Bool) :
    s.arriveCue k b src test = s.bumpTrack k .badCue :=
  if_pos ((cueMalformed_iff b).mpr h)

section
variable {s : State} {k : Nat} {b : CueBody} {src : Option Source} {test : Bool} {tr : Track}
  (ht : s.track k = some tr) (hb : ¬MalformedCue b)
include ht hb

theorem arriveCue_deletion (hlen : b.textLen = 0) :
    s.arriveCue k b src test = (s.withSource k src).deleteCue k (tr.sourced src) b.number := by
  have hs := (withSource_becomes ht src).track
  have hb' := (cueMalformed_iff b).not.mpr hb
  unfold State.withSource at hs ⊢
  unfold State.arriveCue
  simp only [hb', hs, hlen, if_true, Bool.false_eq_true, if_false]

theorem arriveCue_amendsPending {c : Cue} (hlen : b.textLen ≠ 0) (hc : tr.pendingCue b.number = some c) :
    s.arriveCue k b src test = (s.withSource k src).amendPending k (tr.sourced src) c b := by
  have hs := (withSource_becomes ht src).track
  have hb' := (cueMalformed_iff b).not.mpr hb
  have hc' : (tr.sourced src).pendingCue b.number = some c := hc
  unfold State.withSource at hs ⊢
  unfold State.arriveCue
  simp only [hb', hs, hlen, hc', Bool.false_eq_true, if_false]

theorem arriveCue_amendsCurrent {c : Cue} (hlen : b.textLen ≠ 0) (hc : tr.pendingCue b.number = none)
    (hcur : tr.currentCue b.number = some c) :
    s.arriveCue k b src test = (s.withSource k src).amendCurrent k (tr.sourced src) c b := by
  have hs := (withSource_becomes ht src).track
  have hb' := (cueMalformed_iff b).not.mpr hb
  have hc' : (tr.sourced src).pendingCue b.number = none := hc
  have hcur' : (tr.sourced src).currentCue b.number = some c := hcur
  unfold State.withSource at hs ⊢
  unfold State.arriveCue
  simp only [hb', hs, hlen, hc', hcur', Bool.false_eq_true, if_false]

theorem arriveCue_new (hlen : b.textLen ≠ 0) (hc : tr.pendingCue b.number = none)
    (hcur : tr.currentCue b.number = none) :
    s.arriveCue k b src test = (s.withSource k src).arriveNewCue k (tr.sourced src) b test := by
  have hs := (withSource_becomes ht src).track
  have hb' := (cueMalformed_iff b).not.mpr hb
  have hc' : (tr.sourced src).pendingCue b.number = none := hc
  have hcur' : (tr.sourced src).currentCue b.number = none := hcur
  unfold State.withSource at hs ⊢
  unfold State.arriveCue
  simp only [hb', hs, hlen, hc', hcur', Bool.false_eq_true, if_false]

end

theorem currentCue_eq_some {tr : Track} {n : Nat} {c : Cue} :
    tr.currentCue n = some c ↔ tr.current = some c ∧ c.caption.number = n := by
  unfold Track.currentCue
  rw [Option.filter_eq_some_iff]
  simp

theorem currentCue_eq_none {tr : Track} {n : Nat} :
    tr.currentCue n = none ↔ ∀ c, tr.current = some c → c.caption.number ≠ n := by
  unfold Track.currentCue
  rw [Option.filter_eq_none_iff]
  simp

theorem TrackBecomes.hears {s t : State} {k j : Nat} {x : Track} (h : TrackBecomes k x s t) (tr : Track) (b : Band) :
    t.hears j tr b ↔ s.hears j tr b := by
  unfold State.hears
  rw [h.auditorium, h.memberCount]

theorem Counted.hears {s t : State} {c : Counter} (h : Counted s t c) (k : Nat) (tr : Track) (b : Band) :
    t.hears k tr b ↔ s.hears k tr b := by
  rw [h.frame]
  exact Iff.rfl

/-! ### Deletions (R77) -/

theorem deleteCue_pending {s : State} {k n : Nat} {tr : Track} {c : Cue} (hc : tr.pendingCue n = some c) :
    s.deleteCue k tr n = (((s.removePending k n).bumpTrack k .deletions).withdrawCue k tr n
      (s.markedPopulated k tr c.marks)).paceDown k := by
  unfold State.deleteCue
  rw [hc]

theorem deleteCue_current {s : State} {k n : Nat} {tr : Track} {c : Cue} (hp : tr.pendingCue n = none)
    (hc : tr.currentCue n = some c) :
    s.deleteCue k tr n = ((s.updateTrack k fun tr => { tr with current := none }).bumpTrack k .deletions).withdrawCue k
      tr n (s.populatedBands k tr) := by
  unfold State.deleteCue
  simp only [hp, hc]

theorem deleteCue_miss {s : State} {k n : Nat} {tr : Track} (hp : tr.pendingCue n = none)
    (hc : tr.currentCue n = none) : s.deleteCue k tr n = s.bumpTrack k .deleteMiss := by
  unfold State.deleteCue
  simp only [hp, hc]

/-- Settles O24: malformed copies and deletions. -/
theorem deletionWithdrawsCue : Obligations.DeletionWithdrawsCue := by
  refine ⟨fun s k b src test => ⟨fun h => ?_, withinTrack_of (plays_arriveCue ..) (stays_arriveCue ..)⟩, ?_⟩
  · rw [arriveCue_malformed h]
    exact counted_bump s _
  rintro s k b src test tr _ ht rfl hb hlen
  have hsrc := withSource_becomes ht src
  rw [arriveCue_deletion ht hb hlen]
  refine ⟨fun c hc => ?_, fun hp => ⟨fun c hc hnum => ?_, fun hno => ?_⟩⟩
  · refine ⟨_, _, _, hsrc.trans (removePending_becomes hsrc.track b.number), counted_bump _ (.track k .deletions),
      sorted_markedPopulated .., fun d => ?_, deleteCue_pending (tr := tr.sourced src) hc⟩
    rw [mem_markedPopulated, hsrc.hears]
    exact Iff.rfl
  · refine ⟨_, _, _, hsrc.trans (trackBecomes_updateTrack hsrc.track fun tr => { tr with current := none }),
      counted_bump _ (.track k .deletions), sorted_populatedBands .., fun d => ?_,
      deleteCue_current (tr := tr.sourced src) hp (currentCue_eq_some.mpr ⟨hc, hnum⟩)⟩
    rw [mem_populatedBands, hsrc.hears]
    exact Iff.rfl
  · refine ⟨_, hsrc, ?_⟩
    rw [deleteCue_miss (tr := tr.sourced src) hp (currentCue_eq_none.mpr hno)]
    exact counted_bump _ _

/-! ### New cues (R72, R73, R105) -/

theorem cueLate_iff (au : Auditorium) (tr : Track) (c : Caption) (sh : Nat) :
    cueLate au tr c sh = true ↔ c.ts - tr.lead ≤ sh := by
  unfold cueLate releaseInstant
  rw [decide_eq_true_eq]
  exact Iff.rfl

theorem cueWorthShowing_iff (au : Auditorium) (c : Caption) (sh : Nat) :
    cueWorthShowing au c sh = true ↔ sh + au.params.minDisplay * 1000 < c.te := by
  unfold cueWorthShowing Auditorium.minDisplay
  rw [decide_eq_true_eq]

/-- A cue that show time, advancing, finds late. -/
theorem lateNow_iff (s : State) (tr : Track) (c : Caption) :
    ((s.auditorium tr.auditorium).lifecycle.advancing &&
      cueLate (s.auditorium tr.auditorium) tr c (s.showTime tr.auditorium)) = true ↔ s.lateFor tr c.ts := by
  rw [Bool.and_eq_true, cueLate_iff]
  exact Iff.rfl

theorem placeCue_becomes {s : State} {k : Nat} {tr : Track} (ht : s.track k = some tr) (c : Cue) :
    TrackBecomes k { tr with pending := insertCue c tr.pending } s (s.placeCue k c) :=
  trackBecomes_updateTrack ht fun tr => { tr with pending := insertCue c tr.pending }

section
variable {s : State} {k : Nat} {tr : Track} {b : CueBody} {test : Bool}

theorem arriveNewCue_expired (hlate : s.lateFor tr b.ts)
    (hend : b.te ≤ s.showTime tr.auditorium + (s.auditorium tr.auditorium).params.minDisplay * 1000) :
    s.arriveNewCue k tr b test = s.bumpTrack k .expired := by
  have hl := (lateNow_iff s tr (newCaption b test)).mpr hlate
  have hw : ¬cueWorthShowing (s.auditorium tr.auditorium) (newCaption b test) (s.showTime tr.auditorium) = true := by
    rw [cueWorthShowing_iff]
    exact Nat.not_lt.mpr hend
  unfold State.arriveNewCue
  simp only [hl, hw, if_true, Bool.false_eq_true, if_false]

theorem arriveNewCue_late (hlate : s.lateFor tr b.ts)
    (hend : s.showTime tr.auditorium + (s.auditorium tr.auditorium).params.minDisplay * 1000 < b.te) :
    s.arriveNewCue k tr b test =
      (((releaseOrder (releaseInstant (s.auditorium tr.auditorium) tr b.ts)
          (openBands (s.auditorium tr.auditorium) (PerBand.all false))).foldl
        (fun s d => s.releaseCaption k tr { newCaption b test with late := true } d) s).becomeCurrent k
          ⟨{ newCaption b test with late := true },
            (releaseOrder (releaseInstant (s.auditorium tr.auditorium) tr b.ts)
              (openBands (s.auditorium tr.auditorium) (PerBand.all false))).foldl (fun m d => m.set d true)
                (PerBand.all false)⟩).bumpTrack k .lateReleases := by
  have hl := (lateNow_iff s tr (newCaption b test)).mpr hlate
  have hw : cueWorthShowing (s.auditorium tr.auditorium) (newCaption b test) (s.showTime tr.auditorium) = true :=
    (cueWorthShowing_iff ..).mpr hend
  unfold State.arriveNewCue
  simp only [hl, hw, if_true]
  rfl

theorem arriveNewCue_ahead (hlate : ¬s.lateFor tr b.ts) :
    s.arriveNewCue k tr b test =
      s.placeNewCue k tr ⟨newCaption b test, PerBand.all false⟩ (s.showTime tr.auditorium) := by
  have hl := (lateNow_iff s tr (newCaption b test)).not.mpr hlate
  unfold State.arriveNewCue
  simp only [hl, Bool.false_eq_true, if_false]

end

/-- The passed instants of a cue placed are taken while show time advances, as it stood before the work. -/
theorem takePassedOnArrival_of {s t : State} (h : SameShows s t) (k a sh n : Nat) :
    t.takePassedOnArrival k a sh n =
      if (s.lifecycle a).advancing = true then t.takePassedCue k sh false n else t := by
  unfold State.takePassedOnArrival State.lifecycle
  rw [h.auditorium]

theorem placeNewCue_room {s : State} {tr : Track} (h : tr.pending.length < tr.depth) (k : Nat) (c : Cue) (sh : Nat) :
    s.placeNewCue k tr c sh = (((s.placeCue k c).bumpTrack k .cuesAccepted).paceUp k).takePassedOnArrival k
      tr.auditorium sh c.caption.number :=
  if_pos h

theorem placeNewCue_dropped {s : State} {tr : Track} {p c : Cue} (h : tr.depth ≤ tr.pending.length)
    (hp : tr.pending.getLast? = some p) (hle : p.caption.ts ≤ c.caption.ts) (k sh : Nat) :
    s.placeNewCue k tr c sh = (s.setFlag .overflow k).bumpTrack k .overflowDrops := by
  unfold State.placeNewCue
  rw [if_neg (Nat.not_lt.mpr h), hp]
  exact if_pos hle

theorem placeNewCue_exchanged {s : State} {tr : Track} {p c : Cue} (h : tr.depth ≤ tr.pending.length)
    (hp : tr.pending.getLast? = some p) (hlt : c.caption.ts < p.caption.ts) (k sh : Nat) :
    s.placeNewCue k tr c sh =
      ((((((s.setFlag .overflow k).bumpTrack k .overflowDrops).removePending k p.caption.number).withdrawCue k tr
        p.caption.number (((s.setFlag .overflow k).bumpTrack k .overflowDrops).markedPopulated k tr p.marks)).placeCue k
          c).bumpTrack k .cuesAccepted).takePassedOnArrival k tr.auditorium sh c.caption.number := by
  unfold State.placeNewCue
  rw [if_neg (Nat.not_lt.mpr h), hp]
  exact if_neg (Nat.not_le.mpr hlt)

/-- Captions released to several bands in turn leave the tracks. -/
theorem sends_releaseCaptions (s : State) (k : Nat) (tr : Track) (c : Caption) (bs : List Band) :
    Sends s (bs.foldl (fun z d => z.releaseCaption k tr c d) s) :=
  Sends.foldl (fun s d => sends_releaseCaption s k tr c d) bs s

theorem Flagged.hears {f : Flag} {s t : State} (h : Flagged f s t) (k : Nat) (tr : Track) (b : Band) :
    t.hears k tr b ↔ s.hears k tr b := by
  rw [h.frame]
  exact Iff.rfl

theorem TrackBecomes.shows {s t : State} {k : Nat} {x : Track} (h : TrackBecomes k x s t) : SameShows s t := by
  rw [h.frame]
  exact ⟨rfl, rfl, rfl, rfl⟩

theorem Counted.shows {s t : State} {c : Counter} (h : Counted s t c) : SameShows s t := by
  rw [h.frame]
  exact ⟨rfl, rfl, rfl, rfl⟩

/-- A CAPTION WITHDRAW goes to the bands that `p` names, in increasing band number. -/
theorem sentEach_withdrawCue {s : State} {k n : Nat} {tr : Track} {bs : List Band} {p : Band → Prop}
    (hsorted : bs.Pairwise (· < ·)) (hmem : ∀ b, b ∈ bs ↔ p b) :
    SentEach k tr p .caption (.captionWithdraw k n) none s (s.withdrawCue k tr n bs) :=
  ⟨bs, hsorted, hmem, rfl⟩

/-- Settles O25: a new cue late, placed, dropped or exchanged. -/
theorem newCueTakesItsPlace : Obligations.NewCueTakesItsPlace := by
  rintro s k b src test tr _ _ _ _ ht rfl hb hlen hp hcur rfl rfl rfl
  have hsrc := withSource_becomes ht src
  have harrive := arriveCue_new (test := test) (src := src) ht hb hlen hp (currentCue_eq_none.mpr hcur)
  have hsame : (s.withSource k src).lateFor (tr.sourced src) b.ts ↔ s.lateFor tr b.ts := by
    unfold State.lateFor
    rw [hsrc.lifecycle, hsrc.showTime]
    exact Iff.rfl
  have haud : (s.withSource k src).auditorium (tr.sourced src).auditorium = s.auditorium tr.auditorium :=
    hsrc.auditorium _
  have hshow : (s.withSource k src).showTime (tr.sourced src).auditorium = s.showTime tr.auditorium := hsrc.showTime _
  have hhears : ∀ d, (s.withSource k src).hears k (tr.sourced src) d ↔ s.hears k tr d := fun d => hsrc.hears ..
  rw [harrive]
  refine ⟨fun hlate => ⟨fun hend => ⟨_, hsrc, ?_⟩, fun hend => ?_⟩, fun hlate => ⟨fun hroom => ?_, fun p hfull hlast => ?_⟩⟩
  · rw [arriveNewCue_expired (hsame.mpr hlate) (by rw [hshow, haud]; exact hend)]
    exact counted_bump _ _
  · have hnew := arriveNewCue_late (k := k) (test := test) (hsame.mpr hlate) (by rw [hshow, haud]; exact hend)
    rw [haud] at hnew
    have hsends := sends_releaseCaptions (s.withSource k src) k (tr.sourced src) { newCaption b test with late := true }
      (releaseOrder (releaseInstant (s.auditorium tr.auditorium) (tr.sourced src) b.ts)
        (openBands (s.auditorium tr.auditorium) (PerBand.all false)))
    obtain ⟨x, hx, hnone, hsome⟩ := becomeCurrent_spec ((hsends.track k).trans hsrc.track)
      ⟨{ newCaption b test with late := true }, (releaseOrder (releaseInstant (s.auditorium tr.auditorium)
        (tr.sourced src) b.ts) (openBands (s.auditorium tr.auditorium) (PerBand.all false))).foldl
          (fun m d => m.set d true) (PerBand.all false)⟩
    have horder := releaseOrder_openBands (s.auditorium tr.auditorium) tr b.ts (PerBand.all false)
    refine ⟨_, _, x, _, _, _, _, rfl, hsrc, ⟨fun d => ?_, horder.order⟩, rfl, fun d => ?_, hx, hnone, hsome, ?_⟩
    · rw [horder.names, PerBand.get_all]
      simp
    · rw [get_markAll, PerBand.get_all, Bool.false_or, Bool.eq_iff_iff, decide_eq_true_eq]
      refine (horder.names d).trans ?_
      rw [PerBand.get_all]
      simp
    · rw [hnew]
      exact counted_bump _ _
  · have hplace := placeCue_becomes hsrc.track ⟨newCaption b test, PerBand.all false⟩
    refine ⟨_, _, _, placed_insertCue _ tr.pending, hsrc.trans hplace, counted_bump _ (.track k .cuesAccepted), ?_⟩
    rw [arriveNewCue_ahead (hsame.not.mpr hlate), placeNewCue_room (tr := tr.sourced src) hroom, hshow]
    exact takePassedOnArrival_of ((hsrc.trans hplace).shows.trans ((counted_bump _ _).shows.trans
      (plays_paceUp ..).shows)) ..
  · have hahead := arriveNewCue_ahead (k := k) (test := test) (hsame.not.mpr hlate)
    have hflag := flagged_setFlag (s.withSource k src) .overflow k
    have hdrop := counted_bumpTrack ((s.withSource k src).setFlag .overflow k) k .overflowDrops
    refine ⟨_, _, _, hsrc, hflag, hdrop, fun hle => ?_, fun hlt => ?_⟩
    · rw [hahead]
      exact placeNewCue_dropped (tr := tr.sourced src) hfull hlast hle k _
    · rw [hahead, placeNewCue_exchanged (tr := tr.sourced src) hfull hlast hlt k, hshow]
      have htrack := (hdrop.track k).trans (((sends_setFlag ..).track k).trans hsrc.track)
      have hmarked : ∀ d, d ∈ (((s.withSource k src).setFlag .overflow k).bumpTrack k .overflowDrops).markedPopulated k
          (tr.sourced src) p.marks ↔ s.hears k tr d ∧ p.marks.get d = true := fun d => by
        rw [mem_markedPopulated, hdrop.hears, hflag.hears, hhears]
      have hshows := hsrc.shows.trans ((sends_setFlag (s.withSource k src) .overflow k).shows.trans hdrop.shows)
      generalize ((s.withSource k src).setFlag .overflow k).bumpTrack k .overflowDrops = x at *
      have hremove := removePending_becomes htrack p.caption.number
      have hsends := sends_withdrawCue (x.removePending k p.caption.number) k (tr.sourced src) p.caption.number
        (x.markedPopulated k (tr.sourced src) p.marks)
      have hplace := placeCue_becomes ((hsends.track k).trans hremove.track) ⟨newCaption b test, PerBand.all false⟩
      refine ⟨_, _, _, _, _, hremove, sentEach_withdrawCue (sorted_markedPopulated ..) hmarked,
        placed_insertCue _ (tr.withoutCue p.caption.number).pending, hplace, counted_bump _ (.track k .cuesAccepted), ?_⟩
      exact takePassedOnArrival_of (hshows.trans (hremove.shows.trans (hsends.shows.trans (hplace.shows.trans
        (counted_bump _ _).shows)))) ..

/-! ### Amendments (R74 to R76) -/

/-- A track counter moved before or after a track's record is all one. -/
theorem updateTrack_bumpTrack (s : State) (k j : Nat) (c : TrackCounter) (f : Track → Track) :
    (s.bumpTrack k c).updateTrack j f = (s.updateTrack j f).bumpTrack k c := by
  have ht : (s.bumpTrack k c).track j = s.track j := rfl
  unfold State.updateTrack
  rw [ht]
  cases s.track j <;> rfl

/-- A CAPTION REPLACE goes to the bands that `p` names, in increasing band number. -/
theorem captionedEach_replaceCue {s : State} {k : Nat} {tr : Track} {c : Caption} {bs : List Band} {p : Band → Prop}
    (hsorted : bs.Pairwise (· < ·)) (hmem : ∀ b, b ∈ bs ↔ p b) :
    CaptionedEach k tr p (.captionReplace k c) (some c.te) s (s.replaceCue k tr c bs) :=
  ⟨bs, hsorted, hmem, rfl⟩

/-- The cue that an amendment leaves. -/
def Cue.amendedBy (old : Cue) (b : CueBody) : Cue := { old with caption := amendCaption old.caption b }

section
variable {s : State} {k : Nat} {tr : Track} {old : Cue} {b : CueBody}

theorem amendPending_ahead (h : ¬s.lateFor tr b.ts) :
    s.amendPending k tr old b =
      ((((s.removePending k b.number).placeCue k (old.amendedBy b)).bumpTrack k .amendments).replaceCue k tr
        (old.amendedBy b).caption (s.markedPopulated k tr old.marks)).takePassedOnArrival k tr.auditorium
          (s.showTime tr.auditorium) b.number := by
  have hl := (lateNow_iff s tr (amendCaption old.caption b)).not.mpr h
  unfold State.amendPending
  simp only [hl, Bool.false_eq_true, if_false]
  unfold State.removePending State.placeCue
  rw [updateTrack_bumpTrack, updateTrack_bumpTrack]
  rfl

theorem amendPending_late (h : s.lateFor tr b.ts)
    (hend : s.showTime tr.auditorium + (s.auditorium tr.auditorium).params.minDisplay * 1000 < b.te) :
    s.amendPending k tr old b =
      (((s.editPending k b.number fun _ => old.amendedBy b).bumpTrack k .amendments).replaceCue k tr
        (old.amendedBy b).caption (s.markedPopulated k tr old.marks)).evaluateCue k (s.showTime tr.auditorium)
          b.number := by
  have hl := (lateNow_iff s tr (amendCaption old.caption b)).mpr h
  have hw : cueWorthShowing (s.auditorium tr.auditorium) (amendCaption old.caption b) (s.showTime tr.auditorium) = true :=
    (cueWorthShowing_iff ..).mpr hend
  unfold State.amendPending
  simp only [hl, hw, if_true]
  unfold State.editPending
  rw [updateTrack_bumpTrack]
  rfl

theorem amendPending_expired (h : s.lateFor tr b.ts)
    (hend : b.te ≤ s.showTime tr.auditorium + (s.auditorium tr.auditorium).params.minDisplay * 1000) :
    s.amendPending k tr old b =
      ((((s.removePending k b.number).bumpTrack k .amendments).bumpTrack k .expired).withdrawCue k tr b.number
        (s.markedPopulated k tr old.marks)).paceDown k := by
  have hl := (lateNow_iff s tr (amendCaption old.caption b)).mpr h
  have hw : ¬cueWorthShowing (s.auditorium tr.auditorium) (amendCaption old.caption b) (s.showTime tr.auditorium) =
      true := by
    rw [cueWorthShowing_iff]
    exact Nat.not_lt.mpr hend
  unfold State.amendPending
  simp only [hl, hw, if_true, Bool.false_eq_true, if_false]
  unfold State.removePending
  rw [updateTrack_bumpTrack]
  rfl

theorem amendCurrent_ahead (h : s.showTime tr.auditorium < b.te) :
    s.amendCurrent k tr old b =
      ((s.updateTrack k fun tr => { tr with current := some (old.amendedBy b) }).bumpTrack k .amendments).replaceCue k
        tr (old.amendedBy b).caption (s.populatedBands k tr) := by
  have h' : (s.bumpTrack k .amendments).showTime tr.auditorium < b.te := h
  unfold State.amendCurrent
  simp only [h', if_true]
  rw [updateTrack_bumpTrack]
  rfl

theorem amendCurrent_past (h : b.te ≤ s.showTime tr.auditorium) :
    s.amendCurrent k tr old b =
      ((s.updateTrack k fun tr => { tr with current := none }).bumpTrack k .amendments).withdrawCue k tr b.number
        (s.populatedBands k tr) := by
  have h' : ¬(s.bumpTrack k .amendments).showTime tr.auditorium < b.te := Nat.not_lt.mpr h
  unfold State.amendCurrent
  simp only [h', if_false]
  rw [updateTrack_bumpTrack]
  rfl

end

/-- Settles O26: the amendment of a pending cue, ahead, late or past, and of the current cue. -/
theorem amendmentReplacesCue : Obligations.AmendmentReplacesCue := by
  rintro s k b src test tr _ old _ _ _ _ ht rfl hb hlen rfl rfl rfl rfl
  have hsrc := withSource_becomes ht src
  have hsame : (s.withSource k src).lateFor (tr.sourced src) b.ts ↔ s.lateFor tr b.ts := by
    unfold State.lateFor
    rw [hsrc.lifecycle, hsrc.showTime]
    exact Iff.rfl
  have haud : (s.withSource k src).auditorium (tr.sourced src).auditorium = s.auditorium tr.auditorium :=
    hsrc.auditorium _
  have hshow : (s.withSource k src).showTime (tr.sourced src).auditorium = s.showTime tr.auditorium := hsrc.showTime _
  have hmarked : ∀ d, d ∈ (s.withSource k src).markedPopulated k (tr.sourced src) old.marks ↔
      s.hears k tr d ∧ old.marks.get d = true := fun d => by
    rw [mem_markedPopulated, hsrc.hears]
    exact Iff.rfl
  have hpopulated : ∀ d, d ∈ (s.withSource k src).populatedBands k (tr.sourced src) ↔ s.hears k tr d := fun d => by
    rw [mem_populatedBands, hsrc.hears]
    exact Iff.rfl
  have hremove := removePending_becomes hsrc.track b.number
  refine ⟨fun hp => ?_, fun hp hcur hnum => ?_⟩
  · rw [arriveCue_amendsPending ht hb hlen hp]
    refine ⟨fun hlate => ?_, fun hlate hend => ?_, fun hlate hend => ?_⟩
    · rw [amendPending_ahead (hsame.not.mpr hlate), hshow]
      have hplace := placeCue_becomes hremove.track (old.amendedBy b)
      have hbump := counted_bumpTrack (((s.withSource k src).removePending k b.number).placeCue k (old.amendedBy b)) k
        .amendments
      refine ⟨_, _, _, _, placed_insertCue _ (tr.withoutCue b.number).pending, hsrc.trans (hremove.trans hplace), hbump,
        captionedEach_replaceCue (sorted_markedPopulated ..) hmarked, ?_⟩
      exact takePassedOnArrival_of ((hsrc.trans (hremove.trans hplace)).shows.trans (hbump.shows.trans
        (sends_replaceCue ..).shows)) ..
    · rw [amendPending_late (hsame.mpr hlate) (by rw [hshow, haud]; exact hend), hshow]
      exact ⟨_, _, _, hsrc.trans (editPending_becomes hsrc.track b.number fun _ => old.amendedBy b),
        counted_bumpTrack _ k .amendments, captionedEach_replaceCue (sorted_markedPopulated ..) hmarked, rfl⟩
    · rw [amendPending_expired (hsame.mpr hlate) (by rw [hshow, haud]; exact hend)]
      exact ⟨_, _, _, _, hsrc.trans hremove, counted_bumpTrack _ k .amendments, counted_bumpTrack _ k .expired,
        sentEach_withdrawCue (sorted_markedPopulated ..) hmarked, rfl⟩
  · rw [arriveCue_amendsCurrent ht hb hlen hp (currentCue_eq_some.mpr ⟨hcur, hnum⟩)]
    by_cases hend : s.showTime tr.auditorium < b.te
    · rw [amendCurrent_ahead (by rw [hshow]; exact hend)]
      exact ⟨_, _, counted_bumpTrack _ k .amendments, fun _ => ⟨hsrc.trans (trackBecomes_updateTrack hsrc.track
        fun tr => { tr with current := some (old.amendedBy b) }),
        captionedEach_replaceCue (sorted_populatedBands ..) hpopulated⟩, fun h => absurd hend (Nat.not_lt.mpr h)⟩
    · rw [amendCurrent_past (by rw [hshow]; exact Nat.not_lt.mp hend)]
      exact ⟨_, _, counted_bumpTrack _ k .amendments, fun h => absurd h hend, fun _ => ⟨hsrc.trans
        (trackBecomes_updateTrack hsrc.track fun tr => { tr with current := none }),
        sentEach_withdrawCue (sorted_populatedBands ..) hpopulated⟩⟩

end Sys2Proof.Machine

/-! PROOFS. The arrival of blocks (O28, O29). -/

namespace Sys2Proof.Machine

/-! ### The arrival of a block (R87 to R90) -/

theorem blockMalformed_iff (b : BlockBody) : blockMalformed b = true ↔ MalformedBlock b := by
  unfold blockMalformed MalformedBlock
  rw [decide_eq_true_eq]
  simp only [ne_comm]

theorem arriveBlock_malformed {b : BlockBody} (h : MalformedBlock b) (s : State) (k : Nat) (src : Option Source)
    (test : Bool) : s.arriveBlock k b src test = s.bumpTrack k .badBlock :=
  if_pos ((blockMalformed_iff b).mpr h)

theorem gapBefore_none {last : LastBlock} {b : BlockBody} (h : b.seq = last.seq + 1) : gapBefore last b = none := by
  unfold gapBefore
  rw [if_neg (by omega)]

theorem gapBefore_some {last : LastBlock} {b : BlockBody} (h : last.seq + 1 < b.seq) :
    gapBefore last b = some ⟨min 255 (b.seq - last.seq - 1), b.tp - (last.tp + last.duration)⟩ := by
  unfold gapBefore
  rw [if_pos (by omega)]

section
variable {s : State} {k : Nat} {b : BlockBody} {src : Option Source} {test : Bool} {tr : Track}
  (ht : s.track k = some tr) (hb : ¬MalformedBlock b)
include ht hb

theorem arriveBlock_first (hlast : tr.lastBlock = none) :
    s.arriveBlock k b src test = ((s.withSource k src).supersede k (tr.sourced src) b).acceptBlock k b none test := by
  have hs := (withSource_becomes ht src).track
  have hb' := (blockMalformed_iff b).not.mpr hb
  have hlast' : (tr.sourced src).lastBlock = none := hlast
  unfold State.withSource at hs ⊢
  unfold State.arriveBlock
  simp only [hb', hs, hlast', Bool.false_eq_true, if_false]

variable {last : LastBlock} (hlast : tr.lastBlock = some last)
include hlast

theorem arriveBlock_reordered (h : b.seq ≤ last.seq) :
    s.arriveBlock k b src test = (s.withSource k src).bumpTrack k .reordered := by
  have hs := (withSource_becomes ht src).track
  have hb' := (blockMalformed_iff b).not.mpr hb
  have hlast' : (tr.sourced src).lastBlock = some last := hlast
  unfold State.withSource at hs ⊢
  unfold State.arriveBlock
  simp only [hb', hs, hlast', h, if_true, Bool.false_eq_true, if_false]

theorem arriveBlock_outOfOrder (h : last.seq < b.seq) (htp : b.tp < last.tp) :
    s.arriveBlock k b src test = (s.withSource k src).bumpTrack k .outOfOrder := by
  have hs := (withSource_becomes ht src).track
  have hb' := (blockMalformed_iff b).not.mpr hb
  have hlast' : (tr.sourced src).lastBlock = some last := hlast
  unfold State.withSource at hs ⊢
  unfold State.arriveBlock
  simp only [hb', hs, hlast', Nat.not_le.mpr h, htp, if_true, Bool.false_eq_true, if_false]

theorem arriveBlock_next (h : b.seq = last.seq + 1) (htp : last.tp ≤ b.tp) :
    s.arriveBlock k b src test = (s.withSource k src).acceptBlock k b none test := by
  have hs := (withSource_becomes ht src).track
  have hb' := (blockMalformed_iff b).not.mpr hb
  have hlast' : (tr.sourced src).lastBlock = some last := hlast
  have hseq : ¬b.seq ≤ last.seq := by omega
  unfold State.withSource at hs ⊢
  unfold State.arriveBlock
  simp only [hb', hs, hlast', hseq, Nat.not_lt.mpr htp, gapBefore_none h, Bool.false_eq_true, if_false]

theorem arriveBlock_gap (h : last.seq + 1 < b.seq) (htp : last.tp ≤ b.tp) :
    s.arriveBlock k b src test = ((s.withSource k src).bumpTrack k .gapsMarked).acceptBlock k b
      (some ⟨min 255 (b.seq - last.seq - 1), b.tp - (last.tp + last.duration)⟩) test := by
  have hs := (withSource_becomes ht src).track
  have hb' := (blockMalformed_iff b).not.mpr hb
  have hlast' : (tr.sourced src).lastBlock = some last := hlast
  have hseq : ¬b.seq ≤ last.seq := by omega
  unfold State.withSource at hs ⊢
  unfold State.arriveBlock
  simp only [hb', hs, hlast', hseq, Nat.not_lt.mpr htp, gapBefore_some h, Bool.false_eq_true, if_false]

end

theorem superseded_iff (b : BlockBody) (x : Block) : superseded b x = true ↔ b.seq ≤ x.audio.seq ∨ b.tp < x.audio.tp := by
  unfold superseded
  rw [decide_eq_true_eq]

theorem not_superseded {b : BlockBody} {x : Block} (h : x.audio.seq < b.seq ∧ x.audio.tp ≤ b.tp) :
    superseded b x = false := by
  rw [← Bool.not_eq_true, superseded_iff]
  omega

theorem supersede_none {s : State} {tr : Track} {b : BlockBody}
    (h : ∀ x ∈ tr.ring, x.audio.seq < b.seq ∧ x.audio.tp ≤ b.tp) (k : Nat) : s.supersede k tr b = s := by
  have hgone : tr.ring.filter (superseded b) = [] :=
    List.filter_eq_nil_iff.mpr fun x hx => by rw [not_superseded (h x hx)]; decide
  unfold State.supersede
  simp only [hgone, List.length_nil, if_true]

/-- Supersession of the blocks behind those that stay: they leave the ring, counted, and pacing is evaluated. -/
theorem supersede_some {s : State} {k : Nat} {tr : Track} {b : BlockBody} {kept gone : List Block}
    (ht : s.track k = some tr) (hring : tr.ring = kept ++ gone) (hne : gone ≠ [])
    (hkept : ∀ x ∈ kept, x.audio.seq < b.seq ∧ x.audio.tp ≤ b.tp)
    (hgone : ∀ x ∈ gone, b.seq ≤ x.audio.seq ∨ b.tp < x.audio.tp) :
    ∃ v, TrackBecomes k { tr with ring := kept } s v ∧
      s.supersede k tr b = (v.bumpBy (.track k .superseded) gone.length).paceDown k := by
  have hout : tr.ring.filter (superseded b) = gone := by
    rw [hring, List.filter_append, List.filter_eq_nil_iff.mpr fun x hx => by rw [not_superseded (hkept x hx)]; decide,
      List.filter_eq_self.mpr fun x hx => (superseded_iff b x).mpr (hgone x hx), List.nil_append]
  have hstay : (tr.ring.filter fun x => !superseded b x) = kept := by
    rw [hring, List.filter_append, List.filter_eq_self.mpr fun x hx => by rw [not_superseded (hkept x hx)]; rfl,
      List.filter_eq_nil_iff.mpr fun x hx => by rw [(superseded_iff b x).mpr (hgone x hx)]; decide, List.append_nil]
  have hlen : ¬gone.length = 0 := by simpa using hne
  have hbecomes := trackBecomes_updateTrack ht fun tr => { tr with ring := tr.ring.filter fun x => !superseded b x }
  rw [hstay] at hbecomes
  refine ⟨_, hbecomes, ?_⟩
  unfold State.supersede
  simp only [hout, hlen, if_false]

/-- Settles O28: form, sequence and Tp, and supersession. -/
theorem blockOrderIsChecked : Obligations.BlockOrderIsChecked := by
  rintro s k b src test tr _ ht rfl
  have hsrc := withSource_becomes ht src
  refine ⟨withinTrack_of (plays_arriveBlock ..) (stays_arriveBlock ..), fun hbad => ?_, fun hb => ⟨_, hsrc,
    fun last hlast => ⟨fun hseq => ?_, fun hseq htp => ?_, fun hseq htp => arriveBlock_next ht hb hlast hseq htp,
      fun hseq htp => ⟨_, counted_bumpTrack _ k .gapsMarked, arriveBlock_gap ht hb hlast hseq htp⟩⟩,
    fun hlast => ⟨fun hall => ?_, fun kept gone hring hne hkept hgone => ?_⟩⟩⟩
  · rw [arriveBlock_malformed hbad]
    exact counted_bumpTrack ..
  · rw [arriveBlock_reordered ht hb hlast hseq]
    exact counted_bumpTrack ..
  · rw [arriveBlock_outOfOrder ht hb hlast hseq htp]
    exact counted_bumpTrack ..
  · rw [arriveBlock_first ht hb hlast, supersede_none (tr := tr.sourced src) hall]
  · obtain ⟨v, hv, heq⟩ := supersede_some hsrc.track (tr := tr.sourced src) hring hne hkept hgone
    have hfull := hsrc.trans hv
    have hcount := countedBy_bumpBy v (.track k .superseded) gone.length
    refine ⟨v.bumpBy (.track k .superseded) gone.length, hfull.track, hfull.others, ?_, fun c hc => (hcount.others c hc).trans (hfull.count c), ?_, ?_⟩
    · rw [hcount.counted, hfull.count]
    · rw [hfull.frame]
      rfl
    · rw [arriveBlock_first ht hb hlast, heq]

/-! ### The acceptance of a block (R91 to R93) -/

/-- A block released to several bands in turn: each band that hears it has had its frames. -/
theorem made_releaseAudios {bs : List Band} (h : bs.Nodup) (s : State) (k : Nat) (tr : Track) (x : Block) :
    Made k (fun d => if d ∈ bs ∧ s.memberCount k d ≠ 0 then x.frames else 0) [.releases] s
      (bs.foldl (fun y d => y.releaseAudio k tr x d) s) := by
  induction bs generalizing s with
  | nil => exact Made.refl.congr fun d => by simp
  | cons b bs ih =>
    obtain ⟨hb, hbs⟩ := List.nodup_cons.mp h
    have hfirst := made_releaseAudio s k tr x b
    refine (hfirst.trans (ih hbs _)).congr fun d => ?_
    rw [hfirst.sends.patrons.memberCount]
    unfold audioFrames
    by_cases hd : d = b
    · subst hd
      by_cases hm : s.memberCount k d = 0 <;> simp [hb, hm]
    · by_cases hm : s.memberCount k d = 0 <;> simp [hd, hm]

theorem blockLate_iff (au : Auditorium) (tr : Track) (x : Audio) (sh : Nat) :
    blockLate au tr x sh = true ↔ x.tp - tr.lead ≤ sh := by
  unfold blockLate releaseInstant
  rw [decide_eq_true_eq]
  exact Iff.rfl

/-- The audio of an arriving block. -/
def arrivingAudio (b : BlockBody) (test : Bool) : Audio := ⟨b.seq, b.tp, b.duration, b.tail, false, test⟩

theorem blockNow_iff (s : State) (tr : Track) (x : Audio) :
    ((s.auditorium tr.auditorium).lifecycle.advancing &&
      blockLate (s.auditorium tr.auditorium) tr x (s.showTime tr.auditorium)) = true ↔
      (s.lifecycle tr.auditorium).advancing = true ∧ x.tp - tr.lead ≤ s.showTime tr.auditorium := by
  rw [Bool.and_eq_true, blockLate_iff]
  exact Iff.rfl

theorem setLastBlock_becomes {s : State} {k : Nat} {tr : Track} (ht : s.track k = some tr) (l : Option LastBlock) :
    TrackBecomes k { tr with lastBlock := l } s (s.setLastBlock k l) :=
  trackBecomes_updateTrack ht fun tr => { tr with lastBlock := l }

section
variable {s : State} {k : Nat} {b : BlockBody} {gap : Option Gap} {test : Bool} {tr : Track}
  (ht : s.track k = some tr)
include ht

theorem acceptBlock_expired
    (hnow : (s.lifecycle tr.auditorium).advancing = true ∧ b.tp - tr.lead ≤ s.showTime tr.auditorium)
    (hend : b.tp ≤ s.showTime tr.auditorium) :
    s.acceptBlock k b gap test = (s.setLastBlock k (some ⟨b.seq, b.tp, b.duration⟩)).bumpTrack k .expired := by
  have hl := (blockNow_iff s tr (arrivingAudio b test)).mpr hnow
  unfold arrivingAudio at hl
  unfold State.acceptBlock
  simp only [ht, hl, if_true, Nat.not_lt.mpr hend, if_false]

theorem acceptBlock_late
    (hnow : (s.lifecycle tr.auditorium).advancing = true ∧ b.tp - tr.lead ≤ s.showTime tr.auditorium)
    (hend : s.showTime tr.auditorium < b.tp) :
    s.acceptBlock k b gap test =
      ((releaseOrder (releaseInstant (s.auditorium tr.auditorium) tr b.tp)
          (openBands (s.auditorium tr.auditorium) (PerBand.all false))).foldl
        (fun y d => y.releaseAudio k tr ⟨{ arrivingAudio b test with late := true }, gap, PerBand.all false⟩ d)
        (s.setLastBlock k (some ⟨b.seq, b.tp, b.duration⟩))).bumpTrack k .lateReleases := by
  have hl := (blockNow_iff s tr (arrivingAudio b test)).mpr hnow
  unfold arrivingAudio at hl ⊢
  unfold State.acceptBlock
  simp only [ht, hl, if_true, hend]

theorem acceptBlock_full
    (hnow : ¬((s.lifecycle tr.auditorium).advancing = true ∧ b.tp - tr.lead ≤ s.showTime tr.auditorium))
    (hfull : tr.depth ≤ tr.ring.length) :
    s.acceptBlock k b gap test = (s.setFlag .overflow k).bumpTrack k .overflowDrops := by
  have hl := (blockNow_iff s tr (arrivingAudio b test)).not.mpr hnow
  unfold arrivingAudio at hl
  unfold State.acceptBlock
  simp only [ht, hl, Bool.false_eq_true, if_false, hfull, if_true]

theorem acceptBlock_placed
    (hnow : ¬((s.lifecycle tr.auditorium).advancing = true ∧ b.tp - tr.lead ≤ s.showTime tr.auditorium))
    (hroom : tr.ring.length < tr.depth) :
    ∃ v, TrackBecomes k { tr with
        ring := tr.ring ++ [⟨arrivingAudio b test, gap, PerBand.all false⟩], lastBlock := some ⟨b.seq, b.tp, b.duration⟩ } s v ∧
      s.acceptBlock k b gap test =
        if (s.lifecycle tr.auditorium).advancing then
          ((v.bumpTrack k .blocksAccepted).paceUp k).takePassedBlock k (s.showTime tr.auditorium) false b.seq
        else (v.bumpTrack k .blocksAccepted).paceUp k := by
  have hl := (blockNow_iff s tr (arrivingAudio b test)).not.mpr hnow
  refine ⟨_, trackBecomes_updateTrack ht fun tr => { tr with
    ring := tr.ring ++ [⟨arrivingAudio b test, gap, PerBand.all false⟩], lastBlock := some ⟨b.seq, b.tp, b.duration⟩ }, ?_⟩
  unfold arrivingAudio at hl ⊢
  unfold State.acceptBlock
  simp only [ht, hl, Bool.false_eq_true, if_false, Nat.not_le.mpr hroom]
  rfl

end

/-- Settles O29: an accepted block expired, released LATE, dropped or placed. -/
theorem blockIsPlacedReleasedOrDropped : Obligations.BlockIsPlacedReleasedOrDropped := by
  rintro s k b gap test tr _ _ _ ht rfl rfl rfl
  have hlast := setLastBlock_becomes ht (some ⟨b.seq, b.tp, b.duration⟩)
  refine ⟨fun hnow => ⟨fun hend => ⟨_, hlast, ?_⟩, fun hend => ⟨_, rfl, ?_⟩⟩,
    fun hnow => ⟨fun hfull => ⟨_, rfl, ?_⟩, fun hroom => ?_⟩⟩
  · rw [acceptBlock_expired ht hnow hend]
    exact counted_bumpTrack ..
  · have hwithin := withinTrack_of (plays_acceptBlock s k b gap test) (stays_acceptBlock s k b gap test)
    rw [acceptBlock_late ht hnow hend] at hwithin ⊢
    have horder := releaseOrder_openBands (s.auditorium tr.auditorium) tr b.tp (PerBand.all false)
    have hnodup : (releaseOrder (releaseInstant (s.auditorium tr.auditorium) tr b.tp)
        (openBands (s.auditorium tr.auditorium) (PerBand.all false))).Nodup :=
      horder.order.imp fun {c d} h => by
        rintro rfl
        obtain ⟨hne, hz | hlt | ⟨-, hlt⟩⟩ := h
        · exact hne hz
        · exact absurd hlt (Nat.lt_irrefl _)
        · exact absurd hlt (lt_irrefl c)
    have hmade := made_releaseAudios hnodup (s.setLastBlock k (some ⟨b.seq, b.tp, b.duration⟩)) k tr
      ⟨{ arrivingAudio b test with late := true }, gap, PerBand.all false⟩
    have hcount := counted_bumpTrack ((releaseOrder (releaseInstant (s.auditorium tr.auditorium) tr b.tp)
      (openBands (s.auditorium tr.auditorium) (PerBand.all false))).foldl (fun y d => y.releaseAudio k tr
        ⟨{ arrivingAudio b test with late := true }, gap, PerBand.all false⟩ d)
          (s.setLastBlock k (some ⟨b.seq, b.tp, b.duration⟩))) k .lateReleases
    have hnames : ∀ d, d ∈ releaseOrder (releaseInstant (s.auditorium tr.auditorium) tr b.tp)
        (openBands (s.auditorium tr.auditorium) (PerBand.all false)) ↔
          ((s.auditorium tr.auditorium).band d).enabled = true := fun d => by
      rw [horder.names, PerBand.get_all]
      simp
    refine ⟨(hcount.track k).trans ((hmade.sends.track k).trans hlast.track),
      ⟨_, _, _, hlast, ⟨hnames, horder.order⟩, rfl, hcount⟩, hwithin, ?_, fun c hc => ?_, fun d => ⟨fun hd => ?_,
        fun hd => ?_⟩⟩
    · rw [hcount.counted, hmade.counts _ (by decide), hlast.count]
    · simp only [List.mem_cons, List.not_mem_nil, or_false, not_or] at hc
      rw [hcount.others _ (by simpa using hc.1), hmade.counts c (by simpa using hc.2), hlast.count]
    · rw [hcount.nextSeq, hmade.sequences, hlast.nextSeq, hlast.memberCount, if_pos ⟨(hnames d).mpr hd.1, hd.2⟩]
      rfl
    · rw [hcount.nextSeq, hmade.sequences, hlast.nextSeq, hlast.memberCount,
        if_neg fun h => hd ⟨(hnames d).mp h.1, h.2⟩]
      exact BitVec.add_zero _
  · rw [acceptBlock_full ht hnow hfull]
    have hflag := flagged_setFlag s .overflow k
    have hcount := counted_bumpTrack (s.setFlag .overflow k) k .overflowDrops
    refine ⟨hflag.set, (hcount.track k).trans (((sends_setFlag ..).track k).trans ht), ?_, fun c hc => ?_, ?_⟩
    · rw [hcount.counted, setFlag_trackCount]
    · simp only [List.mem_cons, List.not_mem_nil, or_false, not_or] at hc
      rw [hcount.others c (by simpa using hc.1), hflag.counts c (by simpa using hc.2)]
    · rw [hcount.frame, hflag.frame]
  · obtain ⟨v, hv, heq⟩ := acceptBlock_placed (gap := gap) (test := test) ht hnow hroom
    exact ⟨v, _, hv, counted_bumpTrack v k .blocksAccepted, heq⟩

end Sys2Proof.Machine

/-! PROOFS. The late rule on cues and blocks and the evaluation of a track (R105 to R107, R112; O33). -/

namespace Sys2Proof.Machine

/-! ### A cue released to several bands -/

/-- A cue released to ordinary bands: it holds their marks, each band that hears it has had its frame, and the rest of the
track stands. -/
theorem releasePendings_sum {bs : List Band} (hzero : (0 : Band) ∉ bs) (hnodup : bs.Nodup) {s : State} {k n : Nat}
    {tr : Track} {c : Cue} (ht : s.track k = some tr) (hc : tr.pendingCue n = some c) :
    ∃ tr', (bs.foldl (fun x b => x.releasePending k n b) s).track k = some tr' ∧
      tr'.withoutCue n = tr.withoutCue n ∧
      tr'.pendingCue n = some { c with marks := bs.foldl (fun m b => m.set b true) c.marks } ∧
      (∀ d, (bs.foldl (fun x b => x.releasePending k n b) s).nextSeq k d =
        s.nextSeq k d + if d ∈ bs ∧ s.memberCount k d ≠ 0 then 1 else 0) ∧
      (bs.foldl (fun x b => x.releasePending k n b) s).count (.track k .lateReleases) =
        s.count (.track k .lateReleases) ∧
      (bs.foldl (fun x b => x.releasePending k n b) s).count (.track k .cuesRetired) =
        s.count (.track k .cuesRetired) := by
  induction bs generalizing s tr c with
  | nil => exact ⟨tr, ht, rfl, hc, fun d => by simp, rfl, rfl⟩
  | cons b bs ih =>
    obtain ⟨hzb, hzbs⟩ := not_or.mp (List.mem_cons.not.mp hzero)
    obtain ⟨hb, hbs⟩ := List.nodup_cons.mp hnodup
    obtain ⟨tr₁, ht₁, -, -, hseq, hsame, hother, -⟩ := releasePending_sum ht hc (b := b) rfl
    obtain ⟨rfl, hret⟩ := hother (Ne.symm hzb)
    have hcn := pendingCue_number hc
    have hnum : ∀ d : Cue, d.caption.number = n →
        (({ c with marks := c.marks.set b true } : Cue)).caption.number = n := fun _ _ => hcn
    obtain ⟨tr', ht', hwithout, hmarked, hseqs, hlate, hrets⟩ := ih hzbs hbs ht₁
      (pendingCue_edit (f := fun _ => { c with marks := c.marks.set b true }) hc hnum)
    refine ⟨tr', ht', ?_, hmarked, fun d => ?_, hlate.trans (hsame _ (by decide)), hrets.trans hret⟩
    · rw [hwithout, withoutCue_edit tr n (f := fun _ => { c with marks := c.marks.set b true }) hnum]
    · rw [List.foldl_cons, hseqs d, hseq d, (plays_releasePending s k n b).patrons.memberCount]
      unfold capFrames
      by_cases hd : d = b
      · subst hd
        by_cases hm : s.memberCount k d = 0 <;> simp [hb, hm]
      · by_cases hm : s.memberCount k d = 0 <;> simp [hd, hm]

/-- In the order of R100 a band 0 stands last. -/
theorem releaseOrder_zero {au : Auditorium} {tr : Track} {time : Nat} {p : Band → Prop} {bs : List Band}
    (h : ReleaseOrder au tr time p bs) (hp : p 0) : ∃ pre, bs = pre ++ [0] ∧ (0 : Band) ∉ pre ∧ pre.Nodup := by
  obtain ⟨pre, post, rfl⟩ := List.append_of_mem ((h.names 0).mpr hp)
  obtain ⟨hpre, hpost, hcross⟩ := List.pairwise_append.mp h.order
  have hnil : post = [] := List.eq_nil_iff_forall_not_mem.mpr fun b hb => (List.rel_of_pairwise_cons hpost hb).1 rfl
  subst hnil
  refine ⟨pre, rfl, fun hz => (hcross 0 hz 0 (List.mem_cons_self ..)).1 rfl, hpre.imp ?_⟩
  rintro b c ⟨hne, hz | hlt | ⟨-, hlt⟩⟩ rfl
  · exact hne hz
  · exact absurd hlt (Nat.lt_irrefl _)
  · exact absurd hlt (lt_irrefl b)

/-- A cue released to bands of which band 0 is the last: it is current with their marks, and out of the pending list. -/
theorem releasePendings_current {au : Auditorium} {time : Nat} {p : Band → Prop} {bs : List Band} {s : State} {k n : Nat}
    {tr : Track} {c : Cue} (horder : ReleaseOrder au tr time p bs) (hp : p 0) (ht : s.track k = some tr)
    (hc : tr.pendingCue n = some c) :
    ∃ tr' cur, (bs.foldl (fun x b => x.releasePending k n b) s).track k = some tr' ∧
      tr'.pending = (tr.withoutCue n).pending ∧ tr'.current = some cur ∧ tr'.ring = tr.ring ∧
      cur.caption = c.caption ∧ (∀ d, cur.marks.get d = (c.marks.get d || decide (d ∈ bs))) ∧
      (∀ d, (bs.foldl (fun x b => x.releasePending k n b) s).nextSeq k d =
        s.nextSeq k d + if d ∈ bs ∧ s.memberCount k d ≠ 0 then 1 else 0) ∧
      (bs.foldl (fun x b => x.releasePending k n b) s).count (.track k .lateReleases) =
        s.count (.track k .lateReleases) ∧
      (bs.foldl (fun x b => x.releasePending k n b) s).count (.track k .cuesRetired) =
        if tr.current.isSome then min counterMax (s.count (.track k .cuesRetired) + 1)
        else s.count (.track k .cuesRetired) := by
  obtain ⟨pre, rfl, hpre, hnodup⟩ := releaseOrder_zero horder hp
  obtain ⟨tr₁, ht₁, hwithout, hc₁, hseq₁, hlate₁, hret₁⟩ := releasePendings_sum hpre hnodup ht hc
  have hmember := (Plays.foldl (fun s b => plays_releasePending s k n b) pre s).patrons.memberCount
  rw [List.foldl_append, List.foldl_cons, List.foldl_nil]
  obtain ⟨tr', ht', hring, -, hseq, hsame, -, hzero⟩ := releasePending_sum ht₁ hc₁ (b := 0) rfl
  obtain ⟨⟨q, rfl⟩, hret⟩ := hzero rfl
  have hpend : (tr₁.withoutCue n).pending = (tr.withoutCue n).pending := by rw [hwithout]
  have hcur : (tr₁.withoutCue n).current = (tr.withoutCue n).current := by rw [hwithout]
  have hring₁ : (tr₁.withoutCue n).ring = (tr.withoutCue n).ring := by rw [hwithout]
  have hcur' : tr₁.current = tr.current := hcur
  refine ⟨_, _, ht', hpend, rfl, hring.trans hring₁, rfl,
    fun d => ?_, fun d => ?_, (hsame _ (by decide)).trans hlate₁, ?_⟩
  · rw [PerBand.get_set, get_markAll]
    by_cases hd : d = 0 <;> simp [hd]
  · rw [hseq, hseq₁]
    unfold capFrames
    rw [hmember]
    by_cases hd : d = 0
    · subst hd
      by_cases hm : s.memberCount k 0 = 0 <;> simp [hpre, hm]
    · by_cases hm : s.memberCount k d = 0 <;> simp [hd, hm]
  · rw [hret, hret₁, hcur']

/-! ### The late rule -/

section
variable {s : State} {k sh n : Nat} {tr : Track} (ht : s.track k = some tr)
include ht

theorem evaluateCue_ahead {c : Cue} (hc : tr.pendingCue n = some c) (h : sh < c.caption.ts - tr.lead) :
    s.evaluateCue k sh n = s := by
  have hl := (cueLate_iff (s.auditorium tr.auditorium) tr c.caption sh).not.mpr (Nat.not_le.mpr h)
  unfold State.evaluateCue
  simp only [ht, hc]
  exact if_neg hl

theorem evaluateCue_expired {c : Cue} (hc : tr.pendingCue n = some c) (h : c.caption.ts - tr.lead ≤ sh)
    (hend : c.caption.te ≤ sh + (s.auditorium tr.auditorium).params.minDisplay * 1000) :
    s.evaluateCue k sh n = ((s.removePending k n).bumpTrack k .expired).paceDown k := by
  have hl := (cueLate_iff (s.auditorium tr.auditorium) tr c.caption sh).mpr h
  have hw := (cueWorthShowing_iff (s.auditorium tr.auditorium) c.caption sh).not.mpr (Nat.not_lt.mpr hend)
  unfold State.evaluateCue
  simp only [ht, hc]
  exact (if_pos hl).trans (if_neg hw)

theorem evaluateCue_late {c : Cue} (hc : tr.pendingCue n = some c) (h : c.caption.ts - tr.lead ≤ sh)
    (hend : sh + (s.auditorium tr.auditorium).params.minDisplay * 1000 < c.caption.te) :
    s.evaluateCue k sh n =
      ((releaseOrder (releaseInstant (s.auditorium tr.auditorium) tr c.caption.ts)
        (openBands (s.auditorium tr.auditorium) c.marks)).foldl (fun x b => x.releasePending k n b)
          (s.editPending k n fun c => { c with caption := { c.caption with late := true } })).bumpTrack k
            .lateReleases := by
  have hl := (cueLate_iff (s.auditorium tr.auditorium) tr c.caption sh).mpr h
  have hw := (cueWorthShowing_iff (s.auditorium tr.auditorium) c.caption sh).mpr hend
  unfold State.evaluateCue
  simp only [ht, hc]
  exact (if_pos hl).trans (if_pos hw)

theorem evaluateBlock_ahead {x : Block} (hx : tr.ringBlock n = some x) (h : sh < x.audio.tp - tr.lead) :
    s.evaluateBlock k sh n = s := by
  have hl := (blockLate_iff (s.auditorium tr.auditorium) tr x.audio sh).not.mpr (Nat.not_le.mpr h)
  unfold State.evaluateBlock
  simp only [ht, hx]
  exact if_neg hl

theorem evaluateBlock_expired {x : Block} (hx : tr.ringBlock n = some x) (h : x.audio.tp - tr.lead ≤ sh)
    (hend : x.audio.tp ≤ sh) :
    s.evaluateBlock k sh n = ((s.removeBlock k n).bumpTrack k .expired).paceDown k := by
  have hl := (blockLate_iff (s.auditorium tr.auditorium) tr x.audio sh).mpr h
  unfold State.evaluateBlock
  simp only [ht, hx]
  exact (if_pos hl).trans (if_neg (Nat.not_lt.mpr hend))

theorem evaluateBlock_late {x : Block} (hx : tr.ringBlock n = some x) (h : x.audio.tp - tr.lead ≤ sh)
    (hend : sh < x.audio.tp) :
    s.evaluateBlock k sh n =
      ((releaseOrder (releaseInstant (s.auditorium tr.auditorium) tr x.audio.tp)
        (openBands (s.auditorium tr.auditorium) x.marks)).foldl (fun y b => y.releaseBlock k n b)
          (s.editBlock k n fun x => { x with audio := { x.audio with late := true } })).bumpTrack k .lateReleases := by
  have hl := (blockLate_iff (s.auditorium tr.auditorium) tr x.audio sh).mpr h
  unfold State.evaluateBlock
  simp only [ht, hx]
  exact (if_pos hl).trans (if_pos hend)

/-- A late cue worth showing is current, LATE and marked for every enabled band, and each band that hears it and had not
had it has had a frame. -/
theorem evaluateCue_late_sum {c : Cue} (hc : tr.pendingCue n = some c) (h : c.caption.ts - tr.lead ≤ sh)
    (hend : sh + (s.auditorium tr.auditorium).params.minDisplay * 1000 < c.caption.te) (hzero : c.marks.get 0 = false) :
    ∃ u tr' cur, s.evaluateCue k sh n = u ∧ WithinTrack k s u ∧ u.track k = some tr' ∧
      tr'.pending = (tr.withoutCue n).pending ∧ tr'.current = some cur ∧ tr'.ring = tr.ring ∧
      cur.caption = { c.caption with late := true } ∧
      (∀ d, cur.marks.get d = (c.marks.get d || ((s.auditorium tr.auditorium).band d).enabled)) ∧
      OneFrameEach k (fun d => s.hears k tr d ∧ c.marks.get d = false) s u ∧
      u.count (.track k .lateReleases) = min counterMax (s.count (.track k .lateReleases) + 1) ∧
      u.count (.track k .cuesRetired) =
        if tr.current.isSome then min counterMax (s.count (.track k .cuesRetired) + 1)
        else s.count (.track k .cuesRetired) := by
  have hnum : ∀ d : Cue, d.caption.number = n →
      (({ d with caption := { d.caption with late := true } } : Cue)).caption.number = n := fun _ hd => hd
  have hedit := editPending_becomes ht n fun c => { c with caption := { c.caption with late := true } }
  have hlate := pendingCue_edit (f := fun c => { c with caption := { c.caption with late := true } }) hc hnum
  have horder := releaseOrder_openBands (s.auditorium tr.auditorium) tr c.caption.ts c.marks
  have horder' : ReleaseOrder (s.auditorium tr.auditorium)
      { tr with pending := tr.pending.map fun d =>
        if d.caption.number = n then { d with caption := { d.caption with late := true } } else d } c.caption.ts
      (fun b => ((s.auditorium tr.auditorium).band b).enabled = true ∧ c.marks.get b = false)
      (releaseOrder (releaseInstant (s.auditorium tr.auditorium) tr c.caption.ts)
        (openBands (s.auditorium tr.auditorium) c.marks)) := ⟨horder.names, horder.order⟩
  obtain ⟨tr', cur, htr', hpend, hcur, hring, hcap, hmarks, hseq, hcount, hret⟩ :=
    releasePendings_current horder' ⟨by rw [band_zero], hzero⟩ hedit.track hlate
  rw [withoutCue_edit tr n hnum] at hpend
  have hbump := counted_bumpTrack ((releaseOrder (releaseInstant (s.auditorium tr.auditorium) tr c.caption.ts)
    (openBands (s.auditorium tr.auditorium) c.marks)).foldl (fun x b => x.releasePending k n b)
      (s.editPending k n fun c => { c with caption := { c.caption with late := true } })) k .lateReleases
  refine ⟨_, tr', cur, rfl, withinTrack_of (plays_evaluateCue ..) (stays_evaluateCue ..), ?_, hpend, hcur, hring, hcap,
    fun d => ?_, fun d => ?_, ?_, ?_⟩
  · rw [evaluateCue_late ht hc h hend]
    exact (hbump.track k).trans htr'
  · rw [hmarks, Bool.eq_iff_iff]
    simp only [Bool.or_eq_true, decide_eq_true_eq, horder.names]
    by_cases hm : c.marks.get d = true <;> simp [hm]
  · rw [evaluateCue_late ht hc h hend, hbump.nextSeq, hseq, hedit.nextSeq, hedit.memberCount]
    have hiff : (d ∈ releaseOrder (releaseInstant (s.auditorium tr.auditorium) tr c.caption.ts)
        (openBands (s.auditorium tr.auditorium) c.marks) ∧ s.memberCount k d ≠ 0) ↔
          s.hears k tr d ∧ c.marks.get d = false := by
      rw [horder.names]
      exact and_right_comm
    exact ⟨fun hd => by rw [if_pos (hiff.mpr hd)], fun hd => by rw [if_neg fun h => hd (hiff.mp h)]; exact BitVec.add_zero _⟩
  · rw [evaluateCue_late ht hc h hend, hbump.counted, hcount, hedit.count]
  · rw [evaluateCue_late ht hc h hend, hbump.others _ (by simp), hret, hedit.count]

/-- The evaluation of a caption track: the late rule over its list, then the passed instants of what remains. -/
theorem evaluateTrack_caption (hk : tr.kind = .caption) :
    ∃ v tr', v = (tr.pending.map fun c => c.caption.number).foldl (fun x n => x.evaluateCue k sh n) s ∧
      v.track k = some tr' ∧ s.evaluateTrack k sh =
        (tr'.pending.map fun c => c.caption.number).foldl (fun x n => x.takePassedCue k sh false n) v := by
  have hlate : s.lateTrack k sh = (tr.pending.map fun c => c.caption.number).foldl
      (fun x n => x.evaluateCue k sh n) s := by
    unfold State.lateTrack State.pendingNumbers
    simp only [ht, hk]
  obtain ⟨tr', ht', hbind⟩ := (plays_lateTrack s k sh).bindings.of_bound ht
  refine ⟨_, tr', hlate, ht', ?_⟩
  unfold State.evaluateTrack
  exact takePassedTrack_caption ht' (hbind.kind.trans hk) sh false

theorem evaluateTrack_description (hk : tr.kind = .description) :
    ∃ v tr', v = (tr.ring.map fun x => x.audio.seq).foldl (fun x n => x.evaluateBlock k sh n) s ∧
      v.track k = some tr' ∧ s.evaluateTrack k sh =
        (tr'.ring.map fun x => x.audio.seq).foldl (fun x n => x.takePassedBlock k sh false n) v := by
  have hlate : s.lateTrack k sh = (tr.ring.map fun x => x.audio.seq).foldl (fun x n => x.evaluateBlock k sh n) s := by
    unfold State.lateTrack State.ringNumbers
    simp only [ht, hk]
  obtain ⟨tr', ht', hbind⟩ := (plays_lateTrack s k sh).bindings.of_bound ht
  refine ⟨_, tr', hlate, ht', ?_⟩
  unfold State.evaluateTrack
  exact takePassedTrack_description ht' (hbind.kind.trans hk) sh false

end

/-- Settles O33: a late cue or block stands, expires or is released, and the evaluation of a track. -/
theorem lateCueIsReleasedOrExpired : Obligations.LateCueIsReleasedOrExpired := by
  refine ⟨?_, ?_, ?_, fun s k sh tr ht => ⟨evaluateTrack_caption ht, evaluateTrack_description ht⟩⟩
  · rintro s k sh n tr c _ ht hc rfl
    refine ⟨evaluateCue_ahead ht hc, fun h hend => ?_, evaluateCue_late_sum ht hc⟩
    exact ⟨_, _, removePending_becomes ht n, counted_bumpTrack _ k .expired, evaluateCue_expired ht hc h hend⟩
  · rintro s k sh n tr c _ ht hc rfl h hend
    refine ⟨_, _, _, editPending_becomes ht n _, releaseOrder_openBands .., rfl, ?_⟩
    rw [evaluateCue_late ht hc h hend]
    exact counted_bumpTrack ..
  · rintro s k sh n tr x _ ht hx rfl
    refine ⟨evaluateBlock_ahead ht hx, fun h hend => ?_, fun h hend => ?_⟩
    · exact ⟨_, _, removeBlock_becomes ht n, counted_bumpTrack _ k .expired, evaluateBlock_expired ht hx h hend⟩
    · refine ⟨_, _, _, editBlock_becomes ht n _, releaseOrder_openBands .., rfl, ?_⟩
      rw [evaluateBlock_late ht hx h hend]
      exact counted_bumpTrack ..

end Sys2Proof.Machine

/-! PROOFS. The step handling of one track (R109 to R114, Table 6-2), the judgement of its current cue (R111), and the
step handling of an auditorium (R108). -/

namespace Sys2Proof.Machine

/-! ### The judgement of the current cue (R111) -/

theorem get_markSome (p : Band → Bool) (bs : List Band) (m : PerBand Bool) (d : Band) :
    (bs.foldl (fun m b => if p b then m.set b true else m) m).get d = (m.get d || (decide (d ∈ bs) && p d)) := by
  induction bs generalizing m with
  | nil => simp
  | cons b bs ih =>
    rw [List.foldl_cons, ih]
    by_cases hp : p b = true
    · rw [if_pos hp, PerBand.get_set]
      by_cases hd : d = b
      · simp [hd, hp]
      · simp [hd]
    · rw [if_neg hp]
      by_cases hd : d = b
      · simp [hd, hp]
      · simp [hd]

section
variable {s : State} {k sh : Nat} {tr : Track} (ht : s.track k = some tr)
include ht

theorem judgeCurrent_absent (h : tr.current = none) : s.judgeCurrent k sh = s := by
  unfold State.judgeCurrent
  simp only [ht, h]

theorem judgeCurrent_purged {c : Cue} (hc : tr.current = some c)
    (h : sh < c.caption.ts ∨ c.caption.te ≤ sh + (s.auditorium tr.auditorium).params.minDisplay * 1000) :
    s.judgeCurrent k sh = (s.setTrack k (some { tr with current := none })).bumpTrack k .purged := by
  have hno : ¬(c.caption.ts ≤ sh ∧ cueWorthShowing (s.auditorium tr.auditorium) c.caption sh = true) := by
    rw [cueWorthShowing_iff]
    omega
  unfold State.judgeCurrent
  simp only [ht, hc]
  exact if_neg hno

/-- A current cue still on screen is shown again, REPEAT set. -/
theorem judgeCurrent_repeated {c : Cue} (hc : tr.current = some c) (hts : c.caption.ts ≤ sh)
    (hte : sh + (s.auditorium tr.auditorium).params.minDisplay * 1000 < c.caption.te) :
    ∃ cur v w, cur.caption = { c.caption with repeated := true } ∧
      (∀ b, PerBand.get cur.marks b = (c.marks.get b || ((s.auditorium tr.auditorium).band b).enabled)) ∧
      TrackBecomes k { tr with current := some cur } s v ∧
      CaptionedEach k tr (s.hears k tr) (.caption k cur.caption)
        (some (shownUntil (s.auditorium tr.auditorium) cur.caption)) v w ∧
      Counted w (s.judgeCurrent k sh) (.track k .repeats) := by
  have hyes : c.caption.ts ≤ sh ∧ cueWorthShowing (s.auditorium tr.auditorium) c.caption sh = true :=
    ⟨hts, (cueWorthShowing_iff ..).mpr hte⟩
  refine ⟨⟨{ c.caption with repeated := true }, bands.foldl
    (fun m b => if ((s.auditorium tr.auditorium).band b).enabled then m.set b true else m) c.marks⟩, _, _, rfl,
    fun b => ?_, trackBecomes_setTrack .., ⟨_, sorted_populatedBands .., fun b => mem_populatedBands s k tr b, rfl⟩, ?_⟩
  · rw [get_markSome (fun b => ((s.auditorium tr.auditorium).band b).enabled)]
    simp [mem_bands]
  · unfold State.judgeCurrent
    simp only [ht, hc]
    rw [if_pos hyes, captionDeadline_eq]
    exact counted_bumpTrack ..

/-! ### Steps 2 to 6 of the handling (Table 6-2) -/

theorem clearDevices_caption (hk : tr.kind = .caption) :
    SentEach k tr (s.hears k tr) .caption (.captionClear k) none s (s.clearDevices k) := by
  refine ⟨_, sorted_populatedBands s k tr, mem_populatedBands s k tr, ?_⟩
  unfold State.clearDevices
  simp only [ht, hk]

theorem clearDevices_description (hk : tr.kind = .description) :
    SentEach k tr (s.hears k tr) .audio (.audioFlush k) none s (s.clearDevices k) := by
  refine ⟨_, sorted_populatedBands s k tr, mem_populatedBands s k tr, ?_⟩
  unfold State.clearDevices
  simp only [ht, hk]

theorem purgeTrack_eq (form : StepForm) :
    s.purgeTrack k sh form =
      if (tr.pending.length - (tr.keptBy sh form).pending.length) +
          (tr.ring.length - (tr.keptBy sh form).ring.length) = 0 then
        (s.setTrack k (some (tr.keptBy sh form))).bumpBy (.track k .purged)
          ((tr.pending.length - (tr.keptBy sh form).pending.length) +
            (tr.ring.length - (tr.keptBy sh form).ring.length))
      else ((s.setTrack k (some (tr.keptBy sh form))).bumpBy (.track k .purged)
          ((tr.pending.length - (tr.keptBy sh form).pending.length) +
            (tr.ring.length - (tr.keptBy sh form).ring.length))).paceDown k := by
  have hkept : ({ tr with
      pending := tr.pending.filter fun c => !form.purgesCue sh c
      ring := tr.ring.filter fun x => !form.purgesBlock sh x
      lastBlock := form.lastBlock tr.lastBlock } : Track) = tr.keptBy sh form := by
    cases form with
    | step full =>
      cases full with
      | true => simp [Track.keptBy, StepForm.purgesCue, StepForm.purgesBlock, StepForm.lastBlock]
      | false =>
        simp [Track.keptBy, StepForm.purgesCue, StepForm.purgesBlock, StepForm.lastBlock, ← decide_not]
    | showEnd => simp [Track.keptBy, StepForm.purgesCue, StepForm.purgesBlock, StepForm.lastBlock]
    | lost => simp [Track.keptBy, StepForm.purgesCue, StepForm.purgesBlock, StepForm.lastBlock]
  unfold State.purgeTrack
  simp only [ht]
  rw [← hkept]

theorem clearMarks_becomes : TrackBecomes k tr.unmarked s (s.clearMarks k) :=
  trackBecomes_updateTrack ht fun tr => tr.unmarked

theorem purgeCurrent_absent (h : tr.current = none) : s.purgeCurrent k = s := by
  unfold State.purgeCurrent
  simp only [ht, h, Option.isSome_none, Bool.false_eq_true, if_false]

theorem purgeCurrent_present (h : tr.current ≠ none) :
    ∃ o, TrackBecomes k { tr with current := none } s o ∧ Counted o (s.purgeCurrent k) (.track k .purged) := by
  refine ⟨_, trackBecomes_setTrack .., ?_⟩
  unfold State.purgeCurrent
  simp only [ht, Option.isSome_iff_ne_none.mpr h, if_true]
  exact counted_bumpTrack ..

/-- The purge leaves the current cue, whatever it does to the pace. -/
theorem purgeTrack_current (form : StepForm) :
    ∃ tr', (s.purgeTrack k sh form).track k = some tr' ∧ tr'.current = tr.current := by
  obtain ⟨g, hg⟩ := purgeTrack_track s k sh form
  rw [ht] at hg
  exact ⟨_, hg, rfl⟩

end

/-- Steps 2 to 7 of the handling for one track, state by state (R109 to R114, Table 6-2). -/
theorem stepTrack_spec (s : State) (a sh k : Nat) (form : StepForm) (tr : Track) (gone : Nat) (ht : s.track k = some tr)
    (hgone : gone = (tr.pending.length - (tr.keptBy sh form).pending.length) +
      (tr.ring.length - (tr.keptBy sh form).ring.length)) :
    ∃ v w x y z tr' p,
      (tr.kind = .caption → SentEach k tr (s.hears k tr) .caption (.captionClear k) none s v) ∧
      (tr.kind = .description → SentEach k tr (s.hears k tr) .audio (.audioFlush k) none s v) ∧
      TrackBecomes k (tr.keptBy sh form) v w ∧ CountedBy w x (.track k .purged) gone ∧
      y = (if gone = 0 then x else x.paceDown k) ∧ y.track k = some tr' ∧ TrackBecomes k tr'.unmarked y z ∧
      (tr.current = none → p = z) ∧
      (tr.current ≠ none →
        ∃ o, TrackBecomes k { tr'.unmarked with current := none } z o ∧ Counted o p (.track k .purged)) ∧
      (form = .lost → s.stepTrack a sh form k = z) ∧ (form = .showEnd → s.stepTrack a sh form k = p) ∧
      ∀ wide q, form = .step wide → (wide = true → q = p) → (wide = false → q = z.judgeCurrent k sh) →
        (s.lifecycle a = .paused → s.stepTrack a sh form k = q) ∧
        (s.lifecycle a ≠ .paused → s.stepTrack a sh form k = q.evaluateTrack k sh) := by
  subst hgone
  have hv : (s.clearDevices k).track k = some tr := ((sends_clearDevices s k).track k).trans ht
  obtain ⟨tr', htr', hcur⟩ := purgeTrack_current (sh := sh) hv form
  have hz := clearMarks_becomes htr'
  have hlife : ∀ q, Plays s q → q.lifecycle a = s.lifecycle a := fun q hq => by
    unfold State.lifecycle
    rw [hq.shows.auditorium]
  have hplays : Plays s (((s.clearDevices k).purgeTrack k sh form).clearMarks k) :=
    ((sends_clearDevices s k).plays.trans (plays_purgeTrack _ k sh form)).trans (plays_clearMarks _ k)
  refine ⟨_, _, _, _, _, tr', _, clearDevices_caption ht, clearDevices_description ht, trackBecomes_setTrack ..,
    countedBy_bumpBy .., purgeTrack_eq hv form, htr', hz,
    fun h => purgeCurrent_absent hz.track (hcur.trans h),
    fun h => purgeCurrent_present hz.track fun hno => h (hcur.symm.trans hno), ?_, ?_, ?_⟩
  · rintro rfl
    rfl
  · rintro rfl
    rfl
  · rintro wide q rfl hwide hnarrow
    have hq : (((s.clearDevices k).purgeTrack k sh (.step wide)).clearMarks k).stepCurrent k sh (.step wide) = q := by
      cases wide with
      | true => exact (hwide rfl).symm
      | false => exact (hnarrow rfl).symm
    have hpaused := hlife q (hq ▸ hplays.trans (plays_stepCurrent _ k sh (.step wide)))
    unfold State.stepTrack State.stepLate
    simp only [hq, hpaused]
    exact ⟨fun h => if_pos h, fun h => if_neg h⟩

end Sys2Proof.Machine

/-! PROOFS. Accepted SHOWTIME frames and the watches: steps, pauses, resumes and show ends (O17 to
O20). -/

namespace Sys2Proof.Machine

/-! ### The look at the beacon deadline -/

section
variable (s : State) (a : Nat)

theorem updateBeacon_count (c : Counter) : (s.updateBeacon a).count c = s.count c := by rw [updateBeacon_eq]; rfl
theorem updateBeacon_flagSet (f : Flag) : (s.updateBeacon a).flagSet f = s.flagSet f := by rw [updateBeacon_eq]; rfl
theorem updateBeacon_track (k : Nat) : (s.updateBeacon a).track k = s.track k := by rw [updateBeacon_eq]; rfl
theorem updateBeacon_nextSeq (k : Nat) (b : Band) : (s.updateBeacon a).nextSeq k b = s.nextSeq k b := by
  rw [updateBeacon_eq]; rfl
theorem updateBeacon_egress : (s.updateBeacon a).egress = s.egress := by rw [updateBeacon_eq]

end

/-! ### The step handling of an auditorium (R108) -/

theorem withdraw_egress (s : State) (covers : Entry → Bool) :
    (s.withdraw covers).egress =
      { s.egress with waiting := s.egress.waiting.filter fun e => !covers e } ∧
    s.withdraw covers = { s with egress := (s.withdraw covers).egress, live := (s.withdraw covers).live } := by
  obtain ⟨-, -, hframe⟩ := bumpWithdrawn_counts (s.egress.waiting.filter covers)
    { s with egress := { s.egress with waiting := s.egress.waiting.filter fun e => !covers e } }
  change s.withdraw covers = _ at hframe
  exact ⟨by rw [hframe], by rw [hframe]⟩

/-- Step 1 covers the entries of every class but BEACON (R109). -/
theorem withdrawnAtStep_eq (c : EgressClass) : c.withdrawnAtStep = (c != .beacon) := by cases c <;> rfl

/-- The step handling, from a state that differs from the part before in its contexts, clocks, flags and counts alone. -/
theorem handled_stepHandling {s v : State} (a sh : Nat) (form : StepForm)
    (hv : v = { s with
      engineTime := v.engineTime, auditoriums := v.auditoriums, clocks := v.clocks, flags := v.flags, live := v.live
      contentOut := v.contentOut }) :
    ∃ w, Handled a sh form s w ((v.stepHandling a sh form).updateBeacon a) := by
  obtain ⟨hegress, hframe⟩ := withdraw_egress (v.bumpAuditorium a .stepHandlings)
    fun e => e.auditorium == a && e.cls.withdrawnAtStep
  have hold : v.egress = s.egress := by rw [hv]
  have hplays := plays_stepHandling v a sh form
  have hstepped : v.stepHandling a sh form = State.steppedEach
      ((v.bumpAuditorium a .stepHandlings).withdraw fun e => e.auditorium == a && e.cls.withdrawnAtStep) a sh form := rfl
  generalize (v.bumpAuditorium a .stepHandlings).withdraw (fun e => e.auditorium == a && e.cls.withdrawnAtStep) = w
    at hframe hegress hstepped
  have hframe' : w = { v with egress := w.egress, live := w.live } := hframe
  have hflags : w.flags = v.flags := by rw [hframe']
  have hcontent : w.contentOut = v.contentOut := by rw [hframe']
  have hbeacon := updateBeacon_eq (v.stepHandling a sh form) a
  have htime : ((v.stepHandling a sh form).updateBeacon a).engineTime = v.engineTime := by
    rw [hbeacon]
    exact hplays.engineTime
  have hauditoriums : ((v.stepHandling a sh form).updateBeacon a).auditoriums = v.auditoriums := by
    rw [hbeacon]
    exact hplays.shows.auditoriums
  have hclocks : ((v.stepHandling a sh form).updateBeacon a).clocks = v.clocks := by
    rw [hbeacon]
    exact hplays.shows.clocks
  refine ⟨w, ?_, ?_, ?_⟩
  · rw [htime, hauditoriums, hclocks, hflags, hcontent]
    exact hframe'.trans (congrArg (fun x : State => { x with egress := w.egress, live := w.live }) hv)
  · rw [← hold, hegress]
    simp only [withdrawnAtStep_eq]
    rfl
  · rw [← hstepped]
    exact hbeacon

/-- The counters and flags that content work leaves alone move in a step handling by its own count alone. -/
theorem stepHandling_count (s : State) (a sh : Nat) (form : StepForm) {c : Counter} (hc : c.ofContent = false) :
    (s.stepHandling a sh form).count c =
      if c = .auditorium a .stepHandlings then min counterMax (s.count c + 1) else s.count c := by
  rw [(elsewhere_stepHandling s a sh form).otherCounts c hc, State.count_bumpAuditorium]
  by_cases h : c = .auditorium a .stepHandlings
  · rw [if_pos h, if_pos h, h]
  · rw [if_neg h, if_neg h]

theorem within_handling (s : State) (a sh : Nat) (form : StepForm) {cs : List Counter} {fs : List Flag}
    (hc : Counter.auditorium a .stepHandlings ∈ cs) :
    WithinShow a (s.owns a) cs fs s ((s.stepHandling a sh form).updateBeacon a) := by
  have hbump : Plays (s.bumpAuditorium a .stepHandlings) (s.stepHandling a sh form) :=
    (sends_withdraw _ _).plays.trans (Plays.foldl (fun s k => plays_stepTrack s a sh form k) _ _)
  exact ((WithinShow.bumpAuditorium hc).trans (WithinShow.work hbump (elsewhere_stepHandling s a sh form))).trans
    WithinShow.updateBeacon

theorem oldContent_handling {s v : State} (a sh : Nat) (form : StepForm) (h : v.egress = s.egress) :
    OldContentWithdrawn a s ((v.stepHandling a sh form).updateBeacon a) := by
  have hgone := withdrawn_stepHandling v a sh form
  unfold OldContentWithdrawn at hgone ⊢
  rw [updateBeacon_egress, ← h]
  exact hgone

theorem handling_count (s : State) (a sh : Nat) (form : StepForm) {c : Counter} (hc : c.ofContent = false) :
    ((s.stepHandling a sh form).updateBeacon a).count c =
      if c = .auditorium a .stepHandlings then min counterMax (s.count c + 1) else s.count c := by
  rw [updateBeacon_count, stepHandling_count s a sh form hc]

theorem emptied_handling (s : State) (a sh : Nat) {form : StepForm} (h : form.empties) :
    ((s.stepHandling a sh form).updateBeacon a).emptiedShow a :=
  emptied_of_tracks (updateBeacon_tracks ..) (emptied_stepHandling h s a sh)

/-! ### An accepted frame that has moved its clock record and state -/

/-- `v` is the part `s` with a SHOWTIME of auditorium `a` accepted at `ea`, its clock record `c` and its state `l`. -/
structure Moved (a ea : Nat) (l : Lifecycle) (c : Clock) (s v : State) : Prop where
  frame : v = { s with
    engineTime := max s.engineTime ea, auditoriums := v.auditoriums, clocks := v.clocks, live := v.live }
  clock : v.clock a = c
  auditorium : v.auditorium a = { s.auditorium a with lifecycle := l }
  counted : v.count (.auditorium a .showtimeAccepted) = min counterMax (s.count (.auditorium a .showtimeAccepted) + 1)
  counts : SameCounts s v [.auditorium a .showtimeAccepted]
  within : ∀ cs fs, Counter.auditorium a .showtimeAccepted ∈ cs → WithinShow a (s.owns a) cs fs (s.advance ea) v

theorem moved_accepting (s : State) (a ea : Nat) (l : Lifecycle) (c : Clock) :
    Moved a ea l c s (((s.accepting a ea).setClock a c).setLifecycle a l) where
  frame := rfl
  clock := State.clock_setClock_same (s.accepting a ea) a c
  auditorium := State.auditorium_setAuditorium_same ..
  counted := accepting_count s a ea
  counts := accepting_counts s a ea
  within _ _ hc := ((within_accepting s a ea hc).trans (WithinShow.setClock c)).trans (WithinShow.setLifecycle l)

section
variable {s v : State} {a ea : Nat} {l : Lifecycle} {c : Clock} (h : Moved a ea l c s v)
include h

theorem Moved.setClock (c' : Clock) : Moved a ea l c' s (v.setClock a c') where
  frame := by rw [h.frame]; rfl
  clock := State.clock_setClock_same v a c'
  auditorium := h.auditorium
  counted := h.counted
  counts := h.counts
  within cs fs hc := (h.within cs fs hc).trans (WithinShow.setClock c')

theorem Moved.check : v.check a = s.check a := by rw [h.frame]; rfl
theorem Moved.tracks : v.tracks = s.tracks := by rw [h.frame]
theorem Moved.lifecycle : v.lifecycle a = l := by unfold State.lifecycle; rw [h.auditorium]
theorem Moved.boundTracks : v.boundTracks a = s.boundTracks a := boundTracks_of_tracks h.tracks a
theorem Moved.owns : v.owns a = s.owns a := owns_of_tracks h.tracks a

theorem Moved.beaconRunning : v.beaconRunning a = (s.advance ea).beaconRunning a := by
  have hparams : (v.auditorium a).params = (s.auditorium a).params := by rw [h.auditorium]
  unfold State.beaconRunning
  rw [hparams, h.frame]
  rfl

/-- Content work after the frame is accepted: what it leaves of the auditorium's own records, and of all else. -/
theorem Moved.work {w : State} (hplays : Plays v w) (helse : Elsewhere (v.owns a) v w)
    (hl : l ∈ [.running, .paused, .holdover, .test]) :
    (w.updateBeacon a).clock a = c ∧ (w.updateBeacon a).auditorium a = { s.auditorium a with lifecycle := l } ∧
      (w.updateBeacon a).check a = s.check a ∧ (w.updateBeacon a).beacon a = (s.advance ea).beaconRunning a ∧
      (w.updateBeacon a).count (.auditorium a .showtimeAccepted) =
        min counterMax (s.count (.auditorium a .showtimeAccepted) + 1) ∧
      Accepted a s v (w.updateBeacon a) ∧ w.updateBeacon a = { w with beacons := (w.updateBeacon a).beacons } ∧
      WithinShow a (s.owns a) [.auditorium a .showtimeAccepted] [] (s.advance ea) (w.updateBeacon a) := by
  have hset := settled hplays (a := a)
  rw [h.owns] at helse
  refine ⟨hset.clock.trans h.clock, hset.auditorium.trans h.auditorium, hset.check.trans h.check,
    (hset.running (by rwa [h.lifecycle])).trans h.beaconRunning, ?_, ⟨?_, h.counted, h.counts⟩, updateBeacon_eq w a,
    ((h.within _ _ (List.mem_singleton_self _)).trans (WithinShow.work hplays helse)).trans WithinShow.updateBeacon⟩
  · rw [updateBeacon_count, helse.otherCounts _ rfl]
    exact h.counted
  · have htime : (w.updateBeacon a).engineTime = max s.engineTime ea := by
      have hv : v.engineTime = max s.engineTime ea := by rw [h.frame]
      rw [updateBeacon_eq]
      exact hplays.engineTime.trans hv
    have hauditoriums : (w.updateBeacon a).auditoriums = v.auditoriums := by
      rw [updateBeacon_eq]
      exact hplays.shows.auditoriums
    have hclocks : (w.updateBeacon a).clocks = v.clocks := by
      rw [updateBeacon_eq]
      exact hplays.shows.clocks
    rw [htime, hauditoriums, hclocks]
    exact h.frame

/-- A step taken once the frame is accepted (R34, R35, R108). -/
theorem Moved.stepped (hl : l ∈ [.running, .paused, .holdover, .test]) (sh : Nat) {full : Bool} {p : Prop}
    (hfull : full = true ↔ p) :
    ((v.runStep a sh full).updateBeacon a).clock a = c.countStep ∧
      ((v.runStep a sh full).updateBeacon a).auditorium a = { s.auditorium a with lifecycle := l } ∧
      Stepped a ea sh p s ((v.runStep a sh full).updateBeacon a) := by
  have hc := h.setClock c.countStep
  have hflag := flagged_setFlag (v.setClock a c.countStep) .clockStepped a
  have hrun : v.runStep a sh full =
      ((v.setClock a c.countStep).setFlag .clockStepped a).stepHandling a sh (.step full) := by
    unfold State.runStep
    rw [h.clock]
  rw [hrun]
  have hhandle := plays_stepHandling ((v.setClock a c.countStep).setFlag .clockStepped a) a sh (.step full)
  have hplays := (sends_setFlag (v.setClock a c.countStep) .clockStepped a).plays.trans hhandle
  have hset := settled hplays (a := a)
  have howns : ((v.setClock a c.countStep).setFlag .clockStepped a).owns a = s.owns a :=
    (owns_of_tracks (sends_setFlag ..).tracks a).trans hc.owns
  have hwithin := within_handling ((v.setClock a c.countStep).setFlag .clockStepped a) a sh (.step full)
    (cs := [.auditorium a .showtimeAccepted, .auditorium a .stepHandlings]) (fs := [⟨.clockStepped, a⟩]) (by simp)
  rw [howns] at hwithin
  refine ⟨hset.clock.trans hc.clock, hset.auditorium.trans hc.auditorium, ?_⟩
  refine
    { steps := ?_, flag := ?_, handled := ?_, accepted := ?_
      withdrawn := oldContent_handling a sh (.step full) ?_
      emptied := fun hp => emptied_handling _ a sh (.inl (by rw [hfull.mpr hp]))
      check := hset.check.trans hc.check, beacon := (hset.running (by rwa [hc.lifecycle])).trans hc.beaconRunning
      within := ((hc.within _ _ (List.mem_cons_self ..)).trans
        (WithinShow.setFlag (List.mem_singleton_self _) (by decide) (by decide))).trans hwithin }
  · obtain ⟨w, hw⟩ := handled_stepHandling (s := s) a sh (.step full)
      (v := (v.setClock a c.countStep).setFlag .clockStepped a) (by rw [hflag.frame, hc.frame])
    exact ⟨full, w, hfull, hw⟩
  · rw [updateBeacon_flagSet]
    exact hhandle.flags _ hflag.set
  · rw [handling_count _ _ _ _ rfl, if_pos rfl, hflag.counts _ (by simp), hc.counts _ (by simp)]
  · rw [handling_count _ _ _ _ rfl, if_neg (by simp), hflag.counts _ (by simp), hc.counted]
  · rw [setFlag_egress, hc.frame]

end

/-! ### Steps of PLAYING and PAUSED (R32, R34, R38 to R40) -/

/-- The clock set at Target with both watches from `ea`, R as D clamped, the error kept and the composition stored. -/
def State.anchored (s : State) (a ea target comp : Nat) (err : Int) : Clock :=
  Clock.startWatches (Clock.reanchor { s.clock a with lastError := err, composition := some comp } ea target)
    (s.auditorium a).params ea

/-- A state whose clock and lifecycle state have been set. -/
def State.placed (s : State) (a : Nat) (l : Lifecycle) (c : Clock) : State := (s.setClock a c).setLifecycle a l

section
variable {s : State} {a ea target comp : Nat} {err : Int}

theorem servo_steps (he : err = (target : Int) - s.showTimeAt a ea)
    (h : (s.clock a).composition ≠ some comp ∨ (s.auditorium a).params.stepThreshold ≤ err.natAbs) :
    s.servo a ea target comp =
      ((s.placed a .running (s.anchored a ea target comp err)).runStep a target
        (decide ((s.clock a).composition ≠ some comp))).updateBeacon a := by
  subst he
  by_cases hcomp : (s.clock a).composition = some comp
  · have hreach : reachesThreshold ((target : Int) - s.showTimeAt a ea) (s.auditorium a).params.stepThreshold = true :=
      decide_eq_true (h.resolve_left (not_not_intro hcomp))
    unfold State.servo State.anchored
    simp only [hcomp, hreach, ne_eq, not_true_eq_false, if_false, if_true, decide_false]
    rw [← hcomp]
    rfl
  · unfold State.servo
    simp only [hcomp, ne_eq, not_false_eq_true, if_true, decide_true]
    rfl

theorem resume_steps (he : err = (target : Int) - (s.clock a).s0)
    (h : (s.clock a).composition ≠ some comp ∨ (s.auditorium a).params.stepThreshold ≤ err.natAbs) :
    s.resume a ea target comp =
      ((s.placed a .running (s.anchored a ea target comp err)).runStep a target
        (decide ((s.clock a).composition ≠ some comp))).updateBeacon a := by
  subst he
  by_cases hcomp : (s.clock a).composition = some comp
  · have hreach : reachesThreshold ((target : Int) - (s.clock a).s0) (s.auditorium a).params.stepThreshold = true :=
      decide_eq_true (h.resolve_left (not_not_intro hcomp))
    unfold State.resume
    simp only [hcomp, hreach, ne_eq, not_true_eq_false, if_false, if_true, decide_false, Bool.false_eq_true]
    rfl
  · unfold State.resume
    simp only [hcomp, ne_eq, not_false_eq_true, if_true, decide_true]
    rfl

/-- A resume below the threshold evaluates the pending content, from LOST with the current cues judged first. -/
theorem resume_plays (he : err = (target : Int) - (s.clock a).s0) (hcomp : (s.clock a).composition = some comp)
    (hsmall : err.natAbs < (s.auditorium a).params.stepThreshold) :
    s.resume a ea target comp =
      ((if s.lifecycle a = .lost then (s.placed a .running (s.anchored a ea target comp err)).judgeAll a target
        else s.placed a .running (s.anchored a ea target comp err)).evaluateAll a target).updateBeacon a := by
  subst he
  have hreach : reachesThreshold ((target : Int) - (s.clock a).s0) (s.auditorium a).params.stepThreshold = false :=
    decide_eq_false (Nat.not_le.mpr hsmall)
  unfold State.resume
  simp only [hcomp, hreach, ne_eq, not_true_eq_false, if_false, decide_false, Bool.false_eq_true]
  rfl

/-- The clock frozen at Target with the watches cancelled, the move kept as the last error. -/
def State.frozen (s : State) (a ea target comp : Nat) (err : Int) : Clock :=
  Clock.cancelWatches { s.clock a with lastError := err, e0 := ea, s0 := target, composition := some comp }

theorem pauseOrMove_steps (he : err = (target : Int) - s.showTimeAt a ea)
    (h : (s.clock a).composition ≠ some comp ∨ (s.auditorium a).params.stepThreshold ≤ err.natAbs) :
    s.pauseOrMove a ea target comp =
      ((s.placed a .paused (s.frozen a ea target comp err)).runStep a target
        (decide ((s.clock a).composition ≠ some comp))).updateBeacon a := by
  subst he
  by_cases hcomp : (s.clock a).composition = some comp
  · have hreach : reachesThreshold ((target : Int) - s.showTimeAt a ea) (s.auditorium a).params.stepThreshold = true :=
      decide_eq_true (h.resolve_left (not_not_intro hcomp))
    unfold State.pauseOrMove
    simp only [hcomp, hreach, ne_eq, not_true_eq_false, if_false, if_true, decide_false, Bool.false_eq_true]
    rfl
  · unfold State.pauseOrMove
    simp only [hcomp, ne_eq, not_false_eq_true, if_true, decide_true]
    rfl

/-- A smaller move keeps content; from LOST the current cues are judged. -/
theorem pauseOrMove_moves (he : err = (target : Int) - s.showTimeAt a ea)
    (hcomp : (s.clock a).composition = some comp) (hsmall : err.natAbs < (s.auditorium a).params.stepThreshold) :
    s.pauseOrMove a ea target comp =
      (if s.lifecycle a = .lost then (s.placed a .paused (s.frozen a ea target comp err)).judgeAll a target
        else s.placed a .paused (s.frozen a ea target comp err)).updateBeacon a := by
  subst he
  have hreach : reachesThreshold ((target : Int) - s.showTimeAt a ea) (s.auditorium a).params.stepThreshold = false :=
    decide_eq_false (Nat.not_le.mpr hsmall)
  unfold State.pauseOrMove
  simp only [hcomp, hreach, ne_eq, not_true_eq_false, if_false, decide_false, Bool.false_eq_true]
  rfl

end

theorem moved_placed (s : State) (a ea : Nat) (l : Lifecycle) (c : Clock) :
    Moved a ea l c s ((s.accepting a ea).placed a l c) := moved_accepting s a ea l c

/-- Settles O17: an error at the threshold is a step, and the steps of Table 6-2 for one track. -/
theorem largeErrorSteps : Obligations.LargeErrorSteps := by
  refine ⟨fun s ea a f e hreports ha hst hl he hbig => ?_, stepTrack_spec⟩
  have hbig' : ((s.accepting a ea).clock a).composition ≠ some f.composition ∨
      ((s.accepting a ea).auditorium a).params.stepThreshold ≤ e.natAbs := by rwa [accepting_clock]
  have he' : e = (s.target f : Int) - (s.accepting a ea).showTimeAt a ea := by rwa [accepting_showTimeAt]
  obtain ⟨hclock, hauditorium, hstepped⟩ := (moved_placed s a ea .running
    ((s.accepting a ea).anchored a ea (s.target f) f.composition e)).stepped (by decide) (s.target f)
      (full := decide (((s.accepting a ea).clock a).composition ≠ some f.composition))
      (p := (s.clock a).composition ≠ some f.composition) (by rw [accepting_clock, decide_eq_true_eq])
  refine ⟨_, (showtime_playing_servo hreports ha hst hl).trans (by rw [servo_steps he' hbig']), ?_, hauditorium,
    hstepped⟩
  rw [hclock]
  unfold State.anchored
  rw [accepting_clock]
  rfl

/-! ### PAUSED (R38, R39, R114) -/

/-- PAUSED in RUNNING, HOLDOVER, LOST and PAUSED freezes the clock (R10, R11, R38, Table 2-3). -/
theorem showtime_pauses {s : State} {ea a : Nat} {f : ShowtimeFrame} (h : Reports s f) (ha : f.auditorium = a)
    (hst : f.status = 2) (hl : s.lifecycle a ∈ [.running, .holdover, .lost, .paused]) :
    exec (.showtime ea f) s = .next ((s.accepting a ea).pauseOrMove a ea (s.target f) f.composition) := by
  have hpaused : showStatus f.status = some .paused := by rw [hst]; rfl
  have hact : ∀ x : State, x.lifecycle a ∈ [.running, .holdover, .lost, .paused] →
      x.actOnShowtime a ea (s.target f) f.composition .paused = x.pauseOrMove a ea (s.target f) f.composition := by
    intro x hx
    simp only [List.mem_cons, List.not_mem_nil, or_false] at hx
    unfold State.actOnShowtime
    rcases hx with hx | hx | hx | hx <;> simp only [hx]
  have hheard : (s.lifecycle a).ignoresShowtime = false ∧ statusIgnored (s.lifecycle a) .paused = false := by
    simp only [List.mem_cons, List.not_mem_nil, or_false] at hl
    rcases hl with hl | hl | hl | hl <;> rw [hl] <;> decide
  rw [showtime_accepted h ha hpaused hheard.1 hheard.2, hact (s.accepting a ea) hl]

/-- The frozen clock of an accepted PAUSED, the composition the one that stands. -/
theorem accepting_frozen {s : State} {a ea target comp : Nat} {err : Int} (h : (s.clock a).composition = some comp) :
    (s.accepting a ea).frozen a ea target comp err = { s.unwatched a ea with e0 := ea, s0 := target, lastError := err } := by
  unfold State.frozen State.unwatched
  rw [accepting_clock, ← h]
  rfl

/-- Settles O18: a step or a smaller move, and the judgement of a current cue. -/
theorem pausedFreezesOrMoves : Obligations.PausedFreezesOrMoves := by
  refine ⟨fun s ea a f e hreports ha hst hl he => ⟨fun hbig => ?_, fun hcomp hsmall => ?_⟩, ?_⟩
  · have hbig' : ((s.accepting a ea).clock a).composition ≠ some f.composition ∨
        ((s.accepting a ea).auditorium a).params.stepThreshold ≤ e.natAbs := by rwa [accepting_clock]
    have he' : e = (s.target f : Int) - (s.accepting a ea).showTimeAt a ea := by rwa [accepting_showTimeAt]
    obtain ⟨hclock, hauditorium, hstepped⟩ := (moved_placed s a ea .paused
      ((s.accepting a ea).frozen a ea (s.target f) f.composition e)).stepped (by decide) (s.target f)
        (full := decide (((s.accepting a ea).clock a).composition ≠ some f.composition))
        (p := (s.clock a).composition ≠ some f.composition) (by rw [accepting_clock, decide_eq_true_eq])
    refine ⟨_, (showtime_pauses hreports ha hst hl).trans (by rw [pauseOrMove_steps he' hbig']), ?_, hauditorium,
      hstepped⟩
    rw [hclock]
    unfold State.frozen
    rw [accepting_clock]
    rfl
  · have hcomp' : ((s.accepting a ea).clock a).composition = some f.composition := by rwa [accepting_clock]
    have he' : e = (s.target f : Int) - (s.accepting a ea).showTimeAt a ea := by rwa [accepting_showTimeAt]
    have hmoved := moved_placed s a ea .paused ((s.accepting a ea).frozen a ea (s.target f) f.composition e)
    have hexec := showtime_pauses hreports ha hst hl (ea := ea)
    rw [pauseOrMove_moves he' hcomp' hsmall, accepting_lifecycle] at hexec
    by_cases hlost : s.lifecycle a = .lost
    · rw [if_pos hlost] at hexec
      obtain ⟨hclock, haud, hcheck, hbeacon, hcount, haccepted, hframe, hwithin⟩ := hmoved.work
        (plays_judgeAll _ a (s.target f)) (elsewhere_judgeAll _ a (s.target f)) (by decide)
      exact ⟨_, hexec, hclock.trans (accepting_frozen hcomp), haud, hcheck, hbeacon, hcount,
        fun hno => absurd hlost hno, fun _ => ⟨_, haccepted, hframe⟩, hwithin⟩
    · rw [if_neg hlost] at hexec
      obtain ⟨hclock, haud, hcheck, hbeacon, hcount, -, hframe, hwithin⟩ := hmoved.work
        (Plays.refl _) (Elsewhere.refl _ _) (by decide)
      refine ⟨_, hexec, hclock.trans (accepting_frozen hcomp), haud, hcheck, hbeacon, hcount, fun _ => ?_,
        fun hyes => absurd hyes hlost, hwithin⟩
      rw [hframe]
      exact ⟨⟨rfl, rfl⟩, rfl, rfl⟩
  · rintro s k sh tr _ ht rfl
    refine ⟨judgeCurrent_absent ht, fun c hc => ⟨judgeCurrent_repeated ht hc, fun h => ⟨_, trackBecomes_setTrack .., ?_⟩⟩⟩
    rw [judgeCurrent_purged ht hc h]
    exact counted_bumpTrack ..

/-! ### PLAYING in PAUSED and LOST (R40) -/

/-- PLAYING in PAUSED and LOST resumes (R11, R14, Table 2-3). -/
theorem showtime_resumes {s : State} {ea a : Nat} {f : ShowtimeFrame} (h : Reports s f) (ha : f.auditorium = a)
    (hst : f.status = 1) (hl : s.lifecycle a = .paused ∨ s.lifecycle a = .lost) :
    exec (.showtime ea f) s = .next ((s.accepting a ea).resume a ea (s.target f) f.composition) := by
  have hplaying : showStatus f.status = some .playing := by rw [hst]; rfl
  have hact : ∀ x : State, (x.lifecycle a = .paused ∨ x.lifecycle a = .lost) →
      x.actOnShowtime a ea (s.target f) f.composition .playing = x.resume a ea (s.target f) f.composition := by
    intro x hx
    unfold State.actOnShowtime
    rcases hx with hx | hx <;> simp only [hx]
  have hheard : (s.lifecycle a).ignoresShowtime = false := by rcases hl with hl | hl <;> rw [hl] <;> rfl
  rw [showtime_accepted h ha hplaying hheard rfl, hact (s.accepting a ea) hl]

/-- Settles O19: a step, or the resume with its judgement and evaluation. -/
theorem playingResumes : Obligations.PlayingResumes := by
  intro s ea a f e hreports ha hst hl he
  have he' : e = (s.target f : Int) - ((s.accepting a ea).clock a).s0 := by rwa [accepting_clock]
  refine ⟨fun hbig => ?_, fun hcomp hsmall => ?_⟩
  · have hbig' : ((s.accepting a ea).clock a).composition ≠ some f.composition ∨
        ((s.accepting a ea).auditorium a).params.stepThreshold ≤ e.natAbs := by rwa [accepting_clock]
    obtain ⟨hclock, hauditorium, hstepped⟩ := (moved_placed s a ea .running
      ((s.accepting a ea).anchored a ea (s.target f) f.composition e)).stepped (by decide) (s.target f)
        (full := decide (((s.accepting a ea).clock a).composition ≠ some f.composition))
        (p := (s.clock a).composition ≠ some f.composition) (by rw [accepting_clock, decide_eq_true_eq])
    refine ⟨_, (showtime_resumes hreports ha hst hl).trans (by rw [resume_steps he' hbig']), ?_, hauditorium,
      hstepped⟩
    rw [hclock]
    unfold State.anchored
    rw [accepting_clock]
    rfl
  · have hcomp' : ((s.accepting a ea).clock a).composition = some f.composition := by rwa [accepting_clock]
    have hmoved := moved_placed s a ea .running ((s.accepting a ea).anchored a ea (s.target f) f.composition e)
    have hanchored : (s.accepting a ea).anchored a ea (s.target f) f.composition e = { s.watched a ea with
        e0 := ea, s0 := s.target f, correction := 0, rate := max (-500) (min 500 (s.clock a).drift), lastError := e } := by
      unfold State.anchored State.watched
      rw [accepting_clock, ← hcomp]
      rfl
    have hexec := showtime_resumes hreports ha hst hl (ea := ea)
    rw [resume_plays he' hcomp' hsmall, accepting_lifecycle] at hexec
    by_cases hlost : s.lifecycle a = .lost
    · rw [if_pos hlost] at hexec
      have hjudge := plays_judgeAll ((s.accepting a ea).placed a .running
        ((s.accepting a ea).anchored a ea (s.target f) f.composition e)) a (s.target f)
      have hlate := elsewhere_evaluateAll (State.judgeAll ((s.accepting a ea).placed a .running
        ((s.accepting a ea).anchored a ea (s.target f) f.composition e)) a (s.target f)) a (s.target f)
      rw [hjudge.bindings.stand.owns] at hlate
      obtain ⟨hclock, haud, hcheck, hbeacon, hcount, haccepted, hframe, hwithin⟩ := hmoved.work
        (hjudge.trans (plays_evaluateAll _ a (s.target f))) ((elsewhere_judgeAll _ a (s.target f)).trans hlate) (by decide)
      exact ⟨_, hexec, hclock.trans hanchored, haud, hcheck, hbeacon, hcount,
        ⟨_, _, haccepted, fun hp => absurd (hp.symm.trans hlost) (by decide), fun _ => rfl, hframe⟩, hwithin⟩
    · rw [if_neg hlost] at hexec
      obtain ⟨hclock, haud, hcheck, hbeacon, hcount, haccepted, hframe, hwithin⟩ := hmoved.work
        (plays_evaluateAll _ a (s.target f)) (elsewhere_evaluateAll _ a (s.target f)) (by decide)
      exact ⟨_, hexec, hclock.trans hanchored, haud, hcheck, hbeacon, hcount,
        ⟨_, _, haccepted, fun _ => rfl, fun hyes => absurd hyes hlost, hframe⟩, hwithin⟩

/-! ### STOPPED (R44) -/

/-- STOPPED ends the show (R15, Table 2-3). -/
theorem showtime_stops {s : State} {ea a : Nat} {f : ShowtimeFrame} (h : Reports s f) (ha : f.auditorium = a)
    (hst : f.status = 3) (hl : s.lifecycle a ∈ [.running, .paused, .holdover, .lost]) :
    exec (.showtime ea f) s = .next ((s.accepting a ea).showEnd a ea) := by
  have hstopped : showStatus f.status = some .stopped := by rw [hst]; rfl
  have hact : ∀ x : State, x.lifecycle a ∈ [.running, .paused, .holdover, .lost] →
      x.actOnShowtime a ea (s.target f) f.composition .stopped = x.showEnd a ea := by
    intro x hx
    simp only [List.mem_cons, List.not_mem_nil, or_false] at hx
    unfold State.actOnShowtime
    rcases hx with hx | hx | hx | hx <;> simp only [hx]
  have hheard : (s.lifecycle a).ignoresShowtime = false ∧ statusIgnored (s.lifecycle a) .stopped = false := by
    simp only [List.mem_cons, List.not_mem_nil, or_false] at hl
    rcases hl with hl | hl | hl | hl <;> rw [hl] <;> decide
  rw [showtime_accepted h ha hstopped hheard.1 hheard.2, hact (s.accepting a ea) hl]

/-- A show that has ended is READY, or PREPARING without a bound track (R15). -/
theorem readyState_cases (s : State) (a : Nat) :
    (s.boundTracks a = [] ∧ s.readyState a = .preparing) ∨ (s.boundTracks a ≠ [] ∧ s.readyState a = .ready) := by
  unfold State.readyState
  cases h : s.boundTracks a with
  | nil => exact .inl ⟨rfl, rfl⟩
  | cons k ks => exact .inr ⟨List.cons_ne_nil k ks, rfl⟩

/-- Settles O20: the show ends with its clearing. -/
theorem stoppedEndsShow : Obligations.StoppedEndsShow := by
  intro s ea a f hreports ha hst hl
  have hmoved := moved_placed s a ea ((s.accepting a ea).readyState a)
    (Clock.cancelWatches { (s.accepting a ea).clock a with
      e0 := ea, s0 := (s.accepting a ea).showTimeAt a ea, composition := none })
  have hready : (s.accepting a ea).readyState a = s.readyState a := rfl
  have hend : (s.accepting a ea).showEnd a ea =
      (((s.accepting a ea).placed a ((s.accepting a ea).readyState a) (Clock.cancelWatches
        { (s.accepting a ea).clock a with
          e0 := ea, s0 := (s.accepting a ea).showTimeAt a ea, composition := none })).stepHandling a
            (s.showTimeAt a ea) .showEnd).updateBeacon a := by
    rw [← accepting_showTimeAt s a ea ea]
    rfl
  have hexec := showtime_stops hreports ha hst hl (ea := ea)
  rw [hend] at hexec
  refine ⟨_, hexec, ?_⟩
  clear hexec hend
  generalize (s.accepting a ea).placed a ((s.accepting a ea).readyState a) _ = v at hmoved
  have hset := settled (plays_stepHandling v a (s.showTimeAt a ea) .showEnd) (a := a)
  have haud := hset.auditorium.trans hmoved.auditorium
  rw [hready] at haud
  have hwithin := within_handling v a (s.showTimeAt a ea) .showEnd
    (cs := [.auditorium a .showtimeAccepted, .auditorium a .stepHandlings]) (fs := []) (by simp)
  rw [hmoved.owns] at hwithin
  refine ⟨?_, fun hb => ?_, fun hb => ?_, hset.check.trans hmoved.check, hset.stopped ?_,
    emptied_handling v a _ (.inr rfl), oldContent_handling a _ .showEnd (by rw [hmoved.frame]),
    handled_stepHandling a _ .showEnd (by rw [hmoved.frame]), ?_, ?_,
    (hmoved.within _ _ (List.mem_cons_self ..)).trans hwithin⟩
  · rw [hset.clock, hmoved.clock, accepting_clock, accepting_showTimeAt]
    rfl
  · rcases readyState_cases s a with ⟨-, h⟩ | ⟨h, -⟩
    · rw [haud, h]
    · exact absurd hb h
  · rcases readyState_cases s a with ⟨h, -⟩ | ⟨-, h⟩
    · exact absurd h hb
    · rw [haud, h]
  · rw [hmoved.lifecycle, hready]
    rcases readyState_cases s a with ⟨-, h⟩ | ⟨-, h⟩ <;> rw [h] <;> decide
  · rw [handling_count _ _ _ _ rfl, if_pos rfl, hmoved.counts _ (by simp)]
  · rw [handling_count _ _ _ _ rfl, if_neg (by simp), hmoved.counted]

end Sys2Proof.Machine

/-! PROOFS. The watches run out (O21), and a show starts (O15). -/

namespace Sys2Proof.Machine

/-! ### One track of several (R108) -/

/-- Work over a list of different tracks, at one of them: work elsewhere goes before and after. -/
theorem overTracks_split {F : State → Nat → State} (hs : ∀ s k, Stays k s (F s k)) (hp : ∀ s k, Plays s (F s k))
    {l : List Nat} (hl : l.Nodup) {k : Nat} (hk : k ∈ l) (s : State) :
    ∃ v, Plays s v ∧ Elsewhere (· ≠ k) s v ∧ Elsewhere (· ≠ k) (F v k) (l.foldl F s) := by
  obtain ⟨pre, post, rfl⟩ := List.append_of_mem hk
  obtain ⟨-, hpost, hcross⟩ := List.nodup_append.mp hl
  have hother : ∀ j, j ≠ k → ∀ v, Elsewhere (· ≠ k) v (F v j) := fun j hj v => (hs v j).mono fun i hi => hi ▸ hj
  refine ⟨pre.foldl F s, Plays.foldl hp pre s,
    Elsewhere.foldl pre (fun v j hj => hother j (fun h => hcross j hj k (List.mem_cons_self ..) h) v) s, ?_⟩
  rw [List.foldl_append, List.foldl_cons]
  exact Elsewhere.foldl post (fun v j hj => hother j (fun h => (List.nodup_cons.mp hpost).1 (h ▸ hj)) v) _

theorem Elsewhere.nextSeq {p : Nat → Prop} {s t : State} (h : Elsewhere p s t) {k : Nat} (hk : ¬p k) (b : Band) :
    t.nextSeq k b = s.nextSeq k b := by
  unfold State.nextSeq
  rw [h.sequences k hk]

theorem made_sendToBands {k : Nat} {tr : Track} {cls : EgressClass} {body : DeliveryBody} {d : Option Nat}
    {bs : List Band} (h : bs.Nodup) (s : State) :
    Made k (fun c => if c ∈ bs then 1 else 0) [] s (bs.foldl (fun x b => x.sendToBand k tr b cls body d) s) := by
  induction bs generalizing s with
  | nil => exact Made.refl.congr fun c => by simp
  | cons b bs ih =>
    obtain ⟨hb, hbs⟩ := List.nodup_cons.mp h
    refine ((made_sendToBand s k tr b cls body d).trans (ih hbs _)).congr fun c => ?_
    by_cases hc : c = b
    · simp [hc, hb]
    · simp [hc]

theorem SentEach.frames {k : Nat} {tr : Track} {p : Band → Prop} {cls : EgressClass} {body : DeliveryBody}
    {d : Option Nat} {s t : State} (h : SentEach k tr p cls body d s t) : OneFrameEach k p s t := by
  obtain ⟨bs, hsorted, hnames, rfl⟩ := h
  have hmade := made_sendToBands (k := k) (tr := tr) (cls := cls) (body := body) (d := d) (hsorted.imp ne_of_lt) s
  intro b
  refine ⟨fun hb => ?_, fun hb => ?_⟩
  · rw [hmade.sequences, if_pos ((hnames b).mpr hb)]
  · rw [hmade.sequences, if_neg fun hm => hb ((hnames b).mp hm)]
    exact BitVec.add_zero _

/-- The LOST form sends a track's populated bands one frame each, and nothing else (R109, R114). -/
theorem stepTrack_lost_frames {s : State} {k : Nat} {tr : Track} (ht : s.track k = some tr) (a sh : Nat) :
    OneFrameEach k (s.hears k tr) s (s.stepTrack a sh .lost k) := by
  obtain ⟨v, w, x, y, z, tr', p, hcaption, hdescription, hw, hx, hy, -, hz, -, -, hlost, -⟩ :=
    stepTrack_spec s a sh k .lost tr 0 ht (by simp [Track.keptBy])
  have hsent : OneFrameEach k (s.hears k tr) s v := by
    cases hk : tr.kind with
    | caption => exact (hcaption hk).frames
    | description => exact (hdescription hk).frames
  have hseq : ∀ b, z.nextSeq k b = v.nextSeq k b := fun b => by
    have hxw : x.nextSeq k b = w.nextSeq k b := by rw [hx.frame]; rfl
    rw [hz.nextSeq, hy, if_pos rfl, hxw, hw.nextSeq]
  rw [hlost rfl]
  exact fun b => by rw [hseq]; exact hsent b

/-- After the LOST form over its tracks, each populated band of an auditorium has been sent one frame. -/
theorem stepHandling_lost_frames {s : State} {a k : Nat} {tr : Track} (hk : k ∈ s.boundTracks a)
    (ht : s.track k = some tr) (sh : Nat) : OneFrameEach k (s.hears k tr) s (s.stepHandling a sh .lost) := by
  have hfirst := (sends_bumpAuditorium s a .stepHandlings).trans (sends_withdraw _ fun e =>
    e.auditorium == a && e.cls.withdrawnAtStep)
  have hseq : ∀ b, ((s.bumpAuditorium a .stepHandlings).withdraw fun e =>
      e.auditorium == a && e.cls.withdrawnAtStep).nextSeq k b = s.nextSeq k b := fun b => by
    rw [(withdraw_egress _ _).2]
    rfl
  obtain ⟨v, hplays, hbefore, hafter⟩ := overTracks_split (fun s k => stays_stepTrack s a sh .lost k)
    (fun s k => plays_stepTrack s a sh .lost k) (nodup_boundTracks s a) hk
    ((s.bumpAuditorium a .stepHandlings).withdraw fun e => e.auditorium == a && e.cls.withdrawnAtStep)
  have hv : v.track k = some tr := (hbefore.track k (not_not_intro rfl)).trans ((hfirst.track k).trans ht)
  have hears : v.hears k tr = s.hears k tr := by
    have hall := hfirst.plays.trans hplays
    funext b
    unfold State.hears
    rw [hall.shows.auditorium, hall.patrons.memberCount]
  have hstep : s.stepHandling a sh .lost = (s.boundTracks a).foldl (fun s k => s.stepTrack a sh .lost k)
      ((s.bumpAuditorium a .stepHandlings).withdraw fun e => e.auditorium == a && e.cls.withdrawnAtStep) := by
    unfold State.stepHandling
    simp only [boundTracks_of_tracks hfirst.tracks]
  have hframes := stepTrack_lost_frames hv a sh
  rw [hears] at hframes
  intro b
  rw [hstep, hafter.nextSeq (not_not_intro rfl), ← hseq b, ← hbefore.nextSeq (not_not_intro rfl)]
  exact hframes b

/-! ### The watches (R42, R43) -/

/-- What the two expiries have in common: `y` is the part `s` at the time of the expiry, its auditorium still RUNNING or in
HOLDOVER, with HOLDOVER entered where it was RUNNING. -/
structure Waning (a t x : Nat) (s y : State) : Prop where
  frame : y = { s with
    engineTime := max s.engineTime t, auditoriums := y.auditoriums, clocks := y.clocks, flags := y.flags, live := y.live
    contentOut := y.contentOut }
  clock : { y.clock a with holdoverDeadline := none } = { s.clock a with holdoverDeadline := none }
  showTime : y.showTimeAt a x = s.showTimeAt a x
  auditorium : { y.auditorium a with lifecycle := .lost } = { s.auditorium a with lifecycle := .lost }
  bands : ∀ b j, (y.auditorium j).band b = (s.auditorium j).band b
  counts : SameCounts s y [.device .alertsSent]
  within : WithinShow a (s.owns a) [.auditorium a .stepHandlings] [⟨.clockLost, a⟩, ⟨.clockHoldover, a⟩] (s.advance t) y

theorem waning_advance (s : State) (a t x : Nat) : Waning a t x s (s.advance t) :=
  ⟨rfl, rfl, rfl, rfl, fun _ _ => rfl, fun _ _ => rfl, WithinShow.refl⟩

/-- HOLDOVER is entered with the clock as it stood but for its deadline (R42). -/
theorem enterHoldover_spec (s : State) (a : Nat) :
    (s.enterHoldover a).clock a = { s.clock a with holdoverDeadline := none } ∧
      (s.enterHoldover a).auditorium a = { s.auditorium a with lifecycle := .holdover } ∧
      Flagged ⟨.clockHoldover, a⟩ ((s.setClock a { s.clock a with holdoverDeadline := none }).setLifecycle a .holdover)
        (s.enterHoldover a) := by
  have hflag := flagged_setFlag ((s.setClock a { s.clock a with holdoverDeadline := none }).setLifecycle a .holdover)
    .clockHoldover a
  have hshows := (sends_setFlag ((s.setClock a { s.clock a with holdoverDeadline := none }).setLifecycle a .holdover)
    .clockHoldover a).shows
  refine ⟨(hshows.clock a).trans (State.clock_setClock_same ..),
    (hshows.auditorium a).trans (State.auditorium_setAuditorium_same ..), hflag⟩

theorem waning_enterHoldover {s : State} {a : Nat} (hl : s.lifecycle a = .running) (t x : Nat) :
    Waning a t x s ((s.advance t).enterHoldover a) := by
  obtain ⟨hclock, haud, hflag⟩ := enterHoldover_spec (s.advance t) a
  have hclock' : ((s.advance t).enterHoldover a).clock a = { s.clock a with holdoverDeadline := none } := hclock
  have haud' : ((s.advance t).enterHoldover a).auditorium a = { s.auditorium a with lifecycle := .holdover } := haud
  have hbands : ∀ j, ((s.advance t).enterHoldover a).auditorium j =
      if j = a then { s.auditorium a with lifecycle := .holdover } else s.auditorium j := fun j => by
    by_cases hj : j = a
    · rw [if_pos hj, hj, haud']
    · have hshows := (sends_setFlag (((s.advance t).setClock a { (s.advance t).clock a with
        holdoverDeadline := none }).setLifecycle a .holdover) .clockHoldover a).shows
      rw [if_neg hj]
      exact (hshows.auditorium j).trans ((State.auditorium_setAuditorium ..).trans (if_neg hj))
  refine ⟨?_, by rw [hclock'], ?_, by rw [haud'], fun b j => ?_, hflag.counts, ?_⟩
  · rw [hflag.frame]
    rfl
  · unfold State.showTimeAt
    rw [hclock', show ((s.advance t).enterHoldover a).lifecycle a = .holdover by unfold State.lifecycle; rw [haud'], hl]
    rfl
  · rw [hbands]
    by_cases hj : j = a
    · rw [if_pos hj, hj]
      rfl
    · rw [if_neg hj]
  · exact (((WithinShow.setClock _).trans (WithinShow.setLifecycle _)).trans
      (WithinShow.setFlag (by simp) (by decide) (by decide)))

/-- `v` is what the entry into LOST at `x` leaves before its step handling: show time frozen, both watches cancelled, the
flag set (R43). -/
structure Faded (a t x : Nat) (s y v : State) : Prop where
  frame : v = { s with
    engineTime := max s.engineTime t, auditoriums := v.auditoriums, clocks := v.clocks, flags := v.flags, live := v.live
    contentOut := v.contentOut }
  clock : v.clock a = { s.clock a with
    e0 := x, s0 := s.showTimeAt a x, holdoverDeadline := none, lostDeadline := none }
  auditorium : v.auditorium a = { s.auditorium a with lifecycle := .lost }
  bands : ∀ b j, (v.auditorium j).band b = (s.auditorium j).band b
  flag : v.flagSet ⟨.clockLost, a⟩ = true
  holdover : v.flagSet ⟨.clockHoldover, a⟩ = y.flagSet ⟨.clockHoldover, a⟩
  counts : SameCounts s v [.device .alertsSent]
  within : WithinShow a (s.owns a) [.auditorium a .stepHandlings] [⟨.clockLost, a⟩, ⟨.clockHoldover, a⟩] (s.advance t) v

theorem placed_auditorium (s : State) (a : Nat) (l : Lifecycle) (c : Clock) (j : Nat) :
    (s.placed a l c).auditorium j = if j = a then { s.auditorium a with lifecycle := l } else s.auditorium j :=
  State.auditorium_setAuditorium ..

theorem Waning.faded {a t x : Nat} {s y : State} (h : Waning a t x s y) :
    ∃ v, Faded a t x s y v ∧ y.enterLost a x = (v.stepHandling a (s.showTimeAt a x) .lost).updateBeacon a := by
  have hclock := State.clock_setClock_same y a (Clock.cancelWatches { y.clock a with s0 := y.showTimeAt a x, e0 := x })
  have haud := placed_auditorium y a .lost (Clock.cancelWatches { y.clock a with s0 := y.showTimeAt a x, e0 := x })
  have hwithin : WithinShow a (s.owns a) [.auditorium a .stepHandlings] [⟨.clockLost, a⟩, ⟨.clockHoldover, a⟩] y
      (y.placed a .lost (Clock.cancelWatches { y.clock a with s0 := y.showTimeAt a x, e0 := x })) :=
    (WithinShow.setClock _).trans (WithinShow.setLifecycle _)
  have hu : y.enterLost a x = (((y.placed a .lost (Clock.cancelWatches
      { y.clock a with s0 := y.showTimeAt a x, e0 := x })).setFlag .clockLost a).stepHandling a
        (s.showTimeAt a x) .lost).updateBeacon a := by
    rw [← h.showTime]
    rfl
  have hframe : y.placed a .lost (Clock.cancelWatches { y.clock a with s0 := y.showTimeAt a x, e0 := x }) = { y with
      auditoriums := (y.placed a .lost (Clock.cancelWatches
        { y.clock a with s0 := y.showTimeAt a x, e0 := x })).auditoriums
      clocks := (y.placed a .lost (Clock.cancelWatches { y.clock a with s0 := y.showTimeAt a x, e0 := x })).clocks } := rfl
  have hclock' : (y.placed a .lost (Clock.cancelWatches { y.clock a with s0 := y.showTimeAt a x, e0 := x })).clock a =
      { s.clock a with e0 := x, s0 := s.showTimeAt a x, holdoverDeadline := none, lostDeadline := none } := by
    rw [← h.showTime]
    exact hclock.trans (congrArg (fun c : Clock => { c with s0 := y.showTimeAt a x, e0 := x, lostDeadline := none })
      h.clock)
  generalize y.placed a .lost (Clock.cancelWatches { y.clock a with s0 := y.showTimeAt a x, e0 := x }) = w
    at haud hwithin hu hframe hclock'
  have hflag := flagged_setFlag w .clockLost a
  have hshows := (sends_setFlag w .clockLost a).shows
  have hflags : w.flags = y.flags := by rw [hframe]
  have hlive : w.live = y.live := by rw [hframe]
  refine ⟨w.setFlag .clockLost a, ⟨?_, (hshows.clock a).trans hclock', ?_, fun b j => ?_, hflag.set, ?_, fun c hc => ?_,
    (h.within.trans hwithin).trans (WithinShow.setFlag (by simp) (by decide) (by decide))⟩, hu⟩
  · have hrest := congrArg (fun z : State => { z with
      auditoriums := (w.setFlag .clockLost a).auditoriums, clocks := (w.setFlag .clockLost a).clocks
      flags := (w.setFlag .clockLost a).flags, live := (w.setFlag .clockLost a).live
      contentOut := (w.setFlag .clockLost a).contentOut }) (hframe.trans (congrArg (fun z : State => { z with
        auditoriums := w.auditoriums, clocks := w.clocks }) h.frame))
    refine Eq.trans ?_ hrest
    simp only [hshows.auditoriums, hshows.clocks]
    exact hflag.frame
  · rw [hshows.auditorium, haud, if_pos rfl]
    exact h.auditorium
  · rw [hshows.auditorium, haud, ← h.bands b j]
    by_cases hj : j = a
    · rw [if_pos hj, hj]
      rfl
    · rw [if_neg hj]
  · rw [hflag.others _ (by simp)]
    unfold State.flagSet
    rw [hflags]
  · rw [hflag.counts c hc, ← h.counts c hc]
    unfold State.count
    rw [hlive]

section
variable {a t x : Nat} {s y v : State} (h : Faded a t x s y v)
include h

theorem Faded.tracks : v.tracks = s.tracks := by rw [h.frame]
theorem Faded.hears (k : Nat) (tr : Track) : v.hears k tr = s.hears k tr := by
  have hmembers : ∀ b, v.memberCount k b = s.memberCount k b := fun b => by rw [h.frame]; rfl
  funext b
  unfold State.hears
  rw [h.bands, hmembers]

/-- What the entry into LOST leaves once the step handling is made (R43, R114). -/
theorem Faded.lost :
    ∃ u, u = (v.stepHandling a (s.showTimeAt a x) .lost).updateBeacon a ∧ u.clock a = { s.clock a with
      e0 := x, s0 := s.showTimeAt a x, holdoverDeadline := none, lostDeadline := none } ∧
      u.auditorium a = { s.auditorium a with lifecycle := .lost } ∧ u.check a = s.check a ∧ u.beacon a = none ∧
      u.flagSet ⟨.clockLost, a⟩ = true ∧ u.flagSet ⟨.clockHoldover, a⟩ = y.flagSet ⟨.clockHoldover, a⟩ ∧
      u.count (.auditorium a .stepHandlings) = min counterMax (s.count (.auditorium a .stepHandlings) + 1) ∧
      OldContentWithdrawn a s u ∧ (∃ w, Handled a (s.showTimeAt a x) .lost s w u) ∧
      (∀ k ∈ s.boundTracks a, ∀ tr, s.track k = some tr →
        u.track k = some { tr with
          pending := tr.pending.map fun c => { c with marks := PerBand.all false }
          ring := tr.ring.map fun b => { b with marks := PerBand.all false } } ∧
        OneFrameEach k (s.hears k tr) s u) ∧
      WithinShow a (s.owns a) [.auditorium a .stepHandlings] [⟨.clockLost, a⟩, ⟨.clockHoldover, a⟩] (s.advance t) u := by
  have hplays := plays_stepHandling v a (s.showTimeAt a x) .lost
  have hset := settled hplays (a := a)
  have hcheck : v.check a = s.check a := by rw [h.frame]; rfl
  have hlife : v.lifecycle a = .lost := by unfold State.lifecycle; rw [h.auditorium]
  have hwithin := within_handling v a (s.showTimeAt a x) .lost (cs := [.auditorium a .stepHandlings])
    (fs := [⟨.clockLost, a⟩, ⟨.clockHoldover, a⟩]) (List.mem_singleton_self _)
  rw [owns_of_tracks h.tracks] at hwithin
  have hothers := (elsewhere_stepHandling v a (s.showTimeAt a x) .lost).otherFlags
  refine ⟨_, rfl, hset.clock.trans h.clock, hset.auditorium.trans h.auditorium, hset.check.trans hcheck,
    hset.stopped (by rw [hlife]; decide), ?_, ?_, ?_, oldContent_handling a _ .lost (by rw [h.frame]),
    handled_stepHandling a _ .lost ?_, fun k hk tr ht => ⟨?_, ?_⟩, h.within.trans hwithin⟩
  · rw [updateBeacon_flagSet]
    exact hplays.flags _ h.flag
  · rw [updateBeacon_flagSet, hothers _ rfl]
    exact h.holdover
  · rw [handling_count _ _ _ _ rfl, if_pos rfl, h.counts _ (by simp)]
  · have htime : v.engineTime = max s.engineTime t := by rw [h.frame]
    rw [htime]
    exact h.frame
  · have hk' : k ∈ v.boundTracks a := by rwa [boundTracks_of_tracks h.tracks]
    have ht' : v.track k = some tr := by rw [h.frame]; exact ht
    rw [updateBeacon_track, track_lost v a _ hk', ht']
    rfl
  · have hk' : k ∈ v.boundTracks a := by rwa [boundTracks_of_tracks h.tracks]
    have ht' : v.track k = some tr := by rw [h.frame]; exact ht
    have hframes := stepHandling_lost_frames hk' ht' (s.showTimeAt a x)
    have hseq : ∀ b, v.nextSeq k b = s.nextSeq k b := fun b => by rw [h.frame]; rfl
    rw [h.hears] at hframes
    intro b
    rw [updateBeacon_nextSeq, ← hseq b]
    exact hframes b

end

theorem takeHoldover_stands {s : State} {a : Nat}
    (h : s.lifecycle a ≠ .running ∨ ∀ d, (s.clock a).holdoverDeadline = some d → s.engineTime < d) :
    s.takeHoldover a = s := by
  unfold State.takeHoldover
  refine if_neg fun hno => ?_
  obtain ⟨hl, hreached⟩ := hno
  obtain ⟨d, hd, hle⟩ := (reached_iff s _).mp hreached
  exact h.elim (fun h => h hl) fun h => Nat.not_le.mpr (h d hd) hle

theorem takeLost_stands {s : State} {a : Nat} (h : (s.lifecycle a ≠ .running ∧ s.lifecycle a ≠ .holdover) ∨
    ∀ x, (s.clock a).lostDeadline = some x → s.engineTime < x) : s.takeLost a = s := by
  unfold State.takeLost
  cases hd : (s.clock a).lostDeadline with
  | none => rfl
  | some x =>
    simp only
    by_cases hx : x ≤ s.engineTime
    · obtain ⟨hrunning, hholdover⟩ := h.resolve_right fun hall => Nat.not_le.mpr (hall x hd) hx
      rw [if_pos hx]
      cases hl : s.lifecycle a with
      | running => exact absurd hl hrunning
      | holdover => exact absurd hl hholdover
      | _ => rfl
    · exact if_neg hx

theorem takeLost_reached {s : State} {a x : Nat} (hd : (s.clock a).lostDeadline = some x) (hx : x ≤ s.engineTime) :
    (s.lifecycle a = .running → s.takeLost a = (s.enterHoldover a).enterLost a x) ∧
      (s.lifecycle a = .holdover → s.takeLost a = s.enterLost a x) := by
  refine ⟨fun hl => ?_, fun hl => ?_⟩
  · unfold State.takeLost
    simp only [hd, hl, hx, if_true]
  · unfold State.takeLost
    simp only [hd, hl, hx, if_true]

/-- Settles O21: the two watches. -/
theorem watchesExpire : Obligations.WatchesExpire := by
  refine ⟨fun s t a => ⟨fun h => congrArg Host.Outcome.next (takeHoldover_stands (s := s.advance t) h),
    fun d hl hd hx => ?_⟩, fun s t a => ⟨fun h => congrArg Host.Outcome.next (takeLost_stands (s := s.advance t) h),
    fun x hl hd hx => ?_⟩⟩
  · obtain ⟨hclock, haud, hflag⟩ := enterHoldover_spec (s.advance t) a
    have htaken : (s.advance t).takeHoldover a = (s.advance t).enterHoldover a :=
      if_pos ⟨hl, (reached_iff (s.advance t) _).mpr ⟨d, hd, hx⟩⟩
    have hwane := waning_enterHoldover hl t 0
    have hadvance : SameShows s (s.advance t) := ⟨rfl, rfl, rfl, rfl⟩
    have hothers := ((WithinShow.setClock { (s.advance t).clock a with holdoverDeadline := none }).trans
      ((WithinShow.setLifecycle .holdover).trans (WithinShow.setFlag (n := .clockHoldover) (List.mem_singleton_self _)
        (by decide) (by decide))) : WithinShow a (s.owns a) [] [⟨.clockHoldover, a⟩] (s.advance t)
          ((s.advance t).enterHoldover a)).shows
    exact ⟨_, congrArg Host.Outcome.next htaken, hclock, haud, hflag.set, hflag.others,
      (hadvance.others a).trans hothers, hwane.counts, hwane.frame⟩
  · have hreached := takeLost_reached (s := s.advance t) hd hx
    rcases hl with hl | hl
    · obtain ⟨v, hfaded, hu⟩ := (waning_enterHoldover hl t x).faded
      obtain ⟨u, rfl, hclock, haud, hcheck, hbeacon, hflag, hholdover, hcount, hold, hhandled, htracks, hwithin⟩ :=
        hfaded.lost
      refine ⟨_, congrArg Host.Outcome.next ((hreached.1 hl).trans hu), hclock, haud, hcheck, hbeacon, hflag,
        fun _ => hholdover.trans ?_, fun h => absurd (h.symm.trans hl) (by decide), hcount, hold, hhandled, htracks, hwithin⟩
      exact (enterHoldover_spec (s.advance t) a).2.2.set
    · obtain ⟨v, hfaded, hu⟩ := (waning_advance s a t x).faded
      obtain ⟨u, rfl, hclock, haud, hcheck, hbeacon, hflag, hholdover, hcount, hold, hhandled, htracks, hwithin⟩ :=
        hfaded.lost
      exact ⟨_, congrArg Host.Outcome.next ((hreached.2 hl).trans hu), hclock, haud, hcheck, hbeacon, hflag,
        fun h => absurd (h.symm.trans hl) (by decide), fun _ => hholdover, hcount, hold, hhandled, htracks, hwithin⟩

/-! ### A show starts (R8, R16, R37) -/

theorem Plays.beaconRunning {v w : State} (h : Plays v w) (a : Nat) : w.beaconRunning a = v.beaconRunning a := by
  unfold State.beaconRunning
  rw [h.bindings.stand.memberSum h.patrons, h.shows.beacon, h.shows.auditorium, h.engineTime]

/-- The fresh clock of a start, both watches from `ea` (R37, R41). -/
def State.started (s : State) (a ea target comp : Nat) : Clock :=
  ((s.clock a).fresh ea target comp).startWatches (s.auditorium a).params ea

theorem showtime_starts {s : State} {ea a : Nat} {f : ShowtimeFrame} (h : Reports s f) (ha : f.auditorium = a)
    (hst : f.status = 1) (hl : s.lifecycle a = .ready) :
    exec (.showtime ea f) s = .next ((s.accepting a ea).freshStart a ea (s.target f) f.composition) := by
  have hplaying : showStatus f.status = some .playing := by rw [hst]; rfl
  have hact : ∀ x : State, x.lifecycle a = .ready →
      x.actOnShowtime a ea (s.target f) f.composition .playing = x.freshStart a ea (s.target f) f.composition := by
    intro x hx
    unfold State.actOnShowtime
    simp only [hx]
  rw [showtime_accepted h ha hplaying (by rw [hl]; rfl) rfl, hact (s.accepting a ea) hl]

theorem showtime_aborts {s : State} {ea a : Nat} {f : ShowtimeFrame} (h : Reports s f) (ha : f.auditorium = a)
    (hst : f.status = 1) (hl : s.lifecycle a = .test) :
    exec (.showtime ea f) s =
      .next (((s.accepting a ea).abortCheck a).freshStart a ea (s.target f) f.composition) := by
  have hplaying : showStatus f.status = some .playing := by rw [hst]; rfl
  have hact : ∀ x : State, x.lifecycle a = .test → x.actOnShowtime a ea (s.target f) f.composition .playing =
      (x.abortCheck a).freshStart a ea (s.target f) f.composition := by
    intro x hx
    unfold State.actOnShowtime
    simp only [hx]
  rw [showtime_accepted h ha hplaying (by rw [hl]; rfl) rfl, hact (s.accepting a ea) hl]

theorem showtime_startsPaused {s : State} {ea a : Nat} {f : ShowtimeFrame} (h : Reports s f) (ha : f.auditorium = a)
    (hst : f.status = 2) (hl : s.lifecycle a = .ready) :
    exec (.showtime ea f) s = .next ((s.accepting a ea).movesTo a .paused
      (((s.accepting a ea).clock a).fresh ea (s.target f) f.composition)) := by
  have hpaused : showStatus f.status = some .paused := by rw [hst]; rfl
  have hact : ∀ x : State, x.lifecycle a = .ready →
      x.actOnShowtime a ea (s.target f) f.composition .paused = x.freshPause a ea (s.target f) f.composition := by
    intro x hx
    unfold State.actOnShowtime
    simp only [hx]
  rw [showtime_accepted h ha hpaused (by rw [hl]; rfl) (by rw [hl]; rfl), hact (s.accepting a ea) hl]
  rfl

/-- The end results of a check: two fields are read for its track, the others stand (R154, R159). -/
theorem endCheck_check (s : State) (a : Nat) (o : CheckOutcome) :
    (s.endCheck a o).check a = { s.check a with
      running := false, outcome := o, deadline := none, previousTp := none
      devices := ((s.endCheck a o).check a).devices, highest := ((s.endCheck a o).check a).highest } ∧
    ∀ k, (s.check a).track = some k → ((s.endCheck a o).check a).devices = (bands.map (s.memberCount k)).sum ∧
      ((s.endCheck a o).check a).highest = s.highestScore k := by
  have hset : (s.endCheck a o).check a = (s.endResults (s.check a)).ended o := State.check_setCheck_same ..
  rw [hset]
  cases hk : (s.check a).track with
  | none =>
    have hend : s.endResults (s.check a) = s.check a := by
      unfold State.endResults
      simp only [hk]
    rw [hend]
    exact ⟨rfl, fun k h => nomatch h⟩
  | some j =>
    have hend : s.endResults (s.check a) = { s.check a with
        devices := (bands.map (s.memberCount j)).sum, highest := s.highestScore j } := by
      unfold State.endResults
      simp only [hk]
    rw [hend]
    exact ⟨rfl, fun k h => by cases h; exact ⟨rfl, rfl⟩⟩

/-- An aborted check: its results, the clearing, the flag (R160). -/
theorem abortCheck_plays (s : State) (a : Nat) :
    Plays (s.endCheck a .aborted) (s.abortCheck a) ∧ (s.abortCheck a).emptiedShow a ∧
      (s.abortCheck a).flagSet ⟨.houseCheckAborted, a⟩ = true := by
  have hflag := sends_setFlag ((s.endCheck a .aborted).houseCheckClearing a) .houseCheckAborted a
  exact ⟨(plays_houseCheckClearing _ a).trans hflag.plays, emptied_of_tracks hflag.tracks (emptied_houseCheckClearing _ a),
    flagSet_setFlag ..⟩

/-- A fresh start after an aborted check has no content to evaluate. -/
theorem freshStart_emptied {s : State} {a : Nat} (h : s.emptiedShow a) (ea target comp : Nat) :
    s.freshStart a ea target comp = (s.placed a .running (s.started a ea target comp)).updateBeacon a := by
  have hempty : (s.placed a .running (s.started a ea target comp)).emptiedShow a := emptied_of_tracks rfl h
  exact congrArg (fun x : State => x.updateBeacon a) (evaluateAll_empty hempty target)

theorem setFlag_sequences (s : State) (n : FlagName) (i : Nat) : (s.setFlag n i).sequences = s.sequences := by
  rw [(flagged_setFlag s n i).frame]

theorem setFlag_count_of_ne (s : State) (n : FlagName) (i : Nat) {c : Counter} (h : c ≠ .device .alertsSent) :
    (s.setFlag n i).count c = s.count c := (flagged_setFlag s n i).counts c (by simpa using h)

/-- PLAYING in TEST: the check aborted, then the start (R16, R160). -/
theorem showStarts_test {s : State} {ea a : Nat} {f : ShowtimeFrame} (h : Reports s f) (ha : f.auditorium = a)
    (hst : f.status = 1) (hl : s.lifecycle a = .test) : ∃ u, exec (.showtime ea f) s = .next u ∧
      u.clock a = { s.watched a ea with
        e0 := ea, s0 := s.target f, drift := 0, correction := 0, rate := 0, lastError := 0
        composition := some f.composition } ∧
      u.auditorium a = { s.auditorium a with lifecycle := .running } ∧
      u.beacon a = (s.advance ea).beaconRunning a ∧
      u.count (.auditorium a .showtimeAccepted) = min counterMax (s.count (.auditorium a .showtimeAccepted) + 1) ∧
      u.flagSet ⟨.houseCheckAborted, a⟩ = true ∧ u.emptiedShow a ∧
      u.check a = { s.check a with
        running := false, outcome := .aborted, deadline := none, previousTp := none
        devices := (u.check a).devices, highest := (u.check a).highest } ∧
      (∀ k, (s.check a).track = some k → (u.check a).devices = (bands.map (s.memberCount k)).sum ∧
        (u.check a).highest = s.highestScore k) ∧
      (∃ v w : State, v = { s with engineTime := u.engineTime, clocks := v.clocks, checks := u.checks, live := v.live } ∧
        w = v.steppedEach a ((s.advance ea).showTime a) .showEnd ∧ u.tracks = w.tracks ∧ u.sequences = w.sequences ∧
        u.egress = w.egress) ∧
      WithinShow a (s.owns a) [.auditorium a .showtimeAccepted] [⟨.houseCheckAborted, a⟩] (s.advance ea) u := by
  obtain ⟨hplays, hempty, hflag⟩ := abortCheck_plays (s.accepting a ea) a
  have hcheck := endCheck_check (s.accepting a ea) a .aborted
  have helse := elsewhere_houseCheckClearing ((s.accepting a ea).endCheck a .aborted) a
  have hclearing := plays_houseCheckClearing ((s.accepting a ea).endCheck a .aborted) a
  have hclock : ((s.accepting a ea).abortCheck a).clock a = { s.clock a with lastAccepted := some ea } :=
    (hplays.shows.clock a).trans (accepting_clock s a ea)
  have haud : ((s.accepting a ea).abortCheck a).auditorium a = s.auditorium a := hplays.shows.auditorium a
  have hset : Settled a (((s.accepting a ea).abortCheck a).placed a .running
      (((s.accepting a ea).abortCheck a).started a ea (s.target f) f.composition)) _ := settled (Plays.refl _)
  have hplaced := placed_auditorium ((s.accepting a ea).abortCheck a) a .running
    (((s.accepting a ea).abortCheck a).started a ea (s.target f) f.composition) a
  have hend : ((((s.accepting a ea).abortCheck a).placed a .running
      (((s.accepting a ea).abortCheck a).started a ea (s.target f) f.composition)).updateBeacon a).check a =
        ((s.accepting a ea).endCheck a .aborted).check a := hset.check.trans (hplays.shows.check a)
  have hshow : (s.advance ea).showTime a = ((s.accepting a ea).endCheck a .aborted).showTime a :=
    (accepting_showTimeAt s a ea (max s.engineTime ea)).symm
  have hexec := showtime_aborts h ha hst hl (ea := ea)
  rw [freshStart_emptied hempty] at hexec
  refine ⟨_, hexec, ?_, ?_, ?_, ?_, ?_, ?_, ?_, ?_, ⟨(s.accepting a ea).endCheck a .aborted, _, ?_, rfl, ?_, ?_, ?_⟩, ?_⟩
  · rw [hset.clock]
    refine (State.clock_setClock_same ..).trans ?_
    unfold State.started
    rw [hclock, haud]
    rfl
  · rw [hset.auditorium, hplaced, if_pos rfl, haud]
  · have hlife : (((s.accepting a ea).abortCheck a).placed a .running
        (((s.accepting a ea).abortCheck a).started a ea (s.target f) f.composition)).lifecycle a = .running := by
      unfold State.lifecycle
      rw [hplaced, if_pos rfl]
    rw [hset.running (by rw [hlife]; decide)]
    have hrun := hplays.beaconRunning a
    unfold State.beaconRunning at hrun ⊢
    rw [hplaced, if_pos rfl]
    exact hrun
  · rw [updateBeacon_count]
    show ((s.accepting a ea).abortCheck a).count _ = _
    unfold State.abortCheck
    rw [setFlag_count_of_ne _ _ _ (by simp), helse.otherCounts _ rfl]
    exact accepting_count s a ea
  · rw [updateBeacon_flagSet]
    exact hflag
  · exact emptied_of_tracks (updateBeacon_tracks ..) (emptied_of_tracks rfl hempty)
  · rw [hend]
    exact hcheck.1
  · rw [hend]
    exact hcheck.2
  · have htime : ((((s.accepting a ea).abortCheck a).placed a .running
        (((s.accepting a ea).abortCheck a).started a ea (s.target f) f.composition)).updateBeacon a).engineTime =
          max s.engineTime ea := by
      rw [updateBeacon_eq]
      exact hplays.engineTime
    have hchecks : ((((s.accepting a ea).abortCheck a).placed a .running
        (((s.accepting a ea).abortCheck a).started a ea (s.target f) f.composition)).updateBeacon a).checks =
          ((s.accepting a ea).endCheck a .aborted).checks := by
      rw [updateBeacon_eq]
      exact hplays.shows.checks
    rw [htime, hchecks]
    rfl
  · rw [hshow, updateBeacon_tracks]
    exact (sends_setFlag ..).tracks
  · rw [hshow, updateBeacon_eq]
    exact setFlag_sequences ..
  · rw [hshow, updateBeacon_egress]
    exact setFlag_egress ..
  · have haccept : WithinShow a (s.owns a) [.auditorium a .showtimeAccepted] [⟨.houseCheckAborted, a⟩] (s.advance ea)
        (s.accepting a ea) := within_accepting s a ea (List.mem_singleton_self _)
    exact (((((haccept.trans (WithinShow.setCheck _)).trans (WithinShow.work hclearing helse)).trans
      (WithinShow.setFlag (List.mem_singleton_self _) (by decide) (by decide))).trans (WithinShow.setClock _)).trans
        (WithinShow.setLifecycle _)).trans WithinShow.updateBeacon

/-- Settles O15: the start in READY, after an aborted check, and paused. -/
theorem showStarts : Obligations.ShowStarts := by
  refine ⟨fun s ea a f hreports ha hst hl => ?_, fun s ea a f hreports ha hst hl => ?_⟩
  · rcases hl with hl | hl
    · have hmoved := moved_placed s a ea .running ((s.accepting a ea).started a ea (s.target f) f.composition)
      obtain ⟨hclock, haud, hcheck, hbeacon, hcount, haccepted, hframe, hwithin⟩ := hmoved.work
        (plays_evaluateAll _ a (s.target f)) (elsewhere_evaluateAll _ a (s.target f)) (by decide)
      refine ⟨_, showtime_starts hreports ha hst hl, ?_, haud, hbeacon, hcount,
        fun _ => ⟨hcheck, hwithin, _, haccepted, hframe⟩, fun h => absurd (h.symm.trans hl) (by decide)⟩
      refine hclock.trans ?_
      unfold State.started
      rw [accepting_clock]
      rfl
    · obtain ⟨u, hexec, hclock, haud, hbeacon, hcount, hrest⟩ := showStarts_test (ea := ea) hreports ha hst hl
      exact ⟨u, hexec, hclock, haud, hbeacon, hcount, fun h => absurd (h.symm.trans hl) (by decide), fun _ => hrest⟩
  · refine ⟨_, showtime_startsPaused hreports ha hst hl, ?_, movesTo_auditorium ..,
      accepting_movesTo_beacon s a ea .paused _ (by decide), accepting_movesTo_accepted ..,
      accepting_movesTo_others .., accepting_movesTo_counts s a ea .paused _, accepting_movesTo_frame ..⟩
    rw [movesTo_clock, accepting_clock]
    rfl

end Sys2Proof.Machine

/-! PROOFS. The table writes (O45), and the commands over flags, enables and the snapshot (O56). -/

namespace Sys2Proof.Machine

/-! ### CONTROLLER SET, FILTER WRITE, MASK WRITE (R57, R58, R163) -/

theorem groupAddress_iff (a : Nat) : groupAddress a = true ↔ a / 2 ^ 40 % 2 = 1 := by
  unfold groupAddress
  rw [beq_iff_eq]
  exact Iff.rfl

theorem yesNo_of_le {n : Nat} (h : n ≤ 1) : yesNo n = some (n == 1) := by
  match n with
  | 0 | 1 => rfl

theorem yesNo_eq_none {n : Nat} : yesNo n = none ↔ 1 < n := by
  match n with
  | 0 | 1 | _ + 2 => simp [yesNo]

/-- The operands of a FILTER WRITE that are in range (R57). -/
def FilterOperands (arg : Nat → Nat) : Prop :=
  arg 1 ≤ 63 ∧ arg 2 ≤ 1 ∧ arg 4 ≤ 7 ∧ arg 5 ≤ 8 ∧ arg 7 ≤ 1 ∧ arg 8 ≤ 95

theorem readFilter_in {items : List Item} (h : FilterOperands (argument items)) :
    readFilter items = some ⟨argument items 2 == 1, BitVec.ofNat 32 (argument items 3), argument items 4,
      argument items 5, BitVec.ofNat 8 (argument items 6), argument items 7 == 1, argument items 8⟩ := by
  obtain ⟨hindex, henabled, hmask, hbits, hcontinues, htarget⟩ := h
  unfold readFilter
  simp only [yesNo_of_le henabled, yesNo_of_le hcontinues, hindex, hmask, hbits, htarget, and_self, if_true]

theorem readFilter_out {items : List Item} (h : ¬FilterOperands (argument items)) : readFilter items = none := by
  unfold readFilter
  by_cases henabled : argument items 2 ≤ 1
  · by_cases hcontinues : argument items 7 ≤ 1
    · have hrest : ¬(argument items 1 ≤ 63 ∧ argument items 4 ≤ 7 ∧ argument items 5 ≤ 8 ∧ argument items 8 ≤ 95) :=
        fun ⟨hindex, hmask, hbits, htarget⟩ => h ⟨hindex, henabled, hmask, hbits, hcontinues, htarget⟩
      simp only [yesNo_of_le henabled, yesNo_of_le hcontinues, hrest, if_false]
    · simp only [yesNo_of_le henabled, yesNo_eq_none.mpr (Nat.not_le.mp hcontinues)]
  · simp only [yesNo_eq_none.mpr (Nat.not_le.mp henabled)]

theorem runFilterWrite_taken {q : Queued} {s : State} (h : FilterOperands (argument q.items)) :
    runFilterWrite q s = (s.setFilter (argument q.items 1)
      ⟨argument q.items 2 == 1, BitVec.ofNat 32 (argument q.items 3), argument q.items 4, argument q.items 5,
        BitVec.ofNat 8 (argument q.items 6), argument q.items 7 == 1, argument q.items 8⟩, .done false []) := by
  unfold runFilterWrite
  rw [readFilter_in h]

theorem runControllerSet_refused {q : Queued} {s : State}
    (h : ∃ x, (itemStation q.items 1 = some x ∨ itemStation q.items 2 = some x) ∧ x / 2 ^ 40 % 2 = 1) :
    runControllerSet q s = s.refuse .badParameter := by
  obtain ⟨x, hx, hgroup⟩ := h
  have hg := (groupAddress_iff x).mpr hgroup
  refine if_pos ?_
  rcases hx with hx | hx <;> simp [hx, hg]

theorem runControllerSet_taken {q : Queued} {s : State}
    (h : ∀ x, (itemStation q.items 1 = some x ∨ itemStation q.items 2 = some x) → x / 2 ^ 40 % 2 = 0) :
    runControllerSet q s =
      ({ s with controllers := ⟨itemStation q.items 1, itemStation q.items 2⟩ }, .done false []) := by
  have hnone : ∀ e : Option Nat, (∀ x, e = some x → x / 2 ^ 40 % 2 = 0) → e.any groupAddress = false := by
    intro e he
    cases e with
    | none => rfl
    | some x =>
      rw [Option.any_some, Bool.eq_false_iff, ne_eq, groupAddress_iff, he x rfl]
      decide
  refine if_neg ?_
  rw [hnone _ fun x hx => h x (.inl hx), hnone _ fun x hx => h x (.inr hx)]
  decide

/-- Settles O45: the refusals of the three writes, and what each replaces. -/
theorem tableWritesReplace : Obligations.TableWritesReplace := by
  intro s t q rest
  refine ⟨?_, ?_, fun hheads => ⟨fun hout => ?_, fun hin => ?_⟩⟩
  · rintro hheads _ _ rfl rfl
    exact ⟨fun hgroup => ⟨_, rfl, runRefused_runHead (heads_advance hheads t) (runControllerSet_refused hgroup)⟩,
      fun hfine => ⟨_, rfl, runDone_runHead (heads_advance hheads t) (runControllerSet_taken hfine) rfl⟩⟩
  · rintro hheads _ rfl
    refine ⟨fun hout => ⟨_, rfl, runRefused_runHead (heads_advance hheads t) ?_⟩, fun hin => ?_⟩
    · unfold runFilterWrite
      rw [readFilter_out hout]
    · have hdone := runDone_runHead (heads_advance hheads t) (runFilterWrite_taken (s := s.advance t) hin) rfl
      exact ⟨_, _, rfl, (State.filter_setFilter (s.advance t) ..).trans (if_pos rfl),
        fun j hj => (State.filter_setFilter ..).trans (if_neg hj), rfl, hdone⟩
  · exact ⟨_, rfl, runRefused_runHead (heads_advance hheads t) (if_neg (Nat.not_le.mpr hout))⟩
  · have hbody : runMaskWrite q (s.advance t) =
        ((s.advance t).setMask (argument q.items 1) (BitVec.ofNat 32 (argument q.items 2)), .done false []) := if_pos hin
    have hdone := runDone_runHead (heads_advance hheads t) hbody rfl
    exact ⟨_, _, rfl, (State.mask_setMask (s.advance t) ..).trans (if_pos rfl),
      fun j hj => (State.mask_setMask ..).trans (if_neg hj), rfl, hdone⟩

/-! ### Flag sets (R169, R170, R177) -/

theorem mem_flagTable_iff (n : FlagName) (r : Nat) (sc : Scope) :
    (n, r, sc) ∈ flagTable ↔ n.rank = r ∧ n.scope = sc := by
  cases n <;> simp [flagTable, FlagName.rank, FlagName.scope, eq_comm]

theorem mem_flagNames (n : FlagName) : n ∈ flagNames := by cases n <;> decide

theorem flagOfRank_rank (n : FlagName) : flagOfRank n.rank = some n := by cases n <;> rfl

theorem rank_of_flagOfRank {r : Nat} {n : FlagName} (h : flagOfRank r = some n) : n.rank = r := by
  simpa using List.find?_some h

/-- Ranks that are all known spell their names. -/
theorem map_rank_filterMap {ranks : List Nat} (h : (ranks.filterMap flagOfRank).length = ranks.length) :
    (ranks.filterMap flagOfRank).map FlagName.rank = ranks := by
  induction ranks with
  | nil => rfl
  | cons r rs ih =>
    cases hr : flagOfRank r with
    | none =>
      rw [List.filterMap_cons_none hr] at h
      have hle := List.length_filterMap_le flagOfRank rs
      rw [List.length_cons] at h
      omega
    | some n =>
      rw [List.filterMap_cons_some hr] at h ⊢
      rw [List.map_cons, rank_of_flagOfRank hr, ih (Nat.succ.inj h)]

theorem filterMap_map_rank (names : List FlagName) : (names.map FlagName.rank).filterMap flagOfRank = names := by
  rw [List.filterMap_map]
  have hsome : (flagOfRank ∘ FlagName.rank) = some := funext flagOfRank_rank
  rw [hsome, List.filterMap_some]

theorem itemNats_eq (items : List Item) (id : Nat) :
    itemNats items id = (items.filter fun i => i.id = id).map fun i => beNat i.value := by
  unfold itemNats
  congr 2

/-- A flag set is the names whose ranks its items carry, and is not empty. -/
theorem readFlags_eq_some (items : List Item) (id : Nat) (names : List FlagName) :
    readFlags items id = some names ↔
      names ≠ [] ∧ names.map FlagName.rank = (items.filter fun i => i.id = id).map fun i => beNat i.value := by
  rw [← itemNats_eq]
  unfold readFlags
  refine ⟨fun h => ?_, fun ⟨hne, hranks⟩ => ?_⟩
  · by_cases hc : ((itemNats items id).isEmpty ||
        ((itemNats items id).filterMap flagOfRank).length != (itemNats items id).length) = true
    · rw [if_pos hc] at h
      cases h
    · rw [if_neg hc, Option.some.injEq] at h
      simp only [Bool.or_eq_true, bne_iff_ne, ne_eq, not_or, Decidable.not_not, List.isEmpty_iff] at hc
      obtain ⟨hne, hlen⟩ := hc
      have hmap := map_rank_filterMap hlen
      rw [h] at hmap
      exact ⟨fun hnil => hne (by rw [← hmap, hnil, List.map_nil]), hmap⟩
  · simp only [← hranks, filterMap_map_rank, List.length_map]
    refine if_neg ?_
    simp [hne]

/-! ### STATUS CLEAR, ALERT ENABLE (R169, R170) -/

theorem clearFlags_flagSet (fs : List Flag) (s : State) (f : Flag) :
    (s.clearFlags fs).flagSet f = (s.flagSet f && !decide (f ∈ fs)) := by
  unfold State.clearFlags
  induction fs generalizing s with
  | nil => simp
  | cons g gs ih =>
    rw [List.foldl_cons, ih, State.flagSet_writeFlag]
    by_cases hf : f = g <;> simp [hf]

theorem clearFlags_frame (fs : List Flag) (s : State) : s.clearFlags fs = { s with flags := (s.clearFlags fs).flags } := by
  unfold State.clearFlags
  induction fs generalizing s with
  | nil => rfl
  | cons g gs ih =>
    rw [List.foldl_cons]
    exact ih (s.writeFlag g false)

theorem enableAlerts_alertEnabled (names : List FlagName) (on : Bool) (s : State) (n : FlagName) :
    (s.enableAlerts names on).alertEnabled n = if n ∈ names then on else s.alertEnabled n := by
  unfold State.enableAlerts State.alertEnabled
  simp only
  generalize s.alertEnables = table
  induction names generalizing table with
  | nil => rfl
  | cons m ms ih =>
    rw [List.foldl_cons, ih, Tbl.get_set]
    by_cases hn : n = m <;> simp [hn]

/-- A STATUS CLEAR that clears the flags of a list. -/
theorem runStatusClear_taken {s : State} {q : Queued} {fs : List Flag} (h : readCleared q.items = some fs) :
    runStatusClear q s = (s.clearFlags fs, .done false ((s.clearFlags fs).summaryItems 1)) := by
  unfold runStatusClear
  rw [h]

theorem runStatusClear_refused {s : State} {q : Queued} (h : readCleared q.items = none) :
    runStatusClear q s = s.refuse .badParameter := by
  unfold runStatusClear
  rw [h]

section
variable {items : List Item}

theorem readCleared_noFlags (h : readFlags items 3 = none) : readCleared items = none := by
  unfold readCleared
  rw [h]

theorem readCleared_all {names : List FlagName} (h : readFlags items 3 = some names) (hall : argument items 1 = 3) :
    readCleared items = some (names.flatMap fun n => n.scope.instances.map fun i => ⟨n, i⟩) := by
  unfold readCleared
  rw [h]
  exact if_pos hall

theorem readCleared_noScope (hall : argument items 1 ≠ 3) (hsc : readScope items = none) : readCleared items = none := by
  unfold readCleared
  cases readFlags items 3 with
  | none => rfl
  | some names => simp only [hall, if_false, hsc]

theorem readCleared_scope {names : List FlagName} {sc : ScopeName} (h : readFlags items 3 = some names)
    (hall : argument items 1 ≠ 3) (hsc : readScope items = some sc) :
    readCleared items = if names.all fun n => n.scope == sc.scope then some (sc.flags names) else none := by
  unfold readCleared
  simp only [h, hall, if_false, hsc]

end

/-- A clearing run: the flags cleared, the summary code of what is left returned. -/
theorem runDone_statusClear {s : State} {t : Nat} {q : Queued} {rest : List Queued} (hheads : Heads s q rest 0x12)
    {fs : List Flag} (h : readCleared q.items = some fs) :
    RunDone ((s.advance t).clearFlags fs) ((s.advance t).runHead statusClearCode runStatusClear) q rest false
      (((s.advance t).clearFlags fs).summaryItems 1) := by
  refine runDone_runHead (heads_advance hheads t) (runStatusClear_taken h) ?_
  rw [clearFlags_frame]

/-! ### The summary code (R168) -/

theorem mem_allFlags (f : Flag) : f ∈ allFlags ↔ f.Exists := by
  unfold allFlags
  simp only [List.mem_flatMap, List.mem_map]
  have hname : (∃ n ∈ flagNames, ∃ i ∈ n.scope.instances, (⟨n, i⟩ : Flag) = f) ↔ f.inst ∈ f.name.scope.instances :=
    ⟨fun ⟨n, _, i, hi, h⟩ => h ▸ hi, fun h => ⟨f.name, mem_flagNames _, f.inst, h, rfl⟩⟩
  rw [hname]
  unfold Flag.Exists
  cases f.name.scope with
  | device => exact List.mem_singleton
  | auditorium =>
    simp only [Scope.instances, auditoria, List.mem_map, List.mem_range]
    exact ⟨fun ⟨i, hi, h⟩ => by omega, fun ⟨hlo, hhi⟩ => ⟨f.inst - 1, by omega, by omega⟩⟩
  | track =>
    simp only [Scope.instances, trackNumbers, List.mem_range]
    omega

/-- The flags stand in the order of the summary code: falling rank, then rising number within a name. -/
theorem allFlags_sorted : allFlags.Pairwise fun f g =>
    g.name.rank < f.name.rank ∨ (f.name = g.name ∧ f.inst < g.inst) := by
  unfold allFlags
  rw [List.pairwise_flatMap]
  have hranks : flagNames.Pairwise fun m n => n.rank < m.rank := by decide
  refine ⟨fun n _ => ?_, hranks.imp fun {m n} h f hf g hg => ?_⟩
  · rw [List.pairwise_map]
    have hinst : n.scope.instances.Pairwise (· < ·) := by cases n.scope <;> decide
    exact hinst.imp fun h => .inr ⟨rfl, h⟩
  · obtain ⟨i, -, rfl⟩ := List.mem_map.mp hf
    obtain ⟨j, -, rfl⟩ := List.mem_map.mp hg
    exact .inl h

theorem summary_none {s : State} (h : ∀ f : Flag, f.Exists → s.flagSet f = false) : s.summary = none := by
  unfold State.summary
  rw [List.find?_eq_none]
  intro f hf
  rw [h f ((mem_allFlags f).mp hf)]
  decide

theorem summary_highest {s : State} {f : Flag} (hexists : f.Exists) (hset : s.flagSet f = true)
    (hmax : ∀ g : Flag, g.Exists → s.flagSet g = true → g.name.rank < f.name.rank ∨ (g.name = f.name ∧ f.inst ≤ g.inst)) :
    s.summary = some f := by
  obtain ⟨pre, post, hsplit⟩ := List.append_of_mem ((mem_allFlags f).mpr hexists)
  have hsorted := allFlags_sorted
  rw [hsplit, List.pairwise_append] at hsorted
  unfold State.summary
  have hunset : pre.find? s.flagSet = none := List.find?_eq_none.mpr fun g hg => ?_
  · rw [hsplit, List.find?_append, hunset, Option.none_or, List.find?_cons_of_pos hset]
  have hg' : g.Exists := (mem_allFlags g).mp (hsplit ▸ List.mem_append_left _ hg)
  have hbefore := hsorted.2.2 g hg f (List.mem_cons_self ..)
  intro hon
  rcases hmax g hg' hon with hlt | ⟨hname, hle⟩
  · rcases hbefore with h | ⟨h, -⟩
    · omega
    · rw [h] at hlt
      omega
  · rcases hbefore with h | ⟨-, h⟩
    · rw [hname] at h
      omega
    · omega

/-- Settles O56: clearing, enabling, the snapshot, the summary code, setting events and flag sets. -/
theorem flagsEnablesAndSnapshot : Obligations.FlagsEnablesAndSnapshot := by
  refine ⟨?_, ?_, fun s id => ⟨fun h => ?_, fun f r sc hexists hset htable hmax => ?_⟩, mem_flagTable_iff, flagged_setFlag,
    readFlags_eq_some⟩
  · rintro s _ t q rest rfl
    have hrefused : ∀ {code : Nat} {body : Queued → State → State × Reply}, Heads s q rest code →
        body q (s.advance t) = (s.advance t).refuse .badParameter →
          RunRefused (s.advance t) ((s.advance t).runHead code body) q rest .badParameter :=
      fun hheads hbody => runRefused_runHead (heads_advance hheads t) hbody
    refine ⟨fun hheads => ⟨_, rfl, fun h => ?_, fun names h => ⟨fun hall => ?_, fun hall hsc => ?_,
      fun sc hall hsc => ⟨fun hforeign => ?_, fun hown => ?_⟩⟩⟩, fun hheads => ⟨_, rfl, fun hbad => ?_, fun names hon h => ?_⟩⟩
    · exact hrefused hheads (runStatusClear_refused (readCleared_noFlags h))
    · refine ⟨_, runDone_statusClear hheads (readCleared_all h hall), clearFlags_frame _ _, fun f => ?_⟩
      rw [clearFlags_flagSet]
      have hmem : f ∈ (names.flatMap fun n => n.scope.instances.map fun i => (⟨n, i⟩ : Flag)) ↔
          f.name ∈ names ∧ f.inst ∈ f.name.scope.instances := by
        simp only [List.mem_flatMap, List.mem_map]
        exact ⟨fun ⟨n, hn, i, hi, he⟩ => he ▸ ⟨hn, hi⟩, fun ⟨hn, hi⟩ => ⟨f.name, hn, f.inst, hi, rfl⟩⟩
      simp only [hmem, Bool.decide_and]
      rfl
    · exact hrefused hheads (runStatusClear_refused (readCleared_noScope hall hsc))
    · obtain ⟨n, hn, hne⟩ := hforeign
      refine hrefused hheads (runStatusClear_refused ((readCleared_scope h hall hsc).trans (if_neg fun hyes => hne ?_)))
      exact beq_iff_eq.mp (List.all_eq_true.mp hyes n hn)
    · have hyes : (names.all fun n => n.scope == sc.scope) = true :=
        List.all_eq_true.mpr fun n hn => beq_iff_eq.mpr (hown n hn)
      exact ⟨_, runDone_statusClear hheads ((readCleared_scope h hall hsc).trans (if_pos hyes)), clearFlags_frame _ _,
        fun f => clearFlags_flagSet _ _ f⟩
    · refine hrefused hheads ?_
      unfold runAlertEnable
      rcases hbad with hbad | hbad
      · simp only [yesNo_eq_none.mpr hbad]
      · cases yesNo (argument q.items 1) <;> simp only [hbad]
    · refine ⟨_, runDone_runHead (heads_advance hheads t)
        (v := (s.advance t).enableAlerts names (argument q.items 1 == 1)) ?_ rfl, rfl,
        fun n => enableAlerts_alertEnabled ..⟩
      unfold runAlertEnable
      simp only [yesNo_of_le hon, h]
  · rintro s _ t q rest _ rfl hheads rfl
    refine ⟨_, rfl, fun hbad => ?_, fun hok => ?_⟩
    · refine runRefused_runHead (heads_advance hheads t) ?_
      unfold runStatisticsSnapshot
      simp only [yesNo_eq_none.mpr hbad]
    · refine ⟨_, runDone_runHead (heads_advance hheads t)
        (v := (s.advance t).takeSnapshot ((itemNat q.items 1).getD 0 == 1)) ?_ rfl, fun c => rfl, rfl, fun h c => ?_,
        fun h => ?_, rfl⟩
      · unfold runStatisticsSnapshot
        simp only [yesNo_of_le hok]
      · rw [h]
        rfl
      · rw [h]
        rfl
  · unfold State.summaryItems
    rw [summary_none h]
    rfl
  · obtain ⟨rfl, rfl⟩ := (mem_flagTable_iff f.name r sc).mp htable
    unfold State.summaryItems
    rw [summary_highest hexists hset hmax]
    change [dataItem id 1 f.name.rank, dataItem (id + 1) 1 f.name.scope.code, dataItem (id + 2) 1 f.inst] = _
    cases f.name.scope <;> rfl

end Sys2Proof.Machine

/-! PROOFS. The values of data items (R179, section 11.3): byte strings, signed values, absent ones, and the cut of a RESULT
that would exceed its frame. -/

namespace Sys2Proof.Machine

/-! ### Byte strings -/

theorem length_beBytes (w v : Nat) : (beBytes w v).length = w := by
  induction w with
  | zero => rfl
  | succ w ih => exact congrArg Nat.succ ih

theorem foldl_beNat (bs : List Byte) (n : Nat) :
    bs.foldl (fun n b => n * 256 + b.toNat) n = n * 256 ^ bs.length + beNat bs := by
  unfold beNat
  induction bs generalizing n with
  | nil => simp
  | cons b bs ih =>
    rw [List.foldl_cons, List.foldl_cons, ih, ih (0 * 256 + b.toNat), List.length_cons, Nat.pow_succ]
    ring

/-- Most significant byte first. -/
theorem beNat_cons (b : Byte) (bs : List Byte) : beNat (b :: bs) = b.toNat * 256 ^ bs.length + beNat bs := by
  have h : beNat (b :: bs) = bs.foldl (fun n b => n * 256 + b.toNat) (0 * 256 + b.toNat) := rfl
  rw [h, foldl_beNat, Nat.zero_mul, Nat.zero_add]

theorem beNat_beBytes (w v : Nat) : beNat (beBytes w v) = v % 256 ^ w := by
  induction w with
  | zero => rw [Nat.pow_zero, Nat.mod_one]; rfl
  | succ w ih =>
    have hbyte : (BitVec.ofNat 8 (v / 256 ^ w)).toNat = v / 256 ^ w % 256 := BitVec.toNat_ofNat ..
    show beNat (BitVec.ofNat 8 (v / 256 ^ w) :: beBytes w v) = _
    rw [beNat_cons, length_beBytes, ih, hbyte, Nat.pow_succ, Nat.mod_mul]
    ring

theorem beNat_beSigned (w : Nat) (i : Int) : (beNat (beSigned w i) : Int) = i % (256 ^ w : Nat) := by
  have hpos : (0 : Int) < (256 ^ w : Nat) := by positivity
  have hnonneg := Int.emod_nonneg i (ne_of_gt hpos)
  have hlt := Int.emod_lt_of_pos i hpos
  unfold beSigned
  rw [beNat_beBytes, Nat.mod_eq_of_lt (by omega), Int.toNat_of_nonneg hnonneg]

/-! ### The cut of a RESULT (section 11.3) -/

/-- The bytes that items take. -/
def itemsSize (items : List Item) : Nat := (items.map itemSize).sum

/-- The items that fit are as many of the first ones as the budget allows. -/
theorem fitItems_spec (budget : Nat) (items : List Item) :
    ∃ rest, items = fitItems budget items ++ rest ∧ itemsSize (fitItems budget items) ≤ budget ∧
      ∀ i ∈ rest.head?, budget < itemsSize (fitItems budget items) + itemSize i := by
  induction items generalizing budget with
  | nil => exact ⟨[], rfl, Nat.zero_le _, by simp⟩
  | cons i is ih =>
    by_cases hi : itemSize i ≤ budget
    · obtain ⟨rest, hsplit, hsize, hnext⟩ := ih (budget - itemSize i)
      have hfit : fitItems budget (i :: is) = i :: fitItems (budget - itemSize i) is := if_pos hi
      have hsum : itemsSize (i :: fitItems (budget - itemSize i) is) =
          itemSize i + itemsSize (fitItems (budget - itemSize i) is) := by
        unfold itemsSize
        rw [List.map_cons, List.sum_cons]
      rw [hfit]
      refine ⟨rest, congrArg (i :: ·) hsplit, ?_, fun j hj => ?_⟩
      · omega
      · have := hnext j hj
        omega
    · have hfit : fitItems budget (i :: is) = [] := if_neg hi
      rw [hfit]
      refine ⟨i :: is, rfl, Nat.zero_le _, fun j hj => ?_⟩
      cases hj
      show budget < 0 + itemSize i
      omega

theorem cutItems_fits {items : List Item} (h : itemsSize items ≤ 1483) : cutItems items = items := if_pos h

theorem cutItems_cut {items : List Item} (h : 1483 < itemsSize items) :
    cutItems items = fitItems 1481 items ++ [⟨255, []⟩] := if_neg (Nat.not_le.mpr h)

/-! ### Sums of distinct powers of two -/

/-- The sum of the powers that `p` picks of falling exponents has just those bits, all below a bound on the exponents. -/
theorem sumPowers_spec (p : Nat → Bool) {es : List Nat} (h : es.Pairwise (· > ·)) {m : Nat} (hm : ∀ e ∈ es, e < m) :
    ((es.map fun e => if p e then 2 ^ e else 0).sum < 2 ^ m) ∧
      ∀ i, (es.map fun e => if p e then 2 ^ e else 0).sum.testBit i = true ↔ i ∈ es ∧ p i = true := by
  induction es generalizing m with
  | nil => exact ⟨Nat.two_pow_pos m, fun i => by simp⟩
  | cons e es ih =>
    obtain ⟨hhead, htail⟩ := List.pairwise_cons.mp h
    obtain ⟨hlt, hbits⟩ := ih htail hhead
    have hem : e + 1 ≤ m := hm e (List.mem_cons_self ..)
    have hpow : 2 ^ (e + 1) ≤ 2 ^ m := Nat.pow_le_pow_right (by decide) hem
    rw [Nat.pow_succ] at hpow
    have hnotin : e ∉ es := fun he => Nat.lt_irrefl e (hhead e he)
    rw [List.map_cons, List.sum_cons]
    by_cases hp : p e = true
    · rw [if_pos hp]
      refine ⟨by omega, fun i => ?_⟩
      rcases Nat.lt_trichotomy i e with hi | rfl | hi
      · rw [Nat.testBit_two_pow_add_gt hi, hbits, List.mem_cons]
        simp [Nat.ne_of_lt hi]
      · rw [Nat.testBit_two_pow_add_eq, Nat.testBit_lt_two_pow hlt]
        simp [hp]
      · have hbig : 2 ^ (e + 1) ≤ 2 ^ i := Nat.pow_le_pow_right (by decide) hi
        rw [Nat.pow_succ] at hbig
        rw [Nat.testBit_lt_two_pow (by omega)]
        simp only [Bool.false_eq_true, List.mem_cons, false_iff, not_and_or, not_or]
        exact .inl ⟨Nat.ne_of_gt hi, fun hmem => Nat.lt_asymm hi (hhead i hmem)⟩
    · rw [if_neg hp, Nat.zero_add]
      refine ⟨by omega, fun i => ?_⟩
      rw [hbits, List.mem_cons]
      by_cases hi : i = e
      · subst hi
        simp [hp]
      · simp [hi]

/-- The set flags of one track, auditorium or device as one number (R179). -/
theorem flagBits_spec (s : State) (sc : Scope) (inst : Nat) : FlagBits s sc inst (s.flagBits sc inst) := by
  have hexps : (flagNames.map fun n => n.rank - 1).Pairwise (· > ·) := by decide
  have hbound : ∀ e ∈ flagNames.map fun n => n.rank - 1, e < 12 := by decide
  have hsum : s.flagBits sc inst = ((flagNames.map fun n => n.rank - 1).map fun e =>
      if (flagOfRank (e + 1)).any (fun n => n.scope = sc && s.flagSet ⟨n, inst⟩) then 2 ^ e else 0).sum := by
    unfold State.flagBits
    rw [List.map_map]
    refine congrArg List.sum (List.map_congr_left fun n _ => ?_)
    have hrank : n.rank - 1 + 1 = n.rank := by cases n <;> rfl
    simp only [Function.comp_apply, hrank, flagOfRank_rank, Option.any_some, Bool.and_eq_true, decide_eq_true_eq]
  intro i
  rw [hsum, (sumPowers_spec _ hexps hbound).2]
  refine ⟨fun ⟨_, h⟩ => ?_, fun ⟨n, hrank, hsc, hset⟩ => ⟨?_, ?_⟩⟩
  · cases hn : flagOfRank (i + 1) with
    | none =>
      rw [hn] at h
      cases h
    | some n =>
      rw [hn, Option.any_some, Bool.and_eq_true, decide_eq_true_eq] at h
      exact ⟨n, rank_of_flagOfRank hn, h⟩
  · exact List.mem_map.mpr ⟨n, mem_flagNames n, by omega⟩
  · rw [← hrank, flagOfRank_rank, Option.any_some, hset]
    simp [hsc]

/-! ### Records and ranges of SUBSCRIPTION READ (R152) -/

theorem code_state (r : Subscription) :
    r.state.code = if r.score < 64 then 0 else if r.score < 128 then 1 else if r.score < 256 then 2 else 3 := by
  unfold Subscription.state subscriptionState
  split
  · rfl
  · split
    · rfl
    · split <;> rfl

/-- A flag of weight `k` in a byte of flags. -/
theorem mul_boolNat (k : Nat) (b : Bool) : k * boolNat b = if b then k else 0 := by
  cases b
  · exact Nat.mul_zero k
  · exact Nat.mul_one k

theorem boolNat_eq (b : Bool) : boolNat b = if b then 1 else 0 := rfl

theorem length_bytes (r : Subscription) : r.bytes.length = 47 := by
  unfold Subscription.bytes
  simp only [List.length_append, length_beBytes]

theorem bytes_eq (r : Subscription) : r.bytes =
    beBytes 6 r.handle ++ beBytes 1 r.auditorium ++ beBytes 1 r.track ++ beBytes 1 r.band.val ++
      beBytes 1 (if r.score < 64 then 0 else if r.score < 128 then 1 else if r.score < 256 then 2 else 3) ++
      beBytes 2 r.score ++ beBytes 8 r.joinTime ++ beBytes 8 (r.lastReport.getD 0) ++ beBytes 2 (r.lastSeq.getD 0) ++
      beBytes 8 (r.window.getD 0) ++ beBytes 8 (r.hold.getD 0) ++
      beBytes 1 ((if r.lastReport.isSome then 1 else 0) + (if r.lastSeq.isSome then 2 else 0) +
        (if r.window.isSome then 4 else 0) + (if r.hold.isSome then 8 else 0)) := by
  unfold Subscription.bytes
  rw [code_state, mul_boolNat, mul_boolNat, mul_boolNat, boolNat_eq]

/-- Every item of a range names an index item, ids 2 to 33. -/
theorem indexItems_ids {s : State} {first count : Nat} (h : count ≤ 32) :
    ∀ i ∈ s.indexItems first count, 2 ≤ i.id ∧ i.id ≤ 33 := by
  intro i hi
  obtain ⟨j, hj, rfl⟩ := List.mem_map.mp hi
  have hlt := List.mem_range.mp hj
  show 2 ≤ j + 2 ∧ j + 2 ≤ 33
  omega

/-- The count of a range is that of the index items which its RESULT carries (log entry 18). -/
theorem indexItemsHeld_eq {s : State} {first count : Nat} (h : count ≤ 32) :
    indexItemsHeld (s.indexItems first count) =
      ((cutItems (s.rangeItems first count)).filter fun i => 2 ≤ i.id ∧ i.id ≤ 33).length := by
  have hids := indexItems_ids (s := s) (first := first) h
  have hhead : itemSize (dataItem 1 1 (indexItemsHeld (s.indexItems first count))) = 3 := rfl
  have hsize : itemsSize (s.rangeItems first count) = 3 + itemsSize (s.indexItems first count) := by
    unfold State.rangeItems itemsSize
    rw [List.map_cons, List.sum_cons, hhead]
  have hkeep : ∀ is : List Item, (∀ i ∈ is, 2 ≤ i.id ∧ i.id ≤ 33) →
      (is.filter fun i => 2 ≤ i.id ∧ i.id ≤ 33) = is := fun is his =>
    List.filter_eq_self.mpr fun i hi => decide_eq_true (his i hi)
  have hone : ¬(2 ≤ (dataItem 1 1 (indexItemsHeld (s.indexItems first count))).id ∧
      (dataItem 1 1 (indexItemsHeld (s.indexItems first count))).id ≤ 33) := fun hno => absurd (show 2 ≤ 1 from hno.1) (by decide)
  by_cases hfit : 3 + itemsSize (s.indexItems first count) ≤ 1483
  · have hheld : indexItemsHeld (s.indexItems first count) = (s.indexItems first count).length := if_pos hfit
    rw [cutItems_fits (by omega)]
    unfold State.rangeItems
    rw [List.filter_cons_of_neg (by simpa using hone), hkeep _ hids, hheld]
  · have hheld : indexItemsHeld (s.indexItems first count) = (fitItems 1478 (s.indexItems first count)).length :=
      if_neg hfit
    obtain ⟨rest, hsplit, -, -⟩ := fitItems_spec 1478 (s.indexItems first count)
    have hids' : ∀ i ∈ fitItems 1478 (s.indexItems first count), 2 ≤ i.id ∧ i.id ≤ 33 := fun i hi =>
      hids i (hsplit ▸ List.mem_append_left _ hi)
    have hcut : fitItems 1481 (s.rangeItems first count) =
        dataItem 1 1 (indexItemsHeld (s.indexItems first count)) :: fitItems 1478 (s.indexItems first count) :=
      if_pos (by rw [hhead]; decide)
    rw [cutItems_cut (by omega), hcut, List.cons_append, List.filter_cons_of_neg (by simpa using hone),
      List.filter_append, hkeep _ hids', hheld]
    simp

end Sys2Proof.Machine

/-! PROOFS. The six reads (O47): their bodies, and the items of each. -/

namespace Sys2Proof.Machine

/-! ### The runs of the reads -/

section
variable {s : State} {t : Nat} {q : Queued} {rest : List Queued} {code : Nat} {body : Queued → State → State × Reply}

/-- A read in its range: nothing changes but the run's end. -/
theorem runDone_read {items : List Item} (h : Heads s q rest code)
    (hbody : body q (s.advance t) = (s.advance t, .done false items)) :
    RunDone (s.advance t) ((s.advance t).runHead code body) q rest false items :=
  runDone_runHead (heads_advance h t) hbody rfl

theorem runRefused_read {r : Reason} (h : Heads s q rest code) (hbody : body q (s.advance t) = (s.advance t).refuse r) :
    RunRefused (s.advance t) ((s.advance t).runHead code body) q rest r :=
  runRefused_runHead (heads_advance h t) hbody

end

theorem auditoriumNumber_eq_false {a : Nat} (h : ¬(1 ≤ a ∧ a ≤ 24)) : auditoriumNumber a = false := decide_eq_false h
theorem auditoriumNumber_eq_true {a : Nat} (h : 1 ≤ a ∧ a ≤ 24) : auditoriumNumber a = true := decide_eq_true h

section
variable {s : State} {q : Queued}

theorem runClockRead_out (h : ¬(1 ≤ argument q.items 1 ∧ argument q.items 1 ≤ 24)) :
    runClockRead q s = s.refuse .badParameter := by
  unfold runClockRead
  simp only [auditoriumNumber_eq_false h, Bool.not_false, if_true]

theorem runClockRead_closing (h : 1 ≤ argument q.items 1 ∧ argument q.items 1 ≤ 24)
    (hl : s.lifecycle (argument q.items 1) = .closing) : runClockRead q s = s.refuse .wrongState := by
  unfold runClockRead
  simp only [auditoriumNumber_eq_true h, Bool.not_true, Bool.false_eq_true, if_false, hl, if_true]

theorem runClockRead_read (h : 1 ≤ argument q.items 1 ∧ argument q.items 1 ≤ 24)
    (hl : s.lifecycle (argument q.items 1) ≠ .closing) :
    runClockRead q s = (s, .done false (s.clockItems (argument q.items 1))) := by
  unfold runClockRead
  simp only [auditoriumNumber_eq_true h, Bool.not_true, Bool.false_eq_true, if_false, hl]

end

/-! ### Scopes (R168, R172) -/

section
variable {items : List Item}

theorem readScope_zero (h : argument items 1 = 0) : readScope items = some .device := by
  unfold readScope
  simp only [h]

theorem readScope_one (h : argument items 1 = 1) :
    readScope items = (itemNat items 2).bind fun a => if auditoriumNumber a then some (.auditorium a) else none := by
  unfold readScope
  rw [h]
  cases itemNat items 2 <;> rfl

theorem readScope_two (h : argument items 1 = 2) :
    readScope items = (itemNat items 2).bind fun k => if k ≤ 95 then some (.track k) else none := by
  unfold readScope
  rw [h]
  cases itemNat items 2 <;> rfl

theorem readScope_other {n : Nat} (h : argument items 1 = n + 3) : readScope items = none := by
  unfold readScope
  rw [h]
  cases itemNat items 2 <;> rfl

end

theorem readScope_device (items : List Item) : readScope items = some .device ↔ argument items 1 = 0 := by
  match h : argument items 1 with
  | 0 => simp [readScope_zero h]
  | 1 => simp [readScope_one h, Option.bind_eq_some_iff]
  | 2 => simp [readScope_two h, Option.bind_eq_some_iff]
  | n + 3 => simp [readScope_other h]

theorem readScope_auditorium (items : List Item) (a : Nat) :
    readScope items = some (.auditorium a) ↔ argument items 1 = 1 ∧ itemNat items 2 = some a ∧ 1 ≤ a ∧ a ≤ 24 := by
  match h : argument items 1 with
  | 0 => simp [readScope_zero h]
  | 1 =>
    simp only [readScope_one h, Option.bind_eq_some_iff, Option.ite_none_right_eq_some, Option.some.injEq,
      ScopeName.auditorium.injEq, auditoriumNumber_eq_true_iff, true_and]
    exact ⟨fun ⟨b, hb, hin, he⟩ => he ▸ ⟨hb, hin⟩, fun ⟨hb, hin⟩ => ⟨a, hb, hin, rfl⟩⟩
  | 2 => simp [readScope_two h, Option.bind_eq_some_iff]
  | n + 3 => simp [readScope_other h]

theorem readScope_track (items : List Item) (k : Nat) :
    readScope items = some (.track k) ↔ argument items 1 = 2 ∧ itemNat items 2 = some k ∧ k ≤ 95 := by
  match h : argument items 1 with
  | 0 => simp [readScope_zero h]
  | 1 => simp [readScope_one h, Option.bind_eq_some_iff]
  | 2 =>
    simp only [readScope_two h, Option.bind_eq_some_iff, Option.ite_none_right_eq_some, Option.some.injEq,
      ScopeName.track.injEq, true_and]
    exact ⟨fun ⟨b, hb, hin, he⟩ => he ▸ ⟨hb, hin⟩, fun ⟨hb, hin⟩ => ⟨k, hb, hin, rfl⟩⟩
  | n + 3 => simp [readScope_other h]

/-! ### STATISTICS READ (R172) -/

section
variable {items : List Item}

theorem readCounters_filters (h : argument items 1 = 3) :
    readCounters items = some ((List.range 64).map Counter.filterHits) := if_pos h

/-- The counters of a named scope. -/
theorem readCounters_scope (h : argument items 1 ≠ 3) {sc : Option ScopeName} (hsc : readScope items = sc) :
    (sc = none → readCounters items = none) ∧
      (sc = some .device → readCounters items = some (deviceCounters.map Counter.device)) ∧
      (∀ a, sc = some (.auditorium a) → readCounters items = some (auditoriumCounters.map (Counter.auditorium a))) ∧
      ∀ k, sc = some (.track k) → readCounters items = some (trackCounters.map (Counter.track k)) := by
  unfold readCounters
  rw [if_neg h, hsc]
  refine ⟨?_, ?_, fun a => ?_, fun k => ?_⟩ <;> rintro rfl <;> rfl

end

section
variable {s : State} {q : Queued}

theorem runStatisticsRead_read {cs : List Counter} (h : readCounters q.items = some cs) :
    runStatisticsRead q s = (s, .done false (s.statisticsItems cs)) := by
  unfold runStatisticsRead
  rw [h]

theorem runStatisticsRead_refused (h : readCounters q.items = none) : runStatisticsRead q s = s.refuse .badParameter := by
  unfold runStatisticsRead
  rw [h]

theorem runStatusRead_read {sc : ScopeName} (h : readScope q.items = some sc) :
    runStatusRead q s = (s, .done false (s.statusItems sc)) := by
  unfold runStatusRead
  rw [h]

theorem runStatusRead_refused (h : readScope q.items = none) : runStatusRead q s = s.refuse .badParameter := by
  unfold runStatusRead
  rw [h]

end

theorem statisticsItems_length (s : State) (cs : List Counter) : (s.statisticsItems cs).length = cs.length + 1 := by
  unfold State.statisticsItems
  rw [List.length_cons, List.length_map, List.length_zipIdx]

theorem statisticsItems_getElem (s : State) {cs : List Counter} {j : Nat} {c : Counter} (h : cs[j]? = some c) :
    (s.statisticsItems cs)[j + 1]? = some (dataItem (j + 2) 4 (s.snapshotCount c)) := by
  unfold State.statisticsItems
  rw [List.getElem?_cons_succ, List.getElem?_map, List.getElem?_zipIdx, h]
  simp

/-! ### SUBSCRIPTION READ (R152) -/

section
variable {s : State} {q : Queued}

theorem runSubscriptionRead_range {first count : Nat} (h1 : itemNat q.items 1 = some first)
    (h2 : itemNat q.items 2 = some count) (h3 : itemNat q.items 3 = none) :
    runSubscriptionRead q s = if first ≤ 4095 ∧ 1 ≤ count ∧ count ≤ 32 then (s, .done false (s.rangeItems first count))
      else s.refuse .badParameter := by
  unfold runSubscriptionRead
  rw [h1, h2, h3]

theorem runSubscriptionRead_handle {h : Nat} (h1 : itemNat q.items 1 = none) (h2 : itemNat q.items 2 = none)
    (h3 : itemNat q.items 3 = some h) :
    runSubscriptionRead q s = if h = 0 then s.refuse .badParameter else (s, .done false (s.handleItems h)) := by
  unfold runSubscriptionRead
  rw [h1, h2, h3]

theorem runSubscriptionRead_mixed (h : (itemNat q.items 1).isSome ≠ (itemNat q.items 2).isSome ∨
    (itemNat q.items 1).isSome = (itemNat q.items 3).isSome) : runSubscriptionRead q s = s.refuse .badParameter := by
  unfold runSubscriptionRead
  cases h1 : itemNat q.items 1 with
  | none =>
    cases h2 : itemNat q.items 2 with
    | none =>
      cases h3 : itemNat q.items 3 with
      | none => rfl
      | some n => simp [h1, h2, h3] at h
    | some m => rfl
  | some first =>
    cases h2 : itemNat q.items 2 with
    | none => rfl
    | some m =>
      cases h3 : itemNat q.items 3 with
      | none => simp [h1, h2, h3] at h
      | some n => rfl

theorem handleItems_free {h : Nat} (hfree : s.findHandle h = none) : s.handleItems h = [⟨1, []⟩, ⟨2, []⟩] := by
  unfold State.handleItems
  rw [hfree]

theorem handleItems_held {h i : Nat} {r : Subscription} (hheld : s.findHandle h = some (i, r)) :
    s.handleItems h = [dataItem 1 2 i, ⟨2, r.bytes⟩] := by
  unfold State.handleItems
  rw [hheld]

end

/-! ### STATUS READ (R168, Table 11-14) -/

theorem freeSlots_eq (s : State) (kind : TrackKind) :
    s.freeSlots kind = (if kind = .caption then 2048 else 4096) - s.reserved kind := by
  cases kind <;> rfl

theorem sorted_boundTracks (s : State) (a : Nat) : (s.boundTracks a).Pairwise (· < ·) :=
  List.Pairwise.filter _ List.pairwise_lt_range

theorem classOccupancy_eq (g : Egress) (c : EgressClass) :
    g.classOccupancy c = (g.waiting.filter fun e => e.cls = c).length +
      if g.inFlight.map Entry.cls = some c then 1 else 0 := by
  unfold Egress.classOccupancy
  have hwait : (g.waiting.filter fun e => e.cls == c) = g.waiting.filter fun e => e.cls = c :=
    List.filter_congr fun e _ => by rw [Bool.eq_iff_iff, beq_iff_eq, decide_eq_true_eq]
  rw [hwait]
  cases g.inFlight with
  | none => rfl
  | some e =>
    rw [Option.any_some, Option.map_some]
    by_cases h : e.cls = c <;> simp [h]

theorem sending_iff (g : Egress) : g.sending = true ↔ g.inFlight ≠ none ∨ g.wireTail ≠ none := by
  unfold Egress.sending
  rw [Bool.or_eq_true, Option.isSome_iff_ne_none, Option.isSome_iff_ne_none]

theorem boolNat_iff {b : Bool} {p : Prop} [Decidable p] (h : b = true ↔ p) : boolNat b = if p then 1 else 0 := by
  unfold boolNat
  by_cases hp : p
  · rw [if_pos (h.mpr hp), if_pos hp]
  · rw [if_neg fun hb => hp (h.mp hb), if_neg hp]

theorem boolNat_not (b : Bool) : boolNat (!b) = if b then 0 else 1 := by cases b <;> rfl

theorem deviceStatus_eq (s : State) (occ : EgressClass → Nat)
    (hocc : occ = fun c => (s.egress.waiting.filter fun e => e.cls = c).length +
      (if s.egress.inFlight.map Entry.cls = some c then 1 else 0)) :
    s.deviceStatus =
      [dataItem 1 2 (s.flagBits .device 0), dataItem 2 1 (if s.contentUp then 0 else 1),
        dataItem 3 1 (if s.deliveryUp then 0 else 1), dataItem 4 2 (s.freeSlots .caption),
        dataItem 5 2 (s.freeSlots .description),
        dataItem 6 2 (s.egress.waiting.length + (if s.egress.inFlight.isSome then 1 else 0)), dataItem 7 2 (occ .audio),
        dataItem 8 2 (occ .caption), dataItem 9 2 (occ .beacon), dataItem 10 2 (occ .catchup),
        dataItem 11 1 (if s.egress.inFlight ≠ none ∨ s.egress.wireTail ≠ none then 1 else 0),
        dataItem 12 1 (if s.egress.pauseEnd ≠ none then 1 else 0), dataOption 13 6 s.controllers.entry0,
        dataOption 14 6 s.controllers.entry1, dataItem 15 1 s.queue.length] ++ s.summaryItems 16 := by
  have hocc' : ∀ c, occ c = s.egress.classOccupancy c := fun c => by rw [hocc, classOccupancy_eq]
  rw [hocc', hocc', hocc', hocc', ← boolNat_iff (sending_iff s.egress),
    ← boolNat_iff (Option.isSome_iff_ne_none (o := s.egress.pauseEnd)), ← boolNat_not, ← boolNat_not]
  rfl

theorem auditoriumStatus_eq (s : State) (a : Nat) :
    s.auditoriumStatus a =
      [dataItem 1 2 (s.flagBits .auditorium a), dataItem 2 1 (s.auditorium a).lifecycle.code,
        dataItem 3 1 (s.boundTracks a).length,
        ⟨4, (s.boundTracks a).flatMap fun k => beBytes 1 k ++ beBytes 1 (((s.track k).map Track.slot).getD 0)⟩,
        dataItem 5 1 (if (s.auditorium a).band1.enabled then 1 else 0), dataItem 6 8 (s.auditorium a).band1.offset,
        dataItem 7 1 (if (s.auditorium a).band2.enabled then 1 else 0), dataItem 8 8 (s.auditorium a).band2.offset,
        dataItem 9 1 (if (s.auditorium a).band3.enabled then 1 else 0), dataItem 10 8 (s.auditorium a).band3.offset] ++
          s.summaryItems 11 := rfl

/-- The items of STATUS READ of a track that its binding decides. -/
def State.trackHead (s : State) (k : Nat) : List Item :=
  [dataItem 1 2 (s.flagBits .track k), dataItem 2 1 (boolNat (s.track k).isSome),
    dataOption 3 1 ((s.track k).map fun x => x.kind.code), dataOption 4 1 ((s.track k).map Track.auditorium),
    dataItem 5 2 (((s.track k).map Track.occupancy).getD 0), dataItem 6 1 (((s.track k).map fun x => x.pace.code).getD 0),
    dataItem 7 1 (boolNat ((s.track k).any fun x => x.current.isSome))]

theorem trackHead_free {s : State} {k : Nat} (h : s.track k = none) :
    s.trackHead k = [dataItem 1 2 (s.flagBits .track k), dataItem 2 1 0, ⟨3, []⟩, ⟨4, []⟩, dataItem 5 2 0,
      dataItem 6 1 0, dataItem 7 1 0] := by
  unfold State.trackHead
  rw [h]
  rfl

theorem trackHead_bound {s : State} {k : Nat} {tr : Track} (h : s.track k = some tr) :
    s.trackHead k = [dataItem 1 2 (s.flagBits .track k), dataItem 2 1 1,
      dataItem 3 1 (if tr.kind = .caption then 1 else 2), dataItem 4 1 tr.auditorium,
      dataItem 5 2 (if tr.kind = .caption then tr.pending.length else tr.ring.length),
      dataItem 6 1 (if tr.pace = .holding then 1 else 0), dataItem 7 1 (if tr.current ≠ none then 1 else 0)] := by
  have hkind : tr.kind.code = if tr.kind = .caption then 1 else 2 := by cases tr.kind <;> rfl
  have hocc : tr.occupancy = if tr.kind = .caption then tr.pending.length else tr.ring.length := by
    unfold Track.occupancy
    cases tr.kind <;> rfl
  have hpace : tr.pace.code = if tr.pace = .holding then 1 else 0 := by cases tr.pace <;> rfl
  rw [← hkind, ← hocc, ← hpace, ← boolNat_iff (Option.isSome_iff_ne_none (o := tr.current))]
  unfold State.trackHead
  rw [h]
  rfl

/-- Settles O47: each read answers its items and changes nothing, and the items one by one. -/
theorem readsChangeNothing : Obligations.ReadsChangeNothing := by
  refine ⟨?_, ?_, ⟨?_, ?_, ?_, ?_⟩, ⟨?_, rfl, rfl, rfl, fun items => ⟨readScope_device items, readScope_auditorium items,
    readScope_track items⟩⟩, ⟨fun r => ⟨length_bytes r, bytes_eq r⟩, ?_, ?_⟩,
    fun w v => ⟨length_beBytes w v, beNat_beBytes w v⟩, beNat_cons, rfl,
    fun w i => ⟨length_beBytes .., beNat_beSigned w i⟩, fun _ _ _ => rfl, fun _ _ => rfl, fun _ _ _ => rfl, ?_, ?_⟩
  · rintro s _ t q rest _ rfl rfl
    refine ⟨fun hheads => ⟨fun hout => ?_, fun f hin hf => ?_⟩, fun hheads => ⟨fun hout => ?_, fun hlo hhi hl => ?_,
      fun c hlo hhi hl hc => ?_⟩, fun hheads => ⟨fun hout => ?_, fun hlo hhi => ?_⟩⟩
    · exact ⟨_, rfl, runRefused_read hheads (if_neg (Nat.not_le.mpr hout))⟩
    · subst hf
      exact ⟨_, rfl, runDone_read hheads (if_pos hin)⟩
    · exact ⟨_, rfl, runRefused_read hheads (runClockRead_out hout)⟩
    · exact ⟨_, rfl, runRefused_read hheads (runClockRead_closing ⟨hlo, hhi⟩ hl)⟩
    · subst hc
      exact ⟨_, rfl, runDone_read hheads (runClockRead_read ⟨hlo, hhi⟩ hl)⟩
    · refine ⟨_, rfl, runRefused_read hheads (if_neg ?_)⟩
      rw [auditoriumNumber_eq_false hout]
      decide
    · exact ⟨_, rfl, runDone_read hheads (if_pos (auditoriumNumber_eq_true ⟨hlo, hhi⟩))⟩
  · rintro s _ t q rest rfl
    refine ⟨fun hheads => ⟨_, rfl, fun h => runRefused_read hheads (runStatusRead_refused h),
      fun h => runDone_read hheads (runStatusRead_read h), fun a h => runDone_read hheads (runStatusRead_read h),
      fun k h => runDone_read hheads (runStatusRead_read h)⟩, fun hheads => ⟨_, rfl, fun h => ?_, fun h hsc => ?_,
      fun h hsc => ?_, fun a h hsc => ?_, fun k h hsc => ?_⟩, fun hheads => ⟨_, rfl, fun first count h1 h2 h3 => ⟨?_, ?_⟩,
      fun h h1 h2 h3 => ⟨fun hz => ?_, fun hz hfree => ?_, fun i r hz hheld => ?_⟩,
      fun h => runRefused_read hheads (runSubscriptionRead_mixed h)⟩⟩
    · exact runDone_read hheads (runStatisticsRead_read (readCounters_filters h))
    · exact runRefused_read hheads (runStatisticsRead_refused ((readCounters_scope h hsc).1 rfl))
    · exact runDone_read hheads (runStatisticsRead_read ((readCounters_scope h hsc).2.1 rfl))
    · exact runDone_read hheads (runStatisticsRead_read ((readCounters_scope h hsc).2.2.1 a rfl))
    · exact runDone_read hheads (runStatisticsRead_read ((readCounters_scope h hsc).2.2.2 k rfl))
    · intro hfirst hlo hhi
      exact runDone_read hheads ((runSubscriptionRead_range h1 h2 h3).trans (if_pos ⟨hfirst, hlo, hhi⟩))
    · intro hbad
      exact runRefused_read hheads ((runSubscriptionRead_range h1 h2 h3).trans (if_neg (by omega)))
    · exact runRefused_read hheads ((runSubscriptionRead_handle h1 h2 h3).trans (if_pos hz))
    · rw [← handleItems_free (s := s.advance t) hfree]
      exact runDone_read hheads ((runSubscriptionRead_handle h1 h2 h3).trans (if_neg hz))
    · rw [← handleItems_held (s := s.advance t) hheld]
      exact runDone_read hheads ((runSubscriptionRead_handle h1 h2 h3).trans (if_neg hz))
  · exact fun s => ⟨_, flagBits_spec s .device 0, deviceStatus_eq s⟩
  · rintro s a _ rfl
    exact ⟨_, flagBits_spec s .auditorium a, auditoriumStatus_eq s a⟩
  · exact fun s k => ⟨_, s.trackHead k, flagBits_spec s .track k, trackHead_free, fun _ => trackHead_bound, rfl⟩
  · refine fun s a k kind => ⟨⟨sorted_boundTracks s a, mem_boundTracks⟩, ?_⟩
    rw [freeSlots_eq]
    rfl
  · exact fun s cs => ⟨statisticsItems_length s cs, rfl, fun j c => statisticsItems_getElem s⟩
  · refine fun s first count => ⟨indexItemsHeld (s.indexItems first count), ?_, indexItemsHeld_eq⟩
    refine congrArg (fun is => dataItem 1 1 (indexItemsHeld (s.indexItems first count)) :: is) ?_
    refine List.map_congr_left fun j _ => ?_
    cases s.subscription (first + j) <;> rfl
  · intro c
    unfold HouseCheck.readItems
    cases c.mode with
    | none => cases c.outcome <;> rfl
    | some m => cases m <;> cases c.outcome <;> rfl
  · intro l
    cases l <;> rfl
  · intro items
    refine ⟨cutItems_fits, fun h => ?_⟩
    obtain ⟨rest, hsplit, hsize, hnext⟩ := fitItems_spec 1481 items
    exact ⟨_, rest, hsplit, cutItems_cut h, hsize, hnext⟩

end Sys2Proof.Machine

/-! PROOFS. LEAVE, REPORT, the report window and the detach hold, and DEVICE DETACH (O37 to O40). -/

namespace Sys2Proof.Machine

/-! ### Return frames (R136) -/

section
variable {s : State} {h a : Nat}

theorem takeReturn_closed (hno : ¬s.ReturnsArrive) (j : State) : s.takeReturn h a j = s :=
  if_neg fun hopen => hno ((deliveryOpen_iff s).mp hopen)

theorem takeReturn_malformed (hyes : s.ReturnsArrive) (hbad : h = 0 ∨ a = 0 ∨ 24 < a) (j : State) :
    s.takeReturn h a j = s.bumpDevice .returnMalformed := by
  have hm : returnMalformed h a = true := decide_eq_true (by omega)
  exact (if_pos ((deliveryOpen_iff s).mpr hyes)).trans (if_pos hm)

theorem takeReturn_judged (hr : Returned s h a) (j : State) : s.takeReturn h a j = j := by
  have hm : ¬returnMalformed h a = true := by
    have hh := hr.handle
    have ha := hr.range
    rw [returnMalformed, decide_eq_true_eq]
    omega
  exact (if_pos ((deliveryOpen_iff s).mpr hr.port)).trans (if_neg hm)

theorem Returned.advance (hr : Returned s h a) (t : Nat) : Returned (s.advance t) h a := ⟨hr.port, hr.handle, hr.range⟩

end

/-! ### The beacon deadline and the members (R116) -/

theorem beacon_updateBeacon_other (s : State) {a j : Nat} (h : j ≠ a) : (s.updateBeacon a).beacon j = s.beacon j :=
  (WithinShow.updateBeacon (p := fun _ => True) (cs := []) (fs := [])).shows.beacon j h

theorem beacon_updateBeacon_empty {s : State} {a : Nat} (h : s.memberSum a = 0) : (s.updateBeacon a).beacon a = none := by
  rw [beacon_updateBeacon]
  unfold State.beaconEligible
  simp [h]

theorem memberSum_updateBeacon (s : State) (a j : Nat) : (s.updateBeacon a).memberSum j = s.memberSum j := by
  rw [updateBeacon_eq]
  rfl

/-! ### A record freed (R144, R149) -/

/-- Record `i` freed with the member it was, and the beacon deadline looked at where it was one. -/
theorem freeRecord_spec (s : State) (i : Nat) (r : Subscription) :
    (s.freeRecord i r).subscription i = none ∧
      (∀ j, j ≠ i → (s.freeRecord i r).subscription j = s.subscription j) ∧
      (∀ k b, (s.freeRecord i r).memberCount k b =
        s.memberCount k b - if r.detached = false ∧ k = r.track ∧ b = r.band then 1 else 0) ∧
      (∀ j, j ≠ r.auditorium → (s.freeRecord i r).beacon j = s.beacon j) ∧
      (r.detached = false → (s.freeRecord i r).memberSum r.auditorium = 0 →
        (s.freeRecord i r).beacon r.auditorium = none) ∧
      s.freeRecord i r = { s with
        subscriptions := (s.freeRecord i r).subscriptions, members := (s.freeRecord i r).members
        beacons := (s.freeRecord i r).beacons } := by
  cases hd : r.detached with
  | true =>
    have hfree : s.freeRecord i r = s.setSubscription i none := if_pos hd
    rw [hfree]
    refine ⟨State.subscription_setSubscription_same .., fun j hj => ?_, fun k b => ?_, fun _ _ => rfl,
      fun h => absurd h (by decide), rfl⟩
    · rw [State.subscription_setSubscription, if_neg hj]
    · rw [if_neg fun h => absurd h.1 (by decide)]
      rfl
  | false =>
    have hfree : s.freeRecord i r = ((s.setSubscription i none).dropMember r.track r.band).updateBeacon r.auditorium :=
      if_neg (by rw [hd]; decide)
    have hpatrons := samePatrons_updateBeacon ((s.setSubscription i none).dropMember r.track r.band) r.auditorium
    have hsub : ∀ j, (((s.setSubscription i none).dropMember r.track r.band).updateBeacon r.auditorium).subscription j =
        (s.setSubscription i none).subscription j := fun j => by rw [updateBeacon_eq]; rfl
    rw [hfree]
    refine ⟨?_, fun j hj => ?_, fun k b => ?_, fun j hj => beacon_updateBeacon_other _ hj, fun _ hsum => ?_, ?_⟩
    · rw [hsub, State.subscription_setSubscription_same]
    · rw [hsub, State.subscription_setSubscription, if_neg hj]
    · rw [hpatrons.memberCount, memberCount_dropMember]
      simp only [true_and]
      rfl
    · rw [memberSum_updateBeacon] at hsum
      exact beacon_updateBeacon_empty hsum
    · rw [updateBeacon_eq]
      rfl

/-! ### LEAVE (R144) -/

section
variable {s : State} {f : LeaveFrame}

theorem judgeLeave_miss (h : ∀ i r, s.findHandle f.handle = some (i, r) → r.auditorium ≠ f.auditorium) :
    s.judgeLeave f = s.bumpDevice .leaveMiss := by
  unfold State.judgeLeave
  cases hf : s.findHandle f.handle with
  | none => rfl
  | some e => exact if_neg (h e.1 e.2 hf)

theorem judgeLeave_held {i : Nat} {r : Subscription} (h : s.findHandle f.handle = some (i, r))
    (ha : r.auditorium = f.auditorium) : s.judgeLeave f = (s.freeRecord i r).bumpAuditorium f.auditorium .leaves := by
  unfold State.judgeLeave
  rw [h]
  exact if_pos ha

end

/-- Settles O37: a LEAVE that does not arrive, is malformed, misses, or frees its record. -/
theorem leaveFreesRecord : Obligations.LeaveFreesRecord := by
  rintro s ea f _ rfl
  refine ⟨fun hno => congrArg Host.Outcome.next (takeReturn_closed (s := s.advance ea) hno _),
    fun hyes hbad => ⟨_, rfl, ?_⟩, fun hr => ⟨fun hmiss => ⟨_, rfl, ?_⟩, fun i r hf ha => ⟨_, rfl, ?_⟩⟩⟩
  · rw [State.leaveFrame, takeReturn_malformed (s := s.advance ea) hyes hbad]
    exact counted_bump ..
  · rw [State.leaveFrame, takeReturn_judged (hr.advance ea), judgeLeave_miss (s := s.advance ea) hmiss]
    exact counted_bump ..
  · obtain ⟨hfreed, hothers, hmembers, hbeacons, hstopped, hframe⟩ := freeRecord_spec (s.advance ea) i r
    have hcount := counted_bump ((s.advance ea).freeRecord i r) (.auditorium f.auditorium .leaves)
    have hlive : ∀ c, ((s.advance ea).freeRecord i r).count c = s.count c := fun c => by rw [hframe]; rfl
    rw [State.leaveFrame, takeReturn_judged (hr.advance ea), judgeLeave_held (s := s.advance ea) hf ha]
    refine ⟨hfreed, hothers, hmembers, ?_, fun c hc => (hcount.others c hc).trans (hlive c),
      fun j hj => hbeacons j (ha ▸ hj), ha ▸ hstopped, ?_⟩
    · exact hcount.counted.trans (by rw [hlive])
    · have hrest := congrArg (fun x : State => { x with
        live := (((s.advance ea).freeRecord i r).bumpAuditorium f.auditorium .leaves).live }) hframe
      exact hcount.frame.trans hrest

/-! ### A record enters DETACHED (R148) -/

section
variable {s b : State} {i e : Nat} {r : Subscription} {cs : List Counter}

/-- The table and the member counts as a detachment leaves them, its count, flag and beacon still to come. -/
def State.detachRecord (s : State) (i : Nat) (r : Subscription) (e : Nat) : State :=
  (s.setSubscription i (some { r with score := 256, window := none, hold := some (e + holdTime) })).dropMember r.track
    r.band

theorem subscription_of_eq {s t : State} (h : t.subscriptions = s.subscriptions) (j : Nat) :
    t.subscription j = s.subscription j := by unfold State.subscription; rw [h]

theorem memberCount_of_eq {s t : State} (h : t.members = s.members) (k : Nat) (c : Band) :
    t.memberCount k c = s.memberCount k c := by unfold State.memberCount State.trackMembers; rw [h]

theorem beacon_of_eq {s t : State} (h : t.beacons = s.beacons) (a : Nat) : t.beacon a = s.beacon a := by
  unfold State.beacon; rw [h]

theorem flagSet_of_eq {s t : State} (h : t.flags = s.flags) (f : Flag) : t.flagSet f = s.flagSet f := by
  unfold State.flagSet; rw [h]

theorem detachRecord_frame (s : State) (i : Nat) (r : Subscription) (e : Nat) : s.detachRecord i r e = { s with
    subscriptions := (s.detachRecord i r e).subscriptions, members := (s.detachRecord i r e).members } := rfl

theorem detach_eq (s : State) (i : Nat) (r : Subscription) (e : Nat) : s.detach i r e =
    (((s.detachRecord i r e).bump (.auditorium r.auditorium .detachments)).setFlag .deviceDetached
      r.auditorium).updateBeacon r.auditorium := rfl

theorem subscription_detachRecord (s : State) (i j : Nat) (r : Subscription) (e : Nat) :
    (s.detachRecord i r e).subscription j =
      if j = i then some { r with score := 256, window := none, hold := some (e + holdTime) } else s.subscription j :=
  State.subscription_setSubscription s i (some { r with score := 256, window := none, hold := some (e + holdTime) }) j

theorem memberCount_detachRecord (s : State) (i k : Nat) (r : Subscription) (e : Nat) (c : Band) :
    (s.detachRecord i r e).memberCount k c = s.memberCount k c - if k = r.track ∧ c = r.band then 1 else 0 :=
  memberCount_dropMember ..

/-- A record detached, from a state that differs from `s` in engine time and counts alone. -/
theorem detach_detaches (hb : b = { s with engineTime := b.engineTime, live := b.live }) (hcs : SameCounts s b cs)
    (hnot : Counter.auditorium r.auditorium .detachments ∉ cs) :
    Detaches i r e cs s (b.detach i r e) ∧ b.detach i r e = { s with
      engineTime := b.engineTime, subscriptions := (b.detach i r e).subscriptions, members := (b.detach i r e).members
      beacons := (b.detach i r e).beacons, flags := (b.detach i r e).flags, live := (b.detach i r e).live
      contentOut := (b.detach i r e).contentOut } := by
  have hsub := fun j => subscription_detachRecord b i j r e
  have hmem := fun k c => memberCount_detachRecord b i k r e c
  have hx := detachRecord_frame b i r e
  rw [detach_eq]
  generalize b.detachRecord i r e = x at hsub hmem hx
  have hy := counted_bump x (.auditorium r.auditorium .detachments)
  generalize x.bump (.auditorium r.auditorium .detachments) = y at hy
  have hz := flagged_setFlag y .deviceDetached r.auditorium
  generalize y.setFlag .deviceDetached r.auditorium = z at hz
  have hframe := updateBeacon_eq z r.auditorium
  have hsubz : z.subscriptions = x.subscriptions := by rw [hz.frame, hy.frame]
  have hmemz : z.members = x.members := by rw [hz.frame, hy.frame]
  have hbeaconz : z.beacons = s.beacons := by rw [hz.frame, hy.frame, hx, hb]
  have hflagsy : y.flags = s.flags := by rw [hy.frame, hx, hb]
  have hcountx : ∀ c, x.count c = b.count c := fun c => by rw [hx]; rfl
  have hcountz : ∀ c, c ≠ .device .alertsSent → z.count c = y.count c := fun c hc => hz.counts c (by simpa using hc)
  have hsubu : ∀ j, (z.updateBeacon r.auditorium).subscription j = x.subscription j :=
    subscription_of_eq (by rw [hframe, hsubz])
  refine ⟨⟨?_, fun j hj => ?_, fun k c => ?_, ?_, fun f hf => ?_, ?_, fun c hc => ?_, fun j hj => ?_, fun h => ?_⟩, ?_⟩
  · rw [hsubu, hsub, if_pos rfl]
    rfl
  · rw [hsubu, hsub, if_neg hj]
    exact subscription_of_eq (by rw [hb]) j
  · rw [memberCount_of_eq (s := x) (by rw [hframe, hmemz]), hmem]
    rw [memberCount_of_eq (s := s) (t := b) (by rw [hb])]
  · rw [updateBeacon_flagSet]
    exact hz.set
  · rw [updateBeacon_flagSet, hz.others f hf]
    exact flagSet_of_eq hflagsy f
  · rw [updateBeacon_count, hcountz _ (by simp), hy.counted, hcountx, hcs _ hnot]
  · have hc' : c ≠ .auditorium r.auditorium .detachments ∧ c ≠ .device .alertsSent ∧ c ∉ cs := by simpa using hc
    rw [updateBeacon_count, hcountz c hc'.2.1, hy.others c (by simpa using hc'.1), hcountx, hcs c hc'.2.2]
  · rw [beacon_updateBeacon_other z hj]
    exact beacon_of_eq hbeaconz j
  · rw [memberSum_updateBeacon] at h
    exact beacon_updateBeacon_empty h
  · generalize z.updateBeacon r.auditorium = u at hframe hsubu
    rw [hframe, hz.frame, hy.frame, hx, hb]

end

/-! ### The score moved (R145 to R148) -/

section
variable {s : State} {i e score : Nat} {r : Subscription}

theorem rescore_restarts (h : score < 256) : s.rescore i r score e =
    s.setSubscription i (some { r with
      score := score, window := some (e + 2 * (s.auditorium r.auditorium).params.reportPeriod * 1000000) }) :=
  if_neg (by omega)

theorem rescore_detaches (h : 256 ≤ score) : s.rescore i r score e = s.detach i r e := if_pos h

theorem restarted_spec (s : State) (i : Nat) (r : Subscription) : (s.setSubscription i (some r)).subscription i = some r ∧
    ∀ j, j ≠ i → (s.setSubscription i (some r)).subscription j = s.subscription j :=
  ⟨State.subscription_setSubscription_same .., fun j hj => by rw [State.subscription_setSubscription, if_neg hj]⟩

end

/-! ### REPORT (R145, R161) -/

section
variable {s : State} {ea : Nat} {f : ReportFrame}

theorem judgeReport_unknown (h : s.findHandle f.handle = none) : s.judgeReport ea f = s.bumpDevice .reportUnknown := by
  unfold State.judgeReport
  simp only [h]

variable {i : Nat} {r : Subscription}

theorem judgeReport_mismatch (h : s.findHandle f.handle = some (i, r))
    (hne : r.auditorium ≠ f.auditorium ∨ r.track ≠ f.track) : s.judgeReport ea f = s.bumpDevice .reportMismatch := by
  unfold State.judgeReport
  simp only [h, if_pos hne]

theorem judgeReport_matched (h : s.findHandle f.handle = some (i, r)) (ha : r.auditorium = f.auditorium)
    (hk : r.track = f.track) : s.judgeReport ea f =
      if r.detached then s.bumpAuditorium r.auditorium .reportDetached else s.acceptReport ea i r f := by
  unfold State.judgeReport
  simp only [h]
  exact if_neg (by simp [ha, hk])

theorem checkReport_applies {a k : Nat} (h : (s.check a).running = true ∧ (s.check a).track = some k) (m : Nat) :
    s.checkReport a k m = s.setCheck a { s.check a with
      reports := min counterMax ((s.check a).reports + 1), missed := min counterMax ((s.check a).missed + m) } :=
  if_pos h

theorem checkReport_stands {a k : Nat} (h : ¬((s.check a).running = true ∧ (s.check a).track = some k)) (m : Nat) :
    s.checkReport a k m = s := if_neg h

theorem checkReport_frame (s : State) (a k m : Nat) :
    s.checkReport a k m = { s with checks := (s.checkReport a k m).checks } := by
  by_cases h : (s.check a).running = true ∧ (s.check a).track = some k
  · rw [checkReport_applies h]
    rfl
  · rw [checkReport_stands h]

theorem check_checkReport (s : State) (a k m : Nat) : (s.checkReport a k m).check a =
    if (s.check a).running = true ∧ (s.check a).track = some k then { s.check a with
      reports := min counterMax ((s.check a).reports + 1), missed := min counterMax ((s.check a).missed + m) }
    else s.check a := by
  by_cases h : (s.check a).running = true ∧ (s.check a).track = some k
  · rw [checkReport_applies h, if_pos h, State.check_setCheck_same]
  · rw [checkReport_stands h, if_neg h]

theorem check_checkReport_other (s : State) {a j : Nat} (k m : Nat) (hj : j ≠ a) :
    (s.checkReport a k m).check j = s.check j := by
  by_cases h : (s.check a).running = true ∧ (s.check a).track = some k
  · rw [checkReport_applies h, State.check_setCheck, if_neg hj]
  · rw [checkReport_stands h]

theorem check_of_eq {s t : State} (h : t.checks = s.checks) (a : Nat) : t.check a = s.check a := by
  unfold State.check; rw [h]

theorem Detaches.of_checks {s v u : State} {i e : Nat} {r : Subscription} {cs : List Counter} (h : Detaches i r e cs s v)
    (hu : u = { v with checks := u.checks }) : Detaches i r e cs s u := by
  rw [hu]
  exact ⟨h.record, h.others, h.members, h.flag, h.flags, h.counted, h.counts, h.beacons, h.stopped⟩

theorem Detaches.of_advance {s u : State} {t i e : Nat} {r : Subscription} {cs : List Counter}
    (h : Detaches i r e cs (s.advance t) u) : Detaches i r e cs s u :=
  ⟨h.record, h.others, h.members, h.flag, h.flags, h.counted, h.counts, h.beacons, h.stopped⟩

/-- The score of an accepted REPORT moved, before the house check is told. -/
def State.scoreReport (s : State) (ea i : Nat) (r : Subscription) (f : ReportFrame) : State :=
  (s.bumpAuditorium r.auditorium .reportsAccepted).rescore i
    { r with lastReport := some ea, lastSeq := some f.highest } (scoreAfterReport r.score f.missed) ea

theorem acceptReport_eq (s : State) (ea i : Nat) (r : Subscription) (f : ReportFrame) :
    s.acceptReport ea i r f = (s.scoreReport ea i r f).checkReport r.auditorium r.track f.missed := rfl

theorem scoreReport_restarts (h : scoreAfterReport r.score f.missed < 256) : s.scoreReport ea i r f =
    (s.bump (.auditorium r.auditorium .reportsAccepted)).setSubscription i (some { r with
      lastReport := some ea, lastSeq := some f.highest, score := scoreAfterReport r.score f.missed
      window := some (ea + 2 * (s.auditorium r.auditorium).params.reportPeriod * 1000000) }) :=
  rescore_restarts (s := s.bumpAuditorium r.auditorium .reportsAccepted)
    (r := { r with lastReport := some ea, lastSeq := some f.highest }) h

theorem scoreReport_detaches (h : 256 ≤ scoreAfterReport r.score f.missed) : s.scoreReport ea i r f =
    (s.bump (.auditorium r.auditorium .reportsAccepted)).detach i
      { r with lastReport := some ea, lastSeq := some f.highest } ea :=
  rescore_detaches (s := s.bumpAuditorium r.auditorium .reportsAccepted)
    (r := { r with lastReport := some ea, lastSeq := some f.highest }) h

/-- At 256 the record of an accepted REPORT enters DETACHED. -/
theorem scoreReport_detached (h : 256 ≤ scoreAfterReport r.score f.missed) :
    Detaches i { r with lastReport := some ea, lastSeq := some f.highest } ea
      [.auditorium r.auditorium .reportsAccepted] s (s.scoreReport ea i r f) ∧
    s.scoreReport ea i r f = { s with
      subscriptions := (s.scoreReport ea i r f).subscriptions, members := (s.scoreReport ea i r f).members
      beacons := (s.scoreReport ea i r f).beacons, flags := (s.scoreReport ea i r f).flags
      live := (s.scoreReport ea i r f).live, contentOut := (s.scoreReport ea i r f).contentOut } := by
  rw [scoreReport_detaches h]
  exact detach_detaches rfl (counted_bump ..).others (by simp)

theorem scoreReport_checks (s : State) (ea i : Nat) (r : Subscription) (f : ReportFrame) :
    (s.scoreReport ea i r f).checks = s.checks := by
  rcases Nat.lt_or_ge (scoreAfterReport r.score f.missed) 256 with h | h
  · rw [scoreReport_restarts h]
    rfl
  · rw [(scoreReport_detached h).2]

theorem scoreReport_count (s : State) (ea i : Nat) (r : Subscription) (f : ReportFrame) :
    (s.scoreReport ea i r f).count (.auditorium r.auditorium .reportsAccepted) =
      min counterMax (s.count (.auditorium r.auditorium .reportsAccepted) + 1) := by
  have hcount := (counted_bump s (.auditorium r.auditorium .reportsAccepted)).counted
  rcases Nat.lt_or_ge (scoreAfterReport r.score f.missed) 256 with h | h
  · rw [scoreReport_restarts h]
    exact hcount
  · have hd := (detach_detaches (s := s.bump (.auditorium r.auditorium .reportsAccepted)) rfl
      (SameCounts.refl _ []) List.not_mem_nil (i := i) (e := ea)
      (r := { r with lastReport := some ea, lastSeq := some f.highest })).1.counts
    rw [scoreReport_detaches h, hd _ (by simp)]
    exact hcount

end

/-- A REPORT accepted (R145 to R148, R161). -/
theorem acceptReport_spec (s : State) (ea i : Nat) (r : Subscription) (f : ReportFrame) (u : State)
    (hu : s.acceptReport ea i r f = u) :
    u.count (.auditorium r.auditorium .reportsAccepted) =
      min counterMax (s.count (.auditorium r.auditorium .reportsAccepted) + 1) ∧
    (∀ j, j ≠ r.auditorium → u.check j = s.check j) ∧
    u.check r.auditorium =
      (if (s.check r.auditorium).running = true ∧ (s.check r.auditorium).track = some r.track then
        { s.check r.auditorium with
          reports := min counterMax ((s.check r.auditorium).reports + 1)
          missed := min counterMax ((s.check r.auditorium).missed + f.missed) }
      else s.check r.auditorium) ∧
    (scoreAfterReport r.score f.missed < 256 → u.subscription i = some { r with
        lastReport := some ea, lastSeq := some f.highest, score := scoreAfterReport r.score f.missed
        window := some (ea + 2 * (s.auditorium r.auditorium).params.reportPeriod * 1000000) } ∧
      (∀ j, j ≠ i → u.subscription j = s.subscription j) ∧
      SameCounts s u [.auditorium r.auditorium .reportsAccepted] ∧
      u = { s with subscriptions := u.subscriptions, checks := u.checks, live := u.live }) ∧
    (256 ≤ scoreAfterReport r.score f.missed →
      Detaches i { r with lastReport := some ea, lastSeq := some f.highest } ea
        [.auditorium r.auditorium .reportsAccepted] s u ∧
      u = { s with
        subscriptions := u.subscriptions, members := u.members, checks := u.checks, beacons := u.beacons
        flags := u.flags, live := u.live, contentOut := u.contentOut }) := by
  have hchecks := check_of_eq (scoreReport_checks s ea i r f)
  have hframe := checkReport_frame (s.scoreReport ea i r f) r.auditorium r.track f.missed
  have hself := check_checkReport (s.scoreReport ea i r f) r.auditorium r.track f.missed
  have hother := fun j => check_checkReport_other (s.scoreReport ea i r f) (a := r.auditorium) (j := j) r.track f.missed
  have hcount := scoreReport_count s ea i r f
  rw [acceptReport_eq] at hu
  rw [hu] at hframe hself hother
  rw [hchecks] at hself
  simp only [hchecks] at hother
  have hcountu : ∀ c, u.count c = (s.scoreReport ea i r f).count c := fun c => by rw [hframe]; rfl
  refine ⟨(hcountu _).trans hcount, hother, hself, fun h => ?_, fun h => ?_⟩
  · obtain ⟨hrec, hothers⟩ := restarted_spec (s.bump (.auditorium r.auditorium .reportsAccepted)) i { r with
      lastReport := some ea, lastSeq := some f.highest, score := scoreAfterReport r.score f.missed
      window := some (ea + 2 * (s.auditorium r.auditorium).params.reportPeriod * 1000000) }
    rw [scoreReport_restarts h] at hframe hcountu
    have hsub : ∀ j, u.subscription j = _ := subscription_of_eq (by rw [hframe])
    refine ⟨(hsub i).trans hrec, fun j hj => (hsub j).trans (hothers j hj), fun c hc => ?_, ?_⟩
    · rw [hcountu]
      exact (counted_bump s (.auditorium r.auditorium .reportsAccepted)).others c hc
    · rw [hframe]
      rfl
  · obtain ⟨hd, hdframe⟩ := scoreReport_detached (s := s) (ea := ea) (i := i) h
    refine ⟨hd.of_checks hframe, ?_⟩
    generalize s.scoreReport ea i r f = v at hframe hdframe
    rw [hframe, hdframe]

theorem scoreAfterReport_eq (score m : Nat) :
    scoreAfterReport score m = if m = 0 then score - 1 else min 256 (score + 4 * min m 16) := rfl

/-- Settles O38: a REPORT that does not arrive or is malformed, unknown, mismatched or of a DETACHED record is counted;
an accepted one moves the score. -/
theorem reportMovesScore : Obligations.ReportMovesScore := by
  rintro s ea f _ rfl
  refine ⟨fun hno => congrArg Host.Outcome.next (takeReturn_closed (s := s.advance ea) hno _),
    fun hyes hbad => ⟨_, rfl, ?_⟩, fun hr => ⟨fun hf => ⟨_, rfl, ?_⟩, fun i r hf => ⟨fun hne => ⟨_, rfl, ?_⟩, fun ha hk =>
      ⟨fun hd => ⟨_, rfl, ?_⟩, fun hd score r' hscore hr' => ⟨_, rfl, ?_⟩⟩⟩⟩⟩
  · rw [State.reportFrame, takeReturn_malformed (s := s.advance ea) hyes hbad]
    exact counted_bump ..
  · rw [State.reportFrame, takeReturn_judged (hr.advance ea), judgeReport_unknown (s := s.advance ea) hf]
    exact counted_bump ..
  · rw [State.reportFrame, takeReturn_judged (hr.advance ea), judgeReport_mismatch (s := s.advance ea) hf hne]
    exact counted_bump ..
  · rw [State.reportFrame, takeReturn_judged (hr.advance ea), judgeReport_matched (s := s.advance ea) hf ha hk, if_pos hd, ha]
    exact counted_bump ..
  · have haccept : (s.advance ea).reportFrame ea f = (s.advance ea).acceptReport ea i r f := by
      rw [State.reportFrame, takeReturn_judged (hr.advance ea), judgeReport_matched (s := s.advance ea) hf ha hk,
        if_neg (by rw [hd]; decide)]
    obtain ⟨hcount, hothers, hcheck, hlow, hhigh⟩ := acceptReport_spec (s.advance ea) ea i r f _ haccept.symm
    subst hr'
    rw [← scoreAfterReport_eq] at hscore
    rw [hscore, ← ha, ← hk]
    exact ⟨hcount, hothers, hcheck, hlow, fun h => (hhigh (Nat.le_of_eq h.symm)).imp_left Detaches.of_advance⟩

/-! ### The report window and the hold (R146 to R149) -/

section
variable {s : State} {i : Nat}

theorem takeWindow_stands (h : ∀ r d, s.subscription i = some r → r.window = some d → s.engineTime < d) :
    s.takeWindow i = s := by
  unfold State.takeWindow
  cases hr : s.subscription i with
  | none => rfl
  | some r =>
    simp only
    cases hd : r.window with
    | none => rfl
    | some d => exact if_neg (Nat.not_le_of_lt (h r d hr hd))

variable {r : Subscription} {d : Nat}

theorem takeWindow_reached (hr : s.subscription i = some r) (hd : r.window = some d) (h : d ≤ s.engineTime) :
    s.takeWindow i = (s.bump (.auditorium r.auditorium .windowExpiries)).rescore i r (scoreAfterWindow r.score) d := by
  unfold State.takeWindow
  simp only [hr, hd]
  exact if_pos h

theorem takeHold_stands (h : ∀ r d, s.subscription i = some r → r.hold = some d → s.engineTime < d) : s.takeHold i = s := by
  unfold State.takeHold
  cases hr : s.subscription i with
  | none => rfl
  | some r =>
    refine if_neg fun hreached => ?_
    obtain ⟨d, hd, hle⟩ := (reached_iff ..).mp hreached
    exact Nat.not_le_of_lt (h r d hr hd) hle

theorem takeHold_reached (hr : s.subscription i = some r) (hd : r.hold = some d) (h : d ≤ s.engineTime) :
    s.takeHold i = (s.setSubscription i none).bump (.auditorium r.auditorium .holdExpiries) := by
  unfold State.takeHold
  simp only [hr]
  exact if_pos ((reached_iff ..).mpr ⟨d, hd, h⟩)

/-- A window that restarts: 16 more, no further than 255. -/
theorem takeWindow_restarts (hr : s.subscription i = some r) (hd : r.window = some d) (h : d ≤ s.engineTime)
    (hscore : r.score + 16 < 256) : s.takeWindow i =
      (s.bump (.auditorium r.auditorium .windowExpiries)).setSubscription i (some { r with
        score := r.score + 16
        window := some (d + 2 * (s.auditorium r.auditorium).params.reportPeriod * 1000000) }) := by
  have hafter : scoreAfterWindow r.score = r.score + 16 := by unfold scoreAfterWindow; omega
  rw [takeWindow_reached hr hd h, rescore_restarts (by omega), hafter]
  rfl

theorem takeWindow_detaches (hr : s.subscription i = some r) (hd : r.window = some d) (h : d ≤ s.engineTime)
    (hscore : 256 ≤ r.score + 16) :
    s.takeWindow i = (s.bump (.auditorium r.auditorium .windowExpiries)).detach i r d := by
  have hafter : scoreAfterWindow r.score = 256 := by unfold scoreAfterWindow; omega
  rw [takeWindow_reached hr hd h, rescore_detaches (by omega)]

theorem takeWindow_count (hr : s.subscription i = some r) (hd : r.window = some d) (h : d ≤ s.engineTime) :
    (s.takeWindow i).count (.auditorium r.auditorium .windowExpiries) =
      min counterMax (s.count (.auditorium r.auditorium .windowExpiries) + 1) := by
  have hcount := (counted_bump s (.auditorium r.auditorium .windowExpiries)).counted
  rcases Nat.lt_or_ge (r.score + 16) 256 with hs | hs
  · rw [takeWindow_restarts hr hd h hs]
    exact hcount
  · have hsame := (detach_detaches (s := s.bump (.auditorium r.auditorium .windowExpiries)) rfl
      (SameCounts.refl _ []) List.not_mem_nil (i := i) (e := d) (r := r)).1.counts
    rw [takeWindow_detaches hr hd h hs, hsame _ (by simp)]
    exact hcount

end

/-- Settles O39: a report window and a hold before their deadline and at it. -/
theorem windowAndHoldExpire : Obligations.WindowAndHoldExpire := by
  refine fun s t i => ⟨fun h => congrArg Host.Outcome.next (takeWindow_stands (s := s.advance t) h),
    fun r d hr hd h => ⟨_, rfl, takeWindow_count (s := s.advance t) hr hd h, fun hs => ?_, fun hs => ?_⟩,
    fun h => congrArg Host.Outcome.next (takeHold_stands (s := s.advance t) h), fun r d hr hd h => ⟨_, rfl, ?_⟩⟩
  · rw [takeWindow_restarts (s := s.advance t) hr hd h hs]
    obtain ⟨hrec, hothers⟩ := restarted_spec ((s.advance t).bump (.auditorium r.auditorium .windowExpiries)) i { r with
      score := r.score + 16
      window := some (d + 2 * (s.auditorium r.auditorium).params.reportPeriod * 1000000) }
    exact ⟨hrec, hothers, (counted_bump (s.advance t) (.auditorium r.auditorium .windowExpiries)).others, rfl⟩
  · rw [takeWindow_detaches (s := s.advance t) hr hd h hs]
    exact detach_detaches (s := s) rfl (counted_bump (s.advance t) (.auditorium r.auditorium .windowExpiries)).others
      (by simp)
  · rw [takeHold_reached (s := s.advance t) hr hd h]
    have hcount := counted_bump ((s.advance t).setSubscription i none) (.auditorium r.auditorium .holdExpiries)
    refine ⟨State.subscription_setSubscription_same (s.advance t) i none, fun j hj => ?_, hcount.counted, hcount.others, rfl⟩
    exact (State.subscription_setSubscription (s.advance t) i none j).trans (if_neg hj)

/-! ### DEVICE DETACH (R150) -/

section
variable {s : State} {q : Queued} {a h : Nat}

theorem runDeviceDetach_bad (ha : a = argument q.items 1) (hh : h = argument q.items 2)
    (hbad : ¬(1 ≤ a ∧ a ≤ 24) ∨ h = 0) : runDeviceDetach q s = s.refuse .badParameter := by
  subst ha hh
  refine if_pos ?_
  rcases hbad with hbad | hbad
  · rw [auditoriumNumber_eq_false hbad]
    rfl
  · rw [hbad, Bool.or_eq_true]
    exact .inr rfl

theorem runDeviceDetach_judged (ha : a = argument q.items 1) (hh : h = argument q.items 2) (hrange : 1 ≤ a ∧ a ≤ 24)
    (hne : h ≠ 0) : ¬(!auditoriumNumber (argument q.items 1) || decide (argument q.items 2 = 0)) = true := by
  rw [← ha, ← hh, auditoriumNumber_eq_true hrange, decide_eq_false hne]
  decide

theorem runDeviceDetach_closing (ha : a = argument q.items 1) (hh : h = argument q.items 2) (hrange : 1 ≤ a ∧ a ≤ 24)
    (hne : h ≠ 0) (hl : s.lifecycle a = .closing) : runDeviceDetach q s = s.refuse .wrongState :=
  (if_neg (runDeviceDetach_judged ha hh hrange hne)).trans (if_pos (ha ▸ hl))

theorem runDeviceDetach_miss (ha : a = argument q.items 1) (hh : h = argument q.items 2) (hrange : 1 ≤ a ∧ a ≤ 24)
    (hne : h ≠ 0) (hl : s.lifecycle a ≠ .closing) (hmiss : ∀ i r, s.findHandle h = some (i, r) → r.auditorium ≠ a) :
    runDeviceDetach q s = s.refuse .badParameter := by
  refine (if_neg (runDeviceDetach_judged ha hh hrange hne)).trans ((if_neg (ha ▸ hl)).trans ?_)
  subst ha hh
  cases hf : s.findHandle (argument q.items 2) with
  | none => rfl
  | some e => exact if_pos (hmiss e.1 e.2 hf)

theorem runDeviceDetach_held {i : Nat} {r : Subscription} (ha : a = argument q.items 1) (hh : h = argument q.items 2)
    (hrange : 1 ≤ a ∧ a ≤ 24) (hne : h ≠ 0) (hl : s.lifecycle a ≠ .closing) (hf : s.findHandle h = some (i, r))
    (hr : r.auditorium = a) :
    runDeviceDetach q s = if r.detached then (s, .done false []) else (s.detach i r s.engineTime, .done false []) := by
  refine (if_neg (runDeviceDetach_judged ha hh hrange hne)).trans ((if_neg (ha ▸ hl)).trans ?_)
  subst ha hh
  rw [hf]
  exact if_neg (not_not_intro hr)

end

/-- Settles O40: DEVICE DETACH refused, of a DETACHED record, and taken. -/
theorem deviceDetachForcesOff : Obligations.DeviceDetachForcesOff := by
  rintro s _ t q rest a h rfl hheads ha hh
  have hheads' := heads_advance hheads t
  refine ⟨_, rfl, fun hbad => runRefused_runHead hheads' (runDeviceDetach_bad ha hh hbad), fun h1 h24 hne =>
    ⟨fun hl => runRefused_runHead hheads' (runDeviceDetach_closing ha hh ⟨h1, h24⟩ hne hl), fun hl =>
      ⟨fun hmiss => runRefused_runHead hheads' (runDeviceDetach_miss ha hh ⟨h1, h24⟩ hne hl hmiss), fun i r hf hr => ?_⟩⟩⟩
  have hheld := runDeviceDetach_held (s := s.advance t) ha hh ⟨h1, h24⟩ hne hl hf hr
  refine ⟨fun hd => ?_, fun hd => ?_⟩
  · rw [hd] at hheld
    exact runDone_runHead hheads' hheld rfl
  · rw [hd] at hheld
    obtain ⟨hdetaches, hframe⟩ := detach_detaches (s := s.advance t) (b := s.advance t) (i := i) (r := r)
      (e := (s.advance t).engineTime) rfl (SameCounts.refl _ []) List.not_mem_nil
    exact ⟨_, runDone_runHead hheads' hheld ((congrArg State.queue hframe).trans rfl), hdetaches.of_advance, hframe⟩

end Sys2Proof.Machine

/-! PROOFS. JOIN: the checks of Table 8-2, the refusals, and the accepted JOIN (O35, O36). -/

namespace Sys2Proof.Machine

/-! ### The parts of the judgement (R137, R138) -/

theorem joinable_iff {l : Lifecycle} :
    l.joinable = true ↔ l ∈ [.ready, .running, .paused, .holdover, .lost, .test] := by
  cases l <;> simp [Lifecycle.joinable]

theorem catchesUp_iff {l : Lifecycle} : l.catchesUp = true ↔ l ∈ [.running, .holdover, .paused] := by
  cases l <;> simp [Lifecycle.catchesUp]

theorem kindOfCode_eq_some {n : Nat} {kind : TrackKind} :
    kindOfCode n = some kind ↔ (n = 1 ∧ kind = .caption) ∨ (n = 2 ∧ kind = .description) := by
  unfold kindOfCode
  by_cases h1 : n = 1
  · subst h1
    simp [eq_comm]
  · by_cases h2 : n = 2
    · subst h2
      simp [eq_comm]
    · simp [h1, h2]

theorem bandOf_val (b : Band) : bandOf b.val = some b := dif_pos b.isLt

/-- The track that a number names fits a JOIN (R137). -/
def State.fitsJoin (s : State) (f : JoinFrame) (k : Nat) : Bool :=
  (s.track k).any fun tr => tr.auditorium == f.auditorium && kindOfCode f.kind == some tr.kind &&
    (f.language == 0 || f.language == tr.language)

theorem fitsJoin_iff {s : State} {f : JoinFrame} {k : Nat} (hk : k ≤ 95) : s.fitsJoin f k = true ↔ JoinFits s f k := by
  unfold State.fitsJoin JoinFits
  rw [Option.any_eq_true]
  simp only [Bool.and_eq_true, Bool.or_eq_true, beq_iff_eq, kindOfCode_eq_some, hk, true_and, and_assoc]

theorem joinTrack_eq_find (s : State) (f : JoinFrame) : s.joinTrack f = trackNumbers.find? (s.fitsJoin f) := by
  unfold State.joinTrack
  refine List.find?_congr fun k _ => ?_
  unfold State.fitsJoin
  cases s.track k <;> rfl

theorem joinTrack_eq_some {s : State} {f : JoinFrame} {k : Nat} :
    s.joinTrack f = some k ↔ JoinFits s f k ∧ ∀ j, j < k → ¬JoinFits s f j := by
  rw [joinTrack_eq_find, trackNumbers, List.find?_range_eq_some]
  constructor
  · rintro ⟨hk, hmem, hlow⟩
    have hk95 : k ≤ 95 := by have := List.mem_range.mp hmem; omega
    refine ⟨(fitsJoin_iff hk95).mp hk, fun j hj hfits => ?_⟩
    have := hlow j hj
    rw [(fitsJoin_iff (by omega)).mpr hfits] at this
    exact absurd this (by decide)
  · rintro ⟨hk, hlow⟩
    have hk95 : k ≤ 95 := by obtain ⟨_, h, _⟩ := hk; exact h
    refine ⟨(fitsJoin_iff hk95).mpr hk, List.mem_range.mpr (by omega), fun j hj => ?_⟩
    rw [Bool.not_eq_true', Bool.eq_false_iff]
    exact fun h => hlow j hj ((fitsJoin_iff (by omega)).mp h)

theorem joinTrack_eq_none {s : State} {f : JoinFrame} (h : ∀ k, ¬JoinFits s f k) : s.joinTrack f = none := by
  cases hj : s.joinTrack f with
  | none => rfl
  | some k => exact absurd (joinTrack_eq_some.mp hj).1 (h k)

/-- The JOIN would add a member to its auditorium (R138). -/
def State.joinAdds (s : State) (f : JoinFrame) : Bool :=
  !((s.findHandle f.handle).any fun e => !e.2.detached && e.2.auditorium == f.auditorium)

theorem joinAdds_iff {s : State} {f : JoinFrame} : s.joinAdds f = true ↔ JoinAdds s f := by
  unfold State.joinAdds JoinAdds
  cases h : s.findHandle f.handle with
  | none => simp
  | some e =>
    simp only [Option.any_some, Bool.not_and, Bool.not_not, Bool.or_eq_true, Bool.not_eq_true', beq_eq_false_iff_ne,
      Option.some.injEq]
    exact ⟨fun hd i r he => by subst he; exact hd, fun hd => hd e.1 e.2 rfl⟩

/-! ### The lowest free index (R134) -/

theorem firstFree_eq_find (s : State) (fuel i : Nat) :
    s.firstFree fuel i = (List.range' i fuel).find? fun j => (s.subscription j).isNone := by
  induction fuel generalizing i with
  | zero => rfl
  | succ fuel ih =>
    rw [State.firstFree, List.range'_succ, List.find?_cons, ih]
    cases (s.subscription i).isNone <;> rfl

theorem freeIndex_eq_find (s : State) :
    s.freeIndex = (List.range 4096).find? fun j => (s.subscription j).isNone := by
  rw [List.range_eq_range']
  exact firstFree_eq_find s 4096 0

theorem freeIndex_eq_some {s : State} {i : Nat} : s.freeIndex = some i ↔
    i ≤ 4095 ∧ s.subscription i = none ∧ ∀ j, j < i → s.subscription j ≠ none := by
  rw [freeIndex_eq_find, List.find?_range_eq_some, List.mem_range]
  simp only [Option.isNone_iff_eq_none, Bool.not_eq_true', Option.isNone_eq_false_iff, Option.isSome_iff_ne_none]
  constructor
  · rintro ⟨hi, hlt, hlow⟩
    exact ⟨by omega, hi, hlow⟩
  · rintro ⟨hlt, hi, hlow⟩
    exact ⟨hi, by omega, hlow⟩

theorem freeIndex_eq_none {s : State} (h : ∀ i, i ≤ 4095 → s.subscription i ≠ none) : s.freeIndex = none := by
  cases hi : s.freeIndex with
  | none => rfl
  | some i =>
    obtain ⟨hle, hfree, _⟩ := freeIndex_eq_some.mp hi
    exact absurd hfree (h i hle)

theorem freeIndex_ne_none {s : State} {i : Nat} (hi : i ≤ 4095) (hfree : s.subscription i = none) : s.freeIndex ≠ none := by
  intro h
  rw [freeIndex_eq_find, List.find?_range_eq_none] at h
  have := h i (by omega)
  rw [hfree] at this
  exact absurd this (by decide)

/-! ### The judgement in the order of Table 8-2 -/

section
variable {s : State} {f : JoinFrame} {k : Nat} {b : Band}

theorem judgeJoin_closed (h : s.lifecycle f.auditorium ∉ [.ready, .running, .paused, .holdover, .lost, .test]) :
    s.judgeJoin f = .error .noSuchShow := by
  have hj : (s.lifecycle f.auditorium).joinable = false := Bool.eq_false_iff.mpr fun hj => h (joinable_iff.mp hj)
  exact if_pos (by rw [hj]; rfl)

theorem judgeJoin_unfit (h : s.lifecycle f.auditorium ∈ [.ready, .running, .paused, .holdover, .lost, .test])
    (hfit : ∀ k, ¬JoinFits s f k) : s.judgeJoin f = .error .noSuchTrack := by
  unfold State.judgeJoin
  simp only [joinable_iff.mpr h, joinTrack_eq_none hfit]
  rfl

theorem judgeJoin_unbanded (h : s.lifecycle f.auditorium ∈ [.ready, .running, .paused, .holdover, .lost, .test])
    (hk : s.joinTrack f = some k)
    (hb : ∀ b : Band, b.val = f.band → ((s.auditorium f.auditorium).band b).enabled = false) :
    s.judgeJoin f = .error .bandOff := by
  unfold State.judgeJoin
  simp only [joinable_iff.mpr h, hk]
  cases hband : bandOf f.band with
  | none => rfl
  | some b =>
    have hval : b.val = f.band := by
      unfold bandOf at hband
      split at hband
      · cases hband
        rfl
      · cases hband
    simp only [hb b hval]
    rfl

theorem judgeJoin_banded (h : s.lifecycle f.auditorium ∈ [.ready, .running, .paused, .holdover, .lost, .test])
    (hk : s.joinTrack f = some k) (hb : b.val = f.band) (hon : ((s.auditorium f.auditorium).band b).enabled = true) :
    (JoinAdds s f ∧ (s.auditorium f.auditorium).params.memberLimit ≤ s.memberRecords f.auditorium →
      s.judgeJoin f = .error .auditoriumFull) ∧
    (¬(JoinAdds s f ∧ (s.auditorium f.auditorium).params.memberLimit ≤ s.memberRecords f.auditorium) →
      (s.findHandle f.handle = none ∧ s.freeIndex = none → s.judgeJoin f = .error .tableFull) ∧
      (¬(s.findHandle f.handle = none ∧ s.freeIndex = none) → s.judgeJoin f = .ok (k, b))) := by
  have hband : bandOf f.band = some b := hb ▸ bandOf_val b
  have hfull : (s.joinAdds f && decide ((s.auditorium f.auditorium).params.memberLimit ≤
      s.memberRecords f.auditorium)) = true ↔ JoinAdds s f ∧
        (s.auditorium f.auditorium).params.memberLimit ≤ s.memberRecords f.auditorium := by
    rw [Bool.and_eq_true, joinAdds_iff, decide_eq_true_eq]
  have hnone : ((s.findHandle f.handle).isNone && s.freeIndex.isNone) = true ↔
      s.findHandle f.handle = none ∧ s.freeIndex = none := by
    rw [Bool.and_eq_true, Option.isNone_iff_eq_none, Option.isNone_iff_eq_none]
  have hjudge : s.judgeJoin f =
      if (s.joinAdds f && decide ((s.auditorium f.auditorium).params.memberLimit ≤
        s.memberRecords f.auditorium)) = true then .error .auditoriumFull
      else if ((s.findHandle f.handle).isNone && s.freeIndex.isNone) = true then .error .tableFull
      else .ok (k, b) := by
    unfold State.judgeJoin
    simp only [joinable_iff.mpr h, hk, hband, hon]
    rfl
  rw [hjudge]
  exact ⟨fun h => if_pos (hfull.mpr h), fun h => ⟨fun hn => (if_neg (mt hfull.mp h)).trans (if_pos (hnone.mpr hn)),
    fun hn => (if_neg (mt hfull.mp h)).trans (if_neg (mt hnone.mp hn))⟩⟩

end

theorem freeIndex_advance (s : State) (t : Nat) : (s.advance t).freeIndex = s.freeIndex := by
  rw [freeIndex_eq_find, freeIndex_eq_find]
  rfl

theorem joinTrack_advance (s : State) (t : Nat) (f : JoinFrame) : (s.advance t).joinTrack f = s.joinTrack f := by
  rw [joinTrack_eq_find, joinTrack_eq_find]
  rfl

theorem judgeJoin_advance (s : State) (t : Nat) (f : JoinFrame) : (s.advance t).judgeJoin f = s.judgeJoin f := by
  unfold State.judgeJoin
  rw [freeIndex_advance, joinTrack_advance]
  rfl

/-! ### The answer to a refused JOIN (R142) -/

theorem answerJoin_refused {s : State} {ea : Nat} {f : JoinFrame} {o : JoinOutcome} (h : s.judgeJoin f = .error o) :
    s.answerJoin ea f = (s.bumpAuditorium f.auditorium .joinsRefused).offer
      (catchupEntry f.handle f.auditorium none (.joinResult o f.auditorium none) none) := by
  unfold State.answerJoin
  simp only [h]

/-- Settles O35: the checks of Table 8-2 in order, and what a JOIN that does not arrive, is malformed or is refused does. -/
theorem joinsAreJudged : Obligations.JoinsAreJudged := by
  refine ⟨?_, ?_⟩
  · rintro s f _ rfl
    refine ⟨judgeJoin_closed, fun hopen => ⟨judgeJoin_unfit hopen, fun k hk hlow => ?_⟩⟩
    have htrack := joinTrack_eq_some.mpr ⟨hk, hlow⟩
    refine ⟨judgeJoin_unbanded hopen htrack, fun b hb hon => ?_⟩
    obtain ⟨hfull, hroom⟩ := judgeJoin_banded hopen htrack hb hon
    refine ⟨fun hadds hlimit => hfull ⟨hadds, hlimit⟩, fun hunder =>
      ⟨fun hnew htaken => (hroom hunder).1 ⟨hnew, freeIndex_eq_none htaken⟩, fun hplace => (hroom hunder).2 fun hno => ?_⟩⟩
    rcases hplace with hheld | ⟨i, hi, hfree⟩
    · exact hheld hno.1
    · exact freeIndex_ne_none hi hfree hno.2
  · rintro s ea f _ rfl
    refine ⟨fun hno => congrArg Host.Outcome.next (takeReturn_closed (s := s.advance ea) hno _),
      fun hyes hbad => ⟨_, rfl, ?_⟩, fun hr o ho => ⟨_, counted_bump .., congrArg Host.Outcome.next
        ((takeReturn_judged (hr.advance ea) _).trans (answerJoin_refused ((judgeJoin_advance s ea f).trans ho)))⟩⟩
    rw [State.joinFrame, takeReturn_malformed (s := s.advance ea) hyes hbad]
    exact counted_bump ..

/-! ### The beacon of an auditorium with a member (R116) -/

theorem memberSum_ne_zero {s : State} {a k : Nat} {b : Band} (hk : k ∈ s.boundTracks a) (hb : s.memberCount k b ≠ 0) :
    s.memberSum a ≠ 0 := by
  intro h
  have hcounts := List.sum_eq_zero_iff.mp h _ (List.mem_map.mpr ⟨k, hk, rfl⟩)
  exact hb (List.sum_eq_zero_iff.mp hcounts _ (List.mem_map.mpr ⟨b, mem_bands b, rfl⟩))

theorem beacon_updateBeacon_member {s : State} {a : Nat} (h : s.lifecycle a ∈ [.running, .paused, .holdover, .test])
    (hsum : s.memberSum a ≠ 0) : (s.updateBeacon a).beacon a =
      some ((s.beacon a).getD (s.engineTime + (s.auditorium a).params.beaconInterval * 1000)) :=
  (beacon_running h).trans (if_neg hsum)

/-- A look at another auditorium's beacon before, or at the same, leaves the deadline that the look at `a` gives. -/
theorem beacon_updateBeacon_twice {s : State} {a : Nat} (o : Nat)
    (h : s.lifecycle a ∈ [.running, .paused, .holdover, .test]) (hsum : s.memberSum a ≠ 0) :
    ((s.updateBeacon o).updateBeacon a).beacon a =
      some ((s.beacon a).getD (s.engineTime + (s.auditorium a).params.beaconInterval * 1000)) := by
  have hframe := updateBeacon_eq s o
  have hsum' : (s.updateBeacon o).memberSum a ≠ 0 := by rwa [memberSum_updateBeacon]
  have htime : (s.updateBeacon o).engineTime = s.engineTime := by rw [hframe]
  have hparams : (s.updateBeacon o).auditorium a = s.auditorium a := by rw [hframe]; rfl
  have hlife : (s.updateBeacon o).lifecycle a = s.lifecycle a := by rw [hframe]; rfl
  rw [beacon_updateBeacon_member (hlife ▸ h) hsum', htime, hparams]
  by_cases ho : a = o
  · subst ho
    rw [beacon_updateBeacon_member h hsum]
    rfl
  · rw [beacon_updateBeacon_other s ho]

/-! ### The record of an accepted JOIN (R139 to R141) -/

/-- Record `i` becomes `r` and `c` is counted once; besides, only member counts and beacon deadlines move. -/
structure Seated (i : Nat) (r : Subscription) (c : Counter) (s v : State) : Prop where
  record : v.subscription i = some r
  others : ∀ j, j ≠ i → v.subscription j = s.subscription j
  counted : v.count c = min counterMax (s.count c + 1)
  counts : SameCounts s v [c]
  frame : v = { s with
    subscriptions := v.subscriptions, members := v.members, live := v.live, beacons := v.beacons }

section
variable {s x w : State} {i : Nat} {r : Subscription} {c : Counter}

/-- The counting of a seated record and the looks at the beacons. -/
theorem seated_of (hrec : x.subscription i = some r) (hothers : ∀ j, j ≠ i → x.subscription j = s.subscription j)
    (hx : x = { s with subscriptions := x.subscriptions, members := x.members })
    (hw : w = { x.bump c with beacons := w.beacons }) : Seated i r c s w := by
  have hcount := counted_bump x c
  have hsub : ∀ j, w.subscription j = x.subscription j := subscription_of_eq (by rw [hw]; rfl)
  have hcountw : ∀ d, w.count d = (x.bump c).count d := fun d => by rw [hw]; rfl
  have hcountx : ∀ d, x.count d = s.count d := fun d => by rw [hx]; rfl
  refine ⟨(hsub i).trans hrec, fun j hj => (hsub j).trans (hothers j hj), ?_, fun d hd => ?_, ?_⟩
  · rw [hcountw, hcount.counted, hcountx]
  · rw [hcountw, hcount.others d hd, hcountx]
  · have hlive : w.live = (x.bump c).live := by rw [hw]
    generalize x.bump c = y at hw hcount hlive
    rw [hw, hcount.frame, hx]

end

/-- A record seated new or restored, on a band that it joins. -/
def State.seatNew (s : State) (i : Nat) (r : Subscription) : State :=
  (s.setSubscription i (some r)).addMember r.track r.band

/-- A record switched from the band it was a member of. -/
def State.seatSwitched (s : State) (i : Nat) (old r : Subscription) : State :=
  ((s.setSubscription i (some r)).dropMember old.track old.band).addMember r.track r.band

section
variable {s : State} {ea k i : Nat} {f : JoinFrame} {b : Band}

/-- The record that a JOIN makes or restores (R139, R141). -/
def State.freshRecord (s : State) (ea : Nat) (f : JoinFrame) (k : Nat) (b : Band) : Subscription :=
  ⟨f.handle, f.auditorium, k, b, 0, ea, none, none,
    some (ea + 2 * (s.auditorium f.auditorium).params.reportPeriod * 1000000), none⟩

theorem subscribe_new (h : s.findHandle f.handle = none) (hi : s.freeIndex = some i) :
    s.subscribe ea f k b = (((s.seatNew i (s.freshRecord ea f k b)).bump (.auditorium f.auditorium .joinsNew)).updateBeacon
      f.auditorium) := by
  unfold State.subscribe
  simp only [h, hi]
  rfl

variable {r : Subscription}

theorem subscribe_restored (h : s.findHandle f.handle = some (i, r)) (hd : r.detached = true) :
    s.subscribe ea f k b = (((s.seatNew i (s.freshRecord ea f k b)).bump (.auditorium f.auditorium
      .joinsRestored)).updateBeacon f.auditorium) := by
  unfold State.subscribe
  simp only [h]
  exact if_pos hd

/-- The record that a JOIN switches (R140). -/
def State.switchedRecord (s : State) (ea : Nat) (f : JoinFrame) (k : Nat) (b : Band) (r : Subscription) : Subscription :=
  { r with
    auditorium := f.auditorium, track := k, band := b, joinTime := ea, lastSeq := none
    window := (s.freshRecord ea f k b).window }

theorem subscribe_switched (h : s.findHandle f.handle = some (i, r)) (hd : r.detached = false) :
    s.subscribe ea f k b = ((((s.seatSwitched i r (s.switchedRecord ea f k b r)).bump (.auditorium f.auditorium
      .joinsSwitched)).updateBeacon r.auditorium).updateBeacon f.auditorium) := by
  unfold State.subscribe
  simp only [h]
  exact if_neg (by rw [hd]; decide)

end

section
variable {s : State} {i k : Nat} {r old : Subscription} {b : Band}

theorem seatNew_spec (s : State) (i : Nat) (r : Subscription) : (s.seatNew i r).subscription i = some r ∧
    (∀ j, j ≠ i → (s.seatNew i r).subscription j = s.subscription j) ∧
    (∀ j c, (s.seatNew i r).memberCount j c = s.memberCount j c + if j = r.track ∧ c = r.band then 1 else 0) :=
  ⟨State.subscription_setSubscription_same s i (some r),
    fun j hj => (State.subscription_setSubscription s i (some r) j).trans (if_neg hj),
    fun j c => memberCount_addMember (s.setSubscription i (some r)) r.track j r.band c⟩

theorem seatSwitched_spec (s : State) (i : Nat) (old r : Subscription) :
    (s.seatSwitched i old r).subscription i = some r ∧
    (∀ j, j ≠ i → (s.seatSwitched i old r).subscription j = s.subscription j) ∧
    (∀ j c, (s.seatSwitched i old r).memberCount j c =
      (s.memberCount j c - if j = old.track ∧ c = old.band then 1 else 0) + if j = r.track ∧ c = r.band then 1 else 0) := by
  refine ⟨State.subscription_setSubscription_same s i (some r),
    fun j hj => (State.subscription_setSubscription s i (some r) j).trans (if_neg hj), fun j c => ?_⟩
  exact (memberCount_addMember ((s.setSubscription i (some r)).dropMember old.track old.band) r.track j r.band c).trans
    (congrArg (· + _) (memberCount_dropMember (s.setSubscription i (some r)) old.track j old.band c))

end

/-- What an accepted JOIN leaves at the beacon of its auditorium (R116). -/
def State.BeaconJoined (s v : State) (a : Nat) : Prop :=
  s.lifecycle a ∈ [.running, .paused, .holdover, .test] →
    v.beacon a = some ((s.beacon a).getD (s.engineTime + (s.auditorium a).params.beaconInterval * 1000))

section
variable {s x : State} {a k : Nat} {b : Band} {c : Counter}

theorem memberSum_seated (hx : x = { s with subscriptions := x.subscriptions, members := x.members })
    (hk : k ∈ s.boundTracks a) (hb : x.memberCount k b ≠ 0) : (x.bump c).memberSum a ≠ 0 := by
  have hbound : (x.bump c).boundTracks a = s.boundTracks a := by rw [hx]; rfl
  exact memberSum_ne_zero (hbound ▸ hk) (b := b) hb

theorem lifecycle_seated (hx : x = { s with subscriptions := x.subscriptions, members := x.members }) :
    (x.bump c).lifecycle a = s.lifecycle a := by rw [hx]; rfl

theorem beaconJoined_once (hx : x = { s with subscriptions := x.subscriptions, members := x.members })
    (hk : k ∈ s.boundTracks a) (hb : x.memberCount k b ≠ 0) : s.BeaconJoined ((x.bump c).updateBeacon a) a := fun h => by
  rw [beacon_updateBeacon_member (lifecycle_seated hx ▸ h) (memberSum_seated hx hk hb), hx]
  rfl

theorem beaconJoined_twice (o : Nat) (hx : x = { s with subscriptions := x.subscriptions, members := x.members })
    (hk : k ∈ s.boundTracks a) (hb : x.memberCount k b ≠ 0) :
    s.BeaconJoined (((x.bump c).updateBeacon o).updateBeacon a) a := fun h => by
  rw [beacon_updateBeacon_twice o (lifecycle_seated hx ▸ h) (memberSum_seated hx hk hb), hx]
  rfl

theorem beacon_bumped (hx : x = { s with subscriptions := x.subscriptions, members := x.members }) (j : Nat) :
    (x.bump c).beacon j = s.beacon j := beacon_of_eq (by rw [hx]; rfl) j

end

/-- What an accepted JOIN does to the table, the counts and the beacons, case by case. -/
structure Subscribed (s v : State) (ea : Nat) (f : JoinFrame) (k : Nat) (b : Band) : Prop where
  frame : v = { s with
    subscriptions := v.subscriptions, members := v.members, live := v.live, beacons := v.beacons }
  beacon : s.BeaconJoined v f.auditorium
  made : ∀ i, s.findHandle f.handle = none → s.freeIndex = some i →
    Seated i (s.freshRecord ea f k b) (.auditorium f.auditorium .joinsNew) s v ∧
      (∀ j c, v.memberCount j c = s.memberCount j c + if j = k ∧ c = b then 1 else 0) ∧
      ∀ j, j ≠ f.auditorium → v.beacon j = s.beacon j
  restored : ∀ i r, s.findHandle f.handle = some (i, r) → r.detached = true →
    Seated i (s.freshRecord ea f k b) (.auditorium f.auditorium .joinsRestored) s v ∧
      (∀ j c, v.memberCount j c = s.memberCount j c + if j = k ∧ c = b then 1 else 0) ∧
      ∀ j, j ≠ f.auditorium → v.beacon j = s.beacon j
  switched : ∀ i r, s.findHandle f.handle = some (i, r) → r.detached = false →
    Seated i (s.switchedRecord ea f k b r) (.auditorium f.auditorium .joinsSwitched) s v ∧
      (∀ j c, v.memberCount j c = (s.memberCount j c - if j = r.track ∧ c = r.band then 1 else 0) +
        if j = k ∧ c = b then 1 else 0) ∧
      ∀ j, j ≠ f.auditorium → j ≠ r.auditorium → v.beacon j = s.beacon j

section
variable {s : State} {ea k : Nat} {f : JoinFrame} {b : Band}

theorem seated_new (s : State) (i : Nat) (r : Subscription) (c : Counter) (hk : r.track ∈ s.boundTracks r.auditorium) :
    Seated i r c s (((s.seatNew i r).bump c).updateBeacon r.auditorium) ∧
      s.BeaconJoined (((s.seatNew i r).bump c).updateBeacon r.auditorium) r.auditorium ∧
      (∀ j d, (((s.seatNew i r).bump c).updateBeacon r.auditorium).memberCount j d =
        s.memberCount j d + if j = r.track ∧ d = r.band then 1 else 0) ∧
      ∀ j, j ≠ r.auditorium → (((s.seatNew i r).bump c).updateBeacon r.auditorium).beacon j = s.beacon j := by
  obtain ⟨hrec, hothers, hmembers⟩ := seatNew_spec s i r
  have hx : s.seatNew i r = { s with
    subscriptions := (s.seatNew i r).subscriptions, members := (s.seatNew i r).members } := rfl
  refine ⟨seated_of hrec hothers hx (updateBeacon_eq _ _), beaconJoined_once hx hk (b := r.band) ?_, fun j d => ?_,
    fun j hj => ?_⟩
  · rw [hmembers, if_pos ⟨rfl, rfl⟩]
    omega
  · rw [(samePatrons_updateBeacon _ _).memberCount]
    exact hmembers j d
  · rw [beacon_updateBeacon_other _ hj]
    exact beacon_bumped hx j

theorem seated_switched (s : State) (i : Nat) (old r : Subscription) (c : Counter)
    (hk : r.track ∈ s.boundTracks r.auditorium) :
    Seated i r c s ((((s.seatSwitched i old r).bump c).updateBeacon old.auditorium).updateBeacon r.auditorium) ∧
      s.BeaconJoined ((((s.seatSwitched i old r).bump c).updateBeacon old.auditorium).updateBeacon r.auditorium)
        r.auditorium ∧
      (∀ j d, ((((s.seatSwitched i old r).bump c).updateBeacon old.auditorium).updateBeacon r.auditorium).memberCount j d =
        (s.memberCount j d - if j = old.track ∧ d = old.band then 1 else 0) +
          if j = r.track ∧ d = r.band then 1 else 0) ∧
      ∀ j, j ≠ r.auditorium → j ≠ old.auditorium →
        ((((s.seatSwitched i old r).bump c).updateBeacon old.auditorium).updateBeacon r.auditorium).beacon j =
          s.beacon j := by
  obtain ⟨hrec, hothers, hmembers⟩ := seatSwitched_spec s i old r
  have hx : s.seatSwitched i old r = { s with
    subscriptions := (s.seatSwitched i old r).subscriptions, members := (s.seatSwitched i old r).members } := rfl
  have hw : (((s.seatSwitched i old r).bump c).updateBeacon old.auditorium).updateBeacon r.auditorium =
      { (s.seatSwitched i old r).bump c with
        beacons := ((((s.seatSwitched i old r).bump c).updateBeacon old.auditorium).updateBeacon r.auditorium).beacons } := by
    have h1 := updateBeacon_eq ((s.seatSwitched i old r).bump c) old.auditorium
    generalize ((s.seatSwitched i old r).bump c).updateBeacon old.auditorium = y at h1
    have h2 := updateBeacon_eq y r.auditorium
    generalize y.updateBeacon r.auditorium = z at h2
    rw [h2, h1]
  refine ⟨seated_of hrec hothers hx hw, beaconJoined_twice _ hx hk (b := r.band) ?_, fun j d => ?_, fun j hj ho => ?_⟩
  · rw [hmembers, if_pos (c := r.track = r.track ∧ r.band = r.band) ⟨rfl, rfl⟩]
    exact Nat.succ_ne_zero _
  · rw [(samePatrons_updateBeacon _ _).memberCount, (samePatrons_updateBeacon _ _).memberCount]
    exact hmembers j d
  · rw [beacon_updateBeacon_other _ hj, beacon_updateBeacon_other _ ho]
    exact beacon_bumped hx j

/-- An accepted JOIN: where its track is bound to its auditorium, and its handle is held or an index free (R139 to R141). -/
theorem subscribe_subscribed (hk : k ∈ s.boundTracks f.auditorium)
    (hplace : ¬(s.findHandle f.handle = none ∧ s.freeIndex = none)) :
    Subscribed s (s.subscribe ea f k b) ea f k b := by
  cases hf : s.findHandle f.handle with
  | none =>
    cases hi : s.freeIndex with
    | none => exact absurd ⟨hf, hi⟩ hplace
    | some i =>
      obtain ⟨hseat, hbeacon, hmembers, hothers⟩ :=
        seated_new s i (s.freshRecord ea f k b) (.auditorium f.auditorium .joinsNew) hk
      rw [subscribe_new hf hi]
      refine ⟨hseat.frame, hbeacon, fun j _ hj => ?_, fun _ _ h => absurd (hf.symm.trans h) (by simp),
        fun _ _ h => absurd (hf.symm.trans h) (by simp)⟩
      obtain rfl : i = j := Option.some.inj (hi.symm.trans hj)
      exact ⟨hseat, hmembers, hothers⟩
  | some e =>
    obtain ⟨i, r⟩ := e
    cases hd : r.detached with
    | true =>
      obtain ⟨hseat, hbeacon, hmembers, hothers⟩ :=
        seated_new s i (s.freshRecord ea f k b) (.auditorium f.auditorium .joinsRestored) hk
      rw [subscribe_restored hf hd]
      refine ⟨hseat.frame, hbeacon, fun _ h => absurd (hf.symm.trans h) (by simp), fun j q h _ => ?_, fun j q h hq => ?_⟩
      · obtain ⟨rfl, rfl⟩ := Prod.mk.inj (Option.some.inj (hf.symm.trans h))
        exact ⟨hseat, hmembers, hothers⟩
      · obtain ⟨rfl, rfl⟩ := Prod.mk.inj (Option.some.inj (hf.symm.trans h))
        exact absurd (hd.symm.trans hq) (by decide)
    | false =>
      obtain ⟨hseat, hbeacon, hmembers, hothers⟩ :=
        seated_switched s i r (s.switchedRecord ea f k b r) (.auditorium f.auditorium .joinsSwitched) hk
      rw [subscribe_switched hf hd]
      refine ⟨hseat.frame, hbeacon, fun _ h => absurd (hf.symm.trans h) (by simp), fun j q h hq => ?_, fun j q h _ => ?_⟩
      · obtain ⟨rfl, rfl⟩ := Prod.mk.inj (Option.some.inj (hf.symm.trans h))
        exact absurd (hd.symm.trans hq) (by decide)
      · obtain ⟨rfl, rfl⟩ := Prod.mk.inj (Option.some.inj (hf.symm.trans h))
        exact ⟨hseat, hmembers, hothers⟩

/-- A JOIN that is accepted names a held handle or finds a free index. -/
theorem judgeJoin_place (h : s.judgeJoin f = .ok (k, b)) : ¬(s.findHandle f.handle = none ∧ s.freeIndex = none) := by
  rintro ⟨hf, hi⟩
  by_cases hopen : s.lifecycle f.auditorium ∈ [.ready, .running, .paused, .holdover, .lost, .test]
  · by_cases hband : ∃ c : Band, c.val = f.band ∧ ((s.auditorium f.auditorium).band c).enabled = true
    · obtain ⟨c, hc, hon⟩ := hband
      obtain ⟨hfull, hroom⟩ := judgeJoin_banded hopen (judgeJoin_track h) hc hon
      by_cases hlimit : JoinAdds s f ∧ (s.auditorium f.auditorium).params.memberLimit ≤ s.memberRecords f.auditorium
      · exact nomatch h.symm.trans (hfull hlimit)
      · exact nomatch h.symm.trans ((hroom hlimit).1 ⟨hf, hi⟩)
    · have hoff := judgeJoin_unbanded hopen (judgeJoin_track h) fun c hc => Bool.eq_false_iff.mpr fun hon => hband ⟨c, hc, hon⟩
      exact nomatch h.symm.trans hoff
  · exact nomatch h.symm.trans (judgeJoin_closed hopen)

/-! ### The answer to an accepted JOIN (R142, R143) -/

theorem answerJoin_accepted {tr : Track} (h : s.judgeJoin f = .ok (k, b)) (hk : s.track k = some tr) :
    s.answerJoin ea f = ((s.subscribe ea f k b).offer (catchupEntry f.handle f.auditorium (some k)
      ((s.subscribe ea f k b).acceptResult f k tr b) none)).catchUp f k tr b := by
  unfold State.answerJoin
  simp only [h, hk]

theorem catchupCues_eq (tr : Track) (b : Band) (sh : Nat) : tr.catchupCues b sh =
    (tr.current.toList.filter fun c => sh < c.caption.te).map Cue.caption ++
      (tr.pending.filter fun c => c.marks.get b).map Cue.caption := by
  unfold Track.catchupCues
  rw [List.map_append]
  congr 2
  cases tr.current with
  | none => rfl
  | some c =>
    rw [Option.filter_some, Option.toList_some, List.filter_singleton]
    cases decide (sh < c.caption.te) <;> rfl

theorem catchUp_none {tr : Track}
    (h : tr.kind = .description ∨ s.lifecycle f.auditorium ∉ [.running, .holdover, .paused]) :
    s.catchUp f k tr b = s := by
  refine if_neg fun ⟨hkind, hl⟩ => ?_
  rcases h with h | h
  · exact absurd (hkind.symm.trans h) (by decide)
  · exact h (catchesUp_iff.mp hl)

theorem catchUp_cues {tr : Track} (hkind : tr.kind = .caption)
    (hl : s.lifecycle f.auditorium ∈ [.running, .holdover, .paused]) : s.catchUp f k tr b =
      (tr.catchupCues b (s.showTime f.auditorium)).foldl (fun x c => (x.bump (.track k .catchupFrames)).offer
        (madeEntry ⟨.device f.handle, none, .caption k c⟩ .catchup tr.auditorium (some k) (some c.te))) s :=
  if_pos ⟨hkind, catchesUp_iff.mpr hl⟩

end

/-- Settles O36: the record of an accepted JOIN made, restored or switched, its answer, and the catch-up. -/
theorem acceptedJoinSubscribes : Obligations.AcceptedJoinSubscribes := by
  refine ⟨?_, fun s f k tr b => ⟨catchUp_none, fun hkind hl => ⟨_, rfl, ?_⟩⟩⟩
  · rintro s ea f _ k b tr _ rfl hr hjudge hk rfl
    have hjudge' := (judgeJoin_advance s ea f).trans hjudge
    obtain ⟨⟨tr', h95, htr', hau, _⟩, _⟩ := joinTrack_eq_some.mp (judgeJoin_track hjudge)
    obtain rfl : tr = tr' := Option.some.inj (hk.symm.trans htr')
    have hbound : k ∈ (s.advance ea).boundTracks f.auditorium := mem_boundTracks.mpr ⟨h95, tr, hk, hau⟩
    have hsub := subscribe_subscribed (ea := ea) (b := b) hbound (judgeJoin_place hjudge')
    have hanswer := (takeReturn_judged (hr.advance ea) _).trans (answerJoin_accepted (ea := ea) hjudge' hk)
    generalize hv : (s.advance ea).subscribe ea f k b = v at hsub hanswer
    have hresult : v.acceptResult f k tr b = .joinResult .accepted f.auditorium
        (some ⟨k, tr.language, tr.variant, b, f.auditorium * 64 + tr.slot * 4 + b.val, f.auditorium * 64 + 32,
          s.nextSeq k b⟩) := by
      unfold State.acceptResult
      rw [hau, hsub.frame]
      rfl
    rw [hresult] at hanswer
    refine ⟨v, congrArg Host.Outcome.next hanswer, hsub.frame, hsub.beacon, fun i hf hi hfree hlow => ?_,
      fun i r hf => ⟨fun j hj => ?_, fun hd => ?_, fun hd => ?_⟩⟩
    · obtain ⟨hseat, hmembers, hbeacons⟩ := hsub.made i hf
        ((freeIndex_advance s ea).trans (freeIndex_eq_some.mpr ⟨hi, hfree, hlow⟩))
      exact ⟨hseat.record, hseat.others, hmembers, hseat.counted, hseat.counts, hbeacons⟩
    · cases hd : r.detached with
      | true => exact (hsub.restored i r hf hd).1.others j hj
      | false => exact (hsub.switched i r hf hd).1.others j hj
    · obtain ⟨hseat, hmembers, hbeacons⟩ := hsub.restored i r hf hd
      exact ⟨hseat.record, hmembers, hseat.counted, hseat.counts, hbeacons⟩
    · obtain ⟨hseat, hmembers, hbeacons⟩ := hsub.switched i r hf hd
      exact ⟨hseat.record, hmembers, hseat.counted, hseat.counts, hbeacons⟩
  · rw [catchUp_cues hkind hl, catchupCues_eq]

end Sys2Proof.Machine

/-! PROOFS. House checks: completion, generated items, start and stop (O43, O42, O41). -/

namespace Sys2Proof.Machine

/-! ### Completion (R159) -/

theorem holdsTest_caption {tr : Track} (h : tr.kind = .caption) :
    tr.holdsTest = true ↔ ∃ c, (c ∈ tr.pending ∨ tr.current = some c) ∧ c.caption.test = true := by
  unfold Track.holdsTest
  simp only [h]
  rw [Bool.or_eq_true, List.any_eq_true, Option.any_eq_true]
  constructor
  · rintro (⟨c, hc, ht⟩ | ⟨c, hc, ht⟩)
    · exact ⟨c, .inl hc, ht⟩
    · exact ⟨c, .inr hc, ht⟩
  · rintro ⟨c, hc | hc, ht⟩
    · exact .inl ⟨c, hc, ht⟩
    · exact .inr ⟨c, hc, ht⟩

theorem holdsTest_description {tr : Track} (h : tr.kind = .description) :
    tr.holdsTest = true ↔ ∃ x ∈ tr.ring, x.audio.test = true := by
  unfold Track.holdsTest
  simp only [h]
  exact List.any_eq_true

section
variable {s : State} {a k : Nat} {tr : Track}

theorem checkComplete_bound (hk : (s.check a).track = some k) (ht : s.track k = some tr) :
    s.checkComplete a = ((s.check a).running && (s.check a).deadline.isNone && !tr.holdsTest) := by
  unfold State.checkComplete
  simp only [hk, ht]

theorem completeCheck_stands (h : s.checkComplete a = false) : s.completeCheck a = s :=
  if_neg (by rw [h]; decide)

/-- A completed check: its results, its clock and its track, before the auditorium's state, the flag and the beacon. -/
def State.checkEnded (s : State) (a k : Nat) : State :=
  ((s.endCheck a .completed).freezeClock a s.engineTime).setLastBlock k none

theorem completeCheck_completes (h : s.checkComplete a = true) (hk : (s.check a).track = some k) :
    s.completeCheck a = ((((s.checkEnded a k).setLifecycle a ((s.checkEnded a k).readyState a)).setFlag .houseCheckDone
      a).updateBeacon a) := by
  have hkept : (((s.endCheck a .completed).freezeClock a s.engineTime).check a).track = some k := by
    have hcheck : ((s.endCheck a .completed).freezeClock a s.engineTime).check a = (s.endCheck a .completed).check a := rfl
    rw [hcheck, (endCheck_check s a .completed).1]
    exact hk
  have hcleared : ((s.endCheck a .completed).freezeClock a s.engineTime).clearCheckedBlock a = s.checkEnded a k := by
    unfold State.clearCheckedBlock
    simp only [hkept]
    rfl
  exact (if_pos h).trans (by rw [hcleared])

theorem readyState_bound (h : k ∈ s.boundTracks a) : s.readyState a = .ready := by
  rcases readyState_cases s a with ⟨hnil, -⟩ | ⟨-, hready⟩
  · rw [hnil] at h
    exact nomatch h
  · exact hready

/-- The state that the setting of the flag and the look at the beacon start from. -/
def State.checkReady (s : State) (a k : Nat) : State := (s.checkEnded a k).setLifecycle a .ready

theorem checkReady_spec (ht : s.track k = some tr) :
    (s.checkReady a k).check a = (s.endCheck a .completed).check a ∧
    (s.checkReady a k).clock a = { s.clock a with s0 := s.showTimeAt a s.engineTime, e0 := s.engineTime } ∧
    (s.checkReady a k).auditorium a = { s.auditorium a with lifecycle := .ready } ∧
    (s.checkReady a k).track k = some { tr with lastBlock := none } ∧
    (∀ j, j ≠ k → (s.checkReady a k).track j = s.track j) ∧
    OtherShows a s (s.checkReady a k) ∧
    s.checkReady a k = { s with
      auditoriums := (s.checkReady a k).auditoriums, clocks := (s.checkReady a k).clocks
      checks := (s.checkReady a k).checks, tracks := (s.checkReady a k).tracks } := by
  have hframe : (s.endCheck a .completed).freezeClock a s.engineTime = { s with
      clocks := ((s.endCheck a .completed).freezeClock a s.engineTime).clocks
      checks := ((s.endCheck a .completed).freezeClock a s.engineTime).checks } := rfl
  have hbecomes := setLastBlock_becomes (s := (s.endCheck a .completed).freezeClock a s.engineTime) ht none
  have hothers : OtherShows a s ((s.endCheck a .completed).freezeClock a s.engineTime) :=
    (WithinShow.setCheck (p := fun _ => True) (cs := []) (fs := []) _).trans (WithinShow.freezeClock _) |>.shows
  have hclock : ((s.endCheck a .completed).freezeClock a s.engineTime).clock a =
      { s.clock a with s0 := s.showTimeAt a s.engineTime, e0 := s.engineTime } := State.clock_setClock_same ..
  have hready : s.checkReady a k = (((s.endCheck a .completed).freezeClock a s.engineTime).setLastBlock k
    none).setLifecycle a .ready := rfl
  have hcheck : ((s.endCheck a .completed).freezeClock a s.engineTime).check a = (s.endCheck a .completed).check a := rfl
  have haud : ((s.endCheck a .completed).freezeClock a s.engineTime).auditorium a = s.auditorium a := rfl
  have htracks : ∀ j, ((s.endCheck a .completed).freezeClock a s.engineTime).track j = s.track j := fun _ => rfl
  rw [hready]
  generalize (s.endCheck a .completed).freezeClock a s.engineTime = g at *
  generalize g.setLastBlock k none = h at hbecomes
  have hg := hbecomes.frame
  have hlife : OtherShows a h (h.setLifecycle a .ready) :=
    (WithinShow.setLifecycle (p := fun _ => True) (cs := []) (fs := []) _).shows
  have hsame : SameShows g h := by rw [hg]; exact ⟨rfl, rfl, rfl, rfl⟩
  refine ⟨(hsame.check a).trans hcheck, (hsame.clock a).trans hclock, ?_, hbecomes.track,
    fun j hj => (hbecomes.others j hj).trans (htracks j), (hothers.trans (hsame.others a)).trans hlife, ?_⟩
  · rw [State.auditorium_setLifecycle, if_pos rfl, hsame.auditorium, haud]
  · have hset : h.setLifecycle a .ready = { h with auditoriums := (h.setLifecycle a .ready).auditoriums } := rfl
    have hclocks : (h.setLifecycle a .ready).clocks = g.clocks := by rw [hset, hg]
    have hchecks : (h.setLifecycle a .ready).checks = g.checks := by rw [hset, hg]
    have htr : (h.setLifecycle a .ready).tracks = h.tracks := rfl
    rw [hclocks, hchecks, htr]
    exact hset.trans (by rw [hg, hframe])

end

/-- Settles O43: a house check completes just when nothing of it is left. -/
theorem houseCheckCompletes : Obligations.HouseCheckCompletes := by
  intro s a k tr hk ht ha
  have hcomplete := checkComplete_bound hk ht
  refine ⟨fun h => completeCheck_stands ?_, fun hrun hdeadline h95 hcaption hblock => ⟨_, rfl, ?_⟩⟩
  · rw [hcomplete]
    rcases h with h | h | ⟨hkind, h⟩ | ⟨hkind, h⟩
    · rw [h]
      rfl
    · cases hd : (s.check a).deadline with
      | none => exact absurd hd h
      | some d => rw [Option.isNone_some, Bool.and_false, Bool.false_and]
    · rw [(holdsTest_caption hkind).mpr h, Bool.not_true, Bool.and_false]
    · rw [(holdsTest_description hkind).mpr h, Bool.not_true, Bool.and_false]
  · have htest : tr.holdsTest = false := by
      refine Bool.eq_false_iff.mpr fun htest => ?_
      cases hkind : tr.kind with
      | caption =>
        obtain ⟨c, hc, hct⟩ := (holdsTest_caption hkind).mp htest
        exact absurd (hct.symm.trans (hcaption hkind c hc)) (by decide)
      | description =>
        obtain ⟨x, hx, hxt⟩ := (holdsTest_description hkind).mp htest
        exact absurd (hxt.symm.trans (hblock hkind x hx)) (by decide)
    have hdone : s.checkComplete a = true := by rw [hcomplete, hrun, hdeadline, htest]; rfl
    obtain ⟨hcheck, hclock, haud, htrack, htracks, hothers, hframe⟩ := checkReady_spec (a := a) ht
    have hbound : k ∈ (s.checkEnded a k).boundTracks a := mem_boundTracks.mpr ⟨h95, _, htrack, ha⟩
    have hready : (s.checkEnded a k).setLifecycle a ((s.checkEnded a k).readyState a) = s.checkReady a k := by
      rw [readyState_bound hbound]
      rfl
    rw [completeCheck_completes hdone hk, hready]
    obtain ⟨hended, hresults⟩ := endCheck_check s a .completed
    obtain ⟨hdevices, hhighest⟩ := hresults k hk
    generalize s.checkReady a k = r at *
    have hflag := flagged_setFlag r .houseCheckDone a
    have hset : Settled a r ((r.setFlag .houseCheckDone a).updateBeacon a) := settled (sends_setFlag r _ _).plays
    have hbeacon : OtherShows a r ((r.setFlag .houseCheckDone a).updateBeacon a) :=
      ((sends_setFlag r .houseCheckDone a).plays.shows.others a).trans
        (WithinShow.updateBeacon (p := fun _ => True) (cs := []) (fs := [])).shows
    have hlife : r.lifecycle a = .ready := by unfold State.lifecycle; rw [haud]
    have hcount : ∀ c, r.count c = s.count c := fun c => by rw [hframe]; rfl
    have hflags : ∀ f, r.flagSet f = s.flagSet f := fun f => flagSet_of_eq (by rw [hframe]) f
    refine ⟨?_, hset.clock.trans hclock, hset.auditorium.trans haud, hset.stopped (by rw [hlife]; decide),
      (updateBeacon_flagSet ..).trans hflag.set, fun f hf => ?_, ?_, fun j hj => ?_, hothers.trans hbeacon, fun c hc => ?_, ?_⟩
    · rw [hset.check, hcheck, hended, hdevices, hhighest, ← hdeadline]
    · rw [updateBeacon_flagSet, hflag.others f hf, hflags]
    · rw [updateBeacon_track, hflag.frame]
      exact htrack
    · rw [updateBeacon_track, hflag.frame]
      exact htracks j hj
    · rw [updateBeacon_count, hflag.counts c hc, hcount]
    · have hlast := updateBeacon_eq (r.setFlag .houseCheckDone a) a
      have hz := hflag.frame
      generalize r.setFlag .houseCheckDone a = z at hlast hz
      rw [hlast, hz, hframe]

/-! ### Generated items (R157, R158) -/

section
variable {c : HouseCheck} {n x step count : Nat}

/-- The deadline after an item: none at the count, or at the last number of a CONTINUOUS check. -/
theorem generated_deadline (hcount : c.count = some count) :
    (count ≠ 0 → (c.generated n x step).items = count → (c.generated n x step).deadline = none) ∧
    (count ≠ 0 → (c.generated n x step).items ≠ count → (c.generated n x step).deadline = some (x + step)) ∧
    (count = 0 → n = 0x8FFFFFFF → (c.generated n x step).deadline = none) ∧
    (count = 0 → n ≠ 0x8FFFFFFF → (c.generated n x step).deadline = some (x + step)) := by
  have hdeadline : (c.generated n x step).deadline =
      if count = 0 then if n = lastItemNumber then none else some (x + step)
      else if (c.generated n x step).items = count then none else some (x + step) := by
    unfold HouseCheck.generated HouseCheck.nextDeadline
    cases count with
    | zero => simp only [hcount, if_true]
    | succ m => simp only [hcount, Nat.succ_ne_zero, if_false]
  rw [hdeadline]
  exact ⟨fun hne hi => (if_neg hne).trans (if_pos hi), fun hne hi => (if_neg hne).trans (if_neg hi),
    fun hz hn => (if_pos hz).trans (if_pos hn), fun hz hn => (if_pos hz).trans (if_neg hn)⟩

variable {mode : CheckMode} {text : List Byte}

theorem cueText_eq (hmode : c.mode = some mode) (hcaption : mode ≠ .pattern) : c.cueText n =
    if mode = .fixed then c.text.getD [] else bytesOf [67, 72, 69, 67, 75, 32] ++ decimal n := by
  unfold HouseCheck.cueText
  cases mode with
  | pattern => exact absurd rfl hcaption
  | fixed =>
    simp only [hmode]
    rfl
  | _ =>
    simp only [hmode]
    rfl

end

section
variable {s : State} {a k n x : Nat} {tr : Track}

theorem generateCue_due (hrun : (s.check a).running = true) (hk : (s.check a).track = some k) (ht : s.track k = some tr)
    (hkind : tr.kind = .caption) (hx : (s.check a).deadline = some x) : s.generateCue a =
      if x ≤ s.engineTime then
        ((s.setCheck a ((s.check a).generated ((s.check a).next.getD 1) x (((s.check a).interval.getD 0) * 1000))).arriveCue k
          ((s.check a).cue ((s.check a).next.getD 1) (s.showTimeAt a x) tr.lead) none true).completeCheck a
      else s := by
  unfold State.generateCue
  simp only [checkedTrack_eq_some.mpr ⟨hrun, hk, ht, hkind⟩, hx]
  rfl

theorem generateBlock_due (hrun : (s.check a).running = true) (hk : (s.check a).track = some k) (ht : s.track k = some tr)
    (hkind : tr.kind = .description) (hx : (s.check a).deadline = some x) : s.generateBlock a =
      if x ≤ s.engineTime then
        ((s.setCheck a { (s.check a).generated ((s.check a).next.getD 1) x 20000 with
          previousTp := some ((s.check a).block ((s.check a).next.getD 1) (s.showTimeAt a x) tr.lead).tp }).arriveBlock k
            ((s.check a).block ((s.check a).next.getD 1) (s.showTimeAt a x) tr.lead) none true).completeCheck a
      else s := by
  unfold State.generateBlock
  simp only [checkedTrack_eq_some.mpr ⟨hrun, hk, ht, hkind⟩, hx]

theorem checkSet_spec (s : State) (a : Nat) (c : HouseCheck) : (s.setCheck a c).check a = c ∧
    (∀ j, j ≠ a → (s.setCheck a c).check j = s.check j) ∧
    s.setCheck a c = { s with checks := (s.setCheck a c).checks } :=
  ⟨State.check_setCheck_same .., fun j hj => by rw [State.check_setCheck, if_neg hj], rfl⟩

end

/-- Settles O42: the generated cue and the generated block, their arrival and the next deadline. -/
theorem itemsAreGenerated : Obligations.ItemsAreGenerated := by
  refine ⟨?_, ?_⟩
  · rintro s t a k n x duration interval count ts mode tr c text rfl hrun hk ht hkind hmode hcaption hnext hx hduration
      hinterval hcount hts htext
    rw [hts, htext]
    have hdue := generateCue_due (s := s.advance t) hrun hk ht hkind hx
    have hset := checkSet_spec (s.advance t) a ((s.check a).generated n x (interval * 1000))
    have hcue : (s.check a).cue n (s.showTimeAt a x) tr.lead =
        { label := 0, cls := 0, region := if mode = .regionSweep then n % 16 else 0
          number := 0x70000000 + n, ts := min showMax (s.showTimeAt a x + tr.lead + 100000)
          te := min showMax (s.showTimeAt a x + tr.lead + 100000) + duration * 1000
          textLen := ((s.check a).cueText n).length, speakerLen := 0, tail := (s.check a).cueText n } := by
      unfold HouseCheck.cue
      simp only [hmode, hduration, Option.some.injEq]
      rfl
    have hadv : (s.advance t).check a = s.check a := rfl
    have hshow : (s.advance t).showTimeAt a x = s.showTimeAt a x := rfl
    rw [hadv, hshow, hnext, hinterval] at hdue
    obtain ⟨hend, hgo, hlast, hon⟩ := generated_deadline (c := s.check a) (n := n) (x := x) (step := interval * 1000) hcount
    refine ⟨fun hlt => congrArg Host.Outcome.next (hdue.trans (if_neg (Nat.not_le_of_lt hlt))),
      fun hle => ⟨_, _, congrArg Host.Outcome.next ((hdue.trans (if_pos hle)).trans ?_), hset.1, hset.2.1, hset.2.2, rfl,
        hend, hgo, hlast, hon⟩⟩
    rw [Option.getD_some, Option.getD_some, hcue, cueText_eq hmode hcaption]
  · rintro s t a k n x count tp pattern tr c rfl hrun hk ht hkind hpattern hnext hx hcount htp
    rw [htp]
    have hdue := generateBlock_due (s := s.advance t) hrun hk ht hkind hx
    have hblock : (s.check a).block n (s.showTimeAt a x) tr.lead =
        { label := 0, seq := n
          tp := min showMax (if (s.check a).previousTp.isSome then (s.check a).previousTp.getD 0 + 20000
            else s.showTimeAt a x + tr.lead + 100000)
          duration := 20000, payloadLen := 240, tail := List.replicate 240 pattern } := by
      unfold HouseCheck.block
      rw [hpattern]
      cases (s.check a).previousTp <;> rfl
    have hadv : (s.advance t).check a = s.check a := rfl
    have hshow : (s.advance t).showTimeAt a x = s.showTimeAt a x := rfl
    rw [hadv, hshow, hnext, Option.getD_some, hblock] at hdue
    have hset := checkSet_spec (s.advance t) a { (s.check a).generated n x 20000 with
      previousTp := some (min showMax (if (s.check a).previousTp.isSome then (s.check a).previousTp.getD 0 + 20000
            else s.showTimeAt a x + tr.lead + 100000)) }
    obtain ⟨hend, hgo, hlast, hon⟩ := generated_deadline (c := s.check a) (n := n) (x := x) (step := 20000) hcount
    exact ⟨fun hlt => congrArg Host.Outcome.next (hdue.trans (if_neg (Nat.not_le_of_lt hlt))),
      fun hle => ⟨_, _, congrArg Host.Outcome.next (hdue.trans (if_pos hle)), hset.1, hset.2.1, hset.2.2, rfl, hend, hgo,
        hlast, hon⟩⟩

/-! ### A parameter held to its range (R166) -/

section
variable {items : List Item} {id lo hi d : Nat}

theorem holdItem_absent (h : itemNat items id = none) : holdItem items id lo hi d = ⟨d, false⟩ := by
  unfold holdItem
  simp only [h]

theorem holdItem_carried {x : Nat} (h : itemNat items id = some x) : holdItem items id lo hi d = hold lo hi x := by
  unfold holdItem
  simp only [h]

/-- Over a default that lies in the range. -/
theorem holdItem_value (hlo : lo ≤ d) (hhi : d ≤ hi) :
    (holdItem items id lo hi d).value = max lo (min hi ((itemNat items id).getD d)) := by
  cases h : itemNat items id with
  | none =>
    rw [holdItem_absent h, Option.getD_none]
    show d = _
    omega
  | some x =>
    rw [holdItem_carried h]
    rfl

theorem holdItem_clamped :
    (holdItem items id lo hi d).clamped = true ↔ ∃ x, itemNat items id = some x ∧ (x < lo ∨ hi < x) := by
  cases h : itemNat items id with
  | none =>
    rw [holdItem_absent h]
    exact ⟨fun h => absurd h Bool.false_ne_true, fun ⟨x, hx, _⟩ => nomatch hx⟩
  | some x =>
    rw [holdItem_carried h]
    exact decide_eq_true_iff.trans ⟨fun h => ⟨x, rfl, h⟩, fun ⟨y, hy, h⟩ => by cases hy; exact h⟩

end

/-! ### HOUSE CHECK START (R155, R156) -/

theorem checkModeOfCode_eq_some {n : Nat} {mode : CheckMode} (h1 : 1 ≤ n)
    (h : [CheckMode.fixed, .counter, .regionSweep, .pattern][n - 1]? = some mode) : checkModeOfCode n = some mode := by
  obtain ⟨m, rfl⟩ : ∃ m, n = m + 1 := ⟨n - 1, by omega⟩
  rw [Nat.add_sub_cancel] at h
  match m, h with
  | 0, h => exact h
  | 1, h => exact h
  | 2, h => exact h
  | 3, h => exact h

theorem checkModeOfCode_eq_none {n : Nat} (h : n ∉ [1, 2, 3, 4]) : checkModeOfCode n = none := by
  simp only [List.mem_cons, List.not_mem_nil, or_false, not_or] at h
  obtain ⟨h1, h2, h3, h4⟩ := h
  unfold checkModeOfCode
  rw [if_neg h1, if_neg h2, if_neg h3, if_neg h4]

theorem checkMode_kind_caption {m : CheckMode} : m.kind = .caption ↔ m ≠ .pattern := by
  cases m <;> decide

theorem checkMode_kind_eq {m : CheckMode} {kind : TrackKind} : kind = m.kind ↔ (kind = .description ↔ m = .pattern) := by
  cases m <;> cases kind <;> decide

theorem checkMode_kind_ne {m : CheckMode} {kind : TrackKind} : kind ≠ m.kind ↔ (kind = .caption ↔ m = .pattern) := by
  cases m <;> cases kind <;> decide

theorem checkGiven_iff {m : CheckMode} {items : List Item} : checkGiven m items = true ↔
    (m = .fixed → ∃ x, itemBytes items 5 = some x ∧ 1 ≤ x.length ∧ x.length ≤ 64) ∧
      (m = .pattern → itemNat items 6 ≠ none) := by
  cases m with
  | fixed =>
    have hgiven : checkGiven .fixed items = true ↔ ∃ x, itemBytes items 5 = some x ∧ 1 ≤ x.length ∧ x.length ≤ 64 := by
      simp only [checkGiven, Option.any_eq_true, decide_eq_true_eq]
    rw [hgiven]
    exact ⟨fun h => ⟨fun _ => h, fun h => nomatch h⟩, fun h => h.1 rfl⟩
  | pattern =>
    have hgiven : checkGiven .pattern items = true ↔ itemNat items 6 ≠ none := Option.isSome_iff_ne_none
    rw [hgiven]
    exact ⟨fun h => ⟨(fun h => nomatch h), fun _ => h⟩, fun h => h.2 rfl⟩
  | _ => exact ⟨fun _ => ⟨(fun h => nomatch h), fun h => nomatch h⟩, fun _ => rfl⟩

section
variable {q : Queued} {s : State} {a k : Nat} {mode : CheckMode}

theorem runHouseCheckStart_unmoded (h : checkModeOfCode (argument q.items 3) = none) :
    runHouseCheckStart q s = s.refuse .badParameter := by
  unfold runHouseCheckStart
  simp only [h]

/-- The ranges of R155 and what the mode must be given. -/
def checkFits (items : List Item) (mode : CheckMode) : Prop :=
  (1 ≤ argument items 1 ∧ argument items 1 ≤ 24) ∧ argument items 2 ≤ 95 ∧ argument items 4 ∈ [0, 1, 10, 100, 1000] ∧
    checkGiven mode items = true

theorem checkFits_iff {items : List Item} : checkFits items mode ↔ ¬(!auditoriumNumber (argument items 1) ||
    decide (95 < argument items 2) || !checkCounts.contains (argument items 4) || !checkGiven mode items) = true := by
  have hcounts : checkCounts.contains (argument items 4) = true ↔ argument items 4 ∈ [0, 1, 10, 100, 1000] :=
    List.contains_iff_mem
  unfold checkFits
  rw [← auditoriumNumber_eq_true_iff, ← hcounts]
  simp only [Bool.not_eq_true, Bool.or_eq_false_iff, Bool.not_eq_false', decide_eq_false_iff_not, Nat.not_lt, and_assoc]

theorem runHouseCheckStart_unfit (hm : checkModeOfCode (argument q.items 3) = some mode) (h : ¬checkFits q.items mode) :
    runHouseCheckStart q s = s.refuse .badParameter := by
  unfold runHouseCheckStart
  simp only [hm]
  exact if_pos (Classical.not_not.mp (mt checkFits_iff.mpr h))

theorem runHouseCheckStart_unready (hm : checkModeOfCode (argument q.items 3) = some mode) (h : checkFits q.items mode)
    (hl : s.lifecycle (argument q.items 1) ≠ .ready) : runHouseCheckStart q s = s.refuse .wrongState := by
  unfold runHouseCheckStart
  simp only [hm]
  exact (if_neg (checkFits_iff.mp h)).trans (if_pos hl)

theorem runHouseCheckStart_untracked (hm : checkModeOfCode (argument q.items 3) = some mode) (h : checkFits q.items mode)
    (hl : s.lifecycle (argument q.items 1) = .ready)
    (ht : ∀ tr, s.track (argument q.items 2) = some tr → tr.auditorium ≠ argument q.items 1 ∨ tr.kind ≠ mode.kind) :
    runHouseCheckStart q s = s.refuse .badParameter := by
  unfold runHouseCheckStart
  simp only [hm]
  refine (if_neg (checkFits_iff.mp h)).trans ((if_neg (not_not_intro hl)).trans ?_)
  cases hk : s.track (argument q.items 2) with
  | none => rfl
  | some tr => exact if_pos (ht tr hk)

/-- Whether the RESULT of a start is CLAMPED (R155, R166). -/
def checkClamped (items : List Item) (mode : CheckMode) : Bool :=
  decide (mode.kind = .caption) && ((checkInterval items).clamped || (checkDuration items).clamped)

theorem checkClamped_iff {items : List Item} : checkClamped items mode = true ↔ mode ≠ .pattern ∧
    ((∃ x, itemNat items 7 = some x ∧ (x < 100 ∨ 5000 < x)) ∨ ∃ x, itemNat items 8 = some x ∧ (x < 500 ∨ 10000 < x)) := by
  unfold checkClamped checkInterval checkDuration
  rw [Bool.and_eq_true, Bool.or_eq_true, decide_eq_true_eq, checkMode_kind_caption, holdItem_clamped, holdItem_clamped]

theorem runHouseCheckStart_starts {tr : Track} (hm : checkModeOfCode (argument q.items 3) = some mode)
    (h : checkFits q.items mode) (hl : s.lifecycle (argument q.items 1) = .ready)
    (hk : s.track (argument q.items 2) = some tr) (ha : tr.auditorium = argument q.items 1) (hkind : tr.kind = mode.kind) :
    runHouseCheckStart q s = (s.startCheck (argument q.items 1) (startedCheck q.items mode (argument q.items 2)
      (argument q.items 4) s.engineTime), .done (checkClamped q.items mode) []) := by
  unfold runHouseCheckStart
  simp only [hm]
  refine (if_neg (checkFits_iff.mp h)).trans ((if_neg (not_not_intro hl)).trans ?_)
  simp only [hk]
  exact if_neg fun hno => hno.elim (fun h => h ha) fun h => h hkind

/-- The state that the clearing of a start works on: the context, the TEST anchor and TEST (R45, R156). -/
def State.testing (s : State) (a : Nat) (c : HouseCheck) : State :=
  ((s.setCheck a c).setClock a { s.clock a with
    e0 := s.engineTime, s0 := 0, correction := 0, drift := 0, rate := 0 }).setLifecycle a .test

theorem startCheck_eq (s : State) (a : Nat) (c : HouseCheck) :
    s.startCheck a c = (((s.testing a c).houseCheckClearing a).updateBeacon a) := rfl

theorem houseCheckClearing_eq (s : State) (a sh : Nat) : s.houseCheckClearing a = s.steppedEach a sh .showEnd := rfl

theorem testing_auditorium (s : State) (a : Nat) (c : HouseCheck) :
    (s.testing a c).auditorium a = { s.auditorium a with lifecycle := .test } :=
  (State.auditorium_setLifecycle ..).trans (if_pos rfl)

theorem testing_beaconRunning (s : State) (a : Nat) (c : HouseCheck) :
    (s.testing a c).beaconRunning a = s.beaconRunning a := by
  unfold State.beaconRunning
  rw [testing_auditorium]
  rfl

/-- A check started: its contexts, the clearing of the tracks, the beacon, and what stands (R156). -/
theorem startCheck_spec (s : State) (a : Nat) (c : HouseCheck) (w : State) (hw : s.startCheck a c = w) :
    w.check a = c ∧ w.auditorium a = { s.auditorium a with lifecycle := .test } ∧
    w.clock a = { s.clock a with e0 := s.engineTime, s0 := 0, correction := 0, drift := 0, rate := 0 } ∧
    w.emptiedShow a ∧ w.beacon a = s.beaconRunning a ∧
    (∃ x, x = { s with auditoriums := w.auditoriums, clocks := w.clocks, checks := w.checks } ∧
      w = { x.steppedEach a (x.showTime a) .showEnd with beacons := w.beacons }) ∧
    WithinShow a (s.owns a) [] [] s w := by
  subst hw
  rw [startCheck_eq]
  have hplays := plays_houseCheckClearing (s.testing a c) a
  have hset : Settled a (s.testing a c) (((s.testing a c).houseCheckClearing a).updateBeacon a) := settled hplays
  have haud := testing_auditorium s a c
  have hlife : (s.testing a c).lifecycle a = .test := by unfold State.lifecycle; rw [haud]
  have hbeacon := updateBeacon_eq ((s.testing a c).houseCheckClearing a) a
  have hwithin : WithinShow a (s.owns a) [] [] s (((s.testing a c).houseCheckClearing a).updateBeacon a) :=
    ((((WithinShow.setCheck _).trans (WithinShow.setClock _)).trans (WithinShow.setLifecycle _)).trans
      (WithinShow.work hplays (elsewhere_houseCheckClearing _ a))).trans WithinShow.updateBeacon
  refine ⟨hset.check.trans (State.check_setCheck_same s a c), hset.auditorium.trans haud,
    hset.clock.trans (State.clock_setClock_same (s.setCheck a c) a _),
    emptied_of_tracks (updateBeacon_tracks ..) (emptied_houseCheckClearing _ a),
    (hset.running (by rw [hlife]; decide)).trans (testing_beaconRunning s a c), ⟨s.testing a c, ?_, ?_⟩, hwithin⟩
  · have hauds : (((s.testing a c).houseCheckClearing a).updateBeacon a).auditoriums = (s.testing a c).auditoriums := by
      rw [hbeacon]; exact hplays.shows.auditoriums
    have hclocks : (((s.testing a c).houseCheckClearing a).updateBeacon a).clocks = (s.testing a c).clocks := by
      rw [hbeacon]; exact hplays.shows.clocks
    have hchecks : (((s.testing a c).houseCheckClearing a).updateBeacon a).checks = (s.testing a c).checks := by
      rw [hbeacon]; exact hplays.shows.checks
    rw [hauds, hclocks, hchecks]
    rfl
  · rw [← houseCheckClearing_eq]
    exact hbeacon

end

/-- The context of a started check, field by field (R156; log entry 16). -/
theorem startedCheck_spec (items : List Item) (mode : CheckMode) (k count e : Nat) (c : HouseCheck)
    (hc : startedCheck items mode k count e = c) :
    c.running = true ∧ c.outcome = .none ∧ c.track = some k ∧ c.mode = some mode ∧ c.count = some count ∧
    c.next = some 1 ∧ c.items = 0 ∧ c.reports = 0 ∧ c.missed = 0 ∧ c.devices = 0 ∧ c.highest = 0 ∧ c.previousTp = none ∧
    (mode ≠ .pattern → c.interval = some (max 100 (min 5000 ((itemNat items 7).getD 1000))) ∧
      c.duration = some (max 500 (min 10000 ((itemNat items 8).getD 2000))) ∧
      c.deadline = c.interval.map fun i => e + i * 1000) ∧
    (mode = .fixed → c.text = itemBytes items 5) ∧ (mode ≠ .fixed → c.text = none) ∧
    (mode ≠ .pattern → c.pattern = none) ∧ (mode = .pattern → c.interval = none ∧ c.duration = none) ∧
    (mode = .pattern → c.pattern = (itemNat items 6).map (BitVec.ofNat 8) ∧ c.deadline = some (e + 20000)) := by
  subst hc
  have hinterval : (checkInterval items).value = max 100 (min 5000 ((itemNat items 7).getD 1000)) :=
    holdItem_value (by decide) (by decide)
  have hduration : (checkDuration items).value = max 500 (min 10000 ((itemNat items 8).getD 2000)) :=
    holdItem_value (by decide) (by decide)
  unfold startedCheck
  refine ⟨rfl, rfl, rfl, rfl, rfl, rfl, rfl, rfl, rfl, rfl, rfl, rfl, fun h => ?_, fun h => if_pos h, fun h => if_neg h,
    fun h => if_neg h, fun h => ?_, fun h => ⟨if_pos h, ?_⟩⟩
  · have hkind := checkMode_kind_caption.mpr h
    simp only [hkind, if_true, hinterval, hduration, Option.map_some, and_self]
  · subst h
    exact ⟨rfl, rfl⟩
  · subst h
    rfl

/-! ### HOUSE CHECK STOP (R160) -/

section
variable {q : Queued} {s : State}

theorem runHouseCheckStop_bad (h : ¬(1 ≤ argument q.items 1 ∧ argument q.items 1 ≤ 24)) :
    runHouseCheckStop q s = s.refuse .badParameter :=
  if_pos (by rw [auditoriumNumber_eq_false h]; rfl)

theorem runHouseCheckStop_ranged (h : 1 ≤ argument q.items 1 ∧ argument q.items 1 ≤ 24) :
    ¬(!auditoriumNumber (argument q.items 1)) = true := by
  rw [auditoriumNumber_eq_true h]
  decide

theorem runHouseCheckStop_unstarted (h : 1 ≤ argument q.items 1 ∧ argument q.items 1 ≤ 24)
    (hl : s.lifecycle (argument q.items 1) ≠ .test) : runHouseCheckStop q s = s.refuse .wrongState :=
  (if_neg (runHouseCheckStop_ranged h)).trans (if_pos hl)

theorem runHouseCheckStop_stops (h : 1 ≤ argument q.items 1 ∧ argument q.items 1 ≤ 24)
    (hl : s.lifecycle (argument q.items 1) = .test) :
    runHouseCheckStop q s = (s.stopCheck (argument q.items 1), .done false []) :=
  (if_neg (runHouseCheckStop_ranged h)).trans (if_neg (not_not_intro hl))

end

theorem Plays.showTimeAt {s t : State} (h : Plays s t) (a e : Nat) : t.showTimeAt a e = s.showTimeAt a e := by
  unfold State.showTimeAt State.lifecycle
  rw [h.shows.clock, h.shows.auditorium]

/-- A check stopped: its results, the clearing, the frozen clock, READY or PREPARING (R45, R160). -/
theorem stopCheck_spec (s : State) (a : Nat) (w : State) (hw : s.stopCheck a = w) :
    w.check a = (s.endCheck a .stopped).check a ∧
    w.clock a = { s.clock a with e0 := s.engineTime, s0 := s.showTime a } ∧
    w.auditorium a = { s.auditorium a with lifecycle := s.readyState a } ∧ w.beacon a = none ∧ w.emptiedShow a ∧
    (∃ x, x = { s with checks := w.checks } ∧ w = { x.steppedEach a (s.showTime a) .showEnd with
      auditoriums := w.auditoriums, clocks := w.clocks, beacons := w.beacons }) ∧
    WithinShow a (s.owns a) [] [] s w := by
  subst hw
  have hplays := plays_houseCheckClearing (s.endCheck a .stopped) a
  have hempty := emptied_houseCheckClearing (s.endCheck a .stopped) a
  have helse := elsewhere_houseCheckClearing (s.endCheck a .stopped) a
  have hstop : s.stopCheck a = (((((s.endCheck a .stopped).houseCheckClearing a).freezeClock a s.engineTime).setLifecycle a
    ((s.endCheck a .stopped).houseCheckClearing a |>.readyState a)).updateBeacon a) := rfl
  have hready : ((s.endCheck a .stopped).houseCheckClearing a).readyState a = s.readyState a := by
    unfold State.readyState
    rw [hplays.bindings.stand.boundTracks]
    rfl
  rw [hready] at hstop
  have hclocks := hplays.showTimeAt a s.engineTime
  have hclearing : ∃ y : State, y = { s with checks := y.checks } ∧ y.checks = (s.endCheck a .stopped).checks ∧
      (s.endCheck a .stopped).houseCheckClearing a = y.steppedEach a (s.showTime a) .showEnd := ⟨_, rfl, rfl, rfl⟩
  have howns : (s.endCheck a .stopped).owns a = s.owns a := rfl
  rw [howns] at helse
  obtain ⟨y, hy, hychecks, hstepped⟩ := hclearing
  have hset := settled (v := (((s.endCheck a .stopped).houseCheckClearing a).freezeClock a s.engineTime).setLifecycle a
    (s.readyState a)) (a := a) (Plays.refl _)
  have hwithin : WithinShow a (s.owns a) [] [] s (s.stopCheck a) := by
    rw [hstop]
    exact ((((WithinShow.setCheck _).trans (WithinShow.work hplays helse)).trans (WithinShow.freezeClock _)).trans
      (WithinShow.setLifecycle _)).trans WithinShow.updateBeacon
  have hauds : ((s.endCheck a .stopped).houseCheckClearing a).auditorium a = s.auditorium a := hplays.shows.auditorium a
  have hclocka : ((s.endCheck a .stopped).houseCheckClearing a).clock a = s.clock a := hplays.shows.clock a
  have hchecka := hplays.shows.check a
  have hchecks := hplays.shows.checks
  have hshow : (s.endCheck a .stopped).showTimeAt a s.engineTime = s.showTime a := rfl
  generalize (s.endCheck a .stopped).houseCheckClearing a = h at *
  have hfrozen : (h.freezeClock a s.engineTime).clock a = { h.clock a with
      s0 := h.showTimeAt a s.engineTime, e0 := s.engineTime } := State.clock_setClock_same ..
  have haud : ((h.freezeClock a s.engineTime).setLifecycle a (s.readyState a)).auditorium a =
      { h.auditorium a with lifecycle := s.readyState a } := (State.auditorium_setLifecycle ..).trans (if_pos rfl)
  have hlife : ((h.freezeClock a s.engineTime).setLifecycle a (s.readyState a)).lifecycle a = s.readyState a := by
    unfold State.lifecycle; rw [haud]
  have hbeacon := updateBeacon_eq ((h.freezeClock a s.engineTime).setLifecycle a (s.readyState a)) a
  rw [hstop] at hwithin ⊢
  refine ⟨hset.check.trans hchecka, hset.clock.trans (hfrozen.trans ?_), hset.auditorium.trans (haud.trans ?_),
    hset.stopped ?_, emptied_of_tracks (updateBeacon_tracks ..) (emptied_of_tracks rfl hempty), ⟨y, ?_, ?_⟩, hwithin⟩
  · rw [hclocka, hclocks, hshow]
  · rw [hauds]
  · rw [hlife]
    rcases readyState_cases s a with ⟨-, h⟩ | ⟨-, h⟩ <;> rw [h] <;> decide
  · have hwchecks : (((h.freezeClock a s.engineTime).setLifecycle a (s.readyState a)).updateBeacon a).checks = y.checks := by
      rw [hbeacon, hychecks]
      exact hchecks
    rw [hwchecks]
    exact hy
  · generalize hlast : (h.freezeClock a s.engineTime).setLifecycle a (s.readyState a) = l at hbeacon
    have hauds' : (l.updateBeacon a).auditoriums = l.auditoriums := by rw [hbeacon]
    have hclocks' : (l.updateBeacon a).clocks = l.clocks := by rw [hbeacon]
    rw [← hstepped, hauds', hclocks']
    refine hbeacon.trans ?_
    rw [← hlast]
    rfl

/-- Settles O41: HOUSE CHECK START judged in order and taken, HOUSE CHECK STOP refused and taken. -/
theorem houseCheckStartsAndStops : Obligations.HouseCheckStartsAndStops := by
  refine ⟨?_, ?_⟩
  · rintro s _ t q rest _ _ _ hheads rfl rfl rfl rfl
    have hheads' := heads_advance hheads t
    refine ⟨_, rfl, fun hbad => runRefused_runHead hheads' ?_, fun mode h1 h24 h95 hmode hone hcount => ?_⟩
    · cases hm : checkModeOfCode (argument q.items 3) with
      | none => exact runHouseCheckStart_unmoded hm
      | some mode =>
        refine runHouseCheckStart_unfit hm fun hfits => hbad ?_
        obtain ⟨⟨h1, h24⟩, h95, hcount, -⟩ := hfits
        refine ⟨h1, h24, h95, ?_, hcount⟩
        refine Classical.byContradiction fun hno => ?_
        exact nomatch hm.symm.trans (checkModeOfCode_eq_none hno)
    · have hm := checkModeOfCode_eq_some hone hmode
      refine ⟨fun ⟨hfixed, htext⟩ => runRefused_runHead hheads' (runHouseCheckStart_unfit hm ?_),
        fun ⟨hpattern, hbyte⟩ => runRefused_runHead hheads' (runHouseCheckStart_unfit hm ?_), fun htext hbyte => ?_⟩
      · rintro ⟨-, -, -, hgiven⟩
        obtain ⟨x, hx, hlow, hhigh⟩ := (checkGiven_iff.mp hgiven).1 hfixed
        have := htext x hx
        omega
      · rintro ⟨-, -, -, hgiven⟩
        exact (checkGiven_iff.mp hgiven).2 hpattern hbyte
      · have hfits : checkFits q.items mode := ⟨⟨h1, h24⟩, h95, hcount, checkGiven_iff.mpr ⟨htext, hbyte⟩⟩
        refine ⟨fun hl => runRefused_runHead hheads' (runHouseCheckStart_unready hm hfits hl), fun hl =>
          ⟨fun hno => runRefused_runHead hheads' (runHouseCheckStart_untracked hm hfits hl fun tr ht =>
            (hno tr ht).imp_right checkMode_kind_ne.mpr), fun tr ht ha hkind => ?_⟩⟩
        have hrun := runHouseCheckStart_starts (s := s.advance t) hm hfits hl ht ha (checkMode_kind_eq.mpr hkind)
        obtain ⟨hcheck, haud, hclock, hempty, hbeacon, hframe, hwithin⟩ := startCheck_spec (s.advance t)
          (argument q.items 1) (startedCheck q.items mode (argument q.items 2) (argument q.items 4)
            (s.advance t).engineTime) _ rfl
        obtain ⟨hrunning, houtcome, htrack, hcmode, hccount, hnext, hitems, hreports, hmissed, hdevices, hhighest, hprevious,
          hrest⟩ := startedCheck_spec q.items mode (argument q.items 2) (argument q.items 4) (s.advance t).engineTime _
            hcheck.symm
        exact ⟨_, _, runDone_runHead hheads' hrun hwithin.queue, checkClamped_iff, haud, hclock, hempty, hbeacon, hrunning,
          houtcome, htrack, hcmode, hccount, hnext, hitems, hreports, hmissed, hdevices, hhighest, hprevious, hrest.1,
          hrest.2.1, hrest.2.2.1, hrest.2.2.2.1, hrest.2.2.2.2.1, hrest.2.2.2.2.2, hframe, hwithin⟩
  · rintro s _ t q rest _ hheads rfl rfl
    have hheads' := heads_advance hheads t
    refine ⟨_, rfl, fun hbad => runRefused_runHead hheads' (runHouseCheckStop_bad hbad),
      fun h1 h24 hl => runRefused_runHead hheads' (runHouseCheckStop_unstarted ⟨h1, h24⟩ hl), fun h1 h24 hl => ?_⟩
    have hrun := runHouseCheckStop_stops (s := s.advance t) ⟨h1, h24⟩ hl
    obtain ⟨hcheck, hclock, haud, hbeacon, hempty, hframe, hwithin⟩ :=
      stopCheck_spec (s.advance t) (argument q.items 1) _ rfl
    obtain ⟨hended, hresults⟩ := endCheck_check (s.advance t) (argument q.items 1) .stopped
    have hready : (s.advance t).readyState (argument q.items 1) = s.readyState (argument q.items 1) := rfl
    rw [hready] at haud
    refine ⟨_, runDone_runHead hheads' hrun hwithin.queue, ?_, fun k hk => ?_, hclock, fun hb => ?_, fun hb => ?_,
      hbeacon, hempty, hframe, hwithin⟩
    · rw [hcheck]
      exact hended
    · rw [hcheck]
      exact hresults k hk
    · rcases readyState_cases s (argument q.items 1) with ⟨hnil, -⟩ | ⟨-, h⟩
      · exact absurd hnil hb
      · exact haud.trans (by rw [h]; rfl)
    · rcases readyState_cases s (argument q.items 1) with ⟨-, h⟩ | ⟨hne, -⟩
      · exact haud.trans (by rw [h]; rfl)
      · exact absurd hb hne

end Sys2Proof.Machine

/-! PROOFS. Parameters held to their ranges, AUDITORIUM OPEN, AUDITORIUM SET and BAND SET (O48, O49, O51). -/

namespace Sys2Proof.Machine

/-! ### The parameters of Table 1-1 (R1 to R3) -/

section
variable {items : List Item} {id lo hi d : Nat}

theorem holdItem_value_carried {v : Nat} (h : itemNat items id = some v) :
    (holdItem items id lo hi d).value = max lo (min hi v) := by
  rw [holdItem_carried h]
  rfl

theorem holdItem_value_absent (h : itemNat items id = none) : (holdItem items id lo hi d).value = d := by
  rw [holdItem_absent h]

/-- A value is unmoved just when it is the one that was carried or stood. -/
theorem holdItem_unclamped (h : lo ≤ hi) :
    (holdItem items id lo hi d).clamped = false ↔ (holdItem items id lo hi d).value = (itemNat items id).getD d := by
  cases hc : itemNat items id with
  | none =>
    rw [holdItem_absent hc]
    exact ⟨fun _ => rfl, fun _ => rfl⟩
  | some v =>
    rw [holdItem_carried hc, Option.getD_some]
    unfold hold
    rw [decide_eq_false_iff_not]
    show _ ↔ max lo (min hi v) = v
    omega

/-- The lost time is unmoved just when it was in its range and not below the holdover time `x`. -/
theorem lost_unclamped {x : Nat} (hx : x ≤ hi) :
    (holdItem items id 0 hi d).clamped = false ∧ ¬(holdItem items id 0 hi d).value < x ↔
      max (holdItem items id 0 hi d).value x = (itemNat items id).getD d := by
  cases hc : itemNat items id with
  | none =>
    rw [holdItem_absent hc, Option.getD_none]
    constructor
    · rintro ⟨-, h⟩
      show max d x = d
      have : ¬d < x := h
      omega
    · intro h
      have hmax : max d x = d := h
      exact ⟨rfl, show ¬d < x by omega⟩
  | some v =>
    rw [holdItem_carried hc, Option.getD_some]
    unfold hold
    rw [decide_eq_false_iff_not]
    show _ ∧ ¬max 0 (min hi v) < x ↔ max (max 0 (min hi v)) x = v
    omega

end

/-- Settles O48: each parameter carried or standing, and CLAMPED. -/
theorem parametersAreHeld : Obligations.ParametersAreHeld := by
  rintro items p r clamped given h rfl
  unfold readParams at h
  obtain ⟨hr, hclamped⟩ := Prod.mk.inj h
  subst hr hclamped
  have hzero : ∀ hi v : Nat, max 0 (min hi v) = min hi v := fun _ _ => Nat.zero_max _
  refine ⟨rfl, fun v hv => (holdItem_value_carried hv).trans (hzero ..), fun v hv => holdItem_value_carried hv,
    fun v hv => holdItem_value_carried hv, fun v hv => ?_, fun v hv => (holdItem_value_carried hv).trans (hzero ..),
    fun v hv => holdItem_value_carried hv, fun v hv => holdItem_value_carried hv, fun v hv => holdItem_value_carried hv,
    fun v hv => (holdItem_value_carried hv).trans (hzero ..), fun hv => holdItem_value_absent hv,
    fun hv => holdItem_value_absent hv, fun hv => holdItem_value_absent hv, fun hv => ?_,
    fun hv => holdItem_value_absent hv, fun hv => holdItem_value_absent hv, fun hv => holdItem_value_absent hv,
    fun hv => holdItem_value_absent hv, fun hv => holdItem_value_absent hv, fun hhold => ?_⟩
  · show max (holdItem items 6 0 120000 p.lost).value _ = _
    rw [holdItem_value_carried hv, hzero, Nat.max_comm]
  · show max (holdItem items 6 0 120000 p.lost).value _ = _
    rw [holdItem_value_absent hv, Nat.max_comm]
  · have hbound : (holdItem items 5 500 10000 p.holdover).value ≤ 120000 := by
      cases hc : itemNat items 5 with
      | none =>
        rw [holdItem_value_absent hc]
        omega
      | some v =>
        rw [holdItem_value_carried hc]
        omega
    have hlost := lost_unclamped (items := items) (id := 6) (d := p.lost) hbound
    rw [← holdItem_unclamped (by decide), ← holdItem_unclamped (by decide), ← holdItem_unclamped (by decide), ← hlost,
      ← holdItem_unclamped (by decide), ← holdItem_unclamped (by decide), ← holdItem_unclamped (by decide),
      ← holdItem_unclamped (by decide), ← holdItem_unclamped (by decide)]
    rw [← Bool.not_eq_false, not_iff_not]
    simp only [Bool.or_eq_false_iff, decide_eq_false_iff_not, and_assoc]

/-! ### AUDITORIUM OPEN (R5) -/

theorem shut_iff {l : Lifecycle} : l.shut = true ↔ l = .dark ∨ l = .closing := by
  cases l <;> decide

theorem auditorium_ranged {a : Nat} (h : 1 ≤ a ∧ a ≤ 24) : ¬(!auditoriumNumber a) = true := by
  rw [auditoriumNumber_eq_true h]
  decide

section
variable {q : Queued} {s : State}

theorem runAuditoriumOpen_bad (h : ¬(1 ≤ argument q.items 1 ∧ argument q.items 1 ≤ 24)) :
    runAuditoriumOpen q s = s.refuse .badParameter := if_pos (by rw [auditoriumNumber_eq_false h]; rfl)

theorem runAuditoriumOpen_open (h : 1 ≤ argument q.items 1 ∧ argument q.items 1 ≤ 24)
    (hl : s.lifecycle (argument q.items 1) ≠ .dark) : runAuditoriumOpen q s = s.refuse .wrongState :=
  (if_neg (auditorium_ranged h)).trans (if_pos hl)

/-- An auditorium opened with parameters, its clock record and house-check context cleared. -/
def State.opened (s : State) (a : Nat) (p : Params) : State :=
  ((s.setAuditorium a (openedAuditorium p)).setClock a Clock.initial).setCheck a HouseCheck.initial

theorem runAuditoriumOpen_opens {p : Params} {c : Bool} (h : 1 ≤ argument q.items 1 ∧ argument q.items 1 ≤ 24)
    (hl : s.lifecycle (argument q.items 1) = .dark) (hp : readParams q.items Params.default = (p, c)) :
    runAuditoriumOpen q s = (s.opened (argument q.items 1) p, .done c []) := by
  refine (if_neg (auditorium_ranged h)).trans ((if_neg (not_not_intro hl)).trans ?_)
  rw [hp]
  rfl

theorem opened_auditorium (s : State) (a : Nat) (p : Params) : (s.opened a p).auditorium a = openedAuditorium p :=
  State.auditorium_setAuditorium_same s a (openedAuditorium p)

theorem opened_clock (s : State) (a : Nat) (p : Params) : (s.opened a p).clock a = Clock.initial :=
  State.clock_setClock_same (s.setAuditorium a (openedAuditorium p)) a Clock.initial

theorem advance_others (s : State) (t a : Nat) : OtherShows a s (s.advance t) :=
  SameShows.others (s := s) (t := s.advance t) ⟨rfl, rfl, rfl, rfl⟩ a

theorem opened_others (s : State) (a : Nat) (p : Params) : OtherShows a s (s.opened a p) :=
  (((WithinShow.setAuditorium (p := fun _ => True) (cs := []) (fs := []) _).trans (WithinShow.setClock _)).trans
    (WithinShow.setCheck _)).shows

/-! ### AUDITORIUM SET (R2, R3, R41) -/

theorem runAuditoriumSet_bad (h : ¬(1 ≤ argument q.items 1 ∧ argument q.items 1 ≤ 24)) :
    runAuditoriumSet q s = s.refuse .badParameter := if_pos (by rw [auditoriumNumber_eq_false h]; rfl)

theorem runAuditoriumSet_shut (h : 1 ≤ argument q.items 1 ∧ argument q.items 1 ≤ 24)
    (hl : s.lifecycle (argument q.items 1) = .dark ∨ s.lifecycle (argument q.items 1) = .closing) :
    runAuditoriumSet q s = s.refuse .wrongState := (if_neg (auditorium_ranged h)).trans (if_pos (shut_iff.mpr hl))

/-- An auditorium with new parameters and its watch deadlines measured anew. -/
def State.retuned (s : State) (a : Nat) (p : Params) : State :=
  (s.setAuditorium a { s.auditorium a with params := p }).setClock a ((s.clock a).remeasure p)

theorem runAuditoriumSet_sets {p : Params} {c : Bool} (h : 1 ≤ argument q.items 1 ∧ argument q.items 1 ≤ 24)
    (hd : s.lifecycle (argument q.items 1) ≠ .dark) (hc : s.lifecycle (argument q.items 1) ≠ .closing)
    (hp : readParams q.items (s.auditorium (argument q.items 1)).params = (p, c)) :
    runAuditoriumSet q s = (((s.retuned (argument q.items 1) p).takeHoldover (argument q.items 1)).takeLost
      (argument q.items 1), .done c []) := by
  have hopen : ¬(s.lifecycle (argument q.items 1)).shut = true := fun h => (shut_iff.mp h).elim hd hc
  refine (if_neg (auditorium_ranged h)).trans ((if_neg hopen).trans ?_)
  rw [hp]
  rfl

theorem advance_of_le {t : Nat} (h : t ≤ s.engineTime) : s.advance t = s := by
  unfold State.advance
  rw [Nat.max_eq_left h]

theorem retuned_clock (s : State) (a : Nat) (p : Params) : (s.retuned a p).clock a = (s.clock a).remeasure p :=
  State.clock_setClock_same ..

theorem retuned_auditorium (s : State) (a : Nat) (p : Params) :
    (s.retuned a p).auditorium a = { s.auditorium a with params := p } := State.auditorium_setAuditorium_same s a _

theorem retuned_others (s : State) (a : Nat) (p : Params) : OtherShows a s (s.retuned a p) :=
  ((WithinShow.setAuditorium (p := fun _ => True) (cs := []) (fs := []) _).trans (WithinShow.setClock _)).shows

end

section
variable {c : Clock} {p : Params}

theorem remeasure_holdover_absent (h : c.holdoverDeadline = none) : (c.remeasure p).holdoverDeadline = none := by
  unfold Clock.remeasure
  rw [h]
  rfl

theorem remeasure_lost_absent (h : c.lostDeadline = none) : (c.remeasure p).lostDeadline = none := by
  unfold Clock.remeasure
  rw [h]
  rfl

theorem remeasure_holdover {e d : Nat} (he : c.lastAccepted = some e) (hd : c.holdoverDeadline = some d) :
    (c.remeasure p).holdoverDeadline = some (e + p.holdover * 1000) := by
  unfold Clock.remeasure
  rw [hd, he]
  rfl

theorem remeasure_lost {e d : Nat} (he : c.lastAccepted = some e) (hd : c.lostDeadline = some d) :
    (c.remeasure p).lostDeadline = some (e + p.lost * 1000) := by
  unfold Clock.remeasure
  rw [hd, he]
  rfl

end

/-- Settles O49: AUDITORIUM OPEN and AUDITORIUM SET, refused and taken. -/
theorem auditoriumOpensAndRetunes : Obligations.AuditoriumOpensAndRetunes := by
  refine ⟨?_, ?_⟩
  · rintro s t q rest _ hheads rfl
    have hheads' := heads_advance hheads t
    refine ⟨fun hbad => ⟨_, rfl, runRefused_runHead hheads' (runAuditoriumOpen_bad hbad)⟩,
      fun h1 h24 hl => ⟨_, rfl, runRefused_runHead hheads' (runAuditoriumOpen_open ⟨h1, h24⟩ hl)⟩,
      fun p c h1 h24 hl hp => ⟨_, _, rfl,
        runDone_runHead hheads' (runAuditoriumOpen_opens (s := s.advance t) ⟨h1, h24⟩ hl hp) rfl, ?_, ?_, ?_, ?_, rfl⟩⟩
    · exact opened_auditorium (s.advance t) _ p
    · exact opened_clock (s.advance t) _ p
    · exact State.check_setCheck_same (((s.advance t).setAuditorium _ (openedAuditorium p)).setClock _ Clock.initial) _ _
    · exact (advance_others s t _).trans (opened_others (s.advance t) _ p)
  · rintro s t q rest _ hheads rfl
    have hheads' := heads_advance hheads t
    refine ⟨fun hbad => ⟨_, rfl, runRefused_runHead hheads' (runAuditoriumSet_bad hbad)⟩,
      fun h1 h24 hl => ⟨_, rfl, runRefused_runHead hheads' (runAuditoriumSet_shut ⟨h1, h24⟩ hl)⟩,
      fun p c h1 h24 hd hc hp => ?_⟩
    have hrun := runAuditoriumSet_sets (s := s.advance t) ⟨h1, h24⟩ hd hc hp
    have hclock := retuned_clock (s.advance t) (argument q.items 1) p
    have haud := retuned_auditorium (s.advance t) (argument q.items 1) p
    have hothers := retuned_others (s.advance t) (argument q.items 1) p
    have hframe : (s.advance t).retuned (argument q.items 1) p = { s.advance t with
      auditoriums := ((s.advance t).retuned (argument q.items 1) p).auditoriums
      clocks := ((s.advance t).retuned (argument q.items 1) p).clocks } := rfl
    have hqueue : ((s.advance t).retuned (argument q.items 1) p).queue = (s.advance t).queue := rfl
    have htime : t ≤ ((s.advance t).retuned (argument q.items 1) p).engineTime := Nat.le_max_right ..
    generalize (s.advance t).retuned (argument q.items 1) p = v at *
    have hw := works_takeHoldover v (argument q.items 1)
    have hx := works_takeLost (v.takeHoldover (argument q.items 1)) (argument q.items 1)
    have hclocka : (s.advance t).clock (argument q.items 1) = s.clock (argument q.items 1) := rfl
    rw [hclocka] at hclock
    refine ⟨v, _, _, _, rfl, haud, (advance_others s t _).trans hothers, ?_, fun h => ?_, fun h => ?_, fun e d he hd => ?_, fun e d he hd => ?_, hframe,
      congrArg Host.Outcome.next (congrArg (fun x : State => x.takeHoldover _) (advance_of_le htime)),
      congrArg Host.Outcome.next (congrArg (fun x : State => x.takeLost _) (advance_of_le (hw.engineTime ▸ htime))),
      runDone_runHead hheads' hrun ((hx.queue.trans hw.queue).trans hqueue)⟩
    · rw [hclock]
      rfl
    · rw [hclock]
      exact remeasure_holdover_absent h
    · rw [hclock]
      exact remeasure_lost_absent h
    · rw [hclock]
      exact remeasure_holdover he hd
    · rw [hclock]
      exact remeasure_lost he hd

/-! ### BAND SET (R22, R23) -/

section
variable {q : Queued} {s : State} {b : Band} {on : Bool}

theorem settableBand_eq_some (hb : b ≠ 0) : settableBand b.val = some b := by
  have hval : b.val ≠ 0 := fun h => hb (Fin.ext h)
  unfold settableBand
  rw [bandOf_val]
  exact if_neg hval

theorem settableBand_eq_none {n : Nat} (h : n = 0 ∨ 3 < n) : settableBand n = none := by
  unfold settableBand bandOf
  by_cases hn : n < 4
  · rw [dif_pos hn]
    exact if_pos (show n = 0 by omega)
  · rw [dif_neg hn]

theorem runBandSet_unbanded (h : settableBand (argument q.items 2) = none) :
    runBandSet q s = s.refuse .badParameter := by
  unfold runBandSet
  simp only [h]

theorem runBandSet_unread (h : yesNo (argument q.items 3) = none) : runBandSet q s = s.refuse .badParameter := by
  unfold runBandSet
  cases hb : settableBand (argument q.items 2) with
  | none => rfl
  | some b => simp only [h]

theorem runBandSet_unranged (h : ¬(1 ≤ argument q.items 1 ∧ argument q.items 1 ≤ 24)) :
    runBandSet q s = s.refuse .badParameter := by
  cases hb : settableBand (argument q.items 2) with
  | none => exact runBandSet_unbanded hb
  | some b =>
    cases ho : yesNo (argument q.items 3) with
    | none => exact runBandSet_unread ho
    | some on =>
      unfold runBandSet
      simp only [hb, ho]
      exact if_pos (by rw [auditoriumNumber_eq_false h]; rfl)

theorem bandHeld_iff {a : Nat} : s.bandHeld a b = true ↔ ∃ k ∈ s.boundTracks a, s.memberCount k b ≠ 0 := by
  unfold State.bandHeld
  rw [List.any_eq_true]
  simp only [bne_iff_ne]

variable (hb : settableBand (argument q.items 2) = some b) (ho : yesNo (argument q.items 3) = some on)
  (ha : 1 ≤ argument q.items 1 ∧ argument q.items 1 ≤ 24)
include hb ho ha

theorem runBandSet_shut (hl : s.lifecycle (argument q.items 1) = .dark ∨ s.lifecycle (argument q.items 1) = .closing) :
    runBandSet q s = s.refuse .wrongState := by
  unfold runBandSet
  simp only [hb, ho]
  exact (if_neg (auditorium_ranged ha)).trans (if_pos (shut_iff.mpr hl))

variable (hd : s.lifecycle (argument q.items 1) ≠ .dark) (hc : s.lifecycle (argument q.items 1) ≠ .closing)
include hd hc

theorem runBandSet_held (hheld : s.bandHeld (argument q.items 1) b = true) : runBandSet q s = s.refuse .busy := by
  unfold runBandSet
  simp only [hb, ho]
  have hopen : ¬(s.lifecycle (argument q.items 1)).shut = true := fun h => (shut_iff.mp h).elim hd hc
  exact (if_neg (auditorium_ranged ha)).trans ((if_neg hopen).trans (if_pos hheld))

theorem runBandSet_sets (hfree : s.bandHeld (argument q.items 1) b = false) : runBandSet q s =
    ((if on && !((s.auditorium (argument q.items 1)).band b).enabled then
        (s.setAuditorium (argument q.items 1) ((s.auditorium (argument q.items 1)).setBand b
          ⟨on, (holdItem q.items 4 0 500000 ((s.auditorium (argument q.items 1)).band b).offset).value⟩)).takePassedAll
            (argument q.items 1)
      else s.setAuditorium (argument q.items 1) ((s.auditorium (argument q.items 1)).setBand b
        ⟨on, (holdItem q.items 4 0 500000 ((s.auditorium (argument q.items 1)).band b).offset).value⟩)).completeCheck
          (argument q.items 1),
      .done (holdItem q.items 4 0 500000 ((s.auditorium (argument q.items 1)).band b).offset).clamped []) := by
  unfold runBandSet
  simp only [hb, ho]
  have hopen : ¬(s.lifecycle (argument q.items 1)).shut = true := fun h => (shut_iff.mp h).elim hd hc
  exact (if_neg (auditorium_ranged ha)).trans ((if_neg hopen).trans (if_neg (by rw [hfree]; decide)))

end

/-! ### The bands of a context -/

section
variable {au : Auditorium} {b c : Band} {v : BandSetting}

theorem band_setBand_same (hb : b ≠ 0) : (au.setBand b v).band b = v := by
  match b, hb with
  | 1, _ => rfl
  | 2, _ => rfl
  | 3, _ => rfl

theorem band_setBand_other (hne : c ≠ b) : (au.setBand b v).band c = au.band c := by
  revert hne
  match b, c with
  | 0, _ => exact fun _ => rfl
  | 1, 0 => exact fun _ => rfl
  | 1, 1 => exact fun h => absurd rfl h
  | 1, 2 => exact fun _ => rfl
  | 1, 3 => exact fun _ => rfl
  | 2, 0 => exact fun _ => rfl
  | 2, 1 => exact fun _ => rfl
  | 2, 2 => exact fun h => absurd rfl h
  | 2, 3 => exact fun _ => rfl
  | 3, 0 => exact fun _ => rfl
  | 3, 1 => exact fun _ => rfl
  | 3, 2 => exact fun _ => rfl
  | 3, 3 => exact fun h => absurd rfl h

theorem setBand_rest (au : Auditorium) (b : Band) (v : BandSetting) : (au.setBand b v).lifecycle = au.lifecycle ∧
    (au.setBand b v).params = au.params ∧ (au.setBand b v).owed = au.owed := by
  match b with
  | 0 => exact ⟨rfl, rfl, rfl⟩
  | 1 => exact ⟨rfl, rfl, rfl⟩
  | 2 => exact ⟨rfl, rfl, rfl⟩
  | 3 => exact ⟨rfl, rfl, rfl⟩

end

/-! ### The passed instants of an auditorium's tracks (R107) -/

/-- Content work leaves show time as it is read, so every track is taken at the show time of the first. -/
theorem foldl_takePassed (a sh : Nat) (ks : List Nat) (s : State) (h : s.showTime a = sh) :
    ks.foldl (fun x k => x.takePassedTrack k (x.showTime a) true) s =
      ks.foldl (fun x k => x.takePassedTrack k sh true) s := by
  induction ks generalizing s with
  | nil => rfl
  | cons k ks ih =>
    have hplays := plays_takePassedTrack s k sh true
    have hkept : (s.takePassedTrack k sh true).showTime a = sh := by
      unfold State.showTime
      rw [hplays.engineTime, hplays.showTimeAt]
      exact h
    rw [List.foldl_cons, List.foldl_cons, h]
    exact ih _ hkept

theorem takePassedAll_advancing {s : State} {a : Nat} (h : (s.lifecycle a).advancing = true) : s.takePassedAll a =
    (s.boundTracks a).foldl (fun x k => x.takePassedTrack k (s.showTime a) true) s :=
  (if_pos h).trans (foldl_takePassed a (s.showTime a) (s.boundTracks a) s rfl)

theorem takePassedAll_still {s : State} {a : Nat} (h : ¬(s.lifecycle a).advancing = true) : s.takePassedAll a = s := if_neg h

/-- Settles O51: BAND SET refused in order, and taken. -/
theorem bandSetChangesBand : Obligations.BandSetChangesBand := by
  rintro s t q rest _ _ on hheads rfl rfl rfl
  have hheads' := heads_advance hheads t
  refine ⟨fun hbad => ⟨_, rfl, runRefused_runHead hheads' ?_⟩, fun ha hon b hb0 hbn => ?_⟩
  · rcases hbad with h | h | h | h
    · exact runBandSet_unranged h
    · exact runBandSet_unbanded (settableBand_eq_none (.inl h))
    · exact runBandSet_unbanded (settableBand_eq_none (.inr h))
    · exact runBandSet_unread (yesNo_eq_none.mpr h)
  have hband : settableBand (argument q.items 2) = some b := hbn ▸ settableBand_eq_some hb0
  have hread := yesNo_of_le hon
  refine ⟨fun hl => ⟨_, rfl, runRefused_runHead hheads' (runBandSet_shut hband hread ha hl)⟩, fun hd hc =>
    ⟨fun hheld => ⟨_, rfl, runRefused_runHead hheads' (runBandSet_held hband hread ha hd hc (bandHeld_iff.mpr hheld))⟩,
      fun old hfree hold => ?_⟩⟩
  subst hold
  have hunheld : (s.advance t).bandHeld (argument q.items 1) b = false := Bool.eq_false_iff.mpr fun hheld => by
    obtain ⟨k, hk, hne⟩ := bandHeld_iff.mp hheld
    exact hne (hfree k hk)
  have hrun := runBandSet_sets (s := s.advance t) hband hread ha hd hc hunheld
  have hadvance : (s.advance t).auditorium (argument q.items 1) = s.auditorium (argument q.items 1) := rfl
  rw [hadvance] at hrun
  have hitem : ∀ o, itemNat q.items 4 = some o → (holdItem q.items 4 0 500000
      ((s.auditorium (argument q.items 1)).band b).offset) = ⟨min 500000 o, decide (500000 < o)⟩ := fun o ho => by
    rw [holdItem_carried ho]
    unfold hold
    rw [Nat.zero_max]
    simp only [Nat.not_lt_zero, false_or]
  have hstands : itemNat q.items 4 = none → holdItem q.items 4 0 500000
      ((s.auditorium (argument q.items 1)).band b).offset = ⟨((s.auditorium (argument q.items 1)).band b).offset, false⟩ :=
    holdItem_absent
  generalize holdItem q.items 4 0 500000 ((s.auditorium (argument q.items 1)).band b).offset = offset at *
  have haud := State.auditorium_setAuditorium_same (s.advance t) (argument q.items 1)
    ((s.auditorium (argument q.items 1)).setBand b ⟨argument q.items 3 == 1, offset.value⟩)
  have hothers := fun j => State.auditorium_setAuditorium (s.advance t) (argument q.items 1)
    ((s.auditorium (argument q.items 1)).setBand b ⟨argument q.items 3 == 1, offset.value⟩) j
  have hframe : (s.advance t).setAuditorium (argument q.items 1)
      ((s.auditorium (argument q.items 1)).setBand b ⟨argument q.items 3 == 1, offset.value⟩) = { s.advance t with
    auditoriums := ((s.advance t).setAuditorium (argument q.items 1)
      ((s.auditorium (argument q.items 1)).setBand b ⟨argument q.items 3 == 1, offset.value⟩)).auditoriums } := rfl
  obtain ⟨hlife, hparams, howed⟩ := setBand_rest (s.auditorium (argument q.items 1)) b
    ⟨argument q.items 3 == 1, offset.value⟩
  generalize (s.advance t).setAuditorium (argument q.items 1)
    ((s.auditorium (argument q.items 1)).setBand b ⟨argument q.items 3 == 1, offset.value⟩) = v at *
  have hlifev : v.lifecycle (argument q.items 1) = s.lifecycle (argument q.items 1) := by
    unfold State.lifecycle
    rw [haud, hlife]
  have hplays := plays_takePassedAll v (argument q.items 1)
  have hnew : ((argument q.items 3 == 1) && !((s.auditorium (argument q.items 1)).band b).enabled) = true ↔
      argument q.items 3 = 1 ∧ ((s.auditorium (argument q.items 1)).band b).enabled = false := by
    rw [Bool.and_eq_true, beq_iff_eq, Bool.not_eq_true']
  have hqueue : ∀ w : State, (w = v ∨ w = v.takePassedAll (argument q.items 1)) →
      (w.completeCheck (argument q.items 1)).queue = (s.advance t).queue := by
    rintro w (rfl | rfl)
    · rw [(works_completeCheck ..).queue, hframe]
    · rw [(works_completeCheck ..).queue, hplays.queue, hframe]
  refine ⟨v, if argument q.items 3 == 1 && !((s.auditorium (argument q.items 1)).band b).enabled then
    v.takePassedAll (argument q.items 1) else v, _, offset.clamped, rfl, runDone_runHead hheads' hrun (hqueue _ ?_),
      fun hno => ?_, fun o ho => ?_, fun c hcb => ?_, hlifev, ?_, ?_, fun j hj => ?_, hframe, fun hgo => ?_, fun hno => ?_⟩
  · split
    · exact .inr rfl
    · exact .inl rfl
  · rw [haud, band_setBand_same hb0, hstands hno]
    exact ⟨rfl, rfl⟩
  · rw [haud, band_setBand_same hb0, hitem o ho]
    exact ⟨rfl, decide_eq_true_iff⟩
  · rw [haud, band_setBand_other hcb]
  · rw [haud, hparams]
  · rw [haud, howed]
  · rw [hothers, if_neg hj]
    rfl
  · obtain ⟨hone, hoff, hadv⟩ := hgo
    have hbound : v.boundTracks (argument q.items 1) = s.boundTracks (argument q.items 1) :=
      boundTracks_of_tracks (by rw [hframe]; rfl) _
    rw [if_pos (hnew.mpr ⟨hone, hoff⟩)]
    exact ⟨(takePassedAll_advancing (hlifev ▸ hadv)).trans (by rw [hbound]), hplays.shows⟩
  · by_cases hbool : ((argument q.items 3 == 1) && !((s.auditorium (argument q.items 1)).band b).enabled) = true
    · rw [if_pos hbool]
      obtain ⟨hone, hoff⟩ := hnew.mp hbool
      exact takePassedAll_still fun hadv => hno ⟨hone, hoff, hlifev ▸ hadv⟩
    · rw [if_neg hbool]

end Sys2Proof.Machine

/-! PROOFS. TRACK SET and TRACK BIND (O53, O52). -/

namespace Sys2Proof.Machine

/-! ### Lead and marks (R64, R66) -/

section
variable {items : List Item} {i j l depth lead high low : Nat}

/-- CLAMPED by a lead or a high mark that was held, or by a low mark at or above the high mark. -/
theorem readMarks_clamped : (readMarks items i j l depth lead high low).clamped = true ↔
    2000000 < (itemNat items i).getD 0 ∨ (∃ h, itemNat items j = some h ∧ (h = 0 ∨ depth < h)) ∨
      (readMarks items i j l depth lead high low).high ≤ (itemNat items l).getD low := by
  have hlead : (holdItem items i 0 2000000 lead).clamped = true ↔ 2000000 < (itemNat items i).getD 0 := by
    rw [holdItem_clamped]
    cases itemNat items i with
    | none => exact ⟨(fun ⟨x, hx, _⟩ => nomatch hx), fun h => absurd h (Nat.not_lt_zero _)⟩
    | some x =>
      exact ⟨fun ⟨y, hy, h⟩ => by cases hy; exact h.resolve_left (Nat.not_lt_zero _), fun h => ⟨x, rfl, .inr h⟩⟩
  have hhigh : (holdItem items j 1 depth high).clamped = true ↔ ∃ h, itemNat items j = some h ∧ (h = 0 ∨ depth < h) := by
    rw [holdItem_clamped]
    simp only [Nat.lt_one_iff]
  unfold readMarks
  simp only [Bool.or_eq_true, decide_eq_true_eq, hlead, hhigh, or_assoc]

theorem readMarks_lead : (readMarks items i j l depth lead high low).lead = (holdItem items i 0 2000000 lead).value := rfl
theorem readMarks_high : (readMarks items i j l depth lead high low).high = (holdItem items j 1 depth high).value := rfl

/-- A value held, or the one that stands: the form in which TRACK SET states it. -/
theorem holdItem_value_if {lo hi d : Nat} : (holdItem items i lo hi d).value =
    if (itemNat items i).isSome then max lo (min hi (argument items i)) else d := by
  unfold argument
  cases h : itemNat items i with
  | none => rw [holdItem_absent h]; rfl
  | some v => rw [holdItem_carried h]; rfl

end

/-! ### TRACK SET (R66) -/

section
variable {q : Queued} {s : State}

theorem runTrackSet_bad (h : 95 < argument q.items 1) : runTrackSet q s = s.refuse .badParameter := if_pos h

theorem runTrackSet_closed (h : argument q.items 1 ≤ 95)
    (hclosing : ∀ tr, s.track (argument q.items 1) = some tr → s.lifecycle tr.auditorium = .closing) :
    runTrackSet q s = s.refuse .wrongState := by
  refine (if_neg (Nat.not_lt_of_le h)).trans ?_
  cases hk : s.track (argument q.items 1) with
  | none => rfl
  | some tr => exact if_pos (hclosing tr hk)

end

/-- Settles O53: TRACK SET refused, and taken with its passed instants, its marks and its check. -/
theorem trackSetRetunes : Obligations.TrackSetRetunes := by
  rintro s t q rest _ hheads rfl
  have hheads' := heads_advance hheads t
  refine ⟨fun hbad => ⟨_, rfl, runRefused_runHead hheads' (runTrackSet_bad hbad)⟩,
    fun hle hclosing => ⟨_, rfl, runRefused_runHead hheads' (runTrackSet_closed (s := s.advance t) hle hclosing)⟩,
    fun tr tr' hle hk hopen htr' hlow => ?_⟩
  have hrun := runTrackSet_taken (s := s.advance t) rfl hle hk hopen
  have hretuned : tr' = retunedTrack q.items tr := by
    have hlead : tr'.lead = (holdItem q.items 2 0 2000000 tr.lead).value := by
      rw [holdItem_value_if, Nat.zero_max, htr']
    have hhigh : tr'.high = (holdItem q.items 3 1 tr.depth tr.high).value := by
      rw [holdItem_value_if, htr']
    have hl : tr'.low = (retunedTrack q.items tr).low := by
      rw [hlow, hhigh]
      rfl
    rw [htr', hl]
    unfold retunedTrack
    simp only [readMarks_lead, readMarks_high, holdItem_value_if, Nat.zero_max]
  subst hretuned
  have hbecomes := trackBecomes_setTrack (s.advance t) (argument q.items 1) (retunedTrack q.items tr)
  have hlife : ((s.advance t).setTrack (argument q.items 1) (some (retunedTrack q.items tr))).lifecycle tr.auditorium =
    s.lifecycle tr.auditorium := rfl
  have hqueue : ((s.advance t).setTrack (argument q.items 1) (some (retunedTrack q.items tr))).queue = (s.advance t).queue :=
    rfl
  generalize (s.advance t).setTrack (argument q.items 1) (some (retunedTrack q.items tr)) = v at *
  have hasked : ((itemNat q.items 2).isSome && (v.lifecycle tr.auditorium).advancing) = true ↔
      (itemNat q.items 2).isSome = true ∧ (s.lifecycle tr.auditorium).advancing = true := by
    rw [hlife, Bool.and_eq_true]
  have hplays := plays_takePassedTrack v (argument q.items 1) (v.showTime tr.auditorium) true
  have hreviewed : (v.reviewed (argument q.items 1) tr.auditorium (itemNat q.items 2).isSome).queue = v.queue := by
    unfold State.reviewed
    split
    · exact hplays.queue
    · rfl
  refine ⟨v, v.reviewed (argument q.items 1) tr.auditorium (itemNat q.items 2).isSome, _, _, rfl, hbecomes,
    readMarks_clamped, fun h => ?_, fun h => if_neg (mt hasked.mp h),
    runDone_runHead hheads' hrun ?_⟩
  · have htaken : v.reviewed (argument q.items 1) tr.auditorium (itemNat q.items 2).isSome =
        v.takePassedTrack (argument q.items 1) (v.showTime tr.auditorium) true := if_pos (hasked.mpr h)
    rw [htaken]
    exact ⟨rfl, withinTrack_of hplays (stays_takePassedTrack ..)⟩
  · rw [(works_completeCheck ..).queue, (plays_paceDown ..).queue, (plays_paceUp ..).queue, hreviewed, hqueue]

/-! ### TRACK BIND (R64, R65) -/

theorem binds_iff {l : Lifecycle} : l.binds = true ↔ l ∈ [.preparing, .ready, .paused] := by
  cases l <;> decide

theorem bind_open {s : State} {a : Nat} (hl : s.lifecycle a ∈ [.preparing, .ready, .paused]) :
    ¬(!(s.lifecycle a).binds) = true := by
  rw [binds_iff.mpr hl]
  decide

theorem freeTrack_eq_some {s : State} {k : Nat} :
    s.freeTrack = some k ↔ k ≤ 95 ∧ s.track k = none ∧ ∀ j, j < k → s.track j ≠ none := by
  unfold State.freeTrack trackNumbers
  rw [List.find?_range_eq_some, List.mem_range]
  simp only [Option.isNone_iff_eq_none, Bool.not_eq_true', Option.isNone_eq_false_iff, Option.isSome_iff_ne_none]
  constructor
  · rintro ⟨hk, hlt, hlow⟩
    exact ⟨by omega, hk, hlow⟩
  · rintro ⟨hle, hk, hlow⟩
    exact ⟨hk, by omega, hlow⟩

theorem freeTrack_eq_none {s : State} (h : ∀ k, k ≤ 95 → s.track k ≠ none) : s.freeTrack = none := by
  cases hk : s.freeTrack with
  | none => rfl
  | some k =>
    obtain ⟨hle, hfree, _⟩ := freeTrack_eq_some.mp hk
    exact absurd hfree (h k hle)

theorem freeSlot_eq_some {s : State} {a slot : Nat} :
    s.freeSlot a = some slot ↔ slot ≤ 7 ∧ slot ∉ s.slots a ∧ ∀ i, i < slot → i ∈ s.slots a := by
  unfold State.freeSlot
  rw [List.find?_range_eq_some, List.mem_range]
  simp only [Bool.not_eq_true', Bool.not_not, List.contains_iff_mem, Bool.eq_false_iff, ne_eq]
  constructor
  · rintro ⟨hslot, hlt, hlow⟩
    exact ⟨by omega, hslot, hlow⟩
  · rintro ⟨hle, hslot, hlow⟩
    exact ⟨hslot, by omega, hlow⟩

theorem freeSlot_eq_none {s : State} {a : Nat} (h : ∀ i, i ≤ 7 → i ∈ s.slots a) : s.freeSlot a = none := by
  cases hi : s.freeSlot a with
  | none => rfl
  | some i =>
    obtain ⟨hle, hfree, _⟩ := freeSlot_eq_some.mp hi
    exact absurd (h i hle) hfree

/-- The operands of a TRACK BIND that are in range (R64). -/
def bindFits (items : List Item) (kind : TrackKind) : Prop :=
  (1 ≤ argument items 1 ∧ argument items 1 ≤ 24) ∧ argument items 3 ≤ 1023 ∧ argument items 4 ≤ 63 ∧
    argument items 5 ∈ kind.depths

theorem bindFits_iff {items : List Item} {kind : TrackKind} : bindFits items kind ↔ ¬(!auditoriumNumber (argument items 1) ||
    decide (1023 < argument items 3 ∨ 63 < argument items 4) || !kind.depths.contains (argument items 5)) = true := by
  have hdepth : kind.depths.contains (argument items 5) = true ↔ argument items 5 ∈ kind.depths := List.contains_iff_mem
  unfold bindFits
  rw [← auditoriumNumber_eq_true_iff, ← hdepth]
  simp only [Bool.not_eq_true, Bool.or_eq_false_iff, Bool.not_eq_false', decide_eq_false_iff_not, not_or, Nat.not_lt,
    and_assoc]

section
variable {q : Queued} {s : State} {kind : TrackKind}

theorem runTrackBind_unkinded (h : kindOfCode (argument q.items 2) = none) :
    runTrackBind q s = s.refuse .badParameter := by
  unfold runTrackBind
  simp only [h]

variable (hkind : kindOfCode (argument q.items 2) = some kind)
include hkind

theorem runTrackBind_unfit (h : ¬bindFits q.items kind) : runTrackBind q s = s.refuse .badParameter := by
  unfold runTrackBind
  simp only [hkind]
  exact if_pos (Classical.not_not.mp (mt bindFits_iff.mpr h))

variable (hfits : bindFits q.items kind)
include hfits

theorem runTrackBind_shut (hl : s.lifecycle (argument q.items 1) ∉ [.preparing, .ready, .paused]) :
    runTrackBind q s = s.refuse .wrongState := by
  have hbinds : (s.lifecycle (argument q.items 1)).binds = false := Bool.eq_false_iff.mpr fun h => hl (binds_iff.mp h)
  unfold runTrackBind
  simp only [hkind]
  exact (if_neg (bindFits_iff.mp hfits)).trans (if_pos (by rw [hbinds]; rfl))

variable (hl : s.lifecycle (argument q.items 1) ∈ [.preparing, .ready, .paused])
include hl

theorem runTrackBind_full (h : s.freeTrack = none ∨ s.freeSlot (argument q.items 1) = none) :
    runTrackBind q s = s.refuse .noTrack := by
  unfold runTrackBind
  simp only [hkind]
  refine (if_neg (bindFits_iff.mp hfits)).trans ((if_neg (bind_open hl)).trans ?_)
  rcases h with h | h
  · rw [h]
  · cases hk : s.freeTrack with
    | none => rfl
    | some k => rw [h]

variable {k slot : Nat} (hk : s.freeTrack = some k) (hslot : s.freeSlot (argument q.items 1) = some slot)
include hk hslot

theorem runTrackBind_noSpace (h : s.freeSlots kind < argument q.items 5) :
    runTrackBind q s = (s, .refused .noSpace (s.freeCountItems 1)) := by
  unfold runTrackBind
  simp only [hkind]
  refine (if_neg (bindFits_iff.mp hfits)).trans ((if_neg (bind_open hl)).trans ?_)
  simp only [hk, hslot]
  exact if_pos h

/-- The lead and marks of a TRACK BIND over its defaults (R64). -/
def bindMarks (items : List Item) (kind : TrackKind) : Marks :=
  readMarks items 6 7 8 (argument items 5) kind.defaultLead ((3 * argument items 5 + 3) / 4) (argument items 5 / 4)

theorem runTrackBind_taken (h : argument q.items 5 ≤ s.freeSlots kind) : runTrackBind q s =
    (s.bindTrack k (newTrack kind (argument q.items 1) slot (argument q.items 3) (argument q.items 4) (argument q.items 5)
      (bindMarks q.items kind)), .done (bindMarks q.items kind).clamped (bindItems k slot (bindMarks q.items kind))) := by
  unfold runTrackBind
  simp only [hkind]
  refine (if_neg (bindFits_iff.mp hfits)).trans ((if_neg (bind_open hl)).trans ?_)
  simp only [hk, hslot]
  exact if_neg (Nat.not_lt.mpr h)

end

theorem depths_bounds {kind : TrackKind} {d : Nat} (h : d ∈ kind.depths) : 8 ≤ d := by
  cases kind with
  | caption => simp only [TrackKind.depths, List.mem_cons, List.not_mem_nil, or_false] at h; omega
  | description => simp only [TrackKind.depths, List.mem_cons, List.not_mem_nil, or_false] at h; omega

theorem bindMarks_spec {items : List Item} {kind : TrackKind} {m : Marks} (h : argument items 5 ∈ kind.depths)
    (hm : bindMarks items kind = m) :
    m.lead = min 2000000 ((itemNat items 6).getD (if kind = .caption then 300000 else 150000)) ∧
    m.high = max 1 (min (argument items 5) ((itemNat items 7).getD ((3 * argument items 5 + 3) / 4))) ∧
    m.low = min (m.high - 1) ((itemNat items 8).getD (argument items 5 / 4)) ∧
    (m.clamped = true ↔ 2000000 < (itemNat items 6).getD 0 ∨
      (∃ h, itemNat items 7 = some h ∧ (h = 0 ∨ argument items 5 < h)) ∨
        m.high ≤ (itemNat items 8).getD (argument items 5 / 4)) := by
  subst hm
  have hdepth := depths_bounds h
  have hdefault : kind.defaultLead = if kind = .caption then 300000 else 150000 := by cases kind <;> rfl
  have hlead : kind.defaultLead ≤ 2000000 := by cases kind <;> decide
  have hhigh : (bindMarks items kind).high =
      max 1 (min (argument items 5) ((itemNat items 7).getD ((3 * argument items 5 + 3) / 4))) :=
    holdItem_value (by omega) (by omega)
  refine ⟨?_, hhigh, ?_, readMarks_clamped⟩
  · rw [← hdefault, ← Nat.zero_max (min _ _)]
    exact holdItem_value (Nat.zero_le _) hlead
  · have hlow : (bindMarks items kind).low = if (bindMarks items kind).high ≤ (itemNat items 8).getD (argument items 5 / 4)
      then (bindMarks items kind).high - 1 else (itemNat items 8).getD (argument items 5 / 4) := rfl
    rw [hlow]
    split <;> omega

/-- A track bound: its context, its sequence numbers, and its auditorium's state (R65, R7). -/
theorem bindTrack_spec (s : State) (k : Nat) (tr : Track) (w : State) (hw : s.bindTrack k tr = w) :
    w.track k = some tr ∧ (∀ j, j ≠ k → w.track j = s.track j) ∧ (∀ b, w.nextSeq k b = 0) ∧
    (∀ j b, j ≠ k → w.nextSeq j b = s.nextSeq j b) ∧
    w.auditorium tr.auditorium = { s.auditorium tr.auditorium with
      lifecycle := if s.lifecycle tr.auditorium = .preparing then .ready else s.lifecycle tr.auditorium } ∧
    (∀ j, j ≠ tr.auditorium → w.auditorium j = s.auditorium j) ∧
    w = { s with tracks := w.tracks, sequences := w.sequences, auditoriums := w.auditoriums } := by
  have htrack := track_bindTrack s k tr
  have hseqs := State.trackSequences_setTrackSequences (s.setTrack k (some tr)) k (PerBand.all 0)
  have hseq : w.sequences = ((s.setTrack k (some tr)).setTrackSequences k (PerBand.all 0)).sequences ∧
      w = { s with tracks := w.tracks, sequences := w.sequences, auditoriums := w.auditoriums } ∧
      w.auditorium tr.auditorium = { s.auditorium tr.auditorium with
        lifecycle := if s.lifecycle tr.auditorium = .preparing then .ready else s.lifecycle tr.auditorium } ∧
      ∀ j, j ≠ tr.auditorium → w.auditorium j = s.auditorium j := by
    subst hw
    by_cases hl : s.lifecycle tr.auditorium = .preparing
    · have hbind : s.bindTrack k tr = ((s.setTrack k (some tr)).setTrackSequences k (PerBand.all 0)).setLifecycle
        tr.auditorium .ready := if_pos hl
      rw [hbind, if_pos hl]
      exact ⟨rfl, rfl, (State.auditorium_setLifecycle ..).trans (if_pos rfl), fun j hj =>
        (State.auditorium_setLifecycle ..).trans (if_neg hj)⟩
    · have hbind : s.bindTrack k tr = (s.setTrack k (some tr)).setTrackSequences k (PerBand.all 0) := if_neg hl
      rw [hbind, if_neg hl]
      exact ⟨rfl, rfl, rfl, fun _ _ => rfl⟩
  obtain ⟨hsequences, hframe, haud, hothers⟩ := hseq
  have hnext : ∀ j b, w.nextSeq j b = (if j = k then PerBand.all 0 else s.trackSequences j).get b := fun j b => by
    have hj : w.trackSequences j = ((s.setTrack k (some tr)).setTrackSequences k (PerBand.all 0)).trackSequences j := by
      unfold State.trackSequences
      rw [hsequences]
    unfold State.nextSeq
    rw [hj, hseqs]
    rfl
  rw [hw] at htrack
  refine ⟨(htrack k).trans (if_pos rfl), fun j hj => (htrack j).trans (if_neg hj), fun b => ?_, fun j b hj => ?_, haud,
    hothers, hframe⟩
  · rw [hnext, if_pos rfl, PerBand.get_all]
  · rw [hnext, if_neg hj]
    rfl

/-- A refusal that returns data items (R64). -/
theorem runRefusedWith_runHead {s : State} {q : Queued} {rest : List Queued} {code : Nat}
    {body : Queued → State → State × Reply} {r : Reason} {items : List Item} (h : Heads s q rest code)
    (hbody : body q s = (s, .refused r items)) : OnlyEnds s (s.runHead code body) ∧
      RunEnded s (s.runHead code body) q rest s.engineTime (.refused r) items := by
  rw [runHead_eq h, hbody]
  exact ⟨onlyEnds_endRun .., runEnded_refused h.queue r items⟩

/-- Settles O52: TRACK BIND judged in the order of R64, and the track bound. -/
theorem trackBinds : Obligations.TrackBinds := by
  rintro s _ t q rest _ _ _ hheads rfl rfl rfl rfl
  have hheads' := heads_advance hheads t
  refine ⟨_, rfl, fun hbad => runRefused_runHead hheads' ?_, fun kind h1 h24 hlang hvar hgiven => ?_⟩
  · cases hkind : kindOfCode (argument q.items 2) with
    | none => exact runTrackBind_unkinded hkind
    | some kind =>
      refine runTrackBind_unfit hkind fun ⟨⟨h1, h24⟩, hlang, hvar, hdepth⟩ => hbad ⟨h1, h24, hlang, hvar, ?_⟩
      rcases kindOfCode_eq_some.mp hkind with ⟨hcode, rfl⟩ | ⟨hcode, rfl⟩
      · exact .inl ⟨hcode, hdepth⟩
      · exact .inr ⟨hcode, hdepth⟩
  · have hkind : kindOfCode (argument q.items 2) = some kind := kindOfCode_eq_some.mpr
      (hgiven.imp (fun ⟨hcode, hk, _⟩ => ⟨hcode, hk⟩) fun ⟨hcode, hk, _⟩ => ⟨hcode, hk⟩)
    have hdepth : argument q.items 5 ∈ kind.depths := by
      rcases hgiven with ⟨-, rfl, h⟩ | ⟨-, rfl, h⟩
      · exact h
      · exact h
    have hfits : bindFits q.items kind := ⟨⟨h1, h24⟩, hlang, hvar, hdepth⟩
    refine ⟨fun hl => runRefused_runHead hheads' (runTrackBind_shut (s := s.advance t) hkind hfits hl), fun hl =>
      ⟨fun hfull => runRefused_runHead hheads' (runTrackBind_full (s := s.advance t) hkind hfits hl
        (hfull.imp freeTrack_eq_none freeSlot_eq_none)), fun k slot hk95 hfree hlow hs7 hslot hslots => ?_⟩⟩
    have hk : (s.advance t).freeTrack = some k := freeTrack_eq_some.mpr ⟨hk95, hfree, hlow⟩
    have hs : (s.advance t).freeSlot (argument q.items 1) = some slot := freeSlot_eq_some.mpr ⟨hs7, hslot, hslots⟩
    refine ⟨fun hfew => ?_, fun henough => ?_⟩
    · have hrun := runTrackBind_noSpace (s := s.advance t) hkind hfits hl hk hs hfew
      exact runRefusedWith_runHead hheads' hrun
    · have hrun := runTrackBind_taken (s := s.advance t) hkind hfits hl hk hs henough
      obtain ⟨hlead, hhigh, hmlow, hclamped⟩ := bindMarks_spec hdepth rfl
      obtain ⟨htrack, htracks, hseq, hseqs, haud, hauds, hframe⟩ := bindTrack_spec (s.advance t) k
        (newTrack kind (argument q.items 1) slot (argument q.items 3) (argument q.items 4) (argument q.items 5)
          (bindMarks q.items kind)) _ rfl
      exact ⟨_, _, _, runDone_runHead hheads' hrun (quiet_bindTrack ..).queue, htrack, htracks, rfl, hlead, hhigh, hmlow,
        hclamped, hseq, hseqs, haud, hauds, hframe⟩

end Sys2Proof.Machine

/-! PROOFS. What a TRACK UNBIND and an AUDITORIUM CLOSE free (O55, O50). -/

namespace Sys2Proof.Machine

/-! ### Records released (R151) -/

/-- Of a canonical table a release leaves the records that it does not name. -/
theorem subscription_releaseRecords {s : State} (h : Tbl.Wf id none s.subscriptions) (names : Subscription → Bool)
    (i : Nat) : (s.releaseRecords names).subscription i = (s.subscription i).filter fun r => !names r := by
  refine Option.ext fun r => ?_
  rw [Option.filter_eq_some_iff, ← mem_records (releaseRecords_canonical h names), records_releaseRecords h, List.mem_filter,
    mem_records h]

/-- The release of some records, one after the other. -/
def State.releaseEach (s : State) (es : List (Nat × Subscription)) : State :=
  es.foldl (fun s e => (s.setSubscription e.1 none).bumpAuditorium e.2.auditorium .recordsReleased) s

theorem releaseRecords_eq (s : State) (names : Subscription → Bool) :
    s.releaseRecords names = s.releaseEach (s.records.filter fun e => names e.2) := rfl

theorem releaseEach_spec (es : List (Nat × Subscription)) (a : Nat) (ha : ∀ e ∈ es, e.2.auditorium = a) (s : State) :
    SameCounts s (s.releaseEach es) [.auditorium a .recordsReleased] ∧
    (s.count (.auditorium a .recordsReleased) ≤ counterMax → (s.releaseEach es).count (.auditorium a .recordsReleased) =
      min counterMax (s.count (.auditorium a .recordsReleased) + es.length)) ∧
    s.releaseEach es = { s with
      subscriptions := (s.releaseEach es).subscriptions, live := (s.releaseEach es).live } := by
  induction es generalizing s with
  | nil => exact ⟨SameCounts.refl s _, fun h => (Nat.min_eq_right h).symm, rfl⟩
  | cons e es ih =>
    have hstep : s.releaseEach (e :: es) =
        ((s.setSubscription e.1 none).bump (.auditorium e.2.auditorium .recordsReleased)).releaseEach es := rfl
    have hcount := counted_bump (s.setSubscription e.1 none) (.auditorium e.2.auditorium .recordsReleased)
    obtain ⟨hsame, hreleased, hframe⟩ := ih (fun x hx => ha x (List.mem_cons_of_mem e hx))
      ((s.setSubscription e.1 none).bump (.auditorium e.2.auditorium .recordsReleased))
    rw [ha e (List.mem_cons_self ..)] at hcount hsame hreleased hframe hstep
    rw [hstep]
    refine ⟨fun c hc => (hsame c hc).trans (hcount.others c hc), fun h => ?_, hframe.trans rfl⟩
    have hfirst : ((s.setSubscription e.1 none).bump (.auditorium a .recordsReleased)).count
        (.auditorium a .recordsReleased) = min counterMax (s.count (.auditorium a .recordsReleased) + 1) := hcount.counted
    rw [hreleased (by rw [hfirst]; exact Nat.min_le_left ..), hfirst, List.length_cons]
    omega

/-! ### The content of a track discarded (R68) -/

/-- The records that a track holds. -/
def Track.held (tr : Track) : Nat := tr.pending.length + tr.ring.length + if tr.current.isSome then 1 else 0

theorem discardTrack_bound {s : State} {k : Nat} {tr : Track} (h : s.track k = some tr) :
    s.discardTrack k = (s.bumpBy (.track k .purged) tr.held).setTrack k none := by
  unfold State.discardTrack
  simp only [h]
  rfl

theorem discardTrack_frame (s : State) (k : Nat) :
    s.discardTrack k = { s with tracks := (s.discardTrack k).tracks, live := (s.discardTrack k).live } := by
  cases h : s.track k with
  | none =>
    have hstands : s.discardTrack k = s := by
      unfold State.discardTrack
      simp only [h]
    rw [hstands]
  | some tr =>
    rw [discardTrack_bound h]
    rfl

theorem discardTrack_counts (s : State) (k : Nat) : SameCounts s (s.discardTrack k) [.track k .purged] := by
  cases h : s.track k with
  | none =>
    have hstands : s.discardTrack k = s := by
      unfold State.discardTrack
      simp only [h]
    rw [hstands]
    exact SameCounts.refl s _
  | some tr =>
    rw [discardTrack_bound h]
    exact (countedBy_bumpBy s (.track k .purged) tr.held).others

theorem discardTrack_purged {s : State} {k : Nat} {tr : Track} (h : s.track k = some tr) :
    (s.discardTrack k).count (.track k .purged) = min counterMax (s.count (.track k .purged) + tr.held) := by
  rw [discardTrack_bound h]
  exact (countedBy_bumpBy s (.track k .purged) tr.held).counted

/-! ### TRACK UNBIND (R68) -/

/-- The waiting entries of a track withdrawn, and its TRACK ENDED made (R68 steps 1 and 2). -/
def State.endedTrack (s : State) (k : Nat) (tr : Track) : State := (s.withdraw fun e => e.track == some k).endTrack k tr

/-- The track freed with its content, its records and its counts (R68 steps 3 to 5). -/
def State.unbound (s : State) (k : Nat) (tr : Track) : State :=
  (((s.endedTrack k tr).discardTrack k).releaseRecords fun r => r.track == k).setTrackMembers k (PerBand.all 0)

theorem unbindTrack_eq (s : State) (k : Nat) (tr : Track) : s.unbindTrack k tr =
    (if (s.unbound k tr).lifecycle tr.auditorium = .ready then
      (s.unbound k tr).setLifecycle tr.auditorium ((s.unbound k tr).readyState tr.auditorium)
    else s.unbound k tr).updateBeacon tr.auditorium := rfl

theorem sends_endedTrack (s : State) (k : Nat) (tr : Track) : Sends s (s.endedTrack k tr) :=
  (sends_withdraw s _).trans (sends_endTrack _ k tr)

section
variable {s : State} {k : Nat} {tr : Track}

theorem endedTrack_sent (s : State) (k : Nat) (tr : Track) :
    SentEach k tr (s.hears k tr) .caption (.trackEnded k tr.language tr.variant) none
      (s.withdraw fun e => e.track == some k) (s.endedTrack k tr) := by
  refine ⟨(s.withdraw fun e => e.track == some k).populatedBands k tr, sorted_populatedBands .., fun b => ?_, rfl⟩
  rw [mem_populatedBands]
  obtain ⟨-, hframe⟩ := withdraw_egress s fun e => e.track == some k
  rw [hframe]
  exact Iff.rfl

theorem endedTrack_made (s : State) (k : Nat) (tr : Track) :
    Made k (fun b => if b ∈ (s.withdraw fun e => e.track == some k).populatedBands k tr then 1 else 0) []
      (s.withdraw fun e => e.track == some k) (s.endedTrack k tr) :=
  made_sendToBands ((sorted_populatedBands ..).imp ne_of_lt) _

theorem withdraw_count (s : State) (covers : Entry → Bool) {c : Counter} (h : ∀ a, c ≠ .auditorium a .withdrawn) :
    (s.withdraw covers).count c = s.count c :=
  (bumpWithdrawn_counts (s.egress.waiting.filter covers)
    { s with egress := { s.egress with waiting := s.egress.waiting.filter fun e => !covers e } }).2.1 c h

/-- A counter of neither the pool's work nor ALERTS_SENT stands through the TRACK ENDED frames. -/
theorem endedTrack_count (s : State) (k : Nat) (tr : Track) {c : Counter} (h : c.ofContent = false) :
    (s.endedTrack k tr).count c = s.count c := by
  rw [(endedTrack_made s k tr).stays.otherCounts c h]
  refine withdraw_count s _ fun a hc => ?_
  rw [hc] at h
  exact absurd h (by simp [Counter.ofContent])

theorem endedTrack_trackCount (s : State) (k : Nat) (tr : Track) (d : TrackCounter) :
    (s.endedTrack k tr).count (.track k d) = s.count (.track k d) := by
  rw [(endedTrack_made s k tr).counts d List.not_mem_nil]
  exact withdraw_count s _ fun a hc => nomatch hc

theorem setTrackMembers_memberCount (s : State) (k j : Nat) (b : Band) :
    (s.setTrackMembers k (PerBand.all 0)).memberCount j b = if j = k then 0 else s.memberCount j b := by
  unfold State.memberCount
  rw [State.trackMembers_setTrackMembers]
  split
  · exact PerBand.get_all 0 b
  · rfl

/-- A freed track: what its freeing moves of the state behind its TRACK ENDED frames. -/
theorem unbound_spec (s : State) (k : Nat) (tr : Track) (a : Nat) (hpatrons : s.PatronsCounted) (hk : s.track k = some tr)
    (ha : a = tr.auditorium) (hbounded : s.CountersBounded) (u : State) (hu : s.unbound k tr = u) :
    u = { s.endedTrack k tr with
      tracks := u.tracks, subscriptions := u.subscriptions, members := u.members, live := u.live } ∧
    (∀ j, u.track j = if j = k then none else s.track j) ∧
    (∀ j b, u.memberCount j b = if j = k then 0 else s.memberCount j b) ∧
    (∀ i, u.subscription i = (s.subscription i).filter fun r => !(r.track == k)) ∧
    u.count (.track k .purged) = min counterMax (s.count (.track k .purged) + tr.held) ∧
    u.count (.auditorium a .recordsReleased) = min counterMax (s.count (.auditorium a .recordsReleased) +
      (s.records.filter fun e => e.2.track == k).length) := by
  have hsends := sends_endedTrack s k tr
  have hpurged := endedTrack_trackCount s k tr .purged
  have hreleased := endedTrack_count s k tr (c := .auditorium a .recordsReleased) rfl
  have hunbound : s.unbound k tr = (((s.endedTrack k tr).discardTrack k).releaseRecords fun r =>
    r.track == k).setTrackMembers k (PerBand.all 0) := rfl
  rw [hu] at hunbound
  generalize s.endedTrack k tr = y at *
  have hky : y.track k = some tr := by rw [hsends.track]; exact hk
  have hdframe := discardTrack_frame y k
  have hdtrack := fun j => track_discardTrack y k j
  have hdpurged := discardTrack_purged hky
  have hdcounts := discardTrack_counts y k
  generalize y.discardTrack k = d at *
  have hsub : d.subscriptions = s.subscriptions := by rw [hdframe]; exact hsends.patrons.subscriptions
  have hmem : d.members = s.members := by rw [hdframe]; exact hsends.patrons.members
  have hcanon : Tbl.Wf id none d.subscriptions := hsub ▸ hpatrons.canonical
  have hrecords : d.records = s.records := by rw [records_eq, records_eq, hsub]
  have hgone : ∀ e ∈ d.records.filter (fun e => e.2.track == k), e.2.auditorium = a := fun e he => by
    rw [hrecords, List.mem_filter, beq_iff_eq] at he
    obtain ⟨x, hx, hxa⟩ := hpatrons.bound e he.1
    rw [he.2, hk] at hx
    cases hx
    rw [ha, hxa]
  obtain ⟨hrcounts, hrreleased, hrframe⟩ := releaseEach_spec _ a hgone d
  rw [← releaseRecords_eq d fun r => r.track == k] at hrcounts hrreleased hrframe
  have hrsub := fun i => subscription_releaseRecords hcanon (fun r => r.track == k) i
  have hrtracks := releaseRecords_tracks d fun r => r.track == k
  have hrmembers := releaseRecords_members d fun r => r.track == k
  generalize (d.releaseRecords fun r => r.track == k) = w at *
  have hsetframe : w.setTrackMembers k (PerBand.all 0) = { w with
    members := (w.setTrackMembers k (PerBand.all 0)).members } := rfl
  rw [← hunbound] at hsetframe
  have hucount : ∀ c, u.count c = w.count c := fun c => by rw [hsetframe]; rfl
  refine ⟨?_, fun j => ?_, fun j b => ?_, fun i => ?_, ?_, ?_⟩
  · have htr : u.tracks = d.tracks := by rw [hsetframe]; exact hrtracks
    have hsb : u.subscriptions = w.subscriptions := by rw [hsetframe]
    have hlv : u.live = w.live := by rw [hsetframe]
    rw [htr, hsb, hlv]
    exact hsetframe.trans (by rw [hrframe, hdframe])
  · have htr : u.track j = d.track j := by
      rw [hsetframe]
      exact congrArg (fun l => Tbl.get none l j) hrtracks
    rw [htr, hdtrack, hsends.track]
  · rw [hunbound, setTrackMembers_memberCount, memberCount_of_eq (hrmembers.trans hmem)]
  · rw [hunbound]
    exact (hrsub i).trans (by rw [subscription_of_eq hsub])
  · rw [hucount, hrcounts _ (by simp), hdpurged, hpurged]
  · have hd : d.count (.auditorium a .recordsReleased) = s.count (.auditorium a .recordsReleased) :=
      (hdcounts _ (by simp)).trans hreleased
    rw [hucount, hrreleased (hd ▸ hbounded _), hd, hrecords]

/-- The auditorium after an unbind: READY falls back to PREPARING with its last track, and any other state stands (R7). -/
theorem unbindTrack_auditorium (hauds : (s.unbound k tr).auditoriums = s.auditoriums) (j : Nat) :
    (s.unbindTrack k tr).auditorium j =
      if j = tr.auditorium ∧ s.lifecycle tr.auditorium = .ready then
        { s.auditorium tr.auditorium with lifecycle := (s.unbound k tr).readyState tr.auditorium }
      else s.auditorium j := by
  have haud : ∀ i, (s.unbound k tr).auditorium i = s.auditorium i := fun i =>
    congrArg (fun l => Tbl.get Auditorium.initial l i) hauds
  have hlife : (s.unbound k tr).lifecycle tr.auditorium = s.lifecycle tr.auditorium := by
    unfold State.lifecycle
    rw [haud]
  have hbeacon : ∀ w : State, (w.updateBeacon tr.auditorium).auditorium j = w.auditorium j := fun w => by
    rw [updateBeacon_eq]
    rfl
  rw [unbindTrack_eq, hbeacon, hlife]
  by_cases hl : s.lifecycle tr.auditorium = .ready
  · rw [if_pos hl, State.auditorium_setLifecycle, haud, haud]
    simp only [hl, and_true]
  · rw [if_neg hl, if_neg fun h => hl h.2, haud]

theorem unbindTrack_frame (s : State) (k : Nat) (tr : Track) : s.unbindTrack k tr = { s.unbound k tr with
    auditoriums := (s.unbindTrack k tr).auditoriums, beacons := (s.unbindTrack k tr).beacons } := by
  rw [unbindTrack_eq]
  generalize s.unbound k tr = u
  by_cases hl : u.lifecycle tr.auditorium = .ready
  · rw [if_pos hl]
    have hset : u.setLifecycle tr.auditorium (u.readyState tr.auditorium) =
        { u with auditoriums := (u.setLifecycle tr.auditorium (u.readyState tr.auditorium)).auditoriums } := rfl
    generalize u.setLifecycle tr.auditorium (u.readyState tr.auditorium) = l at hset
    have hbeacon := updateBeacon_eq l tr.auditorium
    generalize l.updateBeacon tr.auditorium = w at hbeacon
    rw [hbeacon, hset]
  · rw [if_neg hl]
    have hbeacon := updateBeacon_eq u tr.auditorium
    generalize u.updateBeacon tr.auditorium = w at hbeacon
    rw [hbeacon]

theorem unbindTrack_beacon (hbeacons : (s.unbound k tr).beacons = s.beacons) {j : Nat} (hj : j ≠ tr.auditorium) :
    (s.unbindTrack k tr).beacon j = s.beacon j := by
  rw [unbindTrack_eq, beacon_updateBeacon_other _ hj]
  generalize s.unbound k tr = u at hbeacons
  by_cases hl : u.lifecycle tr.auditorium = .ready
  · rw [if_pos hl]
    exact beacon_of_eq (t := u) hbeacons j
  · rw [if_neg hl]
    exact beacon_of_eq hbeacons j

/-- Once the track is FREE, its auditorium is READY just where another track is bound to it. -/
theorem unbound_readyState (htracks : ∀ j, (s.unbound k tr).track j = if j = k then none else s.track j) (a : Nat) :
    ((∀ j ∈ s.boundTracks a, j = k) → (s.unbound k tr).readyState a = .preparing) ∧
      ((∃ j ∈ s.boundTracks a, j ≠ k) → (s.unbound k tr).readyState a = .ready) := by
  refine ⟨fun hall => ?_, fun ⟨j, hj, hne⟩ => readyState_bound (k := j) ?_⟩
  · rcases readyState_cases (s.unbound k tr) a with ⟨-, h⟩ | ⟨hne, -⟩
    · exact h
    · obtain ⟨j, hj⟩ := List.exists_mem_of_ne_nil _ hne
      obtain ⟨hle, x, hx, hxa⟩ := mem_boundTracks.mp hj
      rw [htracks] at hx
      by_cases hjk : j = k
      · rw [if_pos hjk] at hx
        exact nomatch hx
      · rw [if_neg hjk] at hx
        exact absurd (hall j (mem_boundTracks.mpr ⟨hle, x, hx, hxa⟩)) hjk
  · obtain ⟨hle, x, hx, hxa⟩ := mem_boundTracks.mp hj
    exact mem_boundTracks.mpr ⟨hle, x, by rw [htracks, if_neg hne]; exact hx, hxa⟩

theorem runTrackUnbind_taken {q : Queued} (hle : argument q.items 1 ≤ 95) (hk : s.track (argument q.items 1) = some tr)
    (hl : s.lifecycle tr.auditorium = .ready ∨ s.lifecycle tr.auditorium = .paused) :
    runTrackUnbind q s = (s.unbindTrack (argument q.items 1) tr, .done false []) := by
  have hunbinds : (s.lifecycle tr.auditorium).unbinds = true := by
    rcases hl with h | h <;> rw [h] <;> rfl
  simp only [runTrackUnbind, if_neg (Nat.not_lt.mpr hle), hk, hunbinds, if_true]

end

/-- Settles O55: a TRACK UNBIND that is taken. -/
theorem trackUnbindFrees : Obligations.TrackUnbindFrees := by
  rintro s t q rest k tr _ hheads rfl hle hk rfl hpatrons hbounded hl
  have hheads' := heads_advance hheads t
  have hpatrons' : (s.advance t).PatronsCounted := counted_of_same (s := s) (s' := s.advance t) rfl ⟨rfl, rfl⟩ hpatrons
  have hrun := runTrackUnbind_taken (s := s.advance t) hle hk hl
  have hsends := sends_endedTrack (s.advance t) (argument q.items 1) tr
  have hsent := endedTrack_sent (s.advance t) (argument q.items 1) tr
  have hmade := endedTrack_made (s.advance t) (argument q.items 1) tr
  obtain ⟨hxegress, hxframe⟩ := withdraw_egress (s.advance t) fun e => e.track == some (argument q.items 1)
  obtain ⟨huframe, hutracks, humembers, husub, hupurged, hureleased⟩ := unbound_spec (s.advance t) (argument q.items 1) tr
    tr.auditorium hpatrons' hk rfl hbounded _ rfl
  have huauds : ((s.advance t).unbound (argument q.items 1) tr).auditoriums = s.auditoriums := by
    rw [huframe]; exact hsends.shows.auditoriums
  have hubeacons : ((s.advance t).unbound (argument q.items 1) tr).beacons = s.beacons := by
    rw [huframe]; exact hsends.shows.beacons
  have haud := unbindTrack_auditorium (s := s.advance t) huauds
  have hbeacon := fun j hj => unbindTrack_beacon (s := s.advance t) (j := j) hubeacons hj
  have hready := unbound_readyState hutracks tr.auditorium
  have hvframe := unbindTrack_frame (s.advance t) (argument q.items 1) tr
  have hfrees := frees_unbindTrack (s.advance t) (argument q.items 1) tr
  generalize (s.advance t).endedTrack (argument q.items 1) tr = y at *
  generalize (s.advance t).unbound (argument q.items 1) tr = u at *
  generalize (s.advance t).unbindTrack (argument q.items 1) tr = v at *
  generalize ((s.advance t).withdraw fun e => e.track == some (argument q.items 1)) = x at *
  have hvegress : v.egress = y.egress := by rw [hvframe, huframe]
  have hvseq : v.sequences = y.sequences := by rw [hvframe, huframe]
  have hvcount : ∀ c, v.count c = u.count c := fun c => by rw [hvframe]; rfl
  have hvtrack : ∀ j, v.track j = u.track j := fun j => by rw [hvframe]; rfl
  have hvmember : ∀ j b, v.memberCount j b = u.memberCount j b := fun j b => by rw [hvframe]; rfl
  have hvsub : ∀ i, v.subscription i = (s.subscription i).filter fun r => !(r.track == argument q.items 1) := fun i => by
    rw [hvframe]; exact husub i
  refine ⟨v, _, rfl, runDone_runHead hheads' hrun hfrees.queue, ?_, fun j hj => ?_, fun b => ?_, fun j b hj => ?_,
    fun i r hi => ?_, fun i hi => ?_, fun b => ?_, ⟨x, y, hxframe, ?_, hsent, hvegress, hvseq, ?_, ?_⟩,
    fun e he hek => ?_, ?_, ?_, fun j hj => ⟨?_, hbeacon j hj⟩, fun hlr hall => ?_, fun hor => ?_, ?_, ?_,
    SameClassifier.trans (b := s.advance t) ⟨rfl, rfl, rfl⟩ hfrees.classifier,
    SamePorts.trans (b := s.advance t) ⟨rfl, rfl, rfl, rfl, rfl⟩ hfrees.ports, hfrees.queue, hfrees.controllers, hfrees.deliveryOut, hfrees.engineTime⟩
  · rw [hvtrack, hutracks, if_pos rfl]
  · rw [hvtrack, hutracks, if_neg hj]
    rfl
  · rw [hvmember, humembers, if_pos rfl]
  · rw [hvmember, humembers, if_neg hj]
    rfl
  · rw [hvsub, hi, Option.filter_some]
    by_cases hr : r.track = argument q.items 1
    · rw [if_pos hr, if_neg (by simp [hr])]
    · rw [if_neg hr, if_pos (by simp [hr])]
  · rw [hvsub, hi]
    rfl
  · have hnext : v.nextSeq (argument q.items 1) b = y.nextSeq (argument q.items 1) b := by
      unfold State.nextSeq State.trackSequences
      rw [hvseq]
    have hsame : x.nextSeq (argument q.items 1) b = s.nextSeq (argument q.items 1) b := by
      rw [hxframe]; rfl
    rw [hnext, ← hsame]
    exact hsent.frames b
  · rw [hxegress]
    rfl
  · rw [hvframe, huframe]
  · rw [hvframe, huframe]
  · rw [hvegress] at he
    have hlater : s.egress.nextOrder = x.egress.nextOrder := by rw [hxegress]; rfl
    rcases hmade.stays.made e he with hold | hnew
    · rw [hxegress] at hold
      have := (List.mem_filter.mp hold).2
      rw [hek] at this
      simp at this
    · rw [hlater]
      exact hnew
  · rw [hvcount, hupurged]
    unfold Track.held
    rw [← Nat.add_assoc, ← Nat.add_assoc]
    rfl
  · rw [hvcount, hureleased]
    rfl
  · rw [haud, if_neg fun h => hj h.1]
    rfl
  · rw [haud, if_pos ⟨rfl, hlr⟩, hready.1 hall]
    rfl
  · rw [haud]
    by_cases hlr : s.lifecycle tr.auditorium = .ready
    · rcases hor with hp | hother
      · exact absurd (hlr.symm.trans hp) (by decide)
      · rw [if_pos ⟨rfl, hlr⟩, hready.2 hother, ← hlr]
        rfl
    · rw [if_neg fun h => hlr h.2]
      rfl
  · rw [hvframe, huframe]
    exact hsends.shows.clocks
  · rw [hvframe, huframe]
    exact hsends.shows.checks

end Sys2Proof.Machine

/-! PROOFS. AUDITORIUM CLOSE: the teardown, the offer of SHOW ENDED and its refusal (O50). -/

namespace Sys2Proof.Machine

/-! ### The steps of the teardown (R18) -/

/-- Watches and beacon cancelled, and every waiting entry of the auditorium withdrawn (R18 steps 1 and 2). -/
def State.silenced (s : State) (a : Nat) : State :=
  ((s.setClock a (s.clock a).cancelWatches).setBeacon a none).withdraw fun e => e.auditorium == a

/-- Tracks discarded one after the other. -/
def State.discardEach (s : State) (ks : List Nat) : State := ks.foldl (fun s k => s.discardTrack k) s

/-- The member counts of tracks made 0. -/
def State.zeroEach (s : State) (ks : List Nat) : State := ks.foldl (fun s k => s.setTrackMembers k (PerBand.all 0)) s

/-- The teardown before SHOW ENDED is offered (R18 steps 1 to 5). -/
def State.torn (s : State) (a : Nat) : State :=
  ((((s.silenced a).dropCheck a).discardEach (s.boundTracks a)).releaseRecords fun r => r.auditorium == a).zeroEach
    (s.boundTracks a)

/-- Withdrawals of one auditorium's entries count on that auditorium alone. -/
theorem bumpWithdrawn_same (es : List Entry) (a : Nat) (h : ∀ e ∈ es, e.auditorium = a) (s : State) :
    SameCounts s (es.foldl (fun s e => s.bumpAuditorium e.auditorium .withdrawn) s) [.auditorium a .withdrawn] := by
  induction es generalizing s with
  | nil => exact SameCounts.refl s _
  | cons e es ih =>
    have hstep := (counted_bump s (.auditorium e.auditorium .withdrawn)).others
    rw [h e (List.mem_cons_self ..)] at hstep
    have hrest := ih (fun x hx => h x (List.mem_cons_of_mem e hx)) (s.bumpAuditorium e.auditorium .withdrawn)
    rw [h e (List.mem_cons_self ..)] at hrest
    rw [List.foldl_cons, h e (List.mem_cons_self ..)]
    exact hstep.trans hrest

theorem silenced_spec (s : State) (a : Nat) (u : State) (hu : s.silenced a = u) :
    u = { s with clocks := u.clocks, beacons := u.beacons, egress := u.egress, live := u.live } ∧
    u.clock a = { s.clock a with holdoverDeadline := none, lostDeadline := none } ∧ u.beacon a = none ∧
    OtherShows a s u ∧
    u.egress = { s.egress with waiting := s.egress.waiting.filter fun e => e.auditorium != a } ∧
    SameCounts s u [.auditorium a .withdrawn] ∧
    (s.CountersBounded → u.count (.auditorium a .withdrawn) = min counterMax (s.count (.auditorium a .withdrawn) +
      (s.egress.waiting.filter fun e => e.auditorium == a).length)) := by
  have hclock := State.clock_setClock_same s a (s.clock a).cancelWatches
  have hbeacon := State.beacon_setBeacon (s.setClock a (s.clock a).cancelWatches) a none a
  have hothers : OtherShows a s ((s.setClock a (s.clock a).cancelWatches).setBeacon a none) :=
    ((WithinShow.setClock (p := fun _ => True) (cs := []) (fs := []) _).trans (WithinShow.setBeacon _)).shows
  have hsilenced : s.silenced a = ((s.setClock a (s.clock a).cancelWatches).setBeacon a none).withdraw
    fun e => e.auditorium == a := rfl
  have hframe : (s.setClock a (s.clock a).cancelWatches).setBeacon a none = { s with
    clocks := ((s.setClock a (s.clock a).cancelWatches).setBeacon a none).clocks
    beacons := ((s.setClock a (s.clock a).cancelWatches).setBeacon a none).beacons } := rfl
  have hclock' : ((s.setClock a (s.clock a).cancelWatches).setBeacon a none).clock a = (s.clock a).cancelWatches := hclock
  rw [if_pos rfl] at hbeacon
  rw [hu] at hsilenced
  generalize (s.setClock a (s.clock a).cancelWatches).setBeacon a none = x at *
  obtain ⟨hegress, hxframe⟩ := withdraw_egress x fun e => e.auditorium == a
  have hsends := sends_withdraw x fun e => e.auditorium == a
  have hsame := bumpWithdrawn_same (x.egress.waiting.filter fun e => e.auditorium == a) a
    (fun e he => by simpa using (List.mem_filter.mp he).2)
    { x with egress := { x.egress with waiting := x.egress.waiting.filter fun e => !(e.auditorium == a) } }
  have hcount := (bumpWithdrawn_counts (x.egress.waiting.filter fun e => e.auditorium == a)
    { x with egress := { x.egress with waiting := x.egress.waiting.filter fun e => !(e.auditorium == a) } }).1 a
  change SameCounts x (x.withdraw fun e => e.auditorium == a) _ at hsame
  change x.CountersBounded → (x.withdraw fun e => e.auditorium == a).count _ = min counterMax (x.count _ + _) at hcount
  rw [← hsilenced] at hegress hxframe hsame hcount hsends
  have hxe : x.egress = s.egress := by rw [hframe]
  have hxc : ∀ c, x.count c = s.count c := fun c => by rw [hframe]; rfl
  refine ⟨?_, (hsends.shows.clock a).trans hclock', (hsends.shows.beacon a).trans hbeacon,
    hothers.trans (hsends.shows.others a), ?_, fun c hc => (hsame c hc).trans (hxc c), fun hb => ?_⟩
  · have hc : u.clocks = x.clocks := hsends.shows.clocks
    have hb : u.beacons = x.beacons := hsends.shows.beacons
    rw [hc, hb]
    rw [hxframe, hframe]
  · rw [hegress, hxe]
    rfl
  · rw [hcount fun c => by rw [hxc]; exact hb c, hxc, hxe, List.filter_filter]
    simp only [Bool.and_self]

theorem discardEach_frame (ks : List Nat) (s : State) :
    s.discardEach ks = { s with tracks := (s.discardEach ks).tracks, live := (s.discardEach ks).live } := by
  induction ks generalizing s with
  | nil => rfl
  | cons k ks ih =>
    have hstep : s.discardEach (k :: ks) = (s.discardTrack k).discardEach ks := rfl
    have hrest := ih (s.discardTrack k)
    have hfirst := discardTrack_frame s k
    rw [hstep]
    generalize s.discardTrack k = x at *
    generalize x.discardEach ks = y at *
    rw [hrest, hfirst]

theorem discardEach_counts (ks : List Nat) (s : State) :
    SameCounts s (s.discardEach ks) (ks.map fun k => .track k .purged) := by
  induction ks generalizing s with
  | nil => exact SameCounts.refl s _
  | cons k ks ih =>
    have hfirst := (discardTrack_counts s k).mono (m := (k :: ks).map fun k => .track k .purged) (by simp)
    exact hfirst.trans ((ih (s.discardTrack k)).mono (List.subset_cons_self ..))

theorem discardEach_purged {ks : List Nat} (hnodup : ks.Nodup) (s : State) {k : Nat} (hk : k ∈ ks) {tr : Track}
    (ht : s.track k = some tr) :
    (s.discardEach ks).count (.track k .purged) = min counterMax (s.count (.track k .purged) + tr.held) := by
  induction ks generalizing s with
  | nil => exact nomatch hk
  | cons j ks ih =>
    obtain ⟨hj, hrest⟩ := List.nodup_cons.mp hnodup
    have hstep : s.discardEach (j :: ks) = (s.discardTrack j).discardEach ks := rfl
    rw [hstep]
    by_cases hkj : k = j
    · subst hkj
      rw [discardEach_counts ks (s.discardTrack k) _ (by simpa using hj), discardTrack_purged ht]
    · have hmem : k ∈ ks := (List.mem_cons.mp hk).resolve_left hkj
      rw [ih hrest (s.discardTrack j) hmem (by rw [track_discardTrack, if_neg hkj]; exact ht),
        discardTrack_counts s j _ (by simpa using hkj)]

theorem zeroEach_frame (ks : List Nat) (s : State) : s.zeroEach ks = { s with members := (s.zeroEach ks).members } := by
  induction ks generalizing s with
  | nil => rfl
  | cons k ks ih => exact (ih (s.setTrackMembers k (PerBand.all 0))).trans rfl

theorem dropCheck_spec (s : State) (a : Nat) (u : State) (hu : s.dropCheck a = u) :
    u = { s with checks := u.checks } ∧ OtherShows a s u ∧ ((s.check a).running = false → u.check a = s.check a) ∧
    ((s.check a).running = true → (u.check a).running = false ∧ (u.check a).outcome = .dropped ∧
      ∀ k, (s.check a).track = some k → (u.check a).devices = (bands.map (s.memberCount k)).sum ∧
        (u.check a).highest = s.highestScore k) := by
  subst hu
  cases hr : (s.check a).running with
  | false =>
    have hstands : s.dropCheck a = s := if_neg (by rw [hr]; decide)
    rw [hstands]
    exact ⟨rfl, (SameShows.refl s).others a, fun _ => rfl, fun h => absurd h (by decide)⟩
  | true =>
    have hdropped : s.dropCheck a = s.endCheck a .dropped := if_pos hr
    obtain ⟨hended, hresults⟩ := endCheck_check s a .dropped
    rw [hdropped]
    refine ⟨rfl, (WithinShow.setCheck (p := fun _ => True) (cs := []) (fs := []) _).shows, fun h => absurd h (by decide),
      fun _ => ⟨?_, ?_, hresults⟩⟩
    · rw [hended]
    · rw [hended]

/-- A closing auditorium torn down: everything that R18 takes, and nothing else. -/
structure Torn (a : Nat) (s u : State) : Prop where
  clock : u.clock a = { s.clock a with holdoverDeadline := none, lostDeadline := none }
  beacon : u.beacon a = none
  idle : (s.check a).running = false → u.check a = s.check a
  dropped : (s.check a).running = true → (u.check a).running = false ∧ (u.check a).outcome = .dropped ∧
    ∀ k, (s.check a).track = some k → (u.check a).devices = (bands.map (s.memberCount k)).sum ∧
      (u.check a).highest = s.highestScore k
  egress : u.egress = { s.egress with waiting := s.egress.waiting.filter fun e => e.auditorium != a }
  freed : ∀ k, u.track k = if k ∈ s.boundTracks a then none else s.track k
  members : ∀ k b, u.memberCount k b = if k ∈ s.boundTracks a then 0 else s.memberCount k b
  records : ∀ i, u.subscription i = (s.subscription i).filter fun r => !(r.auditorium == a)
  others : OtherShows a s u
  frame : u = { s with
    clocks := u.clocks, beacons := u.beacons, checks := u.checks, egress := u.egress, tracks := u.tracks
    subscriptions := u.subscriptions, members := u.members, live := u.live }
  counts : SameCounts s u ([.auditorium a .withdrawn, .auditorium a .recordsReleased] ++
    (s.boundTracks a).map fun k => .track k .purged)
  withdrawn : s.CountersBounded → u.count (.auditorium a .withdrawn) = min counterMax
    (s.count (.auditorium a .withdrawn) + (s.egress.waiting.filter fun e => e.auditorium == a).length)
  released : s.CountersBounded → u.count (.auditorium a .recordsReleased) = min counterMax
    (s.count (.auditorium a .recordsReleased) + (s.records.filter fun e => e.2.auditorium == a).length)
  purged : ∀ k ∈ s.boundTracks a, ∀ tr, s.track k = some tr →
    u.count (.track k .purged) = min counterMax (s.count (.track k .purged) + tr.held)

theorem torn_torn {s : State} (a : Nat) (hpatrons : s.PatronsCounted) : Torn a s (s.torn a) := by
  have htorn : s.torn a = ((((s.silenced a).dropCheck a).discardEach (s.boundTracks a)).releaseRecords fun r =>
    r.auditorium == a).zeroEach (s.boundTracks a) := rfl
  generalize s.torn a = u at *
  obtain ⟨hpframe, hpclock, hpbeacon, hpothers, hpegress, hpcounts, hpwithdrawn⟩ := silenced_spec s a _ rfl
  generalize s.silenced a = p at *
  obtain ⟨hcframe, hcothers, hcidle, hcdropped⟩ := dropCheck_spec p a _ rfl
  generalize p.dropCheck a = c at *
  have hdframe := discardEach_frame (s.boundTracks a) c
  have hdcounts := discardEach_counts (s.boundTracks a) c
  have hdpurged := fun k hk tr ht => discardEach_purged (nodup_boundTracks s a) c (k := k) hk (tr := tr) ht
  have hdfreed : Freed c (c.discardEach (s.boundTracks a)) (s.boundTracks a) := freed_discards _ c
  generalize c.discardEach (s.boundTracks a) = d at *
  have hsub : d.subscriptions = s.subscriptions := by rw [hdframe, hcframe, hpframe]
  have hmem : d.members = s.members := by rw [hdframe, hcframe, hpframe]
  have hcanon : Tbl.Wf id none d.subscriptions := hsub ▸ hpatrons.canonical
  have hrecords : d.records = s.records := by rw [records_eq, records_eq, hsub]
  obtain ⟨hrcounts, hrreleased, hrframe⟩ := releaseEach_spec (d.records.filter fun e => e.2.auditorium == a) a
    (fun e he => by simpa using (List.mem_filter.mp he).2) d
  rw [← releaseRecords_eq d fun r => r.auditorium == a] at hrcounts hrreleased hrframe
  have hrsub := fun i => subscription_releaseRecords hcanon (fun r => r.auditorium == a) i
  generalize (d.releaseRecords fun r => r.auditorium == a) = w at *
  have hzframe := zeroEach_frame (s.boundTracks a) w
  have hzmember : ∀ j b, (w.zeroEach (s.boundTracks a)).memberCount j b =
    if j ∈ s.boundTracks a then 0 else w.memberCount j b := memberCount_zeroed (s.boundTracks a) w
  rw [← htorn] at hzframe hzmember
  have hclocks : u.clocks = p.clocks := by rw [hzframe, hrframe, hdframe, hcframe]
  have hbeacons : u.beacons = p.beacons := by rw [hzframe, hrframe, hdframe, hcframe]
  have hauds : u.auditoriums = p.auditoriums := by rw [hzframe, hrframe, hdframe, hcframe]
  have hchecks : u.checks = c.checks := by rw [hzframe, hrframe, hdframe]
  have hegress : u.egress = p.egress := by rw [hzframe, hrframe, hdframe, hcframe]
  have htracks : u.tracks = d.tracks := by rw [hzframe, hrframe]
  have hucount : ∀ c, u.count c = w.count c := fun c => by rw [hzframe]; rfl
  have hccount : ∀ e, c.count e = p.count e := fun e => by rw [hcframe]; rfl
  have hpcheck : p.check a = s.check a := check_of_eq (by rw [hpframe]) a
  have hpmember : p.memberCount = s.memberCount := by rw [hpframe]; rfl
  have hphighest : p.highestScore = s.highestScore := by rw [hpframe]; rfl
  have hctrack : ∀ j, c.track j = s.track j := fun j => by rw [hcframe, hpframe]; rfl
  have hwmember : ∀ j b, w.memberCount j b = s.memberCount j b := fun j b =>
    memberCount_of_eq (by rw [hrframe]; exact hmem) j b
  have hucheck : u.check a = c.check a := check_of_eq hchecks a
  rw [hpcheck] at hcidle hcdropped
  rw [hpmember, hphighest] at hcdropped
  refine ⟨?_, (beacon_of_eq hbeacons a).trans hpbeacon, fun h => hucheck.trans (hcidle h), ?_, hegress.trans hpegress,
    fun k => ?_, fun k b => (hzmember k b).trans (by rw [hwmember]), fun i => ?_, ?_, ?_, fun e he => ?_, fun hb => ?_,
    fun hb => ?_, fun k hk tr ht => ?_⟩
  · rw [← hpclock]
    unfold State.clock
    rw [hclocks]
  · rw [hucheck]
    exact hcdropped
  · have hk : u.track k = d.track k := by unfold State.track; rw [htracks]
    rw [hk, hdfreed, hctrack]
  · rw [subscription_of_eq (s := w) (by rw [hzframe]), hrsub, subscription_of_eq hsub]
  · have hlast : OtherShows a c u := SameShows.others
      ⟨by rw [hzframe, hrframe, hdframe], by rw [hzframe, hrframe, hdframe], hchecks, by rw [hzframe, hrframe, hdframe]⟩ a
    exact (hpothers.trans hcothers).trans hlast
  · have hsubs : u.subscriptions = w.subscriptions := by rw [hzframe]
    have hlive : u.live = w.live := by rw [hzframe]
    rw [hclocks, hbeacons, hchecks, hegress, htracks, hsubs, hlive]
    generalize u.members = m at hzframe
    rw [hzframe, hrframe, hdframe, hcframe, hpframe]
  · simp only [List.cons_append, List.nil_append, List.mem_cons, not_or] at he
    obtain ⟨hwithdrawn, hreleased, hpurged⟩ := he
    rw [hucount, hrcounts e (by simpa using hreleased), hdcounts e hpurged, hccount, hpcounts e (by simpa using hwithdrawn)]
  · rw [hucount, hrcounts _ (by simp), hdcounts _ (by simp), hccount, hpwithdrawn hb]
  · have hd : d.count (.auditorium a .recordsReleased) = s.count (.auditorium a .recordsReleased) := by
      rw [hdcounts _ (by simp), hccount, hpcounts _ (by simp)]
    rw [hucount, hrreleased (hd ▸ hb _), hd, hrecords]
  · rw [hucount, hrcounts _ (by simp), hdpurged k hk tr (by rw [hctrack]; exact ht), hccount, hpcounts _ (by simp)]

/-! ### SHOW ENDED offered or refused (R18 step 6, R19) -/

theorem victim_isSome {g : Egress} (h : ∃ y ∈ g.waiting, y.cls = .catchup ∨ y.cls = .beacon) : g.victim.isSome = true := by
  obtain ⟨y, hy, hcls⟩ := h
  unfold Egress.victim
  cases hc : g.waiting.find? fun e => e.cls == .catchup with
  | some e => rfl
  | none =>
    have hnot := List.find?_eq_none.mp hc y hy
    have hbeacon : y.cls = .beacon := hcls.resolve_left fun h => hnot (by rw [h]; rfl)
    exact List.find?_isSome.mpr ⟨y, hy, by rw [hbeacon]; rfl⟩

section
variable {s : State} {a : Nat}

theorem showEnded_offered (h : s.egress.occupancy < 1024 ∨ ∃ y ∈ s.egress.waiting, y.cls = .catchup ∨ y.cls = .beacon) :
    s.endShow a = s.offer (showEndedEntry a) := by
  have hrefuses : s.refuses (showEndedEntry a) = false := by
    unfold State.refuses
    rcases h with h | h
    · rw [decide_eq_false (show ¬poolSize ≤ s.egress.occupancy from Nat.not_le.mpr h), Bool.false_and]
    · have hevicts : (showEndedEntry a).cls.evicts = true := rfl
      rw [hevicts, victim_isSome h, Bool.and_self, Bool.not_true, Bool.and_false]
  exact if_neg (by rw [hrefuses]; decide)

theorem showEnded_refused (hfull : 1024 ≤ s.egress.occupancy)
    (h : ∀ y ∈ s.egress.waiting, y.cls ≠ .catchup ∧ y.cls ≠ .beacon) :
    s.endShow a = State.closeComplete ((s.bump (.auditorium a .egressFull)).setFlag .egressFull 0) a := by
  have hrefuses : s.refuses (showEndedEntry a) = true := by
    unfold State.refuses
    rw [victim_none h, decide_eq_true (show poolSize ≤ s.egress.occupancy from hfull), Option.isSome_none, Bool.and_false,
      Bool.not_false, Bool.and_self]
  have hoffer := offer_refuse (s := s) (e := showEndedEntry a) (Nat.not_lt.mpr hfull) fun _ => victim_none h
  exact (if_pos hrefuses).trans (congrArg (fun x : State => x.closeComplete a) hoffer)

/-- The end of a close while the content link is DOWN: DARK, and no RESULT. -/
theorem closeComplete_down (hdown : s.contentUp = false) :
    s.closeComplete a = s.setAuditorium a { s.auditorium a with lifecycle := .dark, owed := none } := by
  have hup : ¬(s.setAuditorium a { s.auditorium a with lifecycle := .dark, owed := none }).contentUp = true := by
    rw [State.setAuditorium_contentUp, hdown]
    decide
  unfold State.closeComplete
  cases howed : (s.auditorium a).owed with
  | none => simp only [howed]
  | some o =>
    simp only [howed]
    exact if_neg hup

/-- The end of a close while it is UP: DARK, and the owed RESULT. -/
theorem closeComplete_up {o : Owed} (howed : (s.auditorium a).owed = some o) (hup : s.contentUp = true) :
    s.closeComplete a = State.bump ((s.setAuditorium a { s.auditorium a with lifecycle := .dark, owed := none }).pushContent
      (.result o.station o.tag 0x07 (.done false) s.engineTime [])) (.device .resultsSent) := by
  unfold State.closeComplete
  simp only [howed]
  exact if_pos hup

end

/-- An AUDITORIUM CLOSE whose SHOW ENDED is refused: EGRESS_FULL counted and set, DARK at once, its RESULT sent (R18, R19). -/
theorem refusedClose_spec {v : State} {a e : Nat} {o : Owed} (hfull : 1024 ≤ v.egress.occupancy)
    (hvictims : ∀ y ∈ v.egress.waiting, y.cls ≠ .catchup ∧ y.cls ≠ .beacon) (howed : (v.auditorium a).owed = some o)
    (he : v.engineTime = e) (w : State) (hw : v.endShow a = w) :
    w.auditorium a = { v.auditorium a with lifecycle := .dark, owed := none } ∧ w.flagSet ⟨.egressFull, 0⟩ = true ∧
    (v.contentUp = true → w.contentOut.getLast? = some (.result o.station o.tag 0x07 (.done false) e [])) ∧
    (∀ j, j ≠ a → w.auditorium j = v.auditorium j) ∧ ∃ y z z', Counted v y (.auditorium a .egressFull) ∧
      Flagged ⟨.egressFull, 0⟩ y z ∧ z' = { z with auditoriums := w.auditoriums } ∧ (v.contentUp = false → w = z') ∧
      (v.contentUp = true → Counted { z' with contentOut := z.contentOut ++
        [.result o.station o.tag 0x07 (.done false) e []] } w (.device .resultsSent)) := by
  rw [showEnded_refused hfull hvictims] at hw
  have hy := counted_bump v (.auditorium a .egressFull)
  generalize v.bump (.auditorium a .egressFull) = y at hw hy
  have hz := flagged_setFlag y .egressFull 0
  generalize y.setFlag .egressFull 0 = z at hw hz
  have hzaud : ∀ j, z.auditorium j = v.auditorium j := fun j => by rw [hz.frame, hy.frame]; rfl
  have hzup : z.contentUp = v.contentUp := by rw [hz.frame, hy.frame]
  have hztime : z.engineTime = e := by rw [hz.frame, hy.frame, ← he]
  have hzowed : (z.auditorium a).owed = some o := by rw [hzaud]; exact howed
  have hclosed := closeComplete_auditorium z a
  have hwframe := closeComplete_frame z a
  rw [hw] at hclosed hwframe
  refine ⟨(hclosed a).trans ((if_pos rfl).trans (by rw [hzaud])), ?_, fun hup => ?_,
    fun j hj => (hclosed j).trans ((if_neg hj).trans (hzaud j)), y, z, _, hy, hz, rfl, fun hdown => ?_, fun hup => ?_⟩
  · rw [hwframe]
    exact hz.set
  · have hout := closeComplete_contentOut hzowed (hzup.trans hup)
    rw [hw, hztime] at hout
    rw [hout, List.getLast?_concat]
  · have hset := closeComplete_down (s := z) (a := a) (hzup.trans hdown)
    rw [hw] at hset
    rw [hset]
    rfl
  · have hset := closeComplete_up hzowed (hzup.trans hup)
    rw [hw, hztime] at hset
    have hcount := counted_bump ((z.setAuditorium a { z.auditorium a with lifecycle := .dark, owed := none }).pushContent
      (.result o.station o.tag 0x07 (.done false) e [])) (.device .resultsSent)
    have hauds : w.auditoriums =
        (z.setAuditorium a { z.auditorium a with lifecycle := .dark, owed := none }).auditoriums := by rw [hset]; rfl
    rw [← hset] at hcount
    rw [hauds]
    exact hcount

/-! ### AUDITORIUM CLOSE (R17) -/

section
variable {q : Queued} {s : State}

theorem runAuditoriumClose_bad (h : ¬(1 ≤ argument q.items 1 ∧ argument q.items 1 ≤ 24)) :
    runAuditoriumClose q s = s.refuse .badParameter := if_pos (by rw [auditoriumNumber_eq_false h]; rfl)

theorem runAuditoriumClose_shut (h : 1 ≤ argument q.items 1 ∧ argument q.items 1 ≤ 24)
    (hl : s.lifecycle (argument q.items 1) = .dark ∨ s.lifecycle (argument q.items 1) = .closing) :
    runAuditoriumClose q s = s.refuse .wrongState := (if_neg (auditorium_ranged h)).trans (if_pos (shut_iff.mpr hl))

/-- An auditorium CLOSING, its RESULT owed. -/
def State.closing (s : State) (a : Nat) (o : Owed) : State :=
  s.setAuditorium a { s.auditorium a with lifecycle := .closing, owed := some o }

theorem runAuditoriumClose_closes (h : 1 ≤ argument q.items 1 ∧ argument q.items 1 ≤ 24)
    (hd : s.lifecycle (argument q.items 1) ≠ .dark) (hc : s.lifecycle (argument q.items 1) ≠ .closing) :
    runAuditoriumClose q s =
      (((s.closing (argument q.items 1) ⟨q.tag, q.station⟩).torn (argument q.items 1)).endShow (argument q.items 1), .owed) :=
  (if_neg (auditorium_ranged h)).trans (if_neg fun h => (shut_iff.mp h).elim hd hc)

theorem endRun_owed (s : State) (q : Queued) : s.endRun q .owed =
    { s.bump (.device .commandsRun) with queue := s.queue.drop 1 } := rfl

end

/-- Settles O50: AUDITORIUM CLOSE refused, torn down, and ended with its SHOW ENDED offered or refused. -/
theorem auditoriumCloses : Obligations.AuditoriumCloses := by
  rintro s t q rest _ hheads rfl
  have hheads' := heads_advance hheads t
  refine ⟨fun hbad => ⟨_, rfl, runRefused_runHead hheads' (runAuditoriumClose_bad hbad)⟩,
    fun h1 h24 hl => ⟨_, rfl, runRefused_runHead hheads' (runAuditoriumClose_shut ⟨h1, h24⟩ hl)⟩,
    fun ended h1 h24 hd hc hpatrons hended => ?_⟩
  have hrun := runAuditoriumClose_closes (s := s.advance t) ⟨h1, h24⟩ hd hc
  have hexec := runHead_eq hheads' runAuditoriumClose
  rw [hrun] at hexec
  have hpatrons' : ((s.advance t).closing (argument q.items 1) ⟨q.tag, q.station⟩).PatronsCounted :=
    counted_of_same (s := s) rfl ⟨rfl, rfl⟩ hpatrons
  have haud := State.auditorium_setAuditorium (s.advance t) (argument q.items 1)
    { s.auditorium (argument q.items 1) with lifecycle := .closing, owed := some ⟨q.tag, q.station⟩ }
  have hothers : OtherShows (argument q.items 1) s ((s.advance t).closing (argument q.items 1) ⟨q.tag, q.station⟩) :=
    (advance_others s t _).trans (WithinShow.setAuditorium (p := fun _ => True) (cs := []) (fs := []) _).shows
  have htorn := torn_torn (argument q.items 1) hpatrons'
  have hcloses : (s.advance t).setAuditorium (argument q.items 1)
      { s.auditorium (argument q.items 1) with lifecycle := .closing, owed := some ⟨q.tag, q.station⟩ } =
        (s.advance t).closing (argument q.items 1) ⟨q.tag, q.station⟩ := rfl
  have hframe : (s.advance t).closing (argument q.items 1) ⟨q.tag, q.station⟩ = { s.advance t with
    auditoriums := ((s.advance t).closing (argument q.items 1) ⟨q.tag, q.station⟩).auditoriums } := rfl
  rw [hcloses] at haud
  generalize hv : State.torn ((s.advance t).closing (argument q.items 1) ⟨q.tag, q.station⟩) (argument q.items 1) = v at *
  have hvauds : v.auditoriums = ((s.advance t).closing (argument q.items 1) ⟨q.tag, q.station⟩).auditoriums := by
    rw [htorn.frame]
  have hvaud : ∀ j, v.auditorium j = _ := fun j => (congrArg (fun l => Tbl.get Auditorium.initial l j) hvauds).trans (haud j)
  have hvself : v.auditorium (argument q.items 1) = { s.auditorium (argument q.items 1) with
    lifecycle := .closing, owed := some ⟨q.tag, q.station⟩ } := (hvaud _).trans (if_pos rfl)
  have hvup : v.contentUp = s.contentUp := by rw [htorn.frame]; rfl
  have hvtime : v.engineTime = max s.engineTime t := by rw [htorn.frame]; rfl
  have hvqueue : v.queue = s.queue := by rw [htorn.frame]; rfl
  have hwqueue : (v.endShow (argument q.items 1)).queue = q :: rest :=
    ((works_endShow v _).queue.trans hvqueue).trans hheads.queue
  have hentry : showEndedEntry (argument q.items 1) = ended := hended.symm
  rw [endRun_owed, hwqueue, List.drop_succ_cons, List.drop_zero] at hexec
  have hbounded : s.CountersBounded →
    State.CountersBounded ((s.advance t).closing (argument q.items 1) ⟨q.tag, q.station⟩) := id
  refine ⟨v, v.endShow (argument q.items 1), _, _, congrArg Host.Outcome.next hexec, hvself, htorn.clock, htorn.beacon,
    htorn.idle, htorn.dropped, htorn.egress, fun k hk => ⟨(htorn.freed k).trans (if_pos hk), fun b =>
      (htorn.members k b).trans (if_pos hk)⟩, fun k hk => ⟨(htorn.freed k).trans (if_neg hk), fun b =>
        (htorn.members k b).trans (if_neg hk)⟩, fun i r hi => ?_, fun i hi => ?_, hothers.trans htorn.others, ?_,
    htorn.counts, fun hb => ⟨htorn.withdrawn (hbounded hb), htorn.released (hbounded hb), fun k hk tr ht => ?_⟩,
    fun hroom => (showEnded_offered hroom).trans (by rw [hentry]), fun hfull hvictims => ?_, counted_bump .., rfl⟩
  · refine (htorn.records i).trans ?_
    have hi' : ((s.advance t).closing (argument q.items 1) ⟨q.tag, q.station⟩).subscription i = some r := hi
    rw [hi', Option.filter_some]
    by_cases hr : r.auditorium = argument q.items 1
    · rw [if_pos hr, if_neg (by simp [hr])]
    · rw [if_neg hr, if_pos (by simp [hr])]
  · refine (htorn.records i).trans ?_
    have hi' : ((s.advance t).closing (argument q.items 1) ⟨q.tag, q.station⟩).subscription i = none := hi
    rw [hi']
    rfl
  · rw [hvauds]
    exact htorn.frame
  · have hpurged := htorn.purged k hk tr ht
    unfold Track.held at hpurged
    rw [← Nat.add_assoc, ← Nat.add_assoc] at hpurged
    exact hpurged
  · have howed : (v.auditorium (argument q.items 1)).owed = some ⟨q.tag, q.station⟩ := by rw [hvself]
    obtain ⟨hdark, hflag, hresult, hrest, hsteps⟩ := refusedClose_spec hfull hvictims howed hvtime _ rfl
    rw [hvup] at hresult hsteps
    refine ⟨?_, hflag, hresult, fun j hj => (hrest j hj).trans ((hvaud j).trans (if_neg hj)), hsteps⟩
    rw [hdark, hvself]

end Sys2Proof.Machine
